-- ==== Sys2Proof/Word.lean ====
section
/-! DEFINITION. The word types of the TZ-2880 (spec 00 R4, 01 R8, 02 R28): bytes, 32-bit vector
registers, 64-bit scalar registers and 96-bit instruction words. -/

namespace Sys2Proof

/-- One byte of memory (R4). -/
abbrev Byte := BitVec 8

/-- A vector register (R8). -/
abbrev Word := BitVec 32

/-- A scalar register, a handle, a control register (R8). -/
abbrev DWord := BitVec 64

/-- An instruction word (R28). -/
abbrev IWord := BitVec 96

/-- A program counter (R8). -/
abbrev PC := BitVec 57

/-- A sparse table: keys strictly rising, each with the value held there. What an absent key reads as
is said where the table is used. -/
abbrev Tab (α : Type) := List (Nat × α)

end Sys2Proof
end

