-- ==== Sys2Proof/Syntax.lean ====
section
/-! DEFINITION. The instruction set as syntax: the shared modifier codes (02 R43), the operand forms
(01 R12, R20; 02 R31), guards and hints (02 R37, R38), and one constructor of Instr for each row of
the operation table: the instruction words of R44 and the device's own steps (events). -/

namespace Sys2Proof

/-- Integer types, in code order (R43). -/
inductive IType where
  | i8 | i16 | i32 | i64 | n8 | n16 | n32 | n64
  deriving DecidableEq, Repr

/-- Float types, in code order (R43, R58). -/
inductive FType where
  | f32 | f16 | bf16 | e4m3 | e5m2 | e3m2 | e2m3 | e2m1
  deriving DecidableEq, Repr

/-- Rounding modes, in code order (R43, R62). -/
inductive Rnd where
  | rne | rtz | rdn | rup | rna
  deriving DecidableEq, Repr

/-- Access widths, in code order (R43, R202). -/
inductive AWidth where
  | b8 | b16 | b32 | b64 | b128
  deriving DecidableEq, Repr

/-- Cache hints, in code order (R43). -/
inductive CHint where
  | dflt | strm | keep
  deriving DecidableEq, Repr

/-- Scopes, in code order (R43, R234). -/
inductive Scope where
  | th | grp | team | core | clu | quad | die | pkg | dev | host | peer | sys
  deriving DecidableEq, Repr

/-- Compare conditions, in code order (R91). -/
inductive Cond where
  | eq | ne | lt | le | gt | ge | ord | uno
  deriving DecidableEq, Repr

/-- Access paths of `xfence`, in code order (R218). -/
inductive Path where
  | ls | cp | gk | mx | ro | rq | nt
  deriving DecidableEq, Repr

/-- A 13-bit operand field (R12, R20, R31): `vec` mode 00, `ind` mode 01, `scl` mode 10 with bit 10
clear (bits [9:0]), then the codes of R20, `rsv` a reserved code, `imm` mode 11. -/
inductive Opd where
  | vec (n : BitVec 11)
  | ind (x : BitVec 2) (base : BitVec 9)
  | scl (n : BitVec 10)
  | idx (n : BitVec 2)
  | hnd (n : BitVec 4)
  | prd (n : Fin 48)
  | til (n : Fin 48)
  | spc (n : Fin 15)
  | rsv (c : BitVec 10)
  | imm (i : BitVec 11)
  deriving DecidableEq, Repr

/-- The guard of formats S and L (R37). -/
structure Guard where
  neg : Bool
  p : Fin 48
  deriving DecidableEq, Repr

/-- The hints of formats S and L (R38): stall, yield, post, the three thresholds, forward. -/
structure Hints where
  stall : BitVec 4
  yld : Bool
  post : BitVec 2
  need : BitVec 6
  fwd : Bool
  deriving DecidableEq, Repr

/-- What every format S and format L word carries. -/
structure Hdr where
  g : Guard
  ht : Hints
  deriving DecidableEq, Repr

/-- Lane forms of `vmovi` (R94). -/
inductive LaneForm where
  | plain | hlane | thr
  deriving DecidableEq, Repr

/-- Forms of `smovi` (R107). -/
inductive SForm where
  | sext | zext | hi
  deriving DecidableEq, Repr

/-- Kinds of `sfcvt` with the other type (R108). -/
inductive SCvt where
  | f2f (s : FType) | f2i (i : IType) | i2f (i : IType)
  deriving DecidableEq, Repr

/-- Modes of `vshfl`, in code order (R173). -/
inductive ShMode where
  | idx | rot | edge | swap
  deriving DecidableEq, Repr

/-- Modes of `vvote`, in code order (R174). -/
inductive VoteMode where
  | ge | all | same | elect
  deriving DecidableEq, Repr

/-- Combining operations of `vredux` and `vscan`, in code order (R176). -/
inductive RedOp where
  | add | min | max | and | or | xor
  deriving DecidableEq, Repr

/-- Types of `vredux` and `vscan` (R176): an integer type, or `.f32`, `.f16`, `.bf16`. -/
inductive RedType where
  | int (t : IType) | f32 | f16 | bf16
  deriving DecidableEq, Repr

/-- Atomic operations, in code order (R211). -/
inductive AtomOp where
  | add | min | max | and | or | xor | exch | cas | inc | dec
  deriving DecidableEq, Repr

/-- Atomic types: the permitted pairs of width and kind (R211). -/
inductive AtomTy where
  | i32 | i64 | n32 | n64 | f32 | f16 | bf16
  deriving DecidableEq, Repr

/-- `resq` selectors (R290). -/
inductive ResSel where
  | param | psize | flags | recAddr
  deriving DecidableEq, Repr

/-- Request-record fields of `rqld` and `rqst`, in code order (R309). -/
inductive RqFld where
  | rid | state | prio | pos | plen | ngen | maxnew | nblk | slot | temp | minp | topk | last
  | seed | fcause | tenant | spos
  deriving DecidableEq, Repr

/-- `kvref` operations, in code order (R330). -/
inductive KvRefOp where
  | rd | inc | dec
  deriving DecidableEq, Repr

/-- `trd` fields, in code order (R356). -/
inductive TrdFld where
  | cause | pclo | pchi | mask | addrlo | addrhi | tstate | tpclo | tpchi | cyc | sv | sp | sx
  deriving DecidableEq, Repr

/-- The column count of `mrd` and `mwr` (R130). -/
inductive ColCnt where
  | c8 | c16 | c32
  deriving DecidableEq, Repr

/-- Element width of a transposing `vlob` (R231). -/
inductive LobForm where
  | rows | tr8 | tr16 | tr32
  deriving DecidableEq, Repr

/-- Half-opcodes of the pair word (R34). -/
inductive Hop where
  | add | sub | mul | mini | maxi | minn | maxn | and | or | xor | not | shl | shr | sra | rot
  | mov | abs | neg | popc | clz | ctz | brev
  | fadd | fsub | fmul | ffma | fmin | fmax | faddz | fmulz | ffmaz
  deriving DecidableEq, Repr

/-- One half of a pair word (R33). -/
structure Half where
  hop : Hop
  d : BitVec 10
  a : BitVec 10
  b : BitVec 10
  neg : Bool
  p : BitVec 3
  deriving DecidableEq, Repr

/-- The instructions: one constructor for each row of the operation table, in the table's order.
Fields stand in the order header, modifiers, D, A, B, X. -/
inductive Instr where
  -- class 0 (R86 to R95)
  | vadd (h : Hdr) (t : IType) (sat : Bool) (d a b : Opd)
  | vsub (h : Hdr) (t : IType) (sat : Bool) (d a b : Opd)
  | vmul (h : Hdr) (t : IType) (sat : Bool) (d a b : Opd)
  | vmulh (h : Hdr) (t : IType) (d a b : Opd)
  | vmad (h : Hdr) (t : IType) (sat : Bool) (d a b c : Opd)
  | vmadw (h : Hdr) (t : IType) (sat : Bool) (d a b c : Opd)
  | vdiv (h : Hdr) (t : IType) (sat rem : Bool) (d a b : Opd)
  | vmin (h : Hdr) (t : IType) (d a b : Opd)
  | vmax (h : Hdr) (t : IType) (d a b : Opd)
  | vabs (h : Hdr) (t : IType) (sat : Bool) (d a : Opd)
  | vneg (h : Hdr) (t : IType) (sat : Bool) (d a : Opd)
  | vand (h : Hdr) (t : IType) (d a b : Opd)
  | vor (h : Hdr) (t : IType) (d a b : Opd)
  | vxor (h : Hdr) (t : IType) (d a b : Opd)
  | vnot (h : Hdr) (t : IType) (d a : Opd)
  | vshl (h : Hdr) (t : IType) (d a b : Opd)
  | vshr (h : Hdr) (t : IType) (d a b : Opd)
  | vsra (h : Hdr) (t : IType) (d a b : Opd)
  | vrot (h : Hdr) (t : IType) (d a b : Opd)
  | vbfe (h : Hdr) (t : IType) (d a b c : Opd)
  | vbfi (h : Hdr) (t : IType) (pos : BitVec 6) (len : BitVec 7) (d a b : Opd)
  | vpopc (h : Hdr) (t : IType) (d a : Opd)
  | vclz (h : Hdr) (t : IType) (d a : Opd)
  | vctz (h : Hdr) (t : IType) (d a : Opd)
  | vbrev (h : Hdr) (t : IType) (d a : Opd)
  | vsel (h : Hdr) (t : IType) (d a b c : Opd)
  | vlea (h : Hdr) (t : IType) (sh : BitVec 3) (d a b : Opd)
  | vcmp (h : Hdr) (t : IType) (cc : Cond) (d a b : Opd)
  | vaddc (h : Hdr) (d a b c : Opd)
  | vsubb (h : Hdr) (d a b c : Opd)
  | vmov (h : Hdr) (t : IType) (d a : Opd)
  | vmovi (h : Hdr) (f : LaneForm) (i : BitVec 32) (d : Opd)
  | vprmt (h : Hdr) (d a b c : Opd)
  | vrng (h : Hdr) (d a b c : Opd)
  | vrngf (h : Hdr) (d a b c : Opd)
  -- class 1 (R96 to R104)
  | vfadd (h : Hdr) (t : FType) (r : Rnd) (sat : Bool) (d a b : Opd)
  | vfsub (h : Hdr) (t : FType) (r : Rnd) (sat : Bool) (d a b : Opd)
  | vfmul (h : Hdr) (t : FType) (r : Rnd) (sat : Bool) (d a b : Opd)
  | vffma (h : Hdr) (t : FType) (r : Rnd) (sat : Bool) (d a b c : Opd)
  | vfmin (h : Hdr) (t : FType) (d a b : Opd)
  | vfmax (h : Hdr) (t : FType) (d a b : Opd)
  | vfcmp (h : Hdr) (t : FType) (cc : Cond) (d a b : Opd)
  | vfclass (h : Hdr) (t : FType) (d a : Opd)
  | vfcvt (h : Hdr) (t : FType) (r : Rnd) (sat : Bool) (s : FType) (d a : Opd)
  | vfcvti (h : Hdr) (t : FType) (r : Rnd) (sat i2f : Bool) (i : IType) (d a : Opd)
  | vfround (h : Hdr) (t : FType) (r : Rnd) (d a : Opd)
  | vfscale (h : Hdr) (t : FType) (r : Rnd) (sat : Bool) (d a b : Opd)
  | vfpack (h : Hdr) (t : FType) (r : Rnd) (sat hi : Bool) (d a b : Opd)
  | vfunpk (h : Hdr) (t : FType) (hi : Bool) (d a : Opd)
  | vfdot2 (h : Hdr) (t : FType) (r : Rnd) (sat : Bool) (d a b c : Opd)
  | vfrcp (h : Hdr) (t : FType) (r : Rnd) (sat fast : Bool) (d a : Opd)
  | vfrsq (h : Hdr) (t : FType) (r : Rnd) (sat fast : Bool) (d a : Opd)
  | vfsqrt (h : Hdr) (t : FType) (r : Rnd) (sat fast : Bool) (d a : Opd)
  | vfdiv (h : Hdr) (t : FType) (r : Rnd) (sat fast : Bool) (d a b : Opd)
  | vfexp2 (h : Hdr) (t : FType) (r : Rnd) (sat fast : Bool) (d a : Opd)
  | vflog2 (h : Hdr) (t : FType) (r : Rnd) (sat fast : Bool) (d a : Opd)
  | vfsin (h : Hdr) (t : FType) (r : Rnd) (sat fast : Bool) (d a : Opd)
  | vfcos (h : Hdr) (t : FType) (r : Rnd) (sat fast : Bool) (d a : Opd)
  | vftanh (h : Hdr) (t : FType) (r : Rnd) (sat fast : Bool) (d a : Opd)
  | vfsigm (h : Hdr) (t : FType) (r : Rnd) (sat fast : Bool) (d a : Opd)
  | vfgelu (h : Hdr) (t : FType) (r : Rnd) (sat fast : Bool) (d a : Opd)
  | vfsilu (h : Hdr) (t : FType) (r : Rnd) (sat fast : Bool) (d a : Opd)
  -- class 2 (R106 to R112)
  | sadd (h : Hdr) (t : IType) (sat : Bool) (d a b : Opd)
  | ssub (h : Hdr) (t : IType) (sat : Bool) (d a b : Opd)
  | smul (h : Hdr) (t : IType) (sat : Bool) (d a b : Opd)
  | smad (h : Hdr) (t : IType) (sat : Bool) (d a b c : Opd)
  | sand (h : Hdr) (t : IType) (d a b : Opd)
  | sor (h : Hdr) (t : IType) (d a b : Opd)
  | sxor (h : Hdr) (t : IType) (d a b : Opd)
  | sshl (h : Hdr) (t : IType) (d a b : Opd)
  | sshr (h : Hdr) (t : IType) (d a b : Opd)
  | ssra (h : Hdr) (t : IType) (d a b : Opd)
  | smin (h : Hdr) (t : IType) (d a b : Opd)
  | smax (h : Hdr) (t : IType) (d a b : Opd)
  | scmp (h : Hdr) (t : IType) (cc : Cond) (d a b : Opd)
  | ssel (h : Hdr) (t : IType) (d a b c : Opd)
  | smov (h : Hdr) (t : IType) (d a : Opd)
  | smovi (h : Hdr) (f : SForm) (i : BitVec 32) (d : Opd)
  | sfadd (h : Hdr) (t : FType) (r : Rnd) (d a b : Opd)
  | sfmul (h : Hdr) (t : FType) (r : Rnd) (d a b : Opd)
  | sffma (h : Hdr) (t : FType) (r : Rnd) (d a b c : Opd)
  | sfcmp (h : Hdr) (t : FType) (cc : Cond) (d a b : Opd)
  | sfcvt (h : Hdr) (t : FType) (r : Rnd) (k : SCvt) (d a : Opd)
  | sread (h : Hdr) (d a : Opd)
  | sld (h : Hdr) (w : AWidth) (sc : Scope) (ch : CHint) (d a b : Opd)
  | sst (h : Hdr) (w : AWidth) (sc : Scope) (ch : CHint) (a b c : Opd)
  | vtos (h : Hdr) (lane : BitVec 5) (first w64 : Bool) (d a : Opd)
  | stov (h : Hdr) (w64 : Bool) (d a : Opd)
  -- class 3 (R105, R172 to R177)
  | pand (h : Hdr) (na nb : Bool) (d a b : Opd)
  | por (h : Hdr) (na nb : Bool) (d a b : Opd)
  | pxor (h : Hdr) (na nb : Bool) (d a b : Opd)
  | pnot (h : Hdr) (d a : Opd)
  | pmov (h : Hdr) (d a : Opd)
  | pset (h : Hdr) (w64 : Bool) (d a : Opd)
  | vshfl (h : Hdr) (m : ShMode) (seg : Fin 6) (w64 : Bool) (d a b : Opd) (v : Option Opd)
  | vvote (h : Hdr) (m : VoteMode) (d a : Opd) (k : Option Opd)
  | vballot (h : Hdr) (cnt : Bool) (d a : Opd)
  | vredux (h : Hdr) (o : RedOp) (t : RedType) (sat : Bool) (r : Rnd) (d a : Opd)
  | vscan (h : Hdr) (o : RedOp) (t : RedType) (sat excl : Bool) (r : Rnd) (d a : Opd)
  | vmatch (h : Hdr) (w64 : Bool) (d a : Opd)
  | vlanemap (h : Hdr) (d a : Opd)
  -- class 4 (R159 to R166)
  | bra (h : Hdr) (i : BitVec 32)
  | brx (h : Hdr) (a : Opd)
  | call (h : Hdr) (i : BitVec 32) (d : Opd)
  | callx (h : Hdr) (d a : Opd)
  | ret (h : Hdr) (a : Opd)
  | reform (h : Hdr)
  | rejoin (h : Hdr) (a : Opd)
  | exit (h : Hdr)
  | yield (h : Hdr)
  | nop (h : Hdr)
  | swtrap (h : Hdr) (code : BitVec 13)
  | bkpt (h : Hdr) (code : BitVec 13)
  -- class 5 (R204 to R214)
  | ld (h : Hdr) (w : AWidth) (sc : Scope) (ch : CHint) (d a b : Opd)
  | st (h : Hdr) (w : AWidth) (sc : Scope) (ch : CHint) (a b c : Opd)
  | ldl (h : Hdr) (w : AWidth) (d a b : Opd)
  | stl (h : Hdr) (w : AWidth) (a b c : Opd)
  | ldcl (h : Hdr) (w : AWidth) (d a b : Opd)
  | stcl (h : Hdr) (w : AWidth) (a b c : Opd)
  | ldro (h : Hdr) (w : AWidth) (ch : CHint) (d a b : Opd)
  | ldw (h : Hdr) (w : AWidth) (d a b : Opd)
  | pref (h : Hdr) (die : Bool) (ch : CHint) (a b : Opd)
  | atom (h : Hdr) (o : AtomOp) (t : AtomTy) (ord : Bool) (sc : Scope) (d a b : Opd)
  | atoml (h : Hdr) (o : AtomOp) (t : AtomTy) (ord cl : Bool) (d a b : Opd)
  | red (h : Hdr) (o : AtomOp) (t : AtomTy) (ord : Bool) (sc : Scope) (a b : Opd)
  -- class 6 (R215 to R222)
  | acq (h : Hdr) (sc : Scope) (d : Option Opd) (a : Opd)
  | rel (h : Hdr) (sc : Scope) (a : Opd)
  | fence (h : Hdr) (seqc : Bool) (sc : Scope)
  | xfence (h : Hdr) (sc : Scope) (ca cb : Path)
  | bar (h : Hdr) (nf arv : Bool) (a : Opd)
  | barcl (h : Hdr) (nf arv : Bool) (a : Opd)
  | bxinit (h : Hdr) (grp cl : Bool) (a b : Opd)
  | bxowe (h : Hdr) (grp cl : Bool) (a b : Opd)
  | bxpay (h : Hdr) (grp cl : Bool) (sc : Scope) (a b : Opd)
  | bxwait (h : Hdr) (cl : Bool) (sc : Scope) (a b : Opd)
  | bxpoll (h : Hdr) (cl : Bool) (sc : Scope) (d a b : Opd)
  -- class 7 (R223 to R231)
  | cpyG2l (h : Hdr) (sc : Scope) (ch : CHint) (d a b x : Opd)
  | cpyL2g (h : Hdr) (sc : Scope) (ch : CHint) (d a b x : Opd)
  | cpyW2l (h : Hdr) (d a b x : Opd)
  | cpyo (h : Hdr) (wst : Bool) (ch : CHint) (d a b x : Opd)
  | cpyl (h : Hdr) (d a b x : Opd)
  | gkv (h : Hdr) (ix : Bool) (d a b x : Opd)
  | kvpf (h : Hdr) (ix : Bool) (d a b x : Opd)
  | hwait (h : Hdr) (d : Option Opd) (a : Opd)
  | htest (h : Hdr) (d a : Opd)
  | hcancel (h : Hdr) (a : Opd)
  | hmov (h : Hdr) (d a : Opd)
  | vlob (h : Hdr) (f : LobForm) (n1 : BitVec 5) (d a : Opd)
  -- class 8 (R115 to R134)
  | tcfg (h : Hdr) (a : Opd)
  | macq (h : Hdr)
  | mrel (h : Hdr)
  | mma (h : Hdr) (d a b : Opd)
  | mmas (h : Hdr) (d a b x : Opd)
  | mmag (h : Hdr) (d a b : Opd) (x : Option Opd)
  | mzero (h : Hdr) (d : Option Opd)
  | mld (h : Hdr) (loc : Bool) (ch : CHint) (d a b : Opd)
  | mst (h : Hdr) (loc : Bool) (ch : CHint) (raw : Bool) (d a b x : Opd)
  | mrd (h : Hdr) (c : ColCnt) (col : BitVec 8) (d a b : Opd)
  | mwr (h : Hdr) (c : ColCnt) (col : BitVec 8) (d a b : Opd)
  -- class 9: sorter, queues, launches (R258 to R269, R290 to R293)
  | tkbeg (h : Hdr) (a : Opd)
  | tkpush (h : Hdr) (a b : Opd)
  | tkend (h : Hdr) (byidx : Bool) (d a : Opd)
  | wqpush (h : Hdr) (sc : Scope) (d a b : Opd)
  | wqpop (h : Hdr) (nb : Bool) (sc : Scope) (d a : Opd) (v : Option Opd)
  | wqlen (h : Hdr) (d a : Opd)
  | lacnt (h : Hdr) (sc : Scope) (d a b x : Opd)
  | fetchw (h : Hdr) (a : Opd)
  | launch (h : Hdr) (d a : Opd)
  | resq (h : Hdr) (sel : ResSel) (d : Opd)
  -- class 9: requests and KV (R308 to R314, R330 to R338)
  | rqld (h : Hdr) (f : RqFld) (sc : Scope) (d a : Opd)
  | rqst (h : Hdr) (f : RqFld) (sc : Scope) (a b : Opd)
  | rqemit (h : Hdr) (sc : Scope) (d a b : Opd)
  | rqstop (h : Hdr) (sc : Scope) (d a : Opd)
  | rqfail (h : Hdr) (sc : Scope) (a b : Opd)
  | rqslot (h : Hdr) (inv : Bool) (sc : Scope) (d a : Opd)
  | bfdone (h : Hdr) (a : Opd)
  | kvapp (h : Hdr) (sc : Scope) (d a b : Opd)
  | kvmap (h : Hdr) (ix : Bool) (sc : Scope) (d a b : Opd)
  | kvinv (h : Hdr) (sc : Scope) (d a b x : Opd)
  | kvref (h : Hdr) (o : KvRefOp) (sc : Scope) (d a : Opd)
  | kvevictLp (h : Hdr) (sc : Scope) (d a : Opd)
  | kvevictCxl (h : Hdr) (sc : Scope) (d a : Opd)
  | kvevictPeer (h : Hdr) (sc : Scope) (d a b : Opd)
  | rxlook (h : Hdr) (sc : Scope) (d a b : Opd)
  | rxins (h : Hdr) (sc : Scope) (d a b : Opd)
  -- class 10 (R342 to R358)
  | csrrd (h : Hdr) (num : BitVec 12) (d : Opd)
  | csrwr (h : Hdr) (num : BitVec 12) (a : Opd)
  | tret (h : Hdr)
  | tretSkip (h : Hdr)
  | tretKill (h : Hdr)
  | trd (h : Hdr) (f : TrdFld) (d a : Opd)
  | fltrep (h : Hdr) (d a b : Opd)
  | fltcancel (h : Hdr) (d a b : Opd)
  | tlbinvVa (h : Hdr) (d a b : Opd)
  | tlbinvCtx (h : Hdr) (d a : Opd)
  | tlbinvMig (h : Hdr) (d a b : Opd)
  | idle (h : Hdr) (a : Opd)
  -- class 11 (R33 to R36)
  | pairWord (stall : BitVec 4) (yld : Bool) (post : BitVec 2) (p0 p1 : Half)
  -- the device's own steps (spec 95): their operands say which core, team, command, page ... acts
  | bankroleApply (core : Nat)
  | issueGroupDraw (core : Nat)
  | binAged (core slot : Nat) (pc : PC)
  | longLatencyDissolve (core gid : Nat)
  | rotation (core gid : Nat)
  | waitConditionMet (core slot thr : Nat)
  | variableLatencyWriteback (core k : Nat)
  | urgencyMark (core : Nat)
  | rejoinRelease (core slot hg : Nat) (pc : PC)
  | collectorFire (core slot hg : Nat) (pc : PC)
  | barrierRelease (cl : Bool) (a b id : Nat)
  | engineGrant (core : Nat)
  | loadDataReturn (core k : Nat)
  | storeGloballyPerformed (core k : Nat)
  | faultRingEntryWrite (ctx : Nat)
  | teamHalt (core slot : Nat)
  | commandPortionArrival (core id : Nat)
  | commandRetire (core id : Nat)
  | commandFailure (core id : Nat)
  | pageRecall (ctx page : Nat)
  | pageEviction (ctx : Nat)
  | teamPlacement (grid : Nat) (cores : List Nat)
  | gridCompletion (grid : Nat)
  | replayBegin (replay : Nat)
  | kick (ctx : Nat)
  | launchPacket (ctx : Nat)
  | wsload (ctx : Nat)
  | setdet (ctx : Nat)
  | signal (ctx : Nat)
  | wait (ctx : Nat)
  | meridianStep (ctx : Nat)
  | meridianIdlePoll (ctx : Nat)
  | ctxbell (v : BitVec 64)
  | contextTablePoll (ctx : Nat)
  | contextRun (ctx : Nat)
  | contextEvict (ctx : Nat)
  | evictionComplete (ctx : Nat)
  | contextKill (ctx : Nat)
  | deadlineSaveSegment (ctx stack : Nat)
  | journalMismatch (ctx : Nat)
  | portIntervalRefill (port : Nat)
  | portArbitrate (port : Nat)
  | linkRead (stk tag line : Nat) (urg brst : Bool)
  | linkWrite (stk tag line : Nat) (brst : Bool) (data : List Byte)
  | linkMaskedWrite (stk tag line : Nat) (brst : Bool) (mask : BitVec 64) (data : List Byte)
  | linkAtomic (stk tag line : Nat) (o : AtomOp) (kind : BitVec 2) (w64 : Bool) (off : BitVec 6)
      (opnd new : BitVec 64)
  | urgencyNotice (stk tag : Nat)
  | linkReply (stk tag : Nat)
  | refreshDue (stk bank : Nat)
  | forcedRefresh (stk bank : Nat)
  | retrainIntervalExpiry (stk : Nat) (failed : Bool)
  | stkrate (stk : Nat) (v : BitVec 64)
  | dataRateChange (stk : Nat) (failed : Bool)
  | patrolScrub (stk line : Nat) (res : BitVec 2)
  | sramPatrol (die unit : Nat) (addr : Nat) (res : BitVec 2)
  | weightStoreRefreshWindow (die : Nat)
  | cxlTimeout (core k : Nat)
  | linkCrcFailure (die unit : Nat) (tries : Nat)
  | flolvoPageReceive (ctx : Nat) (tag : BitVec 32) (sfill : Nat) (data : List Byte)
  | dieHalt (die : Nat) (thermal : Bool)
  | warmReset (die : Nat)
  | coldReset
  | powerThermalStep (die : Nat) (up : Bool)
  | errctlHalt (die : Nat) (on : Bool)
  | errctlUnfrz (die : Nat)
  | rbdataRead
  | rbdataWrite (v : BitVec 64)
  | attreq (v : BitVec 64)
  | hostRegisterWrite (off : Nat) (v : BitVec 64)
  | firmwareVerify (header body : List Byte)
  | postPackageRepair (stk line : Nat)
  | weightStoreWindowEnd (die : Nat)
  | requestWaited2us (stk tag : Nat)
  | hostAgentAccess (addr : Nat) (data : Option (List Byte)) (len : Nat)
  deriving DecidableEq, Repr

end Sys2Proof
end

