-- ==== Sys2Proof/Machine/Uses.lean ====
section
/-! DEFINITION. What each instruction's operand fields are: the kinds of register or immediate the
field may hold, whether it is a destination, and how many registers it covers with what alignment
(01 R11, R12, R20; 04 R82, R83; the encoding table of each instruction's entry). One list serves
decode step 6, the bounds check of step 7 and the interlocks of R39 and R40. -/

namespace Sys2Proof

/-- The kinds of operand (R20, R31). -/
inductive Form where
  | v | s | x | h | p | t | r | i
  deriving DecidableEq, Repr

/-- The kind an operand field names; a reserved code names none. -/
def Opd.form : Opd → Option Form
  | .vec _ => some .v
  | .ind _ _ => some .v
  | .scl _ => some .s
  | .idx _ => some .x
  | .hnd _ => some .h
  | .prd _ => some .p
  | .til _ => some .t
  | .spc _ => some .r
  | .rsv _ => none
  | .imm _ => some .i

/-- One use of an operand field: the kinds it may hold; `dst` a destination; `n` vector registers
from the named one, whose index is a multiple of `al`; `pairS` an even scalar with its successor
(R223); `strict` every other form raises `ILL` (R223, R230). -/
structure OpUse where
  o : Opd
  ks : List Form
  dst : Bool := false
  n : Nat := 1
  al : Nat := 1
  pairS : Bool := false
  strict : Bool := false
  deriving DecidableEq, Repr

/-- Width in bits of an integer type (R56). -/
def IType.w : IType → Nat
  | .i8 => 8 | .n8 => 8 | .i16 => 16 | .n16 => 16 | .i32 => 32 | .n32 => 32 | .i64 => 64 | .n64 => 64

/-- Whether an integer type is signed (R56). -/
def IType.signed : IType → Bool
  | .i8 | .i16 | .i32 | .i64 => true
  | .n8 | .n16 | .n32 | .n64 => false

/-- Registers of a vector operand of an integer type (R11). -/
def IType.regs (t : IType) : Nat := if t.w = 64 then 2 else 1

/-- Bytes of an access width (R202). -/
def AWidth.bytes : AWidth → Nat
  | .b8 => 1 | .b16 => 2 | .b32 => 4 | .b64 => 8 | .b128 => 16

/-- Registers of an access width (R202). -/
def AWidth.regs : AWidth → Nat
  | .b8 => 1 | .b16 => 1 | .b32 => 1 | .b64 => 2 | .b128 => 4

/-- Bits of an atomic type (R211). -/
def AtomTy.w : AtomTy → Nat
  | .i32 => 32 | .n32 => 32 | .f32 => 32 | .i64 => 64 | .n64 => 64 | .f16 => 16 | .bf16 => 16

/-- Registers of an atomic type (R212). -/
def AtomTy.regs (t : AtomTy) : Nat := if t.w = 64 then 2 else 1

/-- The integer type behind a reduction type, where it is one. -/
def RedType.regs : RedType → Nat
  | .int t => t.regs
  | _ => 1

/-- Columns of `mrd` and `mwr` (R130). -/
def ColCnt.n : ColCnt → Nat
  | .c8 => 8 | .c16 => 16 | .c32 => 32

/-- Registers of the value field of `rqst` and the destination of `rqld` (R308). -/
def RqFld.regs : RqFld → Nat
  | .seed => 2
  | _ => 1

namespace OpUse
/-- A vector destination of `n` registers aligned to `n`. -/
def vd (o : Opd) (n : Nat := 1) : OpUse := { o := o, ks := [.v], dst := true, n := n, al := n }
/-- A vector destination of `n` registers with no alignment. -/
def vdn (o : Opd) (n : Nat) : OpUse := { o := o, ks := [.v], dst := true, n := n }
/-- A source of kinds `ks`; as a vector, `n` registers aligned to `n`. -/
def src (o : Opd) (ks : List Form) (n : Nat := 1) : OpUse := { o := o, ks := ks, n := n, al := n }
/-- A destination of kinds `ks`. -/
def dstk (o : Opd) (ks : List Form) (n : Nat := 1) : OpUse :=
  { o := o, ks := ks, dst := true, n := n, al := n }
/-- An integer source of classes 0 (R82). -/
def isrc (o : Opd) (n : Nat := 1) : OpUse := src o [.v, .s, .x, .i] n
/-- A float source (R82), and any source whose entry lists no index register (R20). -/
def fsrc (o : Opd) (n : Nat := 1) : OpUse := src o [.v, .s, .i] n
/-- A source of class 2 (R83). -/
def ssrc (o : Opd) : OpUse := src o [.s, .x, .i]
/-- A float source of class 2 (R108), and an id of `fltrep`, `fltcancel` and `tlbinv`: no index register (R20, R342). -/
def sfsrc (o : Opd) : OpUse := src o [.s, .i]
/-- A destination of class 2 (R83). -/
def sd (o : Opd) : OpUse := dstk o [.s, .x]
/-- A global or cluster base address: a vector pair or a scalar (R201). -/
def gaddr (o : Opd) : OpUse := src o [.v, .s] 2
/-- The even scalar of an asynchronous command (R223). -/
def pairA (o : Opd) : OpUse := { o := o, ks := [.s], pairS := true, strict := true }
/-- The even scalar with its successor that X of `gkv` names (R224). An odd scalar there raises `ILL`, as R223 has it
for A; R224 only calls the scalar even (log 22). -/
def pairX (o : Opd) : OpUse := { o := o, ks := [.s], pairS := true }
/-- A predicate source of class 3, in which any other form raises `ILL` (R83). -/
def psrc (o : Opd) : OpUse := { o := o, ks := [.p], strict := true }
/-- A handle source (R230). -/
def ha (o : Opd) : OpUse := { o := o, ks := [.h], strict := true }
/-- A barrier object: a team offset, or a cluster address under `.cl` (R219, R201). -/
def objSrc (cl : Bool) (o : Opd) : OpUse := if cl then gaddr o else fsrc o
/-- An optional operand. -/
def opt (f : Opd → OpUse) : Option Opd → List OpUse
  | none => []
  | some o => [f o]
/-- Store data (R202). -/
def data (w : AWidth) (o : Opd) : OpUse :=
  match w with
  | .b128 => src o [.v] 4
  | w => src o [.v, .s, .x, .i] w.regs
/-- The value of `rqst`: a pair or a scalar for `.seed` (R308). -/
def rqVal (f : RqFld) (o : Opd) : OpUse := if f = .seed then gaddr o else isrc o
/-- A float or integer source by the class of conversion (R99). -/
def cvsrc (i2f : Bool) (i : IType) (o : Opd) : OpUse := if i2f then isrc o i.regs else fsrc o
end OpUse

open OpUse

/-- Width in registers of the accumulator and destination of `vmadw` (R86). -/
def IType.wideRegs (t : IType) : Nat := if t.w = 32 then 2 else 1

/-- Registers under a `.w64` bit. -/
def w64n (b : Bool) : Nat := if b then 2 else 1

/-- The operand fields of each instruction (see the file's header). Outside the scalar and integer vector instructions
an index register stands only where the entry lists it (R20). -/
def Instr.uses : Instr → List OpUse
  | .vadd _ t _ d a b | .vsub _ t _ d a b | .vmul _ t _ d a b =>
      [vd d t.regs, isrc a t.regs, isrc b t.regs]
  | .vmulh _ t d a b | .vmin _ t d a b | .vmax _ t d a b | .vand _ t d a b | .vor _ t d a b
  | .vxor _ t d a b => [vd d t.regs, isrc a t.regs, isrc b t.regs]
  | .vmad _ t _ d a b c => [vd d t.regs, isrc a t.regs, isrc b t.regs, isrc c t.regs]
  | .vmadw _ t _ d a b c => [vd d t.wideRegs, isrc a, isrc b, isrc c t.wideRegs]
  | .vdiv _ t _ _ d a b => [vd d t.regs, isrc a t.regs, isrc b t.regs]
  | .vabs _ t _ d a | .vneg _ t _ d a => [vd d t.regs, isrc a t.regs]
  | .vnot _ t d a | .vbrev _ t d a | .vmov _ t d a => [vd d t.regs, isrc a t.regs]
  | .vshl _ t d a b | .vshr _ t d a b | .vsra _ t d a b | .vrot _ t d a b =>
      [vd d t.regs, isrc a t.regs, isrc b]
  | .vbfe _ t d a b c => [vd d t.regs, isrc a t.regs, isrc b, isrc c]
  | .vbfi _ t _ _ d a b => [vd d t.regs, isrc a t.regs, isrc b t.regs]
  | .vpopc _ t d a | .vclz _ t d a | .vctz _ t d a => [vd d, isrc a t.regs]
  | .vsel _ t d a b c => [vd d t.regs, isrc a t.regs, isrc b t.regs, isrc c t.regs]
  | .vlea _ t _ d a b => [vd d 2, fsrc a 2, isrc b t.regs]
  | .vcmp _ t _ d a b => [dstk d [.p], isrc a t.regs, isrc b t.regs]
  | .vaddc _ d a b c | .vsubb _ d a b c => [vd d 2, isrc a, isrc b, isrc c]
  | .vmovi _ _ _ d => [vd d]
  | .vprmt _ d a b c => [vd d, isrc a, isrc b, isrc c]
  | .vrng _ d a b c | .vrngf _ d a b c => [vd d, fsrc a 2, fsrc b 2, isrc c]
  | .vfadd _ _ _ _ d a b | .vfsub _ _ _ _ d a b | .vfmul _ _ _ _ d a b => [vd d, fsrc a, fsrc b]
  | .vffma _ _ _ _ d a b c => [vd d, fsrc a, fsrc b, fsrc c]
  | .vfmin _ _ d a b | .vfmax _ _ d a b => [vd d, fsrc a, fsrc b]
  | .vfcmp _ _ _ d a b => [dstk d [.p], fsrc a, fsrc b]
  | .vfclass _ _ d a => [vd d, fsrc a]
  | .vfcvt _ _ _ _ _ d a => [vd d, fsrc a]
  | .vfcvti _ _ _ _ i2f i d a =>
      [if i2f then vd d else vd d i.regs, cvsrc i2f i a]
  | .vfround _ _ _ d a => [vd d, fsrc a]
  | .vfscale _ _ _ _ d a b => [vd d, fsrc a, isrc b]
  | .vfpack _ _ _ _ _ d a b => [vd d, fsrc a, fsrc b]
  | .vfunpk _ _ _ d a => [vd d 2, fsrc a]
  | .vfdot2 _ _ _ _ d a b c => [vd d, fsrc a, fsrc b, fsrc c]
  | .vfdiv _ _ _ _ _ d a b => [vd d, fsrc a, fsrc b]
  | .vfrcp _ _ _ _ _ d a | .vfrsq _ _ _ _ _ d a | .vfsqrt _ _ _ _ _ d a | .vfexp2 _ _ _ _ _ d a
  | .vflog2 _ _ _ _ _ d a | .vfsin _ _ _ _ _ d a | .vfcos _ _ _ _ _ d a | .vftanh _ _ _ _ _ d a
  | .vfsigm _ _ _ _ _ d a | .vfgelu _ _ _ _ _ d a | .vfsilu _ _ _ _ _ d a => [vd d, fsrc a]
  | .sadd _ _ _ d a b | .ssub _ _ _ d a b | .smul _ _ _ d a b => [sd d, ssrc a, ssrc b]
  | .smad _ _ _ d a b c => [sd d, ssrc a, ssrc b, ssrc c]
  | .sand _ _ d a b | .sor _ _ d a b | .sxor _ _ d a b | .sshl _ _ d a b | .sshr _ _ d a b
  | .ssra _ _ d a b | .smin _ _ d a b | .smax _ _ d a b => [sd d, ssrc a, ssrc b]
  | .scmp _ _ _ d a b => [dstk d [.p], ssrc a, ssrc b]
  | .ssel _ _ d a b c => [sd d, ssrc a, ssrc b, ssrc c]
  | .smov _ _ d a => [sd d, ssrc a]
  | .smovi _ _ _ d => [sd d]
  | .sfadd _ _ _ d a b | .sfmul _ _ _ d a b => [sd d, sfsrc a, sfsrc b]
  | .sffma _ _ _ d a b c => [sd d, sfsrc a, sfsrc b, sfsrc c]
  | .sfcmp _ _ _ d a b => [dstk d [.p], sfsrc a, sfsrc b]
  | .sfcvt _ _ _ k d a =>
      [sd d, match k with | .i2f _ => ssrc a | .f2f _ => sfsrc a | .f2i _ => sfsrc a]
  | .sread _ d a => [sd d, src a [.r]]
  | .sld _ _ _ _ d a b => [sd d, src a [.s], ssrc b]
  | .sst _ _ _ _ a b c => [src a [.s], ssrc b, ssrc c]
  | .vtos _ _ _ w d a => [sd d, src a [.v] (w64n w)]
  | .stov _ w d a => [vd d (w64n w), ssrc a]
  | .pand _ _ _ d a b | .por _ _ _ d a b | .pxor _ _ _ d a b =>
      [dstk d [.p], psrc a, psrc b]
  | .pnot _ d a | .pmov _ d a => [dstk d [.p], psrc a]
  | .pset _ w d a => [dstk d [.p], isrc a (w64n w)]
  | .vshfl _ _ _ w d a b v =>
      [vd d (w64n w), src a [.v] (w64n w), fsrc b] ++ opt (dstk · [.p]) v
  | .vvote _ _ d a k => [dstk d [.p], psrc a] ++ opt ssrc k
  | .vballot _ _ d a => [dstk d [.v, .s], psrc a]
  | .vredux _ _ t _ _ d a => [dstk d [.v, .s] t.regs, src a [.v] t.regs]
  | .vscan _ _ t _ _ _ d a => [vd d t.regs, src a [.v] t.regs]
  | .vmatch _ w d a => [vd d, src a [.v] (w64n w)]
  | .vlanemap _ d a => [vd d, fsrc a]
  | .bra _ _ | .reform _ | .exit _ | .yield _ | .nop _ | .swtrap _ _ | .bkpt _ _ => []
  | .brx _ a | .ret _ a => [gaddr a]
  | .call _ _ d => [vd d 2]
  | .callx _ d a => [vd d 2, gaddr a]
  | .rejoin _ a => [src a [.s, .i]]
  | .ld _ w _ _ d a b | .ldcl _ w d a b | .ldro _ w _ d a b | .ldw _ w d a b =>
      [vd d w.regs, gaddr a, fsrc b]
  | .st _ w _ _ a b c | .stcl _ w a b c => [gaddr a, fsrc b, data w c]
  | .ldl _ w d a b => [vd d w.regs, fsrc a, fsrc b]
  | .stl _ w a b c => [fsrc a, fsrc b, data w c]
  | .pref _ _ _ a b => [gaddr a, fsrc b]
  | .atom _ _ t _ _ d a b => [vd d t.regs, gaddr a, fsrc b t.regs]
  | .atoml _ _ t _ cl d a b => [vd d t.regs, objSrc cl a, fsrc b t.regs]
  | .red _ _ t _ _ a b => [gaddr a, fsrc b t.regs]
  | .acq _ _ d a => opt (dstk · [.v, .s] 2) d ++ [gaddr a]
  | .rel _ _ a => [gaddr a]
  | .fence _ _ _ | .xfence _ _ _ _ => []
  | .bar _ _ _ a | .barcl _ _ _ a => [ssrc a]
  | .bxinit _ _ cl a b | .bxowe _ _ cl a b | .bxpay _ _ cl _ a b | .bxwait _ cl _ a b =>
      [objSrc cl a, fsrc b]
  | .bxpoll _ cl _ d a b => [dstk d [.p], objSrc cl a, fsrc b]
  | .cpyG2l _ _ _ d a b x | .cpyL2g _ _ _ d a b x =>
      [dstk d [.h], pairA a, src b [.s], ssrc x]
  | .cpyW2l _ d a b x | .cpyl _ d a b x => [dstk d [.h], pairA a, src b [.s], ssrc x]
  | .cpyo _ _ _ d a b x => [dstk d [.h], pairA a, src b [.s], ssrc x]
  | .gkv _ _ d a b x => [dstk d [.h], pairA a, src b [.v], pairX x]
  | .kvpf _ _ d a b x => [dstk d [.h], pairA a, src b [.v], src x [.s]]
  | .hwait _ d a => opt (dstk · [.s]) d ++ [ha a]
  | .htest _ d a => [dstk d [.s], ha a]
  | .hcancel _ a => [ha a]
  | .hmov _ d a => [dstk d [.h, .s], { src a [.h, .s] with strict := true }]
  | .vlob _ _ n1 d a => [vdn d (n1.toNat + 1), ssrc a]
  | .tcfg _ a => [ssrc a]
  | .macq _ | .mrel _ => []
  | .mma _ d a b => [dstk d [.t], src a [.v], src b [.v]]
  | .mmas _ d a b x => [dstk d [.t], src a [.v], src b [.v], src x [.v]]
  | .mmag _ d a b x => [dstk d [.t], src a [.v], src b [.v]] ++ opt (src · [.v]) x
  | .mzero _ d => opt (dstk · [.t]) d
  | .mld _ _ _ d a b => [dstk d [.t], src a [.s], ssrc b]
  | .mst _ _ _ _ d a b x => [src d [.s], src a [.t], ssrc b, ssrc x]
  | .mrd _ c _ d a b => [vdn d c.n, src a [.t], ssrc b]
  | .mwr _ c _ d a b => [dstk d [.t], { src a [.v] with n := c.n }, ssrc b]
  | .tkbeg _ a => [ssrc a]
  | .tkpush _ a b => [src a [.v], src b [.v]]
  | .tkend _ _ d a => [dstk d [.s], ssrc a]
  | .wqpush _ _ d a b => [dstk d [.p], ssrc a, src b [.v] 4]
  | .wqpop _ _ _ d a v => [vd d 4, ssrc a] ++ opt (dstk · [.p]) v
  | .wqlen _ d a => [dstk d [.s], ssrc a]
  | .lacnt _ _ d a b x => [dstk d [.s], src a [.s], ssrc b, dstk x [.p]]
  | .fetchw _ a => [ssrc a]
  | .launch _ d a => [dstk d [.s], src a [.s]]
  | .resq _ _ d => [dstk d [.s]]
  | .rqld _ f _ d a => [vd d f.regs, isrc a]
  | .rqst _ f _ a b => [isrc a, rqVal f b]
  | .rqemit _ _ d a b => [vd d, isrc a, isrc b]
  | .rqstop _ _ d a => [vd d, isrc a]
  | .rqfail _ _ a b => [isrc a, isrc b]
  | .rqslot _ _ _ d a => [vd d, isrc a]
  | .bfdone _ a => [ssrc a]
  | .kvapp _ _ d a b => [vd d, isrc a, isrc b]
  | .kvmap _ _ _ d a b => [vd d 2, isrc a, isrc b]
  | .kvinv _ _ d a b x => [dstk d [.h], isrc a, isrc b, isrc x]
  | .kvref _ _ _ d a => [vd d, isrc a]
  | .kvevictLp _ _ d a | .kvevictCxl _ _ d a => [dstk d [.h], isrc a]
  | .kvevictPeer _ _ d a b => [dstk d [.h], isrc a, src b [.s]]
  | .rxlook _ _ d a b => [dstk d [.s], src a [.s], isrc b]
  | .rxins _ _ d a b => [dstk d [.s], isrc a, isrc b]
  | .csrrd _ _ d => [dstk d [.s]]
  | .csrwr _ _ a => [ssrc a]
  | .tret _ | .tretSkip _ | .tretKill _ => []
  | .trd _ _ d a => [vd d, isrc a]
  | .fltrep _ d a b | .fltcancel _ d a b => [dstk d [.s], sfsrc a, sfsrc b]
  | .tlbinvVa _ d a b | .tlbinvMig _ d a b => [dstk d [.h], sfsrc a, src b [.s]]
  | .tlbinvCtx _ d a => [dstk d [.h], sfsrc a]
  | .idle _ a => [ssrc a]
  | .pairWord _ _ _ _ _ => []
  | _ => []

/-- Decode step 6 for one operand field (R12, R20, R31, R11). -/
def OpUse.ok (u : OpUse) : Bool :=
  match u.o with
  | .vec n =>
      u.ks.contains .v && (if n.toNat < 1536 then n.toNat % u.al == 0 else !u.dst)
  | .scl n =>
      n.toNat < 64 && u.ks.contains .s && (!u.pairS || n.toNat % 2 == 0)
  | .rsv _ => !u.dst && !u.strict
  | o => match o.form with
         | some f => u.ks.contains f
         | none => false

end Sys2Proof
end

