-- ==== Sys2Proof/Machine/Float.lean ====
section
/-! DEFINITION. The number rules of chapter 03: integer types and Fit, float formats, rounding, overflow,
NaN and zero signs, conversions, microscaled blocks, and the counter-based generator. -/

namespace Sys2Proof.Machine

/-! ## Integers (R56, R57, R84) -/

/-- The value of a `w`-bit pattern under a type (R56). -/
def IType.val (t : IType) (n : Nat) : Int :=
  let m := n % 2 ^ t.w
  if t.signed && m ≥ 2 ^ (t.w - 1) then (m : Int) - 2 ^ t.w else m

/-- Least and greatest values of a type (R56). -/
def IType.minOf (t : IType) : Int := if t.signed then -(2 ^ (t.w - 1)) else 0
def IType.maxOf (t : IType) : Int := if t.signed then 2 ^ (t.w - 1) - 1 else 2 ^ t.w - 1

/-- An integer's two's-complement pattern of `w` bits. -/
def intBits (w : Nat) (v : Int) : Nat := (v % (2 ^ w : Int)).toNat

/-- Clamps to a range. -/
def clampInt (v lo hi : Int) : Int := if v < lo then lo else if v > hi then hi else v

/-- `Fit` (R84): the value to write. -/
def fit (v : Int) (t : IType) (sat : Bool) : Int :=
  if sat then clampInt v (IType.minOf t) (IType.maxOf t) else IType.val t (intBits t.w v)

/-- The pattern written to a register of `r` bits: sign or zero extended by the type (R57). -/
def extend (t : IType) (v : Int) (r : Nat) : Nat := intBits (max r t.w) (IType.val t (intBits t.w v))

/-- Sign-extends an `n`-bit field to an integer. -/
def sext (n v : Nat) : Int := if v % 2 ^ n ≥ 2 ^ (n - 1) then (v % 2 ^ n : Int) - 2 ^ n else (v % 2 ^ n : Nat)

/-! ## Float formats (R58, R59) -/

/-- Mantissa bits. -/
def FType.mbits : FType → Nat
  | .f32 => 23 | .f16 => 10 | .bf16 => 7 | .e4m3 => 3 | .e5m2 => 2 | .e3m2 => 2 | .e2m3 => 3 | .e2m1 => 1
/-- Exponent bits. -/
def FType.ebits : FType → Nat
  | .f32 => 8 | .f16 => 5 | .bf16 => 8 | .e4m3 => 4 | .e5m2 => 5 | .e3m2 => 3 | .e2m3 => 2 | .e2m1 => 2
def FType.bias : FType → Int
  | .f32 => 127 | .f16 => 15 | .bf16 => 127 | .e4m3 => 7 | .e5m2 => 15 | .e3m2 => 3 | .e2m3 => 1
  | .e2m1 => 1
/-- Width in bits. -/
def FType.w (f : FType) : Nat := 1 + FType.ebits f + FType.mbits f
/-- Exponent of the smallest normal. -/
def FType.emin (f : FType) : Int := 1 - FType.bias f
/-- Exponent of the largest finite value. -/
def FType.emax : FType → Int
  | .f32 => 127 | .f16 => 15 | .bf16 => 127 | .e4m3 => 8 | .e5m2 => 15 | .e3m2 => 4 | .e2m3 => 2 | .e2m1 => 2
/-- The largest finite value as a multiple of its spacing. -/
def FType.maxn : FType → Nat
  | .e4m3 => 14
  | f => 2 ^ (FType.mbits f + 1) - 1
/-- Formats with infinities and several NaNs. -/
def FType.ieee : FType → Bool
  | .f32 | .f16 | .bf16 | .e5m2 => true
  | _ => false
/-- The canonical NaN (R59); formats without one give +0 (R63). -/
def FType.canon : FType → Nat
  | .f32 => 0x7FC00000 | .f16 => 0x7E00 | .bf16 => 0x7FC0 | .e4m3 => 0x7F | .e5m2 => 0x7E
  | _ => 0

/-- An exact float value: NaN, an infinity, or (−1)^neg × p ÷ d × 2^e. -/
inductive FVal where
  | nan
  | inf (neg : Bool)
  | fin (neg : Bool) (p d : Nat) (e : Int)
  deriving DecidableEq, Repr

/-- Zero of a sign. -/
def FVal.zero (neg : Bool) : FVal := .fin neg 0 1 0
def FVal.isNaN : FVal → Bool
  | .nan => true
  | _ => false
def FVal.isZero : FVal → Bool
  | .fin _ p _ _ => p == 0
  | _ => false
def FVal.isInf : FVal → Bool
  | .inf _ => true
  | _ => false
def FVal.sign : FVal → Bool
  | .nan => false
  | .inf s => s
  | .fin s _ _ _ => s

/-- Sign, exponent and mantissa fields of an encoding. -/
def FType.fields (f : FType) (n : Nat) : Bool × Nat × Nat :=
  (n.testBit (FType.ebits f + FType.mbits f), n / 2 ^ FType.mbits f % 2 ^ FType.ebits f,
    n % 2 ^ FType.mbits f)

/-- The value of an encoding (R58). -/
def FType.decode (f : FType) (n : Nat) : FVal :=
  let (s, e, m) := FType.fields f n
  let top := 2 ^ FType.ebits f - 1
  if FType.ieee f && e == top then (if m == 0 then .inf s else .nan)
  else if f == .e4m3 && e == 15 && m == 7 then .nan
  else if e == 0 then .fin s m 1 (FType.emin f - FType.mbits f)
  else .fin s (2 ^ FType.mbits f + m) 1 (e - FType.bias f - FType.mbits f)

/-- The encoding of (−1)^s × n × 2^q, n at most maxn, at the spacing of its exponent. -/
def FType.encode (f : FType) (s : Bool) (n : Nat) (q : Int) : Nat :=
  let sb := if s then 2 ^ (FType.ebits f + FType.mbits f) else 0
  if n < 2 ^ FType.mbits f then sb + n
  else sb + ((q + FType.mbits f + FType.bias f).toNat * 2 ^ FType.mbits f + (n - 2 ^ FType.mbits f))

/-- The largest finite value of a sign. -/
def FType.maxf (f : FType) (s : Bool) : Nat := FType.encode f s (FType.maxn f) (FType.emax f - FType.mbits f)

/-- The infinity of a sign; in `.e4m3` the NaN of that sign (R63). -/
def FType.infOf (f : FType) (s : Bool) : Nat :=
  let sb := if s then 2 ^ (FType.ebits f + FType.mbits f) else 0
  if f == .e4m3 then sb + 0x7F else sb + (2 ^ FType.ebits f - 1) * 2 ^ FType.mbits f

/-- `Overflow` (R63). -/
def overflow (s : Bool) (f : FType) (r : Rnd) (sat exact : Bool) : Nat :=
  if sat || !(FType.ieee f || f == .e4m3) then FType.maxf f s
  else if exact then FType.infOf f s
  else
    let toInf := match r with
      | .rne | .rna => true
      | .rtz => false
      | .rdn => s
      | .rup => !s
    if toInf then FType.infOf f s else FType.maxf f s

/-! ## Rounding (R62) -/

/-- The part of a quotient beyond its floor, against one half. -/
inductive Frac where
  | zero | below | half | above
  deriving DecidableEq, Repr

/-- `RoundInt` on a floor and what lies beyond it (R62). -/
def roundInt (n : Nat) (fr : Frac) (r : Rnd) (neg : Bool) : Nat :=
  match fr with
  | .zero => n
  | _ =>
    match r with
    | .rne => match fr with
        | .above => n + 1
        | .half => if n % 2 = 0 then n else n + 1
        | _ => n
    | .rna => match fr with
        | .above => n + 1
        | .half => n + 1
        | _ => n
    | .rtz => n
    | .rdn => if neg then n + 1 else n
    | .rup => if neg then n else n + 1

/-- Floor and remainder class of p ÷ d. -/
def quotFrac (p d : Nat) : Nat × Frac :=
  let n := p / d
  let rem := p % d
  (n, if rem = 0 then .zero else if 2 * rem < d then .below else if 2 * rem = d then .half else .above)

/-- p ÷ d × 2^k as a fraction of naturals. -/
def scaled (p d : Nat) (k : Int) : Nat × Nat :=
  if 0 ≤ k then (p * 2 ^ k.toNat, d) else (p, d * 2 ^ (-k).toNat)

/-- Floor of the logarithm to base 2 of p ÷ d × 2^e, for p not 0. -/
def floorLog2 (p d : Nat) (e : Int) : Int :=
  let l : Int := (Nat.log2 p : Int) - Nat.log2 d
  let (a, b) := scaled p d (-l)
  (if a < b then l - 1 else l) + e

/-- Rounds a positive magnitude, given its binary exponent and its quotient at a spacing, to a format
(R62). -/
def roundMag (f : FType) (r : Rnd) (sat neg : Bool) (lg : Int) (quot : Int → Nat × Frac) : Nat :=
  let e := max lg (FType.emin f)
  let q := e - FType.mbits f
  let (fl, fr) := quot q
  let n := roundInt fl fr r neg
  let (n, q) := if n = 2 ^ (FType.mbits f + 1) then (2 ^ FType.mbits f, q + 1) else (n, q)
  let top := FType.emax f - FType.mbits f
  if q > top || (q == top && n > FType.maxn f) then overflow neg f r sat false
  else FType.encode f neg n q

/-- `RoundFloat` (R62). -/
def roundFloat (x : FVal) (f : FType) (r : Rnd) (sat : Bool) : Nat :=
  match x with
  | .nan => FType.canon f
  | .inf s => overflow s f r sat true
  | .fin s p d e =>
      if p = 0 then FType.encode f s 0 0
      else roundMag f r sat s (floorLog2 p d e) fun q =>
        let (a, b) := scaled p d (e - q)
        quotFrac a b

/-- `RoundRne` (R62). -/
def roundRne (x : FVal) (f : FType) : Nat := roundFloat x f .rne false

/-! ## Exact operations (R65, R66) -/

def FVal.neg : FVal → FVal
  | .nan => .nan
  | .inf s => .inf (!s)
  | .fin s p d e => .fin (!s) p d e

/-- Product; zero times infinity is NaN. -/
def FVal.mul : FVal → FVal → FVal
  | .nan, _ => .nan
  | _, .nan => .nan
  | .inf s, .inf t => .inf (s != t)
  | .inf s, .fin t p _ _ => if p = 0 then .nan else .inf (s != t)
  | .fin t p _ _, .inf s => if p = 0 then .nan else .inf (s != t)
  | .fin s p d e, .fin t p' d' e' => .fin (s != t) (p * p') (d * d') (e + e')

/-- Quotient; 0 ÷ 0 and ∞ ÷ ∞ are NaN, finite ÷ 0 an exact infinity (R66, R78). -/
def FVal.div : FVal → FVal → FVal
  | .nan, _ => .nan
  | _, .nan => .nan
  | .inf _, .inf _ => .nan
  | .inf s, .fin t _ _ _ => .inf (s != t)
  | .fin s _ _ _, .inf t => FVal.zero (s != t)
  | .fin s p d e, .fin t p' d' e' =>
      if p' = 0 then (if p = 0 then .nan else .inf (s != t))
      else .fin (s != t) (p * d') (d * p') (e - e')

/-- The finite terms as integers over a common denominator and exponent. -/
def finSum : List FVal → Nat × Int → Int
  | [], _ => 0
  | .fin s p d e :: t, (D, E) =>
      let (a, b) := scaled p d (e - E)
      let v : Int := (a * D / b : Nat)
      (if s then -v else v) + finSum t (D, E)
  | _ :: t, k => finSum t k

/-- Exact sum of any number of terms, with the zero sign of R65 and the invalid cases of R66. -/
def FVal.sum (r : Rnd) (ts : List FVal) : FVal :=
  if ts.any FVal.isNaN then .nan
  else
    let pos := ts.any fun t => t == .inf false
    let neg := ts.any fun t => t == .inf true
    if pos && neg then .nan
    else if pos then .inf false
    else if neg then .inf true
    else
      let es := ts.filterMap fun t => match t with
        | .fin _ p _ e => if p = 0 then none else some e
        | _ => none
      match es with
      | [] =>
          if ts.all fun t => t.sign then FVal.zero true
          else if ts.all fun t => !t.sign then FVal.zero false
          else FVal.zero (r == .rdn)
      | e0 :: _ =>
          let E := es.foldl min e0
          let D := ts.foldl (fun a t => match t with
            | .fin _ _ d _ => Nat.lcm a d
            | _ => a) 1
          let v := finSum ts (D, E)
          if v = 0 then FVal.zero (r == .rdn) else .fin (v < 0) v.natAbs D E

/-- −1, 0 or 1 as a is below, equal to or above b; both finite or infinite. −0 equals +0. -/
def FVal.cmp (a b : FVal) : Int :=
  match a, b with
  | .inf s, .inf t => if s = t then 0 else if s then -1 else 1
  | .inf s, _ => if s then -1 else 1
  | _, .inf t => if t then 1 else -1
  | a, b =>
      match FVal.sum .rne [a, b.neg] with
      | .fin s p _ _ => if p = 0 then 0 else if s then -1 else 1
      | _ => 0

/-- `vfmin` and `vfmax` on encodings (R66): −0 below +0; a single NaN yields the other operand. -/
def fminmax (f : FType) (mx : Bool) (a b : Nat) : Nat :=
  let va := FType.decode f a
  let vb := FType.decode f b
  if va.isNaN && vb.isNaN then FType.canon f
  else if va.isNaN then b
  else if vb.isNaN then a
  else
    let c := va.cmp vb
    let aLess := if c = 0 then va.sign && !vb.sign else c < 0
    if mx then (if aLess then b else a) else if aLess then a else (if c = 0 && va.sign == vb.sign then a else b)

/-- A power of two times a value. -/
def FVal.scale (x : FVal) (n : Int) : FVal :=
  match x with
  | .fin s p d e => .fin s p d (e + n)
  | v => v

/-- An integer as an exact value. -/
def FVal.ofInt (v : Int) : FVal := .fin (v < 0) v.natAbs 1 0

/-- The integer nearest to a finite value under a rounding mode (R69). -/
def FVal.toIntR (x : FVal) (r : Rnd) : Int :=
  match x with
  | .fin s p d e =>
      let (a, b) := scaled p d e
      let (n, fr) := quotFrac a b
      let m : Int := roundInt n fr r s
      if s then -m else m
  | _ => 0

/-- Float to integer (R69): the clamped value, and whether R68 condition 3 holds. -/
def f2i (x : FVal) (t : IType) (r : Rnd) : Int × Bool :=
  match x with
  | .nan => (0, true)
  | .inf s => (if s then IType.minOf t else IType.maxOf t, true)
  | v =>
      let n := v.toIntR r
      let k := clampInt n (IType.minOf t) (IType.maxOf t)
      (k, k != n)

/-- `vfround` (R100). -/
def froundInt (f : FType) (a : Nat) (r : Rnd) : Nat :=
  match FType.decode f a with
  | .nan => FType.canon f
  | .inf s => FType.infOf f s
  | .fin s p d e =>
      let (x, y) := scaled p d e
      let (n, fr) := quotFrac x y
      roundFloat (.fin s (roundInt n fr r s) 1 0) f .rne false

/-- Class mask (R97). -/
def fclass (f : FType) (a : Nat) : Nat :=
  match FType.decode f a with
  | .nan => 256
  | .inf s => if s then 1 else 128
  | .fin s p _ _ =>
      let (_, e, _) := FType.fields f a
      if p = 0 then (if s then 8 else 16)
      else if e = 0 then (if s then 4 else 32)
      else (if s then 2 else 64)

/-! ## Square roots -/

/-- Integer square root, one bit at a time from bit `k`. -/
def isqrtGo (n : Nat) : Nat → Nat → Nat
  | 0, r => r
  | k + 1, r => if (r + 2 ^ k) * (r + 2 ^ k) ≤ n then isqrtGo n k (r + 2 ^ k) else isqrtGo n k r
/-- Floor of the square root. -/
def isqrt (n : Nat) : Nat := isqrtGo n (Nat.log2 n / 2 + 1) 0

/-- The correctly rounded square root of a positive p ÷ d × 2^e. -/
def roundSqrt (f : FType) (r : Rnd) (sat : Bool) (p d : Nat) (e : Int) : Nat :=
  let lg := floorLog2 p d e
  roundMag f r sat false (lg / 2) fun q =>
    let (a, b) := scaled p d (e - 2 * q)
    let n := isqrt (a / b)
    let fr := if n * n * b = a then Frac.zero
      else if 4 * a < (2 * n + 1) * (2 * n + 1) * b then .below
      else if 4 * a = (2 * n + 1) * (2 * n + 1) * b then .half else .above
    (n, fr)

/-! ## Microscaled blocks (R61, R71) -/

/-- Exponent bound of `MxQuant`. -/
def mxEmax : FType → Int
  | .e2m1 | .e2m3 => 2
  | .e3m2 => 4
  | .e4m3 => 8
  | .e5m2 => 15
  | _ => 0

/-- `MxQuant` (R71): the scale byte and the elements. -/
def mxQuant (vs : List FVal) (f : FType) : Nat × List Nat :=
  if vs.any fun v => v.isNaN || v.isInf then (0xFF, vs.map fun _ => 0)
  else
    let logs := vs.filterMap fun v => match v with
      | .fin _ p d e => if p = 0 then none else some (floorLog2 p d e)
      | _ => none
    match logs with
    | [] => (0x7F, vs.map fun v => FType.encode f v.sign 0 0)
    | l :: _ =>
        let sx := clampInt (logs.foldl max l - mxEmax f) (-127) 127
        ((sx + 127).toNat, vs.map fun v => roundFloat (v.scale (-sx)) f .rne true)

/-- The value of an E8M0 byte (R61); NaN for 0xFF. -/
def e8m0 (n : Nat) : FVal := if n % 256 = 255 then .nan else .fin false 1 1 ((n % 256 : Nat) - 127)

/-! ## Packed elements (R60) -/

/-- The little-endian bit string of a list of `k`-bit units, as a number. -/
def packNat (k : Nat) : List Nat → Nat
  | [] => 0
  | x :: xs => x % 2 ^ k + 2 ^ k * packNat k xs
/-- Element `i` of width `w` of a bit string. -/
def elemOf (s w i : Nat) : Nat := s / 2 ^ (w * i) % 2 ^ w

/-! ## The generator (R80, R81) -/

def rotl32 (w n : Nat) : Nat := (w * 2 ^ n) % 2 ^ 32 + w / 2 ^ (32 - n)

/-- Rotation amounts of round j, and the key words added after odd rounds. -/
def obRounds (k : Nat → Nat) : List (Nat × Nat × Nat) → Nat → Nat × Nat × Nat × Nat →
    Nat × Nat × Nat × Nat
  | [], _, w => w
  | (_, ra, rb) :: t, j, (w0, w1, w2, w3) =>
      let m := 2 ^ 32
      let w0 := (w0 + w1) % m
      let w1 := Nat.xor (rotl32 w1 ra) w0
      let w2 := (w2 + w3) % m
      let w3 := Nat.xor (rotl32 w3 rb) w2
      let (w1, w3) := (w3, w1)
      if j % 2 = 1 then
        let i := (j + 1) / 2
        obRounds k t (j + 1) ((w0 + k (i % 3)) % m, (w1 + k ((i + 1) % 3)) % m,
          (w2 + k ((i + 2) % 3)) % m, (w3 + i) % m)
      else obRounds k t (j + 1) (w0, w1, w2, w3)

/-- `Obgen` (R80). -/
def obgen (seed stream ctr : Nat) : Nat :=
  let m := 2 ^ 32
  let k0 := seed % m
  let k1 := seed / m % m
  let k2 := Nat.xor (Nat.xor k0 k1) 0x1BD11BDA
  let k (i : Nat) : Nat := if i = 0 then k0 else if i = 1 then k1 else k2
  let rs := [(0, 13, 19), (1, 15, 8), (2, 26, 23), (3, 6, 12), (4, 17, 9), (5, 29, 27), (6, 16, 5),
    (7, 24, 18), (8, 11, 14), (9, 21, 7)]
  (obRounds k rs 0 ((ctr + k0) % m, (stream % m + k1) % m, (stream / m % m + k2) % m, 0x9E3779B9)).1

/-- The float of `vrngf`: (2 × w[31:9] + 1) × 2^−24 (R81). -/
def rngFloat (w : Nat) : Nat := roundRne (.fin false (2 * (w / 512) + 1) 1 (-24)) .f32

end Sys2Proof.Machine
end

