-- ==== Sys2Proof/WellFormed.lean ====
section
/-! DEFINITION. Which instruction terms stand for a word: the types, roundings and modifier values each
entry permits (02 R42; the instruction entries), the operand forms (02 R45 step 6) and the pairing
restriction (02 R35). -/

namespace Sys2Proof

/-- The codes R20 defines; every other code of 10 bits is reserved. -/
def codeDefined (c : BitVec 10) : Bool :=
  c.toNat < 4 || (0x10 ≤ c.toNat && c.toNat < 0x20) || (0x40 ≤ c.toNat && c.toNat < 0x70)
    || (0x80 ≤ c.toNat && c.toNat < 0xB0) || (0x100 ≤ c.toNat && c.toNat < 0x10F)

/-- A reserved code is no defined code. -/
def Opd.wf : Opd → Bool
  | .rsv c => !codeDefined c
  | _ => true

/-- The unsigned integer types. -/
def IType.isN (t : IType) : Bool := !t.signed
/-- `.f32`, `.f16`, `.bf16` (R96). -/
def FType.isArith : FType → Bool
  | .f32 | .f16 | .bf16 => true
  | _ => false
/-- `.f16`, `.bf16`, `.e4m3`, `.e5m2` (R101). -/
def FType.isPack : FType → Bool
  | .f16 | .bf16 | .e4m3 | .e5m2 => true
  | _ => false
/-- `.e4m3`, `.e5m2` (R101). -/
def FType.isB8 : FType → Bool
  | .e4m3 | .e5m2 => true
  | _ => false
/-- `.i32`, `.n32`, `.i64`, `.n64` (R89, R90). -/
def IType.is3264 (t : IType) : Bool := t.w = 32 || t.w = 64

/-- Rounding and grade of the transcendentals (R77). -/
def transOk (t : FType) (r : Rnd) (fast exact : Bool) : Bool :=
  t.isArith && (r == .rne || (exact && !fast))

/-- Whether a comparison condition is an integer one (R91). -/
def Cond.isInt : Cond → Bool
  | .ord | .uno => false
  | _ => true

/-- Operation and type of `vredux` and `vscan` (R176). -/
def redOk (o : RedOp) (t : RedType) (sat : Bool) (r : Rnd) : Bool :=
  match t with
  | .int _ => (!sat || o == .add) && r == .rne
  | _ => !sat && (o == .add || o == .min || o == .max)

/-- Operation and type of the atomics (R211). -/
def atomOk (o : AtomOp) (t : AtomTy) : Bool :=
  match t with
  | .i32 | .i64 => !(o == .inc || o == .dec)
  | .n32 | .n64 => true
  | _ => o == .add || o == .min || o == .max

/-- The fields `rqst` may write (R309). -/
def RqFld.writable : RqFld → Bool
  | .prio | .temp | .minp | .topk | .seed => true
  | _ => false

/-- Decode step 4 on the typed fields: types, roundings and modifier values the entry permits. -/
def Instr.modsOk : Instr → Bool
  | .vmadw _ t _ _ _ _ _ => t.w = 16 || t.w = 32
  | .vabs _ t _ _ _ => t.signed
  | .vshl _ t _ _ _ | .vshr _ t _ _ _ | .vrot _ t _ _ _ => t.isN
  | .vsra _ t _ _ _ => t.signed
  | .vbfe _ t _ _ _ _ => t.is3264
  | .vbfi _ t pos len _ _ _ => t.is3264 && t.isN && pos.toNat + len.toNat ≤ t.w
  | .vpopc _ t _ _ | .vclz _ t _ _ | .vctz _ t _ _ | .vbrev _ t _ _ => t.isN
  | .vlea _ t _ _ _ _ => t.is3264
  | .vcmp _ _ cc _ _ _ => cc.isInt
  | .vfadd _ t _ _ _ _ _ | .vfsub _ t _ _ _ _ _ | .vfmul _ t _ _ _ _ _ => t.isArith
  | .vffma _ t _ _ _ _ _ _ => t.isArith
  | .vfmin _ t _ _ _ | .vfmax _ t _ _ _ => t.isArith
  | .vfround _ t _ _ _ => t.isArith
  | .vfscale _ t _ _ _ _ _ => t.isArith
  | .vfpack _ t _ _ hi _ _ _ => t.isPack && (!hi || t.isB8)
  | .vfunpk _ t hi _ _ => t.isPack && (!hi || t.isB8)
  | .vfdot2 _ t _ _ _ _ _ _ => t == .f16 || t == .bf16
  | .vfrcp _ t r _ fast _ _ | .vfsqrt _ t r _ fast _ _ => transOk t r fast true
  | .vfdiv _ t r _ fast _ _ _ => transOk t r fast true
  | .vfrsq _ t r _ fast _ _ | .vfexp2 _ t r _ fast _ _ | .vflog2 _ t r _ fast _ _
  | .vfsin _ t r _ fast _ _ | .vfcos _ t r _ fast _ _ | .vftanh _ t r _ fast _ _
  | .vfsigm _ t r _ fast _ _ | .vfgelu _ t r _ fast _ _ | .vfsilu _ t r _ fast _ _ =>
      transOk t r fast false
  | .sshl _ t _ _ _ | .sshr _ t _ _ _ => t.isN
  | .ssra _ t _ _ _ => t.signed
  | .scmp _ _ cc _ _ _ => cc.isInt
  | .sfadd _ t _ _ _ _ | .sfmul _ t _ _ _ _ => t.isArith
  | .sffma _ t _ _ _ _ _ => t.isArith
  | .sfcmp _ t _ _ _ _ => t.isArith
  | .sld _ w _ _ _ _ _ => !(w == .b128)
  | .sst _ w _ _ _ _ _ => !(w == .b128)
  | .vtos _ lane first _ _ _ => !first || lane == 0
  | .vvote _ m _ _ k => (m == .ge) == k.isSome
  | .vredux _ o t sat r _ _ => redOk o t sat r
  | .vscan _ o t sat _ r _ _ => redOk o t sat r
  | .atom _ o t _ _ _ _ _ => atomOk o t
  | .atoml _ o t _ _ _ _ _ => atomOk o t
  | .red _ o t _ _ _ _ => atomOk o t && !(o == .exch || o == .cas)
  | .rqst _ f _ _ _ => f.writable
  | _ => true

/-- The vector registers one half reads (R34, R35). -/
def Half.reads (h : Half) : List (BitVec 10) :=
  match h.hop with
  | .not | .mov | .abs | .neg | .popc | .clz | .ctz | .brev => [h.a]
  | .ffma | .ffmaz => [h.d, h.a, h.b]
  | _ => [h.a, h.b]

/-- The unused field of a half is zero (R34). -/
def Half.unusedOk (h : Half) : Bool :=
  match h.hop with
  | .not | .mov | .abs | .neg | .popc | .clz | .ctz | .brev => h.b == 0
  | _ => true

/-- Source reads of a pair word in one register bank (R13, R35). -/
def bankReads (k : Nat) (rs : List (BitVec 10)) : Nat :=
  (rs.filter fun r => r.toNat % 4 == k).length

/-- The pairing restriction (R35). -/
def pairOk (p q : Half) : Bool :=
  !(p.d == q.d) && !(p.reads.contains q.d) && !(q.reads.contains p.d)
    && ([0, 1, 2, 3].all fun k => bankReads k (p.reads ++ q.reads) ≤ 2)

/-- Decode step 6: operand forms, and the pairing restriction of a pair word. -/
def Instr.operandsOk : Instr → Bool
  | .pairWord _ _ _ p q => pairOk p q
  | .hmov h d a =>
      ((Instr.hmov h d a).uses.all fun u => u.ok && u.o.wf)
        && !(d.form == some .s && a.form == some .s)
  | i => i.uses.all fun u => u.ok && u.o.wf

/-- Decode step 5 on a pair word: its unused half fields are zero. -/
def Instr.unusedOk : Instr → Bool
  | .pairWord _ _ _ p q => p.unusedOk && q.unusedOk
  | _ => true

/-- Whether a constructor stands for a word (true) or for one of the device's own steps (false). -/
def Instr.isWord : Instr → Bool
  | .bankroleApply _ | .issueGroupDraw _ | .binAged _ _ _ | .longLatencyDissolve _ _ | .rotation _ _
  | .waitConditionMet _ _ _ | .variableLatencyWriteback _ _ | .urgencyMark _ | .rejoinRelease _ _ _ _
  | .collectorFire _ _ _ _ | .barrierRelease _ _ _ _ | .engineGrant _ | .loadDataReturn _ _
  | .storeGloballyPerformed _ _ | .faultRingEntryWrite _ | .teamHalt _ _
  | .commandPortionArrival _ _ | .commandRetire _ _ | .commandFailure _ _ | .pageRecall _ _
  | .pageEviction _ | .teamPlacement _ _ | .gridCompletion _ | .replayBegin _ | .kick _
  | .launchPacket _ | .wsload _ | .setdet _ | .signal _ | .wait _ | .meridianStep _
  | .meridianIdlePoll _ | .ctxbell _ | .contextTablePoll _ | .contextRun _ | .contextEvict _
  | .evictionComplete _ | .contextKill _ | .deadlineSaveSegment _ _ | .journalMismatch _
  | .portIntervalRefill _ | .portArbitrate _ | .linkRead _ _ _ _ _ | .linkWrite _ _ _ _ _
  | .linkMaskedWrite _ _ _ _ _ _ | .linkAtomic _ _ _ _ _ _ _ _ _ | .urgencyNotice _ _
  | .linkReply _ _ | .refreshDue _ _ | .forcedRefresh _ _ | .retrainIntervalExpiry _ _
  | .stkrate _ _ | .dataRateChange _ _ | .patrolScrub _ _ _ | .sramPatrol _ _ _ _
  | .weightStoreRefreshWindow _ | .cxlTimeout _ _ | .linkCrcFailure _ _ _
  | .flolvoPageReceive _ _ _ _ | .dieHalt _ _ | .warmReset _ | .coldReset | .powerThermalStep _ _
  | .errctlHalt _ _ | .errctlUnfrz _ | .rbdataRead | .rbdataWrite _ | .attreq _
  | .hostRegisterWrite _ _ | .firmwareVerify _ _ | .postPackageRepair _ _ | .weightStoreWindowEnd _
  | .requestWaited2us _ _ | .hostAgentAccess _ _ _ => false
  | _ => true

/-- A term that some 96-bit word stands for. -/
def WellFormed (i : Instr) : Bool :=
  i.isWord && i.modsOk && i.unusedOk && i.operandsOk

end Sys2Proof
end

