-- ==== Sys2Proof/Decode.lean ====
section
/-! DEFINITION. From a 96-bit word to an instruction and back (02 R28 to R45). Decoding is total: a
word that stands for no instruction is rejected by the name of the first check of R45 it fails. -/

namespace Sys2Proof

/-- The checks of R45 that depend on the word alone, in their order. -/
inductive Illegal where
  /-- Step 1: guard predicate code 48 to 63. -/
  | reservedGuard
  /-- Step 2: class 12 to 15. -/
  | reservedClass
  /-- Step 3: op or half-opcode unassigned. -/
  | unassignedOp
  /-- Step 4: reserved modifier code, undefined per-op value, type not permitted. -/
  | modifier
  /-- Step 5: a non-zero reserved bit or unused field. -/
  | unusedField
  /-- Step 6: operand form, register code, pairing restriction. -/
  | operand
  deriving DecidableEq, Repr

/-- The fields of formats S and L (R29, R32). -/
structure Raw where
  cls : BitVec 4
  op : BitVec 8
  d : BitVec 13
  a : BitVec 13
  b : BitVec 13
  x : BitVec 13
  g : BitVec 7
  ht : BitVec 16
  m : BitVec 9
  deriving DecidableEq, Repr

/-- The fields of a word (R29). -/
def Raw.ofWord (w : IWord) : Raw where
  cls := w.extractLsb' 92 4
  op := w.extractLsb' 84 8
  d := w.extractLsb' 71 13
  a := w.extractLsb' 58 13
  b := w.extractLsb' 45 13
  x := w.extractLsb' 32 13
  g := w.extractLsb' 25 7
  ht := w.extractLsb' 9 16
  m := w.extractLsb' 0 9

/-- The word with these fields (R29). -/
def Raw.toWord (r : Raw) : IWord :=
  r.cls ++ r.op ++ r.d ++ r.a ++ r.b ++ r.x ++ r.g ++ r.ht ++ r.m

/-! ## Shared codes (R43) -/

def IType.ofCode (c : BitVec 3) : IType :=
  match c.toNat with
  | 0 => .i8 | 1 => .i16 | 2 => .i32 | 3 => .i64 | 4 => .n8 | 5 => .n16 | 6 => .n32 | _ => .n64
def IType.code : IType → BitVec 3
  | .i8 => 0 | .i16 => 1 | .i32 => 2 | .i64 => 3 | .n8 => 4 | .n16 => 5 | .n32 => 6 | .n64 => 7
def FType.ofCode (c : BitVec 3) : FType :=
  match c.toNat with
  | 0 => .f32 | 1 => .f16 | 2 => .bf16 | 3 => .e4m3 | 4 => .e5m2 | 5 => .e3m2 | 6 => .e2m3 | _ => .e2m1
def FType.code : FType → BitVec 3
  | .f32 => 0 | .f16 => 1 | .bf16 => 2 | .e4m3 => 3 | .e5m2 => 4 | .e3m2 => 5 | .e2m3 => 6 | .e2m1 => 7
def Rnd.ofCode (c : BitVec 3) : Option Rnd :=
  match c.toNat with
  | 0 => some .rne | 1 => some .rtz | 2 => some .rdn | 3 => some .rup | 4 => some .rna | _ => none
def Rnd.code : Rnd → BitVec 3
  | .rne => 0 | .rtz => 1 | .rdn => 2 | .rup => 3 | .rna => 4
def AWidth.ofCode (c : BitVec 3) : Option AWidth :=
  match c.toNat with
  | 0 => some .b8 | 1 => some .b16 | 2 => some .b32 | 3 => some .b64 | 4 => some .b128 | _ => none
def AWidth.code : AWidth → BitVec 3
  | .b8 => 0 | .b16 => 1 | .b32 => 2 | .b64 => 3 | .b128 => 4
def CHint.ofCode (c : BitVec 2) : Option CHint :=
  match c.toNat with
  | 0 => some .dflt | 1 => some .strm | 2 => some .keep | _ => none
def CHint.code : CHint → BitVec 2
  | .dflt => 0 | .strm => 1 | .keep => 2
def Scope.ofCode (c : BitVec 4) : Option Scope :=
  match c.toNat with
  | 0 => some .th | 1 => some .grp | 2 => some .team | 3 => some .core | 4 => some .clu | 5 => some .quad
  | 6 => some .die | 7 => some .pkg | 8 => some .dev | 9 => some .host | 10 => some .peer
  | 11 => some .sys | _ => none
def Scope.code : Scope → BitVec 4
  | .th => 0 | .grp => 1 | .team => 2 | .core => 3 | .clu => 4 | .quad => 5 | .die => 6 | .pkg => 7
  | .dev => 8 | .host => 9 | .peer => 10 | .sys => 11
def Cond.ofCode (c : BitVec 3) : Cond :=
  match c.toNat with
  | 0 => .eq | 1 => .ne | 2 => .lt | 3 => .le | 4 => .gt | 5 => .ge | 6 => .ord | _ => .uno
def Cond.code : Cond → BitVec 3
  | .eq => 0 | .ne => 1 | .lt => 2 | .le => 3 | .gt => 4 | .ge => 5 | .ord => 6 | .uno => 7
def Path.ofCode (c : BitVec 3) : Option Path :=
  match c.toNat with
  | 0 => some .ls | 1 => some .cp | 2 => some .gk | 3 => some .mx | 4 => some .ro | 5 => some .rq
  | 6 => some .nt | _ => none
def Path.code : Path → BitVec 3
  | .ls => 0 | .cp => 1 | .gk => 2 | .mx => 3 | .ro => 4 | .rq => 5 | .nt => 6

/-- One bit as a field. -/
def bit1 (b : Bool) : BitVec 1 := if b then 1 else 0

/-! ## Operand fields (R12, R20, R31) -/

def Opd.ofCode (c : BitVec 10) : Opd :=
  let n := c.toNat
  if n < 4 then .idx (BitVec.ofNat 2 n)
  else if 0x10 ≤ n ∧ n < 0x20 then .hnd (BitVec.ofNat 4 (n - 0x10))
  else if h : 0x40 ≤ n ∧ n < 0x70 then .prd ⟨n - 0x40, by omega⟩
  else if h : 0x80 ≤ n ∧ n < 0xB0 then .til ⟨n - 0x80, by omega⟩
  else if h : 0x100 ≤ n ∧ n < 0x10F then .spc ⟨n - 0x100, by omega⟩
  else .rsv c

def Opd.ofField (f : BitVec 13) : Opd :=
  match (f.extractLsb' 11 2).toNat with
  | 0 => .vec (f.extractLsb' 0 11)
  | 1 => .ind (f.extractLsb' 9 2) (f.extractLsb' 0 9)
  | 2 => if f.getLsbD 10 then .ofCode (f.extractLsb' 0 10) else .scl (f.extractLsb' 0 10)
  | _ => .imm (f.extractLsb' 0 11)

def Opd.field : Opd → BitVec 13
  | .vec n => (0#2 ++ n : BitVec 13)
  | .ind x b => (1#2 ++ x ++ b : BitVec 13)
  | .scl n => (0b100#3 ++ n : BitVec 13)
  | .idx n => (0b101#3 ++ BitVec.ofNat 10 n.toNat : BitVec 13)
  | .hnd n => (0b101#3 ++ BitVec.ofNat 10 (0x10 + n.toNat) : BitVec 13)
  | .prd n => (0b101#3 ++ BitVec.ofNat 10 (0x40 + n.val) : BitVec 13)
  | .til n => (0b101#3 ++ BitVec.ofNat 10 (0x80 + n.val) : BitVec 13)
  | .spc n => (0b101#3 ++ BitVec.ofNat 10 (0x100 + n.val) : BitVec 13)
  | .rsv c => (0b101#3 ++ c : BitVec 13)
  | .imm i => (3#2 ++ i : BitVec 13)

/-- An optional operand: zero for none. -/
def optField : Option Opd → BitVec 13
  | none => 0
  | some o => o.field
/-- An optional operand: zero for none. -/
def optOfField (f : BitVec 13) : Option Opd := if f = 0 then none else some (.ofField f)

/-! ## Guard and hints (R37, R38) -/

def Hints.ofBits (h : BitVec 16) : Hints where
  stall := h.extractLsb' 12 4
  yld := h.getLsbD 11
  post := h.extractLsb' 9 2
  need := h.extractLsb' 3 6
  fwd := h.getLsbD 2

def Hints.bits (h : Hints) : BitVec 16 :=
  (h.stall ++ bit1 h.yld ++ h.post ++ h.need ++ bit1 h.fwd ++ 0#2 : BitVec 16)

def Guard.bits (g : Guard) : BitVec 7 := (bit1 g.neg ++ BitVec.ofNat 6 g.p.val : BitVec 7)

/-- The guard, unless its code is 48 to 63 (R37). -/
def Guard.ofBits (g : BitVec 7) : Option Guard :=
  if h : (g.extractLsb' 0 6).toNat < 48 then
    some { neg := g.getLsbD 6, p := ⟨(g.extractLsb' 0 6).toNat, h⟩ }
  else none

/-! ## Modifier layouts (R42) -/

namespace Raw
/-- Bits `lo` up of the modifier. -/
def mb (r : Raw) (lo n : Nat) : BitVec n := r.m.extractLsb' lo n
def D (r : Raw) : Opd := .ofField r.d
def A (r : Raw) : Opd := .ofField r.a
def B (r : Raw) : Opd := .ofField r.b
def X (r : Raw) : Opd := .ofField r.x
/-- Integer type in [8:6]. -/
def it (r : Raw) : IType := .ofCode (r.mb 6 3)
/-- Float type in [8:6]. -/
def ft (r : Raw) : FType := .ofCode (r.mb 6 3)
/-- Scope in [8:5]. -/
def sc (r : Raw) : Except Illegal Scope :=
  match Scope.ofCode (r.mb 5 4) with
  | some s => .ok s
  | none => .error .modifier
/-- Rounding in [5:3]. -/
def rn (r : Raw) : Except Illegal Rnd :=
  match Rnd.ofCode (r.mb 3 3) with
  | some s => .ok s
  | none => .error .modifier
/-- Cache hint at `lo`. -/
def ch (r : Raw) (lo : Nat) : Except Illegal CHint :=
  match CHint.ofCode (r.mb lo 2) with
  | some s => .ok s
  | none => .error .modifier
/-- Width in [2:0]. -/
def wd (r : Raw) : Except Illegal AWidth :=
  match AWidth.ofCode (r.mb 0 3) with
  | some s => .ok s
  | none => .error .modifier
/-- Bit `k` of the modifier. -/
def bt (r : Raw) (k : Nat) : Bool := r.m.getLsbD k
/-- The 32-bit immediate of format L (R32). -/
def imm (r : Raw) : BitVec 32 := r.b ++ r.x ++ r.mb 3 6
end Raw

/-- A field or per-op value the entry requires to hold. -/
def need (b : Bool) : Except Illegal Unit := if b then .ok () else .error .modifier

/-- The result of reading the fields: the instruction, and whether the fields it does not use are
zero (R45 step 5, reported after step 4). -/
abbrev Built := Except Illegal (Instr × Bool)

/-- Class 0 (R86, R94, R95). -/
def build0 (h : Hdr) (r : Raw) : Built :=
  let t := r.it
  let sat := r.bt 5
  let d := r.D
  let a := r.A
  let b := r.B
  let c := r.X
  let z5 := r.mb 0 5 == 0
  let two := r.x == 0
  let one := r.b == 0 && r.x == 0
  let arith (u : Bool) (i : Instr) : Built := do need z5; pure (i, u)
  let plain (u : Bool) (i : Instr) : Built := do need (z5 && !sat); pure (i, u)
  match r.op.toNat with
  | 0x00 => arith two (.vadd h t sat d a b)
  | 0x01 => arith two (.vsub h t sat d a b)
  | 0x02 => arith two (.vmul h t sat d a b)
  | 0x03 => plain two (.vmulh h t d a b)
  | 0x04 => arith true (.vmad h t sat d a b c)
  | 0x05 => arith true (.vmadw h t sat d a b c)
  | 0x06 => do need (r.mb 1 4 == 0); pure (.vdiv h t sat (r.bt 0) d a b, two)
  | 0x07 => plain two (.vmin h t d a b)
  | 0x08 => plain two (.vmax h t d a b)
  | 0x09 => arith one (.vabs h t sat d a)
  | 0x0A => arith one (.vneg h t sat d a)
  | 0x0B => plain two (.vand h t d a b)
  | 0x0C => plain two (.vor h t d a b)
  | 0x0D => plain two (.vxor h t d a b)
  | 0x0E => plain one (.vnot h t d a)
  | 0x0F => plain two (.vshl h t d a b)
  | 0x10 => plain two (.vshr h t d a b)
  | 0x11 => plain two (.vsra h t d a b)
  | 0x12 => plain two (.vrot h t d a b)
  | 0x13 => plain true (.vbfe h t d a b c)
  | 0x14 => plain true (.vbfi h t (r.x.extractLsb' 0 6) (r.x.extractLsb' 6 7) d a b)
  | 0x15 => plain one (.vpopc h t d a)
  | 0x16 => plain one (.vclz h t d a)
  | 0x17 => plain one (.vctz h t d a)
  | 0x18 => plain one (.vbrev h t d a)
  | 0x19 => plain true (.vsel h t d a b c)
  | 0x1A => plain (r.x.extractLsb' 3 10 == 0) (.vlea h t (r.x.extractLsb' 0 3) d a b)
  | 0x1B => do
      need (r.mb 3 2 == 0 && !sat)
      pure (.vcmp h t (.ofCode (r.mb 0 3)) d a b, two)
  | 0x1C => do need (z5 && !sat && t == .n32); pure (.vaddc h d a b c, true)
  | 0x1D => do need (z5 && !sat && t == .n32); pure (.vsubb h d a b c, true)
  | 0x1E => plain one (.vmov h t d a)
  | 0x1F => do
      let f ← match (r.mb 0 3).toNat with
        | 0 => .ok LaneForm.plain
        | 1 => .ok .hlane
        | 2 => .ok .thr
        | _ => .error .modifier
      pure (.vmovi h f r.imm d, r.a == 0)
  | 0x20 => do need (z5 && !sat && t == .n32); pure (.vprmt h d a b c, true)
  | 0x30 => do need (z5 && !sat && t == .n32); pure (.vrng h d a b c, true)
  | 0x31 => do need (z5 && !sat && t == .n32); pure (.vrngf h d a b c, true)
  | _ => .error .unassignedOp

/-- Class 1 (R96, R104). -/
def build1 (h : Hdr) (r : Raw) : Built :=
  let t := r.ft
  let sat := r.bt 2
  let fast := r.bt 1
  let lo := r.bt 0
  let d := r.D
  let a := r.A
  let b := r.B
  let c := r.X
  let two := r.x == 0
  let one := r.b == 0 && r.x == 0
  -- any rounding and saturation, grade and per-op bit clear; rounding 0, nothing else; transcendental
  let full (u : Bool) (f : Rnd → Instr) : Built := do
    let rn ← r.rn; need (!fast && !lo); pure (f rn, u)
  let bare (u : Bool) (i : Instr) : Built := do need (r.mb 0 6 == 0); pure (i, u)
  let trans (u : Bool) (f : Rnd → Instr) : Built := do let rn ← r.rn; need (!lo); pure (f rn, u)
  match r.op.toNat with
  | 0x00 => full two (.vfadd h t · sat d a b)
  | 0x01 => full two (.vfsub h t · sat d a b)
  | 0x02 => full two (.vfmul h t · sat d a b)
  | 0x03 => full true (.vffma h t · sat d a b c)
  | 0x04 => bare two (.vfmin h t d a b)
  | 0x05 => bare two (.vfmax h t d a b)
  | 0x06 => bare (r.x.extractLsb' 3 10 == 0) (.vfcmp h t (.ofCode (r.x.extractLsb' 0 3)) d a b)
  | 0x07 => bare one (.vfclass h t d a)
  | 0x08 => full (r.b == 0 && r.x.extractLsb' 3 10 == 0)
      (.vfcvt h t · sat (.ofCode (r.x.extractLsb' 0 3)) d a)
  | 0x09 => do
      let rn ← r.rn
      need (!fast)
      pure (.vfcvti h t rn sat lo (.ofCode (r.x.extractLsb' 0 3)) d a,
        r.b == 0 && r.x.extractLsb' 3 10 == 0)
  | 0x0A => do let rn ← r.rn; need (!sat && !fast && !lo); pure (.vfround h t rn d a, one)
  | 0x0B => full two (.vfscale h t · sat d a b)
  | 0x0C => do let rn ← r.rn; need (!fast); pure (.vfpack h t rn sat lo d a b, two)
  | 0x0D => do need (r.mb 1 5 == 0); pure (.vfunpk h t lo d a, one)
  | 0x0E => full true (.vfdot2 h t · sat d a b c)
  | 0x20 => trans one (.vfrcp h t · sat fast d a)
  | 0x21 => trans one (.vfrsq h t · sat fast d a)
  | 0x22 => trans one (.vfsqrt h t · sat fast d a)
  | 0x23 => trans two (.vfdiv h t · sat fast d a b)
  | 0x24 => trans one (.vfexp2 h t · sat fast d a)
  | 0x25 => trans one (.vflog2 h t · sat fast d a)
  | 0x26 => trans one (.vfsin h t · sat fast d a)
  | 0x27 => trans one (.vfcos h t · sat fast d a)
  | 0x28 => trans one (.vftanh h t · sat fast d a)
  | 0x29 => trans one (.vfsigm h t · sat fast d a)
  | 0x2A => trans one (.vfgelu h t · sat fast d a)
  | 0x2B => trans one (.vfsilu h t · sat fast d a)
  | _ => .error .unassignedOp

/-- Class 2 (R106 to R112). -/
def build2 (h : Hdr) (r : Raw) : Built :=
  let t := r.it
  let f := r.ft
  let sat := r.bt 0
  let d := r.D
  let a := r.A
  let b := r.B
  let c := r.X
  let two := r.x == 0
  let one := r.b == 0 && r.x == 0
  let arith (u : Bool) (i : Instr) : Built := do need (r.mb 1 5 == 0); pure (i, u)
  let plain (u : Bool) (i : Instr) : Built := do need (r.mb 0 6 == 0); pure (i, u)
  let flt (u : Bool) (g : Rnd → Instr) : Built := do
    let rn ← r.rn; need (r.mb 0 3 == 0); pure (g rn, u)
  match r.op.toNat with
  | 0x00 => arith two (.sadd h t sat d a b)
  | 0x01 => arith two (.ssub h t sat d a b)
  | 0x02 => arith two (.smul h t sat d a b)
  | 0x03 => arith true (.smad h t sat d a b c)
  | 0x04 => plain two (.sand h t d a b)
  | 0x05 => plain two (.sor h t d a b)
  | 0x06 => plain two (.sxor h t d a b)
  | 0x07 => plain two (.sshl h t d a b)
  | 0x08 => plain two (.sshr h t d a b)
  | 0x09 => plain two (.ssra h t d a b)
  | 0x0A => plain two (.smin h t d a b)
  | 0x0B => plain two (.smax h t d a b)
  | 0x0C => do need (r.mb 3 3 == 0); pure (.scmp h t (.ofCode (r.mb 0 3)) d a b, two)
  | 0x0D => plain true (.ssel h t d a b c)
  | 0x0E => plain one (.smov h t d a)
  | 0x0F => do
      let k ← match (r.mb 0 3).toNat with
        | 0 => .ok SForm.sext
        | 1 => .ok .zext
        | 2 => .ok .hi
        | _ => .error .modifier
      pure (.smovi h k r.imm d, r.a == 0)
  | 0x10 => flt two (.sfadd h f · d a b)
  | 0x11 => flt two (.sfmul h f · d a b)
  | 0x12 => flt true (.sffma h f · d a b c)
  | 0x13 => do need (r.mb 3 3 == 0); pure (.sfcmp h f (.ofCode (r.mb 0 3)) d a b, two)
  | 0x14 => do
      let rn ← r.rn
      let k ← match (r.mb 0 3).toNat with
        | 0 => .ok (SCvt.f2f (.ofCode (r.x.extractLsb' 0 3)))
        | 1 => .ok (.f2i (.ofCode (r.x.extractLsb' 0 3)))
        | 2 => .ok (.i2f (.ofCode (r.x.extractLsb' 0 3)))
        | _ => .error .modifier
      pure (.sfcvt h f rn k d a, r.b == 0 && r.x.extractLsb' 3 10 == 0)
  | 0x15 => do need (r.m == 0); pure (.sread h d a, one)
  | 0x16 => do let sc ← r.sc; let w ← r.wd; let k ← r.ch 3; pure (.sld h w sc k d a b, two)
  | 0x17 => do let sc ← r.sc; let w ← r.wd; let k ← r.ch 3; pure (.sst h w sc k a b c, r.d == 0)
  | 0x18 => do need (r.mb 7 2 == 0); pure (.vtos h (r.mb 0 5) (r.bt 5) (r.bt 6) d a, one)
  | 0x19 => do need (r.mb 1 8 == 0); pure (.stov h (r.bt 0) d a, one)
  | _ => .error .unassignedOp

def ShMode.ofCode (c : BitVec 2) : ShMode :=
  match c.toNat with
  | 0 => .idx | 1 => .rot | 2 => .edge | _ => .swap
def ShMode.code : ShMode → BitVec 2
  | .idx => 0 | .rot => 1 | .edge => 2 | .swap => 3
def VoteMode.ofCode (c : BitVec 2) : VoteMode :=
  match c.toNat with
  | 0 => .ge | 1 => .all | 2 => .same | _ => .elect
def VoteMode.code : VoteMode → BitVec 2
  | .ge => 0 | .all => 1 | .same => 2 | .elect => 3
def RedOp.ofCode (c : BitVec 3) : Except Illegal RedOp :=
  match c.toNat with
  | 0 => .ok .add | 1 => .ok .min | 2 => .ok .max | 3 => .ok .and | 4 => .ok .or | 5 => .ok .xor
  | _ => .error .modifier
def RedOp.code : RedOp → BitVec 3
  | .add => 0 | .min => 1 | .max => 2 | .and => 3 | .or => 4 | .xor => 5
def RedType.ofCode (c : BitVec 4) : Except Illegal RedType :=
  match c.toNat with
  | 0 => .ok (.int .i8) | 1 => .ok (.int .i16) | 2 => .ok (.int .i32) | 3 => .ok (.int .i64)
  | 4 => .ok (.int .n8) | 5 => .ok (.int .n16) | 6 => .ok (.int .n32) | 7 => .ok (.int .n64)
  | 8 => .ok .f32 | 9 => .ok .f16 | 10 => .ok .bf16 | _ => .error .modifier
def RedType.code : RedType → BitVec 4
  | .int t => BitVec.ofNat 4 t.code.toNat
  | .f32 => 8 | .f16 => 9 | .bf16 => 10
/-- The rounding code in X of `vredux` and `vscan`. -/
def xrn (x : BitVec 13) : Except Illegal Rnd :=
  match Rnd.ofCode (x.extractLsb' 0 3) with
  | some s => .ok s
  | none => .error .modifier

/-- Class 3 (R105, R172). -/
def build3 (h : Hdr) (r : Raw) : Built :=
  let d := r.D
  let a := r.A
  let b := r.B
  let two := r.x == 0
  let one := r.b == 0 && r.x == 0
  match r.op.toNat with
  | 0x00 => do need (r.mb 2 7 == 0); pure (.pand h (r.bt 0) (r.bt 1) d a b, two)
  | 0x01 => do need (r.mb 2 7 == 0); pure (.por h (r.bt 0) (r.bt 1) d a b, two)
  | 0x02 => do need (r.mb 2 7 == 0); pure (.pxor h (r.bt 0) (r.bt 1) d a b, two)
  | 0x03 => do need (r.m == 0); pure (.pnot h d a, one)
  | 0x04 => do need (r.m == 0); pure (.pmov h d a, one)
  | 0x05 => do need (r.mb 1 8 == 0); pure (.pset h (r.bt 0) d a, one)
  | 0x10 => do
      need (r.mb 6 3 == 0)
      if hs : (r.mb 2 3).toNat < 6 then
        pure (.vshfl h (.ofCode (r.mb 0 2)) ⟨(r.mb 2 3).toNat, hs⟩ (r.bt 5) d a b (optOfField r.x), true)
      else .error .modifier
  | 0x11 => do
      need (r.mb 2 7 == 0)
      match VoteMode.ofCode (r.mb 0 2) with
      | .ge => pure (.vvote h .ge d a (some b), two)
      | m => pure (.vvote h m d a none, one)
  | 0x12 => do need (r.mb 1 8 == 0); pure (.vballot h (r.bt 0) d a, one)
  | 0x13 => do
      need (!r.bt 8)
      let o ← RedOp.ofCode (r.mb 0 3)
      let t ← RedType.ofCode (r.mb 3 4)
      let rn ← xrn r.x
      pure (.vredux h o t (r.bt 7) rn d a, r.b == 0 && r.x.extractLsb' 3 10 == 0)
  | 0x14 => do
      let o ← RedOp.ofCode (r.mb 0 3)
      let t ← RedType.ofCode (r.mb 3 4)
      let rn ← xrn r.x
      pure (.vscan h o t (r.bt 7) (r.bt 8) rn d a, r.b == 0 && r.x.extractLsb' 3 10 == 0)
  | 0x15 => do need (r.mb 1 8 == 0); pure (.vmatch h (r.bt 0) d a, one)
  | 0x16 => do need (r.m == 0); pure (.vlanemap h d a, one)
  | _ => .error .unassignedOp

/-- Class 4 (R160). -/
def build4 (h : Hdr) (r : Raw) : Built :=
  let none4 := r.d == 0 && r.a == 0 && r.b == 0 && r.x == 0
  let plain (u : Bool) (i : Instr) : Built := do need (r.m == 0); pure (i, u)
  match r.op.toNat with
  | 0x00 => do need (r.mb 0 3 == 0); pure (.bra h r.imm, r.d == 0 && r.a == 0)
  | 0x01 => plain (r.d == 0 && r.b == 0 && r.x == 0) (.brx h r.A)
  | 0x02 => do need (r.mb 0 3 == 0); pure (.call h r.imm r.D, r.a == 0)
  | 0x03 => plain (r.b == 0 && r.x == 0) (.callx h r.D r.A)
  | 0x04 => plain (r.d == 0 && r.b == 0 && r.x == 0) (.ret h r.A)
  | 0x05 => plain none4 (.reform h)
  | 0x06 => plain (r.d == 0 && r.b == 0 && r.x == 0) (.rejoin h r.A)
  | 0x07 => plain none4 (.exit h)
  | 0x08 => plain none4 (.yield h)
  | 0x09 => plain none4 (.nop h)
  | 0x0A => plain (r.d == 0 && r.a == 0 && r.b == 0) (.swtrap h r.x)
  | 0x0B => plain (r.d == 0 && r.a == 0 && r.b == 0) (.bkpt h r.x)
  | _ => .error .unassignedOp

def AtomOp.ofCode (c : BitVec 4) : Except Illegal AtomOp :=
  match c.toNat with
  | 0 => .ok .add | 1 => .ok .min | 2 => .ok .max | 3 => .ok .and | 4 => .ok .or | 5 => .ok .xor
  | 6 => .ok .exch | 7 => .ok .cas | 8 => .ok .inc | 9 => .ok .dec | _ => .error .modifier
def AtomOp.code : AtomOp → BitVec 4
  | .add => 0 | .min => 1 | .max => 2 | .and => 3 | .or => 4 | .xor => 5 | .exch => 6 | .cas => 7
  | .inc => 8 | .dec => 9
/-- Width code and kind of an atomic (R211). -/
def AtomTy.ofCodes (w : BitVec 3) (k : BitVec 2) : Except Illegal AtomTy :=
  match w.toNat, k.toNat with
  | 2, 0 => .ok .i32 | 3, 0 => .ok .i64 | 2, 1 => .ok .n32 | 3, 1 => .ok .n64
  | 2, 2 => .ok .f32 | 1, 2 => .ok .f16 | 1, 3 => .ok .bf16
  | _, _ => .error .modifier
def AtomTy.wcode : AtomTy → BitVec 3
  | .i32 => 2 | .i64 => 3 | .n32 => 2 | .n64 => 3 | .f32 => 2 | .f16 => 1 | .bf16 => 1
def AtomTy.kind : AtomTy → BitVec 2
  | .i32 => 0 | .i64 => 0 | .n32 => 1 | .n64 => 1 | .f32 => 2 | .f16 => 2 | .bf16 => 3

/-- Class 5 (R204, R211). -/
def build5 (h : Hdr) (r : Raw) : Built :=
  let d := r.D
  let a := r.A
  let b := r.B
  let c := r.X
  let nosc := r.mb 5 4 == 0
  let noch := r.mb 3 2 == 0
  let ext : Except Illegal (AtomOp × AtomTy × Bool × Bool) := do
    let o ← AtomOp.ofCode (r.x.extractLsb' 0 4)
    let t ← AtomTy.ofCodes (r.mb 0 3) (r.x.extractLsb' 4 2)
    need noch
    pure (o, t, r.x.getLsbD 6, r.x.getLsbD 7)
  match r.op.toNat with
  | 0x00 => do let w ← r.wd; let s ← r.sc; let k ← r.ch 3; pure (.ld h w s k d a b, r.x == 0)
  | 0x01 => do let w ← r.wd; let s ← r.sc; let k ← r.ch 3; pure (.st h w s k a b c, r.d == 0)
  | 0x02 => do let w ← r.wd; need (nosc && noch); pure (.ldl h w d a b, r.x == 0)
  | 0x03 => do let w ← r.wd; need (nosc && noch); pure (.stl h w a b c, r.d == 0)
  | 0x04 => do let w ← r.wd; need (nosc && noch); pure (.ldcl h w d a b, r.x == 0)
  | 0x05 => do let w ← r.wd; need (nosc && noch); pure (.stcl h w a b c, r.d == 0)
  | 0x06 => do let w ← r.wd; let k ← r.ch 3; need nosc; pure (.ldro h w k d a b, r.x == 0)
  | 0x07 => do let w ← r.wd; need (nosc && noch); pure (.ldw h w d a b, r.x == 0)
  | 0x08 => do
      let k ← r.ch 3
      need (r.mb 0 3 == 0)
      match (r.mb 5 4).toNat with
      | 3 => pure (.pref h false k a b, r.d == 0 && r.x == 0)
      | 6 => pure (.pref h true k a b, r.d == 0 && r.x == 0)
      | _ => .error .modifier
  | 0x09 => do
      let (o, t, ord, cl) ← ext
      let s ← r.sc
      pure (.atom h o t ord s d a b, r.x.extractLsb' 8 5 == 0 && !cl)
  | 0x0A => do
      let (o, t, ord, cl) ← ext
      need nosc
      pure (.atoml h o t ord cl d a b, r.x.extractLsb' 8 5 == 0)
  | 0x0B => do
      let (o, t, ord, cl) ← ext
      let s ← r.sc
      pure (.red h o t ord s a b, r.d == 0 && r.x.extractLsb' 8 5 == 0 && !cl)
  | _ => .error .unassignedOp

/-- Class 6 (R219). -/
def build6 (h : Hdr) (r : Raw) : Built :=
  let d := r.D
  let a := r.A
  let b := r.B
  let nosc := r.mb 5 4 == 0
  match r.op.toNat with
  | 0x00 => do
      let s ← r.sc
      need (r.mb 1 4 == 0)
      if r.bt 0 then pure (.acq h s (some d) a, r.b == 0 && r.x == 0)
      else pure (.acq h s none a, r.d == 0 && r.b == 0 && r.x == 0)
  | 0x01 => do
      let s ← r.sc; need (r.mb 0 5 == 0); pure (.rel h s a, r.d == 0 && r.b == 0 && r.x == 0)
  | 0x02 => do
      let s ← r.sc
      need (r.mb 1 4 == 0)
      pure (.fence h (r.bt 0) s, r.d == 0 && r.a == 0 && r.b == 0 && r.x == 0)
  | 0x03 => do
      let s ← r.sc
      need (r.mb 0 5 == 0)
      match Path.ofCode (r.x.extractLsb' 0 3), Path.ofCode (r.x.extractLsb' 3 3) with
      | some p, some q =>
          pure (.xfence h s p q, r.d == 0 && r.a == 0 && r.b == 0 && r.x.extractLsb' 6 7 == 0)
      | _, _ => .error .modifier
  | 0x04 => do
      need (r.mb 2 7 == 0); pure (.bar h (r.bt 0) (r.bt 1) a, r.d == 0 && r.b == 0 && r.x == 0)
  | 0x05 => do
      need (r.mb 2 7 == 0); pure (.barcl h (r.bt 0) (r.bt 1) a, r.d == 0 && r.b == 0 && r.x == 0)
  | 0x06 => do
      need (nosc && r.mb 2 3 == 0); pure (.bxinit h (r.bt 0) (r.bt 1) a b, r.d == 0 && r.x == 0)
  | 0x07 => do
      need (nosc && r.mb 2 3 == 0); pure (.bxowe h (r.bt 0) (r.bt 1) a b, r.d == 0 && r.x == 0)
  | 0x08 => do
      let s ← r.sc
      need (r.mb 2 3 == 0)
      pure (.bxpay h (r.bt 0) (r.bt 1) s a b, r.d == 0 && r.x == 0)
  | 0x09 => do
      let s ← r.sc
      need (r.mb 2 3 == 0 && !r.bt 0)
      pure (.bxwait h (r.bt 1) s a b, r.d == 0 && r.x == 0)
  | 0x0A => do
      let s ← r.sc
      need (r.mb 2 3 == 0 && !r.bt 0)
      pure (.bxpoll h (r.bt 1) s d a b, r.x == 0)
  | _ => .error .unassignedOp

/-- Class 7 (R224). -/
def build7 (h : Hdr) (r : Raw) : Built :=
  let d := r.D
  let a := r.A
  let b := r.B
  let x := r.X
  let hi6 := r.mb 3 6 == 0
  match r.op.toNat with
  | 0x00 =>
      match (r.mb 0 3).toNat with
      | 0 => do let s ← r.sc; let k ← r.ch 3; pure (.cpyG2l h s k d a b x, true)
      | 1 => do let s ← r.sc; let k ← r.ch 3; pure (.cpyL2g h s k d a b x, true)
      | 2 => do need hi6; pure (.cpyW2l h d a b x, true)
      | _ => .error .modifier
  | 0x01 => do
      let k ← r.ch 3; need (r.mb 5 4 == 0 && r.mb 1 2 == 0); pure (.cpyo h (r.bt 0) k d a b x, true)
  | 0x02 => do need (r.m == 0); pure (.cpyl h d a b x, true)
  | 0x03 => do need (r.mb 1 8 == 0); pure (.gkv h (r.bt 0) d a b x, true)
  | 0x04 => do need (r.mb 1 8 == 0); pure (.kvpf h (r.bt 0) d a b x, true)
  | 0x05 => do
      need (r.mb 1 8 == 0)
      if r.bt 0 then pure (.hwait h (some d) a, r.b == 0 && r.x == 0)
      else pure (.hwait h none a, r.d == 0 && r.b == 0 && r.x == 0)
  | 0x06 => do need (r.m == 0); pure (.htest h d a, r.b == 0 && r.x == 0)
  | 0x07 => do need (r.m == 0); pure (.hcancel h a, r.d == 0 && r.b == 0 && r.x == 0)
  | 0x08 => do need (r.m == 0); pure (.hmov h d a, r.b == 0 && r.x == 0)
  | 0x09 => do
      need (r.m == 0)
      let f ← match (r.x.extractLsb' 5 3).toNat with
        | 0 => .ok LobForm.rows
        | 1 => .ok .tr8
        | 3 => .ok .tr16
        | 5 => .ok .tr32
        | _ => .error .modifier
      pure (.vlob h f (r.x.extractLsb' 0 5) d a, r.b == 0 && r.x.extractLsb' 8 5 == 0)
  | _ => .error .unassignedOp

def ColCnt.ofCode (c : BitVec 2) : Except Illegal ColCnt :=
  match c.toNat with
  | 0 => .ok .c8 | 1 => .ok .c16 | 2 => .ok .c32 | _ => .error .modifier
def ColCnt.code : ColCnt → BitVec 2
  | .c8 => 0 | .c16 => 1 | .c32 => 2

/-- Class 8 (R115, R116, R121, R127 to R131). -/
def build8 (h : Hdr) (r : Raw) : Built :=
  let d := r.D
  let a := r.A
  let b := r.B
  let x := r.X
  match r.op.toNat with
  | 0x00 => do need (r.m == 0); pure (.tcfg h a, r.d == 0 && r.b == 0 && r.x == 0)
  | 0x01 => do need (r.m == 0); pure (.macq h, r.d == 0 && r.a == 0 && r.b == 0 && r.x == 0)
  | 0x02 => do need (r.m == 0); pure (.mrel h, r.d == 0 && r.a == 0 && r.b == 0 && r.x == 0)
  | 0x03 => do need (r.m == 0); pure (.mma h d a b, r.x == 0)
  | 0x04 => do need (r.m == 0); pure (.mmas h d a b x, true)
  | 0x05 => do
      need (r.mb 1 8 == 0)
      if r.bt 0 then pure (.mmag h d a b (some x), true) else pure (.mmag h d a b none, r.x == 0)
  | 0x06 => do
      need (r.mb 1 8 == 0)
      if r.bt 0 then pure (.mzero h none, r.d == 0 && r.a == 0 && r.b == 0 && r.x == 0)
      else pure (.mzero h (some d), r.a == 0 && r.b == 0 && r.x == 0)
  | 0x07 => do
      let k ← r.ch 1; need (r.mb 3 6 == 0); pure (.mld h (r.bt 0) k d a b, r.x == 0)
  | 0x08 => do
      let k ← r.ch 1; need (r.mb 4 5 == 0); pure (.mst h (r.bt 0) k (r.bt 3) d a b x, true)
  | 0x09 => do
      let c ← ColCnt.ofCode (r.mb 0 2)
      need (r.mb 2 7 == 0)
      pure (.mrd h c (r.x.extractLsb' 0 8) d a b, r.x.extractLsb' 8 5 == 0)
  | 0x0A => do
      let c ← ColCnt.ofCode (r.mb 0 2)
      need (r.mb 2 7 == 0)
      pure (.mwr h c (r.x.extractLsb' 0 8) d a b, r.x.extractLsb' 8 5 == 0)
  | _ => .error .unassignedOp

def RqFld.ofCode (c : BitVec 5) : Except Illegal RqFld :=
  match c.toNat with
  | 0 => .ok .rid | 1 => .ok .state | 2 => .ok .prio | 3 => .ok .pos | 4 => .ok .plen | 5 => .ok .ngen
  | 6 => .ok .maxnew | 7 => .ok .nblk | 8 => .ok .slot | 9 => .ok .temp | 10 => .ok .minp
  | 11 => .ok .topk | 12 => .ok .last | 13 => .ok .seed | 14 => .ok .fcause | 15 => .ok .tenant
  | 16 => .ok .spos | _ => .error .modifier
def RqFld.code : RqFld → BitVec 5
  | .rid => 0 | .state => 1 | .prio => 2 | .pos => 3 | .plen => 4 | .ngen => 5 | .maxnew => 6
  | .nblk => 7 | .slot => 8 | .temp => 9 | .minp => 10 | .topk => 11 | .last => 12 | .seed => 13
  | .fcause => 14 | .tenant => 15 | .spos => 16

/-- Class 9 (R258, R264, R269, R290, R308, R330). -/
def build9 (h : Hdr) (r : Raw) : Built :=
  let d := r.D
  let a := r.A
  let b := r.B
  let x := r.X
  let z5 := r.mb 0 5 == 0
  let onlyA := r.d == 0 && r.b == 0 && r.x == 0
  let noBX := r.b == 0 && r.x == 0
  let atScope (u : Bool) (f : Scope → Instr) : Built := do
    let s ← r.sc; need z5; pure (f s, u)
  match r.op.toNat with
  | 0x00 => do need (r.m == 0); pure (.tkbeg h a, onlyA)
  | 0x01 => do need (r.m == 0); pure (.tkpush h a b, r.d == 0 && r.x == 0)
  | 0x02 => do need (r.mb 1 8 == 0); pure (.tkend h (r.bt 0) d a, noBX)
  | 0x03 => atScope (r.x == 0) (.wqpush h · d a b)
  | 0x04 => do
      let s ← r.sc
      need (r.mb 1 4 == 0)
      pure (.wqpop h (r.bt 0) s d a (optOfField r.x), r.b == 0)
  | 0x05 => do need (r.m == 0); pure (.wqlen h d a, noBX)
  | 0x06 => atScope true (.lacnt h · d a b x)
  | 0x10 => do need (r.m == 0); pure (.fetchw h a, onlyA)
  | 0x11 => do need (r.m == 0); pure (.launch h d a, noBX)
  | 0x12 => do
      need (r.mb 3 6 == 0)
      let s ← match (r.mb 0 3).toNat with
        | 0 => .ok ResSel.param
        | 1 => .ok .psize
        | 2 => .ok .flags
        | 3 => .ok .recAddr
        | _ => .error .modifier
      pure (.resq h s d, r.a == 0 && noBX)
  | 0x20 => do
      let s ← r.sc; let f ← RqFld.ofCode (r.mb 0 5); pure (.rqld h f s d a, noBX)
  | 0x21 => do
      let s ← r.sc; let f ← RqFld.ofCode (r.mb 0 5); pure (.rqst h f s a b, r.d == 0 && r.x == 0)
  | 0x22 => atScope (r.x == 0) (.rqemit h · d a b)
  | 0x23 => atScope noBX (.rqstop h · d a)
  | 0x24 => atScope (r.d == 0 && r.x == 0) (.rqfail h · a b)
  | 0x25 => do
      let s ← r.sc; need (r.mb 1 4 == 0); pure (.rqslot h (r.bt 0) s d a, noBX)
  | 0x26 => do need (r.m == 0); pure (.bfdone h a, onlyA)
  | 0x30 => atScope (r.x == 0) (.kvapp h · d a b)
  | 0x31 => do
      let s ← r.sc; need (r.mb 1 4 == 0); pure (.kvmap h (r.bt 0) s d a b, r.x == 0)
  | 0x32 => atScope true (.kvinv h · d a b x)
  | 0x33 => do
      let s ← r.sc
      need (r.mb 2 3 == 0)
      let o ← match (r.mb 0 2).toNat with
        | 0 => .ok KvRefOp.rd
        | 1 => .ok .inc
        | 2 => .ok .dec
        | _ => .error .modifier
      pure (.kvref h o s d a, noBX)
  | 0x34 => do
      let s ← r.sc
      need (r.mb 2 3 == 0)
      match (r.mb 0 2).toNat with
      | 0 => pure (.kvevictLp h s d a, noBX)
      | 1 => pure (.kvevictCxl h s d a, noBX)
      | 2 => pure (.kvevictPeer h s d a b, r.x == 0)
      | _ => .error .modifier
  | 0x35 => atScope (r.x == 0) (.rxlook h · d a b)
  | 0x36 => atScope (r.x == 0) (.rxins h · d a b)
  | _ => .error .unassignedOp

def TrdFld.ofCode (c : BitVec 4) : Except Illegal TrdFld :=
  match c.toNat with
  | 0 => .ok .cause | 1 => .ok .pclo | 2 => .ok .pchi | 3 => .ok .mask | 4 => .ok .addrlo
  | 5 => .ok .addrhi | 6 => .ok .tstate | 7 => .ok .tpclo | 8 => .ok .tpchi | 9 => .ok .cyc
  | 10 => .ok .sv | 11 => .ok .sp | 12 => .ok .sx | _ => .error .modifier
def TrdFld.code : TrdFld → BitVec 4
  | .cause => 0 | .pclo => 1 | .pchi => 2 | .mask => 3 | .addrlo => 4 | .addrhi => 5 | .tstate => 6
  | .tpclo => 7 | .tpchi => 8 | .cyc => 9 | .sv => 10 | .sp => 11 | .sx => 12

/-- Class 10 (R342). -/
def build10 (h : Hdr) (r : Raw) : Built :=
  let d := r.D
  let a := r.A
  let b := r.B
  let all0 := r.d == 0 && r.a == 0 && r.b == 0 && r.x == 0
  match r.op.toNat with
  | 0x00 => do
      need (r.m == 0)
      pure (.csrrd h (r.x.extractLsb' 0 12) d, r.a == 0 && r.b == 0 && r.x.extractLsb' 12 1 == 0)
  | 0x01 => do
      need (r.m == 0)
      pure (.csrwr h (r.x.extractLsb' 0 12) a, r.d == 0 && r.b == 0 && r.x.extractLsb' 12 1 == 0)
  | 0x02 => do
      need (r.mb 2 7 == 0)
      match (r.mb 0 2).toNat with
      | 0 => pure (.tret h, all0)
      | 1 => pure (.tretSkip h, all0)
      | 2 => pure (.tretKill h, all0)
      | _ => .error .modifier
  | 0x03 => do
      need (r.mb 4 5 == 0)
      let f ← TrdFld.ofCode (r.mb 0 4)
      pure (.trd h f d a, r.b == 0 && r.x == 0)
  | 0x04 => do need (r.m == 0); pure (.fltrep h d a b, r.x == 0)
  | 0x05 => do need (r.m == 0); pure (.fltcancel h d a b, r.x == 0)
  | 0x06 => do
      need (r.mb 2 7 == 0)
      match (r.mb 0 2).toNat with
      | 0 => pure (.tlbinvVa h d a b, r.x == 0)
      | 1 => pure (.tlbinvCtx h d a, r.b == 0 && r.x == 0)
      | 2 => pure (.tlbinvMig h d a b, r.x == 0)
      | _ => .error .modifier
  | 0x07 => do need (r.m == 0); pure (.idle h a, r.d == 0 && r.b == 0 && r.x == 0)
  | _ => .error .unassignedOp

/-- Formats S and L by class (R44). -/
def build (h : Hdr) (r : Raw) : Built :=
  match r.cls.toNat with
  | 0 => build0 h r
  | 1 => build1 h r
  | 2 => build2 h r
  | 3 => build3 h r
  | 4 => build4 h r
  | 5 => build5 h r
  | 6 => build6 h r
  | 7 => build7 h r
  | 8 => build8 h r
  | 9 => build9 h r
  | 10 => build10 h r
  | _ => .error .reservedClass

/-! ## The pair word (R33, R34) -/

def Hop.ofCode (c : BitVec 6) : Except Illegal Hop :=
  match c.toNat with
  | 0x00 => .ok .add | 0x01 => .ok .sub | 0x02 => .ok .mul | 0x03 => .ok .mini | 0x04 => .ok .maxi
  | 0x05 => .ok .minn | 0x06 => .ok .maxn | 0x07 => .ok .and | 0x08 => .ok .or | 0x09 => .ok .xor
  | 0x0A => .ok .not | 0x0B => .ok .shl | 0x0C => .ok .shr | 0x0D => .ok .sra | 0x0E => .ok .rot
  | 0x0F => .ok .mov | 0x10 => .ok .abs | 0x11 => .ok .neg | 0x12 => .ok .popc | 0x13 => .ok .clz
  | 0x14 => .ok .ctz | 0x15 => .ok .brev | 0x20 => .ok .fadd | 0x21 => .ok .fsub | 0x22 => .ok .fmul
  | 0x23 => .ok .ffma | 0x24 => .ok .fmin | 0x25 => .ok .fmax | 0x26 => .ok .faddz
  | 0x27 => .ok .fmulz | 0x28 => .ok .ffmaz | _ => .error .unassignedOp
def Hop.code : Hop → BitVec 6
  | .add => 0x00 | .sub => 0x01 | .mul => 0x02 | .mini => 0x03 | .maxi => 0x04 | .minn => 0x05
  | .maxn => 0x06 | .and => 0x07 | .or => 0x08 | .xor => 0x09 | .not => 0x0A | .shl => 0x0B
  | .shr => 0x0C | .sra => 0x0D | .rot => 0x0E | .mov => 0x0F | .abs => 0x10 | .neg => 0x11
  | .popc => 0x12 | .clz => 0x13 | .ctz => 0x14 | .brev => 0x15 | .fadd => 0x20 | .fsub => 0x21
  | .fmul => 0x22 | .ffma => 0x23 | .fmin => 0x24 | .fmax => 0x25 | .faddz => 0x26 | .fmulz => 0x27
  | .ffmaz => 0x28

def Half.ofBits (h : BitVec 40) : Except Illegal Half := do
  let o ← Hop.ofCode (h.extractLsb' 34 6)
  pure { hop := o, d := h.extractLsb' 24 10, a := h.extractLsb' 14 10, b := h.extractLsb' 4 10,
         neg := h.getLsbD 3, p := h.extractLsb' 0 3 }

def Half.bits (h : Half) : BitVec 40 :=
  (h.hop.code ++ h.d ++ h.a ++ h.b ++ bit1 h.neg ++ h.p : BitVec 40)

/-- A class 11 word: steps 3, 5 and 6 of R45. -/
def decodePair (w : IWord) : Except Illegal Instr := do
  let p ← Half.ofBits (w.extractLsb' 40 40)
  let q ← Half.ofBits (w.extractLsb' 0 40)
  let i := Instr.pairWord (w.extractLsb' 88 4) (w.getLsbD 87) (w.extractLsb' 85 2) p q
  if w.extractLsb' 80 5 == 0 && i.unusedOk then
    if i.operandsOk then .ok i else .error .operand
  else .error .unusedField

/-- The word of a pair (R33). -/
def encodePair (stall : BitVec 4) (yld : Bool) (post : BitVec 2) (p q : Half) : IWord :=
  11#4 ++ stall ++ bit1 yld ++ post ++ 0#5 ++ p.bits ++ q.bits

/-! ## Decoding a word -/

/-- The instruction a word stands for, or the first check of R45 steps 1 to 6 that it fails. -/
def decodeWord (w : IWord) : Except Illegal Instr :=
  if w.extractLsb' 92 4 = 11#4 then decodePair w
  else
    let r := Raw.ofWord w
    match Guard.ofBits r.g with
    | none => .error .reservedGuard
    | some g =>
        match build { g := g, ht := .ofBits r.ht } r with
        | .error e => .error e
        | .ok (i, unused) =>
            if i.modsOk then
              if unused && r.ht.extractLsb' 0 2 == 0 then
                if i.operandsOk then .ok i else .error .operand
              else .error .unusedField
            else .error .modifier

/-! ## The encoder, from the same tables -/

/-- A format S word from its fields. -/
def fmtS (cls : BitVec 4) (op : BitVec 8) (h : Hdr) (m : BitVec 9) (d a b x : BitVec 13 := 0) :
    Option IWord :=
  some (Raw.toWord { cls, op, d, a, b, x, g := h.g.bits, ht := h.ht.bits, m })

/-- A format L word from its fields (R32). -/
def fmtL (cls : BitVec 4) (op : BitVec 8) (h : Hdr) (per : BitVec 3) (imm : BitVec 32)
    (d : BitVec 13 := 0) : Option IWord :=
  fmtS cls op h (imm.extractLsb' 0 6 ++ per : BitVec 9) d 0 (imm.extractLsb' 19 13)
    (imm.extractLsb' 6 13)

/-- Class 0 modifier. -/
def mod0 (t : IType) (sat : Bool) (per : BitVec 5 := 0) : BitVec 9 := (t.code ++ bit1 sat ++ per : BitVec 9)
/-- Class 1 modifier. -/
def mod1 (t : FType) (r : Rnd) (sat : Bool) (fast lo : Bool := false) : BitVec 9 :=
  (t.code ++ r.code ++ bit1 sat ++ bit1 fast ++ bit1 lo : BitVec 9)
/-- Class 2 integer modifier. -/
def mod2 (t : IType) (per : BitVec 6 := 0) : BitVec 9 := (t.code ++ per : BitVec 9)
/-- Class 2 float modifier. -/
def mod2f (t : FType) (r : Rnd) (per : BitVec 3 := 0) : BitVec 9 := (t.code ++ r.code ++ per : BitVec 9)
/-- Scope, cache hint and width or per-op bits. -/
def modM (s : Scope) (k : CHint) (per : BitVec 3) : BitVec 9 := (s.code ++ k.code ++ per : BitVec 9)
/-- Scope and five per-op bits. -/
def modS (s : Scope) (per : BitVec 5 := 0) : BitVec 9 := (s.code ++ per : BitVec 9)
/-- A float type code, integer type code or condition in X[2:0]. -/
def xlow (c : BitVec 3) : BitVec 13 := (0#10 ++ c : BitVec 13)
/-- The atomic extension (R211). -/
def xatom (o : AtomOp) (t : AtomTy) (ord cl : Bool) : BitVec 13 :=
  (0#5 ++ bit1 cl ++ bit1 ord ++ t.kind ++ o.code : BitVec 13)
/-- The X extension of `vlob` (R231). -/
def xlob (f : LobForm) (n1 : BitVec 5) : BitVec 13 :=
  ((match f with | .rows => 0#8 | .tr8 => 1#8 | .tr16 => 3#8 | .tr32 => 5#8) ++ n1 : BitVec 13)

/-- The word of an instruction; none for the device's own steps. -/
def encode : Instr → Option IWord
  | .vadd h t s d a b => fmtS 0 0x00 h (mod0 t s) d.field a.field b.field
  | .vsub h t s d a b => fmtS 0 0x01 h (mod0 t s) d.field a.field b.field
  | .vmul h t s d a b => fmtS 0 0x02 h (mod0 t s) d.field a.field b.field
  | .vmulh h t d a b => fmtS 0 0x03 h (mod0 t false) d.field a.field b.field
  | .vmad h t s d a b c => fmtS 0 0x04 h (mod0 t s) d.field a.field b.field c.field
  | .vmadw h t s d a b c => fmtS 0 0x05 h (mod0 t s) d.field a.field b.field c.field
  | .vdiv h t s m d a b => fmtS 0 0x06 h (mod0 t s (0#4 ++ bit1 m)) d.field a.field b.field
  | .vmin h t d a b => fmtS 0 0x07 h (mod0 t false) d.field a.field b.field
  | .vmax h t d a b => fmtS 0 0x08 h (mod0 t false) d.field a.field b.field
  | .vabs h t s d a => fmtS 0 0x09 h (mod0 t s) d.field a.field
  | .vneg h t s d a => fmtS 0 0x0A h (mod0 t s) d.field a.field
  | .vand h t d a b => fmtS 0 0x0B h (mod0 t false) d.field a.field b.field
  | .vor h t d a b => fmtS 0 0x0C h (mod0 t false) d.field a.field b.field
  | .vxor h t d a b => fmtS 0 0x0D h (mod0 t false) d.field a.field b.field
  | .vnot h t d a => fmtS 0 0x0E h (mod0 t false) d.field a.field
  | .vshl h t d a b => fmtS 0 0x0F h (mod0 t false) d.field a.field b.field
  | .vshr h t d a b => fmtS 0 0x10 h (mod0 t false) d.field a.field b.field
  | .vsra h t d a b => fmtS 0 0x11 h (mod0 t false) d.field a.field b.field
  | .vrot h t d a b => fmtS 0 0x12 h (mod0 t false) d.field a.field b.field
  | .vbfe h t d a b c => fmtS 0 0x13 h (mod0 t false) d.field a.field b.field c.field
  | .vbfi h t pos len d a b =>
      fmtS 0 0x14 h (mod0 t false) d.field a.field b.field (len ++ pos : BitVec 13)
  | .vpopc h t d a => fmtS 0 0x15 h (mod0 t false) d.field a.field
  | .vclz h t d a => fmtS 0 0x16 h (mod0 t false) d.field a.field
  | .vctz h t d a => fmtS 0 0x17 h (mod0 t false) d.field a.field
  | .vbrev h t d a => fmtS 0 0x18 h (mod0 t false) d.field a.field
  | .vsel h t d a b c => fmtS 0 0x19 h (mod0 t false) d.field a.field b.field c.field
  | .vlea h t sh d a b => fmtS 0 0x1A h (mod0 t false) d.field a.field b.field (xlow sh)
  | .vcmp h t cc d a b => fmtS 0 0x1B h (mod0 t false (0#2 ++ cc.code)) d.field a.field b.field
  | .vaddc h d a b c => fmtS 0 0x1C h (mod0 .n32 false) d.field a.field b.field c.field
  | .vsubb h d a b c => fmtS 0 0x1D h (mod0 .n32 false) d.field a.field b.field c.field
  | .vmov h t d a => fmtS 0 0x1E h (mod0 t false) d.field a.field
  | .vmovi h f i d =>
      fmtL 0 0x1F h (match f with | .plain => 0 | .hlane => 1 | .thr => 2) i d.field
  | .vprmt h d a b c => fmtS 0 0x20 h (mod0 .n32 false) d.field a.field b.field c.field
  | .vrng h d a b c => fmtS 0 0x30 h (mod0 .n32 false) d.field a.field b.field c.field
  | .vrngf h d a b c => fmtS 0 0x31 h (mod0 .n32 false) d.field a.field b.field c.field
  | .vfadd h t r s d a b => fmtS 1 0x00 h (mod1 t r s) d.field a.field b.field
  | .vfsub h t r s d a b => fmtS 1 0x01 h (mod1 t r s) d.field a.field b.field
  | .vfmul h t r s d a b => fmtS 1 0x02 h (mod1 t r s) d.field a.field b.field
  | .vffma h t r s d a b c => fmtS 1 0x03 h (mod1 t r s) d.field a.field b.field c.field
  | .vfmin h t d a b => fmtS 1 0x04 h (mod1 t .rne false) d.field a.field b.field
  | .vfmax h t d a b => fmtS 1 0x05 h (mod1 t .rne false) d.field a.field b.field
  | .vfcmp h t cc d a b => fmtS 1 0x06 h (mod1 t .rne false) d.field a.field b.field (xlow cc.code)
  | .vfclass h t d a => fmtS 1 0x07 h (mod1 t .rne false) d.field a.field
  | .vfcvt h t r s k d a => fmtS 1 0x08 h (mod1 t r s) d.field a.field 0 (xlow k.code)
  | .vfcvti h t r s f k d a =>
      fmtS 1 0x09 h (mod1 t r s false f) d.field a.field 0 (xlow k.code)
  | .vfround h t r d a => fmtS 1 0x0A h (mod1 t r false) d.field a.field
  | .vfscale h t r s d a b => fmtS 1 0x0B h (mod1 t r s) d.field a.field b.field
  | .vfpack h t r s hi d a b => fmtS 1 0x0C h (mod1 t r s false hi) d.field a.field b.field
  | .vfunpk h t hi d a => fmtS 1 0x0D h (mod1 t .rne false false hi) d.field a.field
  | .vfdot2 h t r s d a b c => fmtS 1 0x0E h (mod1 t r s) d.field a.field b.field c.field
  | .vfrcp h t r s f d a => fmtS 1 0x20 h (mod1 t r s f) d.field a.field
  | .vfrsq h t r s f d a => fmtS 1 0x21 h (mod1 t r s f) d.field a.field
  | .vfsqrt h t r s f d a => fmtS 1 0x22 h (mod1 t r s f) d.field a.field
  | .vfdiv h t r s f d a b => fmtS 1 0x23 h (mod1 t r s f) d.field a.field b.field
  | .vfexp2 h t r s f d a => fmtS 1 0x24 h (mod1 t r s f) d.field a.field
  | .vflog2 h t r s f d a => fmtS 1 0x25 h (mod1 t r s f) d.field a.field
  | .vfsin h t r s f d a => fmtS 1 0x26 h (mod1 t r s f) d.field a.field
  | .vfcos h t r s f d a => fmtS 1 0x27 h (mod1 t r s f) d.field a.field
  | .vftanh h t r s f d a => fmtS 1 0x28 h (mod1 t r s f) d.field a.field
  | .vfsigm h t r s f d a => fmtS 1 0x29 h (mod1 t r s f) d.field a.field
  | .vfgelu h t r s f d a => fmtS 1 0x2A h (mod1 t r s f) d.field a.field
  | .vfsilu h t r s f d a => fmtS 1 0x2B h (mod1 t r s f) d.field a.field
  | .sadd h t s d a b => fmtS 2 0x00 h (mod2 t (0#5 ++ bit1 s)) d.field a.field b.field
  | .ssub h t s d a b => fmtS 2 0x01 h (mod2 t (0#5 ++ bit1 s)) d.field a.field b.field
  | .smul h t s d a b => fmtS 2 0x02 h (mod2 t (0#5 ++ bit1 s)) d.field a.field b.field
  | .smad h t s d a b c => fmtS 2 0x03 h (mod2 t (0#5 ++ bit1 s)) d.field a.field b.field c.field
  | .sand h t d a b => fmtS 2 0x04 h (mod2 t) d.field a.field b.field
  | .sor h t d a b => fmtS 2 0x05 h (mod2 t) d.field a.field b.field
  | .sxor h t d a b => fmtS 2 0x06 h (mod2 t) d.field a.field b.field
  | .sshl h t d a b => fmtS 2 0x07 h (mod2 t) d.field a.field b.field
  | .sshr h t d a b => fmtS 2 0x08 h (mod2 t) d.field a.field b.field
  | .ssra h t d a b => fmtS 2 0x09 h (mod2 t) d.field a.field b.field
  | .smin h t d a b => fmtS 2 0x0A h (mod2 t) d.field a.field b.field
  | .smax h t d a b => fmtS 2 0x0B h (mod2 t) d.field a.field b.field
  | .scmp h t cc d a b => fmtS 2 0x0C h (mod2 t (0#3 ++ cc.code)) d.field a.field b.field
  | .ssel h t d a b c => fmtS 2 0x0D h (mod2 t) d.field a.field b.field c.field
  | .smov h t d a => fmtS 2 0x0E h (mod2 t) d.field a.field
  | .smovi h f i d => fmtL 2 0x0F h (match f with | .sext => 0 | .zext => 1 | .hi => 2) i d.field
  | .sfadd h t r d a b => fmtS 2 0x10 h (mod2f t r) d.field a.field b.field
  | .sfmul h t r d a b => fmtS 2 0x11 h (mod2f t r) d.field a.field b.field
  | .sffma h t r d a b c => fmtS 2 0x12 h (mod2f t r) d.field a.field b.field c.field
  | .sfcmp h t cc d a b => fmtS 2 0x13 h (mod2f t .rne cc.code) d.field a.field b.field
  | .sfcvt h t r k d a =>
      match k with
      | .f2f s => fmtS 2 0x14 h (mod2f t r 0) d.field a.field 0 (xlow s.code)
      | .f2i s => fmtS 2 0x14 h (mod2f t r 1) d.field a.field 0 (xlow s.code)
      | .i2f s => fmtS 2 0x14 h (mod2f t r 2) d.field a.field 0 (xlow s.code)
  | .sread h d a => fmtS 2 0x15 h 0 d.field a.field
  | .sld h w s k d a b => fmtS 2 0x16 h (modM s k w.code) d.field a.field b.field
  | .sst h w s k a b c => fmtS 2 0x17 h (modM s k w.code) 0 a.field b.field c.field
  | .vtos h l f w d a => fmtS 2 0x18 h (0#2 ++ bit1 w ++ bit1 f ++ l : BitVec 9) d.field a.field
  | .stov h w d a => fmtS 2 0x19 h (0#8 ++ bit1 w : BitVec 9) d.field a.field
  | .pand h na nb d a b => fmtS 3 0x00 h (0#7 ++ bit1 nb ++ bit1 na : BitVec 9) d.field a.field b.field
  | .por h na nb d a b => fmtS 3 0x01 h (0#7 ++ bit1 nb ++ bit1 na : BitVec 9) d.field a.field b.field
  | .pxor h na nb d a b => fmtS 3 0x02 h (0#7 ++ bit1 nb ++ bit1 na : BitVec 9) d.field a.field b.field
  | .pnot h d a => fmtS 3 0x03 h 0 d.field a.field
  | .pmov h d a => fmtS 3 0x04 h 0 d.field a.field
  | .pset h w d a => fmtS 3 0x05 h (0#8 ++ bit1 w : BitVec 9) d.field a.field
  | .vshfl h m g w d a b v =>
      fmtS 3 0x10 h (0#3 ++ bit1 w ++ BitVec.ofNat 3 g.val ++ m.code : BitVec 9)
        d.field a.field b.field (optField v)
  | .vvote h m d a k => fmtS 3 0x11 h (0#7 ++ m.code : BitVec 9) d.field a.field (optField k)
  | .vballot h c d a => fmtS 3 0x12 h (0#8 ++ bit1 c : BitVec 9) d.field a.field
  | .vredux h o t s r d a =>
      fmtS 3 0x13 h (0#1 ++ bit1 s ++ t.code ++ o.code : BitVec 9) d.field a.field 0 (xlow r.code)
  | .vscan h o t s e r d a =>
      fmtS 3 0x14 h (bit1 e ++ bit1 s ++ t.code ++ o.code : BitVec 9) d.field a.field 0 (xlow r.code)
  | .vmatch h w d a => fmtS 3 0x15 h (0#8 ++ bit1 w : BitVec 9) d.field a.field
  | .vlanemap h d a => fmtS 3 0x16 h 0 d.field a.field
  | .bra h i => fmtL 4 0x00 h 0 i
  | .brx h a => fmtS 4 0x01 h 0 0 a.field
  | .call h i d => fmtL 4 0x02 h 0 i d.field
  | .callx h d a => fmtS 4 0x03 h 0 d.field a.field
  | .ret h a => fmtS 4 0x04 h 0 0 a.field
  | .reform h => fmtS 4 0x05 h 0
  | .rejoin h a => fmtS 4 0x06 h 0 0 a.field
  | .exit h => fmtS 4 0x07 h 0
  | .yield h => fmtS 4 0x08 h 0
  | .nop h => fmtS 4 0x09 h 0
  | .swtrap h c => fmtS 4 0x0A h 0 0 0 0 c
  | .bkpt h c => fmtS 4 0x0B h 0 0 0 0 c
  | .ld h w s k d a b => fmtS 5 0x00 h (modM s k w.code) d.field a.field b.field
  | .st h w s k a b c => fmtS 5 0x01 h (modM s k w.code) 0 a.field b.field c.field
  | .ldl h w d a b => fmtS 5 0x02 h (modM .th .dflt w.code) d.field a.field b.field
  | .stl h w a b c => fmtS 5 0x03 h (modM .th .dflt w.code) 0 a.field b.field c.field
  | .ldcl h w d a b => fmtS 5 0x04 h (modM .th .dflt w.code) d.field a.field b.field
  | .stcl h w a b c => fmtS 5 0x05 h (modM .th .dflt w.code) 0 a.field b.field c.field
  | .ldro h w k d a b => fmtS 5 0x06 h (modM .th k w.code) d.field a.field b.field
  | .ldw h w d a b => fmtS 5 0x07 h (modM .th .dflt w.code) d.field a.field b.field
  | .pref h die k a b =>
      fmtS 5 0x08 h (modM (if die then .die else .core) k 0) 0 a.field b.field
  | .atom h o t ord s d a b =>
      fmtS 5 0x09 h (modM s .dflt t.wcode) d.field a.field b.field (xatom o t ord false)
  | .atoml h o t ord cl d a b =>
      fmtS 5 0x0A h (modM .th .dflt t.wcode) d.field a.field b.field (xatom o t ord cl)
  | .red h o t ord s a b =>
      fmtS 5 0x0B h (modM s .dflt t.wcode) 0 a.field b.field (xatom o t ord false)
  | .acq h s d a =>
      match d with
      | none => fmtS 6 0x00 h (modS s) 0 a.field
      | some d => fmtS 6 0x00 h (modS s 1) d.field a.field
  | .rel h s a => fmtS 6 0x01 h (modS s) 0 a.field
  | .fence h q s => fmtS 6 0x02 h (modS s (0#4 ++ bit1 q))
  | .xfence h s p q => fmtS 6 0x03 h (modS s) 0 0 0 (0#7 ++ q.code ++ p.code : BitVec 13)
  | .bar h nf arv a => fmtS 6 0x04 h (0#7 ++ bit1 arv ++ bit1 nf : BitVec 9) 0 a.field
  | .barcl h nf arv a => fmtS 6 0x05 h (0#7 ++ bit1 arv ++ bit1 nf : BitVec 9) 0 a.field
  | .bxinit h g cl a b => fmtS 6 0x06 h (0#7 ++ bit1 cl ++ bit1 g : BitVec 9) 0 a.field b.field
  | .bxowe h g cl a b => fmtS 6 0x07 h (0#7 ++ bit1 cl ++ bit1 g : BitVec 9) 0 a.field b.field
  | .bxpay h g cl s a b => fmtS 6 0x08 h (modS s (0#3 ++ bit1 cl ++ bit1 g)) 0 a.field b.field
  | .bxwait h cl s a b => fmtS 6 0x09 h (modS s (0#3 ++ bit1 cl ++ 0#1)) 0 a.field b.field
  | .bxpoll h cl s d a b => fmtS 6 0x0A h (modS s (0#3 ++ bit1 cl ++ 0#1)) d.field a.field b.field
  | .cpyG2l h s k d a b x => fmtS 7 0x00 h (modM s k 0) d.field a.field b.field x.field
  | .cpyL2g h s k d a b x => fmtS 7 0x00 h (modM s k 1) d.field a.field b.field x.field
  | .cpyW2l h d a b x => fmtS 7 0x00 h 2 d.field a.field b.field x.field
  | .cpyo h w k d a b x =>
      fmtS 7 0x01 h (modM .th k (0#2 ++ bit1 w)) d.field a.field b.field x.field
  | .cpyl h d a b x => fmtS 7 0x02 h 0 d.field a.field b.field x.field
  | .gkv h p d a b x => fmtS 7 0x03 h (0#8 ++ bit1 p : BitVec 9) d.field a.field b.field x.field
  | .kvpf h p d a b x => fmtS 7 0x04 h (0#8 ++ bit1 p : BitVec 9) d.field a.field b.field x.field
  | .hwait h d a =>
      match d with
      | none => fmtS 7 0x05 h 0 0 a.field
      | some d => fmtS 7 0x05 h 1 d.field a.field
  | .htest h d a => fmtS 7 0x06 h 0 d.field a.field
  | .hcancel h a => fmtS 7 0x07 h 0 0 a.field
  | .hmov h d a => fmtS 7 0x08 h 0 d.field a.field
  | .vlob h f n1 d a => fmtS 7 0x09 h 0 d.field a.field 0 (xlob f n1)
  | .tcfg h a => fmtS 8 0x00 h 0 0 a.field
  | .macq h => fmtS 8 0x01 h 0
  | .mrel h => fmtS 8 0x02 h 0
  | .mma h d a b => fmtS 8 0x03 h 0 d.field a.field b.field
  | .mmas h d a b x => fmtS 8 0x04 h 0 d.field a.field b.field x.field
  | .mmag h d a b x =>
      match x with
      | none => fmtS 8 0x05 h 0 d.field a.field b.field
      | some x => fmtS 8 0x05 h 1 d.field a.field b.field x.field
  | .mzero h d =>
      match d with
      | none => fmtS 8 0x06 h 1
      | some d => fmtS 8 0x06 h 0 d.field
  | .mld h l k d a b =>
      fmtS 8 0x07 h (0#6 ++ k.code ++ bit1 l : BitVec 9) d.field a.field b.field
  | .mst h l k raw d a b x =>
      fmtS 8 0x08 h (0#5 ++ bit1 raw ++ k.code ++ bit1 l : BitVec 9) d.field a.field b.field x.field
  | .mrd h c col d a b =>
      fmtS 8 0x09 h (0#7 ++ c.code : BitVec 9) d.field a.field b.field (0#5 ++ col : BitVec 13)
  | .mwr h c col d a b =>
      fmtS 8 0x0A h (0#7 ++ c.code : BitVec 9) d.field a.field b.field (0#5 ++ col : BitVec 13)
  | .tkbeg h a => fmtS 9 0x00 h 0 0 a.field
  | .tkpush h a b => fmtS 9 0x01 h 0 0 a.field b.field
  | .tkend h k d a => fmtS 9 0x02 h (0#8 ++ bit1 k : BitVec 9) d.field a.field
  | .wqpush h s d a b => fmtS 9 0x03 h (modS s) d.field a.field b.field
  | .wqpop h nb s d a v => fmtS 9 0x04 h (modS s (0#4 ++ bit1 nb)) d.field a.field 0 (optField v)
  | .wqlen h d a => fmtS 9 0x05 h 0 d.field a.field
  | .lacnt h s d a b x => fmtS 9 0x06 h (modS s) d.field a.field b.field x.field
  | .fetchw h a => fmtS 9 0x10 h 0 0 a.field
  | .launch h d a => fmtS 9 0x11 h 0 d.field a.field
  | .resq h s d =>
      fmtS 9 0x12 h (match s with | .param => 0 | .psize => 1 | .flags => 2 | .recAddr => 3) d.field
  | .rqld h f s d a => fmtS 9 0x20 h (modS s f.code) d.field a.field
  | .rqst h f s a b => fmtS 9 0x21 h (modS s f.code) 0 a.field b.field
  | .rqemit h s d a b => fmtS 9 0x22 h (modS s) d.field a.field b.field
  | .rqstop h s d a => fmtS 9 0x23 h (modS s) d.field a.field
  | .rqfail h s a b => fmtS 9 0x24 h (modS s) 0 a.field b.field
  | .rqslot h v s d a => fmtS 9 0x25 h (modS s (0#4 ++ bit1 v)) d.field a.field
  | .bfdone h a => fmtS 9 0x26 h 0 0 a.field
  | .kvapp h s d a b => fmtS 9 0x30 h (modS s) d.field a.field b.field
  | .kvmap h ix s d a b => fmtS 9 0x31 h (modS s (0#4 ++ bit1 ix)) d.field a.field b.field
  | .kvinv h s d a b x => fmtS 9 0x32 h (modS s) d.field a.field b.field x.field
  | .kvref h o s d a =>
      fmtS 9 0x33 h (modS s (match o with | .rd => 0 | .inc => 1 | .dec => 2)) d.field a.field
  | .kvevictLp h s d a => fmtS 9 0x34 h (modS s 0) d.field a.field
  | .kvevictCxl h s d a => fmtS 9 0x34 h (modS s 1) d.field a.field
  | .kvevictPeer h s d a b => fmtS 9 0x34 h (modS s 2) d.field a.field b.field
  | .rxlook h s d a b => fmtS 9 0x35 h (modS s) d.field a.field b.field
  | .rxins h s d a b => fmtS 9 0x36 h (modS s) d.field a.field b.field
  | .csrrd h n d => fmtS 10 0x00 h 0 d.field 0 0 (0#1 ++ n : BitVec 13)
  | .csrwr h n a => fmtS 10 0x01 h 0 0 a.field 0 (0#1 ++ n : BitVec 13)
  | .tret h => fmtS 10 0x02 h 0
  | .tretSkip h => fmtS 10 0x02 h 1
  | .tretKill h => fmtS 10 0x02 h 2
  | .trd h f d a => fmtS 10 0x03 h (0#5 ++ f.code : BitVec 9) d.field a.field
  | .fltrep h d a b => fmtS 10 0x04 h 0 d.field a.field b.field
  | .fltcancel h d a b => fmtS 10 0x05 h 0 d.field a.field b.field
  | .tlbinvVa h d a b => fmtS 10 0x06 h 0 d.field a.field b.field
  | .tlbinvCtx h d a => fmtS 10 0x06 h 1 d.field a.field
  | .tlbinvMig h d a b => fmtS 10 0x06 h 2 d.field a.field b.field
  | .idle h a => fmtS 10 0x07 h 0 0 a.field
  | .pairWord s y p h0 h1 => some (encodePair s y p h0 h1)
  | _ => none

/-! ## Bytes (R28, R4) -/

/-- Little-endian value of a list of bytes, the first at the lowest address. -/
def leNat : List Byte → Nat
  | [] => 0
  | b :: bs => b.toNat + 256 * leNat bs

/-- The `n` bytes of a number, least significant first. -/
def leBytes : Nat → Nat → List Byte
  | 0, _ => []
  | n + 1, v => BitVec.ofNat 8 v :: leBytes n (v / 256)

/-- The instruction that the first 12 bytes stand for (R28). -/
def decodeBytes (bs : List Byte) : Except Illegal Instr :=
  decodeWord (BitVec.ofNat 96 (leNat (bs.take 12)))

/-- The host's question: the instruction whose bits, numbered as the table numbers them, are `w`. -/
def decodeTableWord (_nbits w : Nat) : Option Instr :=
  match decodeBytes (leBytes 12 w) with
  | .ok i => some i
  | .error _ => none

end Sys2Proof
end

