-- ==== Sys2Proof/Config.lean ====
section
/-! DEFINITION. What one module fixes and the manual does not state, as constants with no body (a
claim about one holds whatever its value is), and the figures of R1 that bound the machine. -/

namespace Sys2Proof.Config

/-- Compute dies (R1). -/
def dies : Nat := 2
/-- Active cores per die (R1). -/
def coresPerDie : Nat := 96
/-- Thread slots per core (R1, R10). -/
def threadSlots : Nat := 2048
/-- Resident teams per core (R10). -/
def teamSlots : Nat := 16
/-- Vector registers of one core's register file (R10). -/
def fileRegs : Nat := 786432
/-- Bytes of one local-store bank (R180). -/
def bankBytes : Nat := 49152
/-- Bytes of the accumulator store (R19). -/
def accBytes : Nat := 786432
/-- Bytes of one die's weight store (R189). -/
def weightBytes : Nat := 2 ^ 30
/-- Range-scoreboard entries per core (R192). -/
def sbEntries : Nat := 64
/-- Unretired commands per core (R198). -/
def cmdSlots : Nat := 128
/-- Core TLB entries (R348). -/
def tlbEntries : Nat := 1024
/-- Cluster TLB entries (R348). -/
def ctlbEntries : Nat := 16384
/-- Unresolved page faults held on-chip per context (R350). -/
def maxFaults : Nat := 4096
/-- Entries of one work queue (R263). -/
def wqItems : Nat := 1024
/-- WSWIN of the TZ-2880 (R191). -/
def wswin : DWord := 0x000000FA00017CDC#64
/-- Refresh-window period in core cycles (R191). -/
def wsPeriod : Nat := 97500
/-- Refresh-window length in core cycles (R191). -/
def wsLength : Nat := 250

/-- Parts of a 2.5 GHz cycle in which refresh windows are kept: the least number that every clock step
of R422 divides (08 R191, 20 R423). -/
def wsUnit : Nat := 26771144400
/-- The time of one cycle at a clock of `mhz`, in those parts (R423). -/
def wsCycle (mhz : Nat) : Nat := 2500 * wsUnit / mhz

/-- A free value: one number for each draw, of which nothing is known (log 1). -/
opaque free : Nat → Nat

/-- A free choice between two allowed behaviours, for each draw (log 1). -/
opaque freeBool : Nat → Bool

/-- The bits of a handle the device makes (R198): opaque to programs, one for each command (log 11). -/
opaque handleBits : Nat → BitVec 64

/-- What one TZ-2880 adds to a correctly rounded reference when a transcendental result is not
fixed by the manual (R77, R79): the result bits for an operation number, a type code, a grade, a
rounding code, a saturation bit and the operand bits (log 5). -/
opaque transcendental : Nat → Nat → Bool → Nat → Bool → Nat → Nat → Nat

/-- SHAKE256 with a 64-byte output, which R418 and R419 name and do not define (log 6). -/
opaque shake256 : List Byte → List Byte

/-- Ed448 verification of a signature over bytes under the fused public key (R418; log 6). -/
opaque ed448Verify : List Byte → List Byte → Bool

/-- Ed448 signing by the attestation engine with the fused private key (R419; log 6). -/
opaque ed448Sign : List Byte → List Byte

/-- The fused values the attestation report carries: security version, device serial, fuse
configuration digest and identity public key (R419; log 6). -/
opaque fusedSvn : BitVec 8
opaque fusedSerial : List Byte
opaque fusedConfig : List Byte
opaque fusedKey : List Byte

/-- L2 slices of a die, of 256 KiB, and their ways; a slice's sets of 64-byte lines follow (R1). -/
def l2Slices : Nat := 512
def l2SliceBytes : Nat := 2 ^ 18
def l2Ways : Nat := 16
def l2Sets : Nat := l2SliceBytes / (64 * l2Ways)
/-- Physical cores of a die: the active ones and one spare for each quadrant (R1, R417). -/
def quadrants : Nat := 4
def physicalCores : Nat := coresPerDie + quadrants

/-- The L2 home slice of a line within its die: the fixed hash of R393; and the set of the slice that holds it (log 12). -/
opaque homeSlice : Nat → Nat
opaque l2Set : Nat → Nat

/-- Where a page lies whose metadata names no frame of its pool, by what the entry holds: R317 calls the effect undefined
and keeps it inside the pool's frame areas (log 32). -/
opaque strayTier : Nat → Nat
opaque strayFrame : Nat → Nat
/-- The bytes in which Barchan keeps a node at `rxbase`, a form of its own (R326; log 32). -/
opaque nodeByte : Nat → Nat → Byte

/-- What happens next where nothing is due: a cycle of a core, or one of the device's own steps, for each
choice (log 1). -/
opaque pickCore : Nat → Option Nat
opaque pickEvent : Nat → Option Instr
/-- Or a check of an arithmetic datapath that finds a fault, by core (R407; log 19). -/
opaque pickCheck : Nat → Option Nat

/-- Channels of a stack (R393). -/
def channels : Nat := 32
/-- The bank of a line within its channel, its row there, and the channel of a line of the LP tier, which no rule gives
(R396; log 20). -/
opaque bankOf : Nat → Nat
opaque rowOf : Nat → Nat
opaque lpChannel : Nat → Nat

end Sys2Proof.Config
end

