-- ==== Sys2Proof/Machine/State.lean ====
section
/-! DEFINITION. The state of the module as plain data: what the spec gives each thread, home group,
team, core, die, stack, port and context, and the module as a whole (INVENTORY.md, State), and the
state right after a cold reset. -/

namespace Sys2Proof.Machine

/-- Byte memory: (address, byte) pairs, addresses strictly rising, no byte equal to what an unlisted
address reads as, which is 0 (log 3). -/
abbrev Memory := List Host.Cell

/-- The trap causes (16 R354). -/
inductive Cause where
  | ill | opbound | misalign | prot | poison | arith | handle | mxown | tcfgbad | kvbound | watch
  | swtrap | bkpt | fatalpage
  deriving DecidableEq, Repr

/-- Why a step can stop. -/
inductive Fault where
  /-- An instruction word was executed with no core issuing it: `exec` was called on a word in a
  state whose `cur` is none. The machine's own `step` never does so. Safe: it only stops a call that
  stands for nothing the hardware does. -/
  | noIssuer
  deriving DecidableEq, Repr

/-- Why the model can decline. -/
inductive Refusal where
  /-- An instruction whose meaning is not written yet, by its mnemonic. Safe. -/
  | notModelled (mnemonic : String)
  deriving DecidableEq, Repr

/-- A register of a team, by its owner: thread `t` or home group `g` (01 R8). -/
inductive RegAt where
  | v (t n : Nat) | p (t n : Nat) | s (g n : Nat) | x (g n : Nat) | h (g n : Nat)
  deriving DecidableEq, Repr

/-- A team as placed: physical core (96 × die + core), team slot, and its unique name, which no other
placement ever has. -/
structure TRef where
  core : Nat
  slot : Nat
  wid : Nat
  deriving DecidableEq, Repr

/-- Where a memory access lands once it is checked and translated. -/
inductive Tgt where
  /-- a physical address -/
  | mem (pa : Nat)
  /-- a byte offset of a team's scratchpad -/
  | scr (t : TRef) (off : Nat)
  /-- a byte offset of a die's weight store -/
  | wst (die off : Nat)
  deriving DecidableEq, Repr

/-- What an access does there: a load into registers (a scalar, or 32 bits each), a store, or an
atomic with its operand, its compare value's replacement and its destinations (09 R205, R212). -/
inductive MemAct where
  | load (dst : List RegAt)
  | store (data : List Byte)
  | atom (o : AtomOp) (t : AtomTy) (ord : Bool) (b d : Nat) (dst : List RegAt)
  /-- the arrival of `lacnt`: the expected count, D, and the predicates (11 R269) -/
  | elect (n : Nat) (d p : List RegAt)
  deriving DecidableEq, Repr

/-- One access of one thread (09 R201, R203). `va` is the virtual address or the offset, `wide` the
scope of the load's coherence. -/
structure Access where
  path : Path
  thr : Nat
  va : Nat
  size : Nat
  sc : Scope
  ch : CHint
  act : MemAct
  pc : PC
  deriving DecidableEq, Repr

/-- Where an outstanding result comes from. -/
inductive PSrc where
  /-- computed; written at the cycle given, or by the writeback event -/
  | vals (w : List (RegAt × DWord)) (due : Option Nat)
  /-- a read or atomic in flight -/
  | load (a : Access) (tgt : Tgt)
  /-- the reads of an `mld`: its threads, tile, address, stride, `.loc`, and the places read with the word
  of the accumulator store each begins at and its bytes; no place while it is parked (05 R132) -/
  | tile (thr : List Nat) (til base stride : Nat) (loc : Bool) (pc : PC) (ps : List (Nat × Tgt × Nat))
  /-- written when a wait ends, a command starts or a reply arrives -/
  | wait
  deriving DecidableEq, Repr

/-- An outstanding result of a word (02 R40): the registers it will write, and the home group, whose
`posts` hold its name. -/
structure Pend where
  uid : Nat
  /-- name of the instruction it belongs to: its updates of one address stay together (09 R213) -/
  ins : Nat
  slot : Nat
  hg : Nat
  regs : List RegAt
  src : PSrc
  /-- core cycle in which the word issued -/
  issuedAt : Nat
  /-- the load's data is known not to be in the local store or the L1 (06 R151) -/
  missed : Bool
  /-- marked urgent (06 R155) -/
  urgent : Bool
  /-- left unperformed at a checkpoint: its data could not be returned, and a trap stands for it (10 R250) -/
  aside : Bool
  deriving DecidableEq, Repr

/-- A store in the core's store queue (09 R205, 05 R133). -/
structure SEntry where
  uid : Nat
  ins : Nat
  slot : Nat
  wid : Nat
  thr : Nat
  hg : Nat
  path : Path
  va : Nat
  tgt : Tgt
  data : List Byte
  pc : PC
  /-- the threads that park with it (05 R133) -/
  mem : List Nat
  /-- parked on this fault id (09 R206, 05 R133) -/
  parked : Option Nat
  sc : Scope
  /-- performed at `.core`: a fence or a `rel` no wider than the core stands after it, or a thread of the core has read
  it (10 R235; log 27) -/
  near : Bool
  /-- performed at `.core` before a wider fence of a thread of the core: before every later `ls` write of the core (10
  R239; log 27) -/
  seen : Bool
  /-- restored with its context: such stores are performed in the order of their issue (10 R251) -/
  again : Bool
  /-- left unperformed at a checkpoint: its device did not answer, and a trap stands for it (19 R405) -/
  aside : Bool
  deriving DecidableEq, Repr

/-- A posted result in a thread's counter: counter, name of the result, already written (02 R40). -/
structure Post where
  ctr : Nat
  uid : Nat
  done : Bool
  deriving DecidableEq, Repr

/-- Who arrives, as an event of the choice journal names it: kind, source, thread, grid (or kick) ordinal,
team (or node), and for the kinds that count themselves the packet number or step (17 R370). -/
structure Arrival where
  kind : Nat
  src : Nat
  thr : Nat
  grid : Nat
  team : Nat
  own : Option Nat
  site : Nat
  val : Nat
  deriving DecidableEq, Repr

/-- What a hold of the fourth row of R151 stands on, for one thread: it is over once none of these holds. -/
inductive HoldOn where
  /-- a recorded range overlaps these bytes of a team slot's space on a core (08 R193) -/
  | range (core : Nat) (opb : Bool) (slot off n : Nat)
  /-- a core has fewer free scoreboard entries than this (08 R192) -/
  | entries (core n : Nat)
  /-- the context cannot take so many faults more (16 R350) -/
  | faults (n : Nat)
  /-- the core has fewer free command slots than this (08 R198) -/
  | cmds (n : Nat)
  /-- an `mld` has not written its tile (05 R125) -/
  | engine
  /-- the sorter's input cannot take so many pairs more (11 R260) -/
  | pairs (n : Nat)
  /-- the kick queue of a die cannot take so many kicks more (13 R289) -/
  | kicks (die n : Nat)
  /-- accesses of the core by name that come first are not performed (09 R217) -/
  | accs (uids : List Nat)
  /-- an `xfence` of the home group stands before accesses of this path (09 R218) -/
  | xfence (hg : Nat) (p : Path)
  /-- the page of a context that holds this address migrates (16 R353) -/
  | page (ctx va : Nat)
  /-- the port of a physical address passes no request of the core's tenant now (17 R378) -/
  | port (pa : Nat)
  deriving DecidableEq, Repr

/-- What a Waiting thread waits for (06 R151). -/
inductive WaitCond where
  /-- its next word is held on pending counters (counter, bound) or pending registers -/
  | held (needs : List (Nat × Nat)) (regs : List RegAt)
  /-- its next word is held by these -/
  | heldOn (on : List HoldOn)
  /-- `hwait`, by its record in the team -/
  | hwait (id : Nat)
  /-- `bxwait`: object, round, acquire scope, still a local wait (08 R197) -/
  | bxwait (obj : Tgt) (round : BitVec 16) (sc : Scope) (loc : Bool)
  /-- `bar` or `barcl`: waits for the end of this phase of this barrier -/
  | bar (cl : Bool) (id phase : Nat) (nf : Bool)
  /-- an arrival that first waits for its thread's earlier phase (09 R220) -/
  | barFirst (cl : Bool) (id phase : Nat) (nf arv : Bool)
  /-- `wqpop` on an empty queue; the item once one is assigned -/
  | wq (q : Nat) (uid : Nat) (vp : Option Nat) (dst : List RegAt) (item : Option (List Byte)) (sc : Scope)
  | macq
  | tkbeg
  /-- class 8 words of a restored owner wait for the reload (05 R136), sorter words likewise -/
  | engine
  | sorter
  /-- `idle`: core cycles that remain; privileged ones also end on a fault-ring entry -/
  | idle (left : Nat) (woken : Bool)
  /-- a member of a collector (07 R169) -/
  | collect (pc : PC)
  /-- `xfence` between two paths, on accesses by name (09 R218) -/
  | xfence (accs : List Nat) (sc : Scope) (ca cb : Path)
  /-- an arrival held for its journal turn (17 R372) -/
  | journal (a : Arrival)
  deriving DecidableEq, Repr

/-- Thread states (06 R144). -/
inductive TState where
  | binned (filed : Nat)
  | active (gid : Nat)
  | waiting (c : WaitCond)
  | parked (fid : Nat)
  | rejoin (mask : BitVec 32)
  | halted
  | exited
  deriving DecidableEq, Repr

/-- A thread (01 R8, 02 R39, R40, 06 R144). `regs` lists the vector registers that are not zero. -/
structure Thread where
  pc : PC
  regs : Tab Word
  preds : BitVec 48
  st : TState
  /-- first core cycle in which it may issue again (02 R39) -/
  notBefore : Nat
  posts : List Post
  /-- pipe lane and issue group it last issued from (06 R148) -/
  lane : Nat
  deriving DecidableEq, Repr

/-- A home group's registers (01 R8); unlisted registers are zero. -/
structure HGroup where
  scl : Tab DWord
  idx : Tab (BitVec 12)
  hnd : Tab DWord
  /-- how often each handle register was written (09 R230: unless hA has been written since) -/
  hver : Tab Nat
  deriving DecidableEq, Repr

/-- A wait of `hwait` (09 R230). -/
structure HWait where
  id : Nat
  hg : Nat
  reg : Nat
  ver : Nat
  h : DWord
  uid : Nat
  dst : Option RegAt
  done : Bool
  deriving DecidableEq, Repr

/-- A handle's state (08 R199) with the status fields of 09 R230. -/
structure HState where
  /-- 0 pending, 1 complete, 2 cancelled, 3 failed -/
  st : Nat
  kvb : Bool
  cause : Nat
  deriving DecidableEq, Repr

/-- A barrier: phase, and the threads arrived in it as (team rank in the cluster, thread), each with
whether it waits (09 R220). -/
structure Barrier where
  phase : Nat
  arrived : List (Nat × Nat)
  deriving DecidableEq, Repr

/-- A cross-lane collector (07 R169): its members with their guards, and the home group's index
registers as they stood when each member reached the word (thread, guard true, x0 to x3). -/
structure Coll where
  hg : Nat
  pc : PC
  ins : Instr
  mem : List (Nat × Bool × List Nat)
  deriving DecidableEq, Repr

/-- A page fault that is pending (16 R350 to R352): ring-entry fields, the parked accesses or the
command, and whether its word issues again on replay. -/
structure PFault where
  fid : Nat
  kind : Nat
  core : Nat
  slot : Nat
  wid : Nat
  hg : Nat
  va : Nat
  mem : List Nat
  pc : PC
  accs : List Access
  /-- the parked accesses by thread and name -/
  uids : List (Nat × Nat)
  cmd : Option Nat
  reissue : Bool
  /-- next PC of the parked threads once the replay has performed -/
  cont : PC
  /-- accepted: while its team was evicted, 1 for a replay, 2 for a cancel; 3 while its replay is not performed -/
  accepted : Nat
  /-- for kind 6: cause, code, nested; else the name of the instruction whose accesses these are -/
  info : Nat
  pending : Bool
  deriving DecidableEq, Repr

/-- How a trap resumes (16 R355 to R358). -/
inductive TrapKind where
  /-- at the trapping word -/
  | word
  /-- at PC + 12 (`swtrap`, `bkpt`) -/
  | after
  /-- at a checkpoint: accesses left unperformed, by name (10 R250) -/
  | checkpoint (acc : List Nat)
  /-- a command's failure: threads go on at their recorded PCs (16 R357) -/
  | command
  /-- a cancelled fault or a replay trap: the parked accesses (16 R357) -/
  | parked (f : PFault)
  deriving DecidableEq, Repr

/-- A trap to raise. -/
structure TrapReq where
  cause : Cause
  code : Nat
  point : PC
  mask : List Nat
  addrs : Tab Nat
  kind : TrapKind
  hg : Nat
  deriving DecidableEq, Repr

/-- One thread as a trap found it: its prior state and recorded PC, words issued in the skid, and,
for a handler lane, its saved window v0 to v15 and predicates (16 R355, R356). Its pending counters are zero
(04 R113). -/
structure Prior where
  thr : Nat
  st : TState
  pc : PC
  skid : Nat
  notBefore : Nat
  win : List Word
  preds : BitVec 48
  /-- the state and the PC recorded at the halt, whatever has become of them since (R356), and the remap table's pipe
  lane of the thread (R355) -/
  rst : TState
  rpc : PC
  lane : Nat
  deriving DecidableEq, Repr

/-- An issue group of the active set (06 R147, R149). -/
structure Group where
  gid : Nat
  slot : Nat
  pc : PC
  mem : List Nat
  /-- cycle of the draw; older groups come first in the list -/
  drawn : Nat
  /-- first cycle in which its first word may issue -/
  first : Nat
  /-- cycle in which its next word's hold on a variable-latency producer began (06 R151) -/
  heldAt : Option Nat
  /-- a hint miss has been counted for its next word (02 R39, R40) -/
  missed : Bool
  /-- pipe lane of each member (06 R148) -/
  lanes : Tab Nat
  /-- it leaves the active set at the end of this cycle (06 R144) -/
  ends : Bool
  deriving DecidableEq, Repr

/-- A trap in progress (16 R355, R356). -/
structure Trap where
  req : TrapReq
  /-- core cycle c in which it was raised -/
  cyc : Nat
  /-- false during the skid, true once the handler runs -/
  halted : Bool
  skids : Tab Nat
  /-- threads that stop at once: those of the trapping word, and those stopped in the skid -/
  stopped : List Nat
  prior : List Prior
  /-- the team's issue groups as the halt found them: part of the hidden state (R355); `drawn` holds the
  cycles that a group had spent in the active set -/
  groups : List Group
  /-- the team's cross-lane collectors as the halt found them (R355; 07 R178) -/
  colls : List Coll
  hhg : Nat
  /-- the handler home group's saved x0 to x3 -/
  winx : List Nat
  /-- results with lower names were owed before the halt -/
  uid0 : Nat
  /-- `TRAPVEC` as it stood when the trap was raised (R343) -/
  vec : Nat
  deriving DecidableEq, Repr

/-- A team (01 R10, R21, 06 R138; INVENTORY.md). -/
structure Team where
  wid : Nat
  ctx : Nat
  grid : Nat
  index : Nat
  cluster : Nat
  rank : Nat
  hgroups : Nat
  lastn : Nat
  regs : Nat
  sregs : Nat
  loc : Nat
  atrap : Bool
  flags : Nat
  psize : Nat
  param : DWord
  recAddr : DWord
  slotw : Word
  detlvl : Nat
  ordinal : Nat
  threads : Tab Thread
  hgs : Tab HGroup
  scratch : Tab Byte
  opbuf : Tab Byte
  bars : Tab Barrier
  colls : List Coll
  handles : Tab HState
  hwaits : List HWait
  trap : Option Trap
  held : List TrapReq
  fin : Bool
  killed : Bool
  /-- teams that `fetchw` handed to this one (13 R292) -/
  taken : List Nat
  /-- frozen by an eviction in progress (16 R360) -/
  frozen : Bool
  /-- vector and other registers whose data cannot be corrected (20 R407) -/
  rpoison : List RegAt
  /-- the units of 1,024 bytes of its core's scratchpad space that the core's allocation map gives it, in order
  of the team's offsets (08 R183) -/
  units : List Nat
  /-- lines of its core's L1 and of its read-only cache that are older than its placement, whose first instruction
  acquires (10 R246): no load of the team may hit them -/
  noL1 : List Nat
  noRo : List Nat
  /-- orders of `xfence` between commands of one path: thread, path, name (09 R218) -/
  cmdFences : List (Nat × Path × Nat)
  deriving DecidableEq, Repr

/-- What a restored owner reloads at its grant: configuration and tiles (05 R136), or a session's kept
set, count and flags (11 R262). `drained`: it had given up the engine with an `mld` unfinished, and its handover drain
goes on (05 R116; log 14). -/
structure Reload where
  cfg : Option (List Byte)
  tiles : Tab Word
  tpoison : List Nat
  kept : List (Word × Word)
  pushed : Nat
  ovf : Bool
  nanx : Bool
  drained : Bool
  deriving DecidableEq, Repr

/-- A waiter of the engine or the sorter: team slot, home group, the sorter's k, and what a restored
owner reloads. -/
structure EWait where
  slot : Nat
  hg : Nat
  k : Nat
  reload : Option Reload
  deriving DecidableEq, Repr

/-- The matrix engine (05 R114 to R116, R136). Tiles are words of the accumulator store, listed where
not zero: word (tile × M + i) × N + j. -/
structure Engine where
  owner : Option (Nat × Nat)
  queue : List EWait
  outside : List EWait
  drain : Bool
  cfg : Option (List Byte)
  tiles : Tab Word
  /-- words whose data cannot be corrected (20 R407) -/
  tpoison : List Nat
  deriving DecidableEq, Repr

/-- The top-k sorter (11 R255). -/
structure Sorter where
  owner : Option (Nat × Nat)
  queue : List EWait
  outside : List EWait
  k : Nat
  kept : List (Word × Word)
  pushed : Nat
  ovf : Bool
  nanx : Bool
  /-- pairs still in the input, and when the last was accepted (11 R260) -/
  fill : Nat
  deriving DecidableEq, Repr

/-- A range-scoreboard entry (08 R192): space (false scratchpad, true operand buffer), the team whose
bytes it covers with its offsets there, the bounds in the core's space, written or read only, recording
command. -/
structure SbEntry where
  opb : Bool
  slot : Nat
  lo : Nat
  hi : Nat
  start : Nat
  stop : Nat
  wr : Bool
  cmd : Nat
  deriving DecidableEq, Repr

/-- One end of a copy (09 R225): global memory, a scratchpad, an operand-buffer slot, a weight store. -/
inductive End where
  | glob (va : Nat)
  | scr (t : TRef) (off : Nat)
  | opb (off : Nat)
  | wst (die off : Nat)
  deriving DecidableEq, Repr

/-- What an asynchronous command does. -/
inductive CmdKind where
  /-- R225 -/
  | copy (src dst : End) (len : Nat) (sc : Scope)
  /-- R226: participants' block indices, descriptor address, request, plane, destination -/
  | gather (blocks : List Nat) (pd req : Nat) (ix : Bool) (dst : TRef) (off : Nat)
  /-- R227 -/
  | kvpf (blocks : List Nat) (pd req : Nat) (ix : Bool)
  /-- 15 R333: the gathers it waits for -/
  | kvinv (after : List (Nat × Nat))
  /-- 15 R335: pool of context, page, tier 1 LP, 2 CXL -/
  | evict (page tier : Nat)
  /-- 15 R335: page, send descriptor -/
  | peer (page desc : Nat)
  /-- 16 R349: the accesses it waits for, as (core, name) -/
  | tlbinv (after : List (Nat × Nat))
  /-- 16 R353: context, page address, destination, leaf size, leaf entry address -/
  | mig (ctx va dpa size leaf : Nat)
  /-- a command that has nothing left to do -/
  | done
  deriving DecidableEq, Repr

/-- A command (08 R198, 09 R223). `srcs` lists the participants whose page a gather has translated, `pins`
the pages it pinned. -/
structure Cmd where
  id : Nat
  h : DWord
  slot : Nat
  wid : Nat
  hg : Nat
  pc : PC
  mask : List Nat
  kind : CmdKind
  /-- the barrier object, if any (R196) -/
  obj : Option Tgt
  /-- begun: its range waits are over and what it reads at its start is read -/
  begun : Bool
  /-- byte ranges (offset from its start, length) still to deliver -/
  rest : List (Nat × Nat)
  /-- portions whose 64-byte request waits in a network port or has passed it: name, offset, length (17 R375) -/
  asks : List (Nat × Nat × Nat)
  /-- bytes counted into the object by a zero-length command -/
  zeroLen : Bool
  pins : List Nat
  srcs : List Nat
  /-- stopped on this fault id, or on Erg's recall of a page (R229) -/
  fault : Option Nat
  erg : Option Nat
  kvb : Bool
  /-- read as a gather or a prefetch starts: positions per block, bytes per position, block count (R226) -/
  geo : Nat × Nat × Nat
  /-- an error was met: its cause (R229) -/
  err : Option Cause
  /-- ended: 1 complete, 2 cancelled, 3 failed with the cause -/
  fin : Option (Nat × Nat)
  deriving DecidableEq, Repr

/-- A cached translation (16 R348): context, page address, page bytes, leaf entry. -/
structure TlbEntry where
  ctx : Nat
  va : Nat
  size : Nat
  leaf : BitVec 64
  deriving DecidableEq, Repr

/-- A watch point (20 R416): base, length (0 disables it), the kinds load, store, atomic, command,
fetch as bits 0 to 4, and the context. -/
structure Watch where
  base : Nat
  len : Nat
  kinds : BitVec 5
  ctx : Nat
  deriving DecidableEq, Repr

/-- A compute core (INVENTORY.md, per core). -/
structure Core where
  cyc : DWord
  /-- time since this core's refresh window began, in parts of a 2.5 GHz cycle (08 R191, 20 R423) -/
  wsPhase : Nat
  ctxidReg : DWord
  ctx : Option Nat
  bankWr : DWord
  bankRole : DWord
  teams : Tab Team
  groups : List Group
  /-- words issued in this cycle: group, the word's PC, and the group it shares its issue with -/
  issued : List (Nat × PC × Option Nat)
  /-- groups whose next word was tried in this cycle and found held (06 R149) -/
  tried : List Nat
  drawn : Bool
  /-- threads whose `exit` issued in this cycle and takes effect at its end (06 R144): team slot, threads -/
  exits : List (Nat × List Nat)
  aged : List (Nat × PC)
  hintMiss : Nat
  /-- the datapath check of the next word fails, and fails again when it is issued once more (20 R407) -/
  check : Bool
  /-- fixed-latency results not yet usable: team slot, register, first usable cycle (02 R39) -/
  ready : List (Nat × RegAt × Nat)
  pends : List Pend
  storeQ : List SEntry
  /-- `fence.ar` orders in force over stores that are still queued: team slot, thread, name (09 R217) -/
  fences : List (Nat × Nat × Nat)
  l1 : Tab (List Byte)
  roCache : Tab (List Byte)
  tlb : List TlbEntry
  eng : Engine
  srt : Sorter
  sb : List SbEntry
  /-- words of scratchpads whose data cannot be corrected: team slot and byte offset (20 R407) -/
  spoison : List (Nat × Nat)
  cmds : List Cmd
  watch : Tab Watch
  deriving DecidableEq, Repr

/-- The word being issued: core, team slot, issue group, PC, members, and the group whose issue it
shares (06 R154). -/
structure Cur where
  core : Nat
  slot : Nat
  gid : Nat
  pc : PC
  mem : List Nat
  share : Option Nat
  deriving DecidableEq, Repr

/-- A work queue (11 R263, R266). -/
structure WorkQ where
  ctx : Option Nat
  items : List (List Byte)
  /-- team and thread of each waiter, with the name of its wait -/
  waiters : List (TRef × Nat × Nat)
  deriving DecidableEq, Repr

/-- A grid (06 R140, 13 R282 to R285). -/
structure Grid where
  ctx : Nat
  die : Nat
  record : List Byte
  recAddr : DWord
  detlvl : Nat
  ordinal : Nat
  /-- teams not yet placed, ascending, and teams withdrawn by `fetchw` -/
  unplaced : List Nat
  placed : List Nat
  /-- teams that have finished -/
  finished : List Nat
  /-- cluster barriers, by 4 × cluster + id (09 R220) -/
  bars : Tab Barrier
  /-- the replay and node, or the command-ring packet, that it belongs to -/
  node : Option (Nat × Nat)
  packet : Option (Nat × Nat)
  complete : Bool
  deriving DecidableEq, Repr

/-- A graph replay, from its kick on (13 R289): the kept header, whether it has begun and ended; for a
replay that has begun, the node array's offset, the edges, and each node's pending count and `nstat`;
the first refused node with its code. A replay that has not begun stands in its die's kick queue. -/
structure Replay where
  ctx : Nat
  die : Nat
  table : Nat
  image : Nat
  nent : Nat
  rdone : Nat
  badHdr : Bool
  ord : Nat
  packet : Option Nat
  begun : Bool
  ended : Bool
  nodeoff : Nat
  edges : List (Nat × Nat)
  pending : List Nat
  stat : List Nat
  ref : Option (Nat × Nat)
  deriving DecidableEq, Repr

/-- A slot of a model step (14 R304, R305). -/
structure Slot where
  req : Nat
  qstart : Nat
  qlen : Nat
  kvlen : Nat
  samp : Bool
  deriving DecidableEq, Repr

/-- Meridian's service of a context's request table (14 R298 to R305): the table (0: none), its die,
idle, stopping after the current step, the table to read then, the step's number, whether a kicked step
is in flight, whether one has ended whose close is still to come, whether the phases of the next have begun and wait for
the journal (R301; 17 R372), its `rdone` address, slots with the table that they belong to (R308) and counted reports, the
`cgroups` read at its start, and the pending list. -/
structure Mer where
  tab : Nat
  die : Nat
  idle : Bool
  stop : Bool
  next : Option Nat
  step : Nat
  flying : Bool
  ended : Bool
  begun : Bool
  cgroups : Nat
  rdone : Nat
  slotTab : Nat
  slots : List Slot
  pend : List Nat
  reports : Nat
  deriving DecidableEq, Repr

/-- Erg's own state for a context's pool (15 R321 to R333): cached block translations (request, block,
page), reserved HBM frames (request, page, frame), blocks prepared in this step (request, block, positions, by a `kvapp`
that ended with status 0), and for each recall that waits for a frame (descriptor, page) the pages whose eviction has
aborted for it (15 R323); and the metadata cache: descriptor, page and entry (20 R414). -/
structure Erg where
  cache : List (Nat × Nat × Nat)
  resv : List (Nat × Nat × Nat)
  prep : List (Nat × Nat × Nat × Bool)
  tried : List (Nat × Nat × List Nat)
  pgs : List (Nat × Nat × Nat)
  deriving DecidableEq, Repr

/-- A node of Barchan's tree (15 R326). -/
structure RxNode where
  idx : Nat
  toks : List Nat
  fill : Nat
  page : Nat
  parent : Option Nat
  last : Nat
  /-- which form of bytes its entry of the node array holds (log 13) -/
  form : Nat
  deriving DecidableEq, Repr

/-- The choice journal of a context (17 R366 to R373): descriptor, level, event area, capacity, count,
position, status, consumed events at or above the position, occurrence counts by kind, site, grid, team
and thread, grid and kick ordinals, and a mismatch that was met. -/
structure Jrn where
  desc : Nat
  lvl : Nat
  base : Nat
  cap : Nat
  cnt : Nat
  pos : Nat
  stat : Nat
  used : List Nat
  occ : List ((Nat × Nat × Nat × Nat × Nat) × Nat)
  grids : Nat
  kicks : Nat
  mis : Bool
  deriving DecidableEq, Repr

/-- A team in a context's save area (16 R362): where it was, the team, its outstanding results, its
queued stores, its resumable commands, and the engine and the sorter session where it owned them. -/
structure SavedTeam where
  core : Nat
  slot : Nat
  team : Team
  pends : List Pend
  stores : List SEntry
  cmds : List Cmd
  /-- scoreboard entries of its commands, each with the team whose bytes it covers -/
  sb : List (Nat × SbEntry)
  /-- its `fence.ar` orders in force, by thread and name, and the words of its scratchpad that cannot be corrected -/
  fences : List (Nat × Nat)
  spoison : List Nat
  eng : Option Engine
  srt : Option Sorter
  deriving DecidableEq, Repr

/-- The command ring of a context as it is served (13 R295, R296; 16 R339): packets started, the write
index last read, the started packets that have not finished, the packet the queue stopped at, a `WAIT`
in force (packet, address, value), a `SETDET` in force (packet, and the journal it opens), and a `WSLOAD` that
waits (packet, source, offset, length, die). -/
structure Ring where
  rd : Nat
  wr : Nat
  open_ : List Nat
  stopped : Option Nat
  wait : Option (Nat × Nat × Nat)
  setdet : Option (Nat × Jrn)
  ws : Option (Nat × Nat × Nat × Nat × Nat)
  deriving DecidableEq, Repr

/-- A launch or a kick held for its journal turn (17 R372): the issuing core, team slot and team, the name
of the result it owes with its register, the record's bytes and address (a launch) or the table (a
kick), and its identity, with the step of a kick of Meridian. -/
structure HeldSub where
  core : Nat
  slot : Nat
  wid : Nat
  uid : Nat
  dst : Option RegAt
  bytes : List Byte
  addr : Nat
  lvl : Nat
  arr : Arrival
  deriving DecidableEq, Repr

/-- A context (16 R339, R340; INVENTORY.md, per context). -/
structure Ctx where
  priv : Bool
  cst : Nat
  root : Nat
  fqbase : Nat
  fqsz : Nat
  svbase : Nat
  svsize : Nat
  cores : BitVec 192
  wqmask : BitVec 128
  cqbase : Nat
  cqsz : Nat
  trapvec : DWord
  detlvl : DWord
  rqbase : DWord
  nextFid : Nat
  faults : List PFault
  /-- fault-ring entries that are not written yet, in `fid` order (16 R351) -/
  ringQ : List (List Byte)
  /-- entries written to the fault ring so far -/
  ringTail : Nat
  ring : Ring
  mer : Mer
  erg : Erg
  /-- Barchan's tree of each pool, by the address of its descriptor (15 R326) -/
  rx : Tab (List RxNode)
  jrn : Jrn
  saved : List SavedTeam
  heldL : List HeldSub
  heldK : List HeldSub
  /-- a run request held until an eviction completes (R340) -/
  runHeld : Bool
  /-- the save under way: segments still to be admitted, and those written, as (frame, bytes) (19 R403) -/
  save : Option (Nat × List (Nat × List Byte))
  /-- the assigned work queues as an eviction saved them, by queue operand (16 R362) -/
  savedQ : List (Nat × WorkQ)
  deriving DecidableEq, Repr

/-- The counters of one Erropex unit (20 R410, R411): events recorded, stamp, own cycle count. -/
structure EroUnit where
  seq : Nat
  stamp : BitVec 32
  cyc : Nat
  deriving DecidableEq, Repr

/-- A die's Erropex record (20 R410, R412): events of 32 bytes, oldest first; frozen; uncorrectable
events since the last unfreeze. -/
structure Ero where
  events : List (List Byte)
  frozen : Bool
  uncorr : Nat
  deriving DecidableEq, Repr

/-- A compute die (INVENTORY.md, per die). -/
structure Die where
  gkick : DWord
  wswin : DWord
  sharetab : DWord
  retrain : DWord
  weights : Memory
  wpoison : List Nat
  /-- in a refresh window; the next 4 KiB block that a window scrubs (08 R191, 20 R407) -/
  wsIn : Bool
  wsScrub : Nat
  wqs : Tab WorkQ
  /-- launches in the launch queue, of kernels and of `LAUNCH` packets, by grid (13 R291, R296) -/
  launchQ : List Nat
  mhz : Nat
  /-- 0 running, 1 to 3 why the die halted, 4 in warm reset (20 R408, R409) -/
  halted : Nat
  ero : Ero
  deriving DecidableEq, Repr

/-- A request that waits in a network port: the access's name, its core, its tenant, and the urgency mark
(17 R375, R378). -/
structure PReq where
  uid : Nat
  core : Nat
  ctx : Nat
  urg : Bool
  deriving DecidableEq, Repr

/-- A network port (17 R375 to R378): the share table in force (tenant, refill; empty: no metering), the
tokens of its buckets in table order, of the rest bucket and of the spill pool, a table accepted for the
next interval, and the waiting requests, oldest first. -/
structure Port where
  share : List (Nat × Nat)
  tok : List Nat
  rest : Nat
  spill : Nat
  next : Option (List (Nat × Nat))
  wait : List PReq
  deriving DecidableEq, Repr

/-- A request at a base die (19 R394): tag, op, line, urgency, burst flag, waited 2 µs, byte mask, payload,
and for an atomic its op, kind, width, offset, operand and new value; the access in flight that a slice forwarded it for
(19 R395); and whether the line is as its slice holds it (log 20). -/
structure LReq where
  tag : Nat
  op : Nat
  line : Nat
  urg : Bool
  brst : Bool
  waited : Bool
  mask : BitVec 64
  data : List Byte
  atom : Option (AtomOp × BitVec 2 × Bool × BitVec 6 × BitVec 64 × BitVec 64)
  acc : Option (Nat × Nat)
  back : Bool
  deriving DecidableEq, Repr

/-- A stack base die (0 to 7) or an LP controller (8, 9) (19 R394 to R406): its own clock in tenths of a
microsecond; rate in force and `STKRATE`; a pending change with its limit, a running one, and the request
recorded meanwhile; `STKERR` and `tfail`; postponement counts of banks, banks whose refresh is forced, all-bank refreshes
of each channel and those that each bank has counted as its due ones (19 R399);
retraining retries by channel, the channel that a retraining stands at, and the moment from which the interval counts; requests in order of arrival, replies by
tag, each bank's open row with its run of grants; deadline-save segments admitted and not performed, with
their context; and the patrol position. -/
structure Stk where
  now : Nat
  rate : Nat
  reg : DWord
  pend : Option (Nat × Nat)
  running : Option Nat
  nextReq : Option Nat
  err : BitVec 3
  tfail : Nat
  post : Tab Int
  forced : List Nat
  allRef : Tab Nat
  seenAll : Tab Nat
  retry : Tab Nat
  training : Option Nat
  rtFrom : Nat
  queue : List LReq
  replies : Tab (Nat × List Byte)
  rows : Tab (Nat × Nat)
  segs : List (Nat × Nat × List Byte)
  patrol : Nat
  deriving DecidableEq, Repr

/-- The host register window and what stands behind it (20 R409, R413, R417 to R421): `FWSTAT`, `CTXBELL`,
`RBSEL`, the `RBDATA` word last read, `ERRCTL`, `ATTREQ`, the endpoint table's bytes, the address written to
word 0 of space 20, the digests of the running images, reports issued, the repair map, and the spare lanes
used on each link. -/
structure HostWin where
  fwstat : DWord
  ctxbell : DWord
  rbsel : DWord
  rbdata : DWord
  errctl : DWord
  attreq : DWord
  endp : Tab Byte
  l2look : DWord
  images : List (List Byte)
  reports : Nat
  repairs : List (List Byte)
  spares : Tab Nat
  deriving DecidableEq, Repr

/-- The act the machine takes next: part of a core's cycle, or one of the device's own steps (log 1). -/
inductive Act where
  /-- one issue slot of the cycle: the oldest group whose next word can issue -/
  | issue (core : Nat)
  /-- a younger group may share the issue just made (06 R154) -/
  | share (core : Nat)
  /-- a whole cycle of the core -/
  | cycle (core : Nat)
  /-- the end of the cycle: what R144 to R166 test there -/
  | close (core : Nat)
  /-- the cycle number advances -/
  | tick (core : Nat)
  | event (i : Instr)
  /-- a residue or parity check of a core's arithmetic finds a fault (20 R407) -/
  | check (core : Nat)
  /-- a register of the host register window that a store of a kernel writes: offset and value (20 R409) -/
  | reg (off : Nat) (v : DWord)
  deriving DecidableEq, Repr

/-- Who makes an access (10 R233): a thread, with the core and team it issued in and that team's grid and cluster; a
serving agent; a host agent; a peer device or a network engine. -/
inductive Agent where
  | thr (core wid t grid cluster : Nat)
  | serve
  | host
  | peer
  deriving DecidableEq, Repr

/-- What a write of a path replaced (10 R237): the aligned 4-byte element, by its address over 4, with the bytes that
stood there; the path and the agent of the write; the paths whose reads it is ordered before, and the threads (by team
and number) whose accesses it is ordered before. -/
structure Past where
  elem : Nat
  old : List Byte
  path : Path
  who : Agent
  seen : List Path
  gone : List (Nat × Nat)
  deriving DecidableEq, Repr

/-- The state of the module. `cur`, `agenda`, `picks`, `free`, `uid`, `wid` and `hseq` are the model's
own (log 1). -/
structure State where
  mem : Memory
  /-- what writes replaced, the latest first: a read of another path may still return it (10 R237; log 35) -/
  late : List Past
  poison : List Nat
  cores : Tab Core
  dies : Tab Die
  ctlb : Tab (List TlbEntry)
  /-- lines that the L2 holds, latest first, by (512 × die + slice) × 256 + set: 512 slices of 256 KiB for each die,
  16-way, in lines of 64 bytes (00 R1) -/
  l2 : Tab (List Nat)
  /-- CXL ranges backed by an attached device: first address, bytes (19 R392) -/
  cxl : List (Nat × Nat)
  ctxs : Tab Ctx
  grids : Tab Grid
  replays : Tab Replay
  scFences : Nat
  /-- CTXTAB of the host register window (20 R409) -/
  ctxtab : DWord
  /-- counters of the Erropex units, by (2 × unit + die) × 512 + instance (20 R410) -/
  units : Tab EroUnit
  /-- network ports, by the core whose mesh stop they serve -/
  ports : Tab Port
  stks : Tab Stk
  host : HostWin
  cur : Option Cur
  agenda : List Act
  picks : Nat
  free : Nat
  uid : Nat
  wid : Nat
  hseq : Nat
  deriving DecidableEq, Repr

/-- A port with no metering, a controller and the window at cold reset (17 R376; 19 R400; 20 R409; log 8). -/
def Port.reset : Port := { share := [], tok := [], rest := 0, spill := 0, next := none, wait := [] }
def Stk.reset : Stk :=
  { now := 0, rate := 0, reg := 0, pend := none, running := none, nextReq := none, err := 0, tfail := 0, post := [],
    forced := [], allRef := [], seenAll := [], retry := [], training := none, rtFrom := 0, queue := [], replies := [], rows := [], segs := [], patrol := 0 }
def HostWin.reset : HostWin :=
  { fwstat := 0, ctxbell := 0, rbsel := 0, rbdata := 0, errctl := 0, attreq := 0, endp := [], l2look := 0, images := [],
    reports := 0, repairs := [], spares := [] }

/-- Ring, Meridian, Erg and journal of a context that starts. -/
def Ring.reset (rd wr : Nat) : Ring := { rd := rd, wr := wr, open_ := [], stopped := none, wait := none, setdet := none, ws := none }
def Mer.reset : Mer :=
  { tab := 0, die := 0, idle := false, stop := false, next := none, step := 0, flying := false, ended := false, begun := false, cgroups := 0, rdone := 0,
    slotTab := 0, slots := [], pend := [], reports := 0 }
def Erg.reset : Erg := { cache := [], resv := [], prep := [], tried := [], pgs := [] }
def Jrn.reset : Jrn :=
  { desc := 0, lvl := 0, base := 0, cap := 0, cnt := 0, pos := 0, stat := 0, used := [], occ := [], grids := 0,
    kicks := 0, mis := false }

/-- The matrix engine at core reset (05 R114). -/
def Engine.reset : Engine :=
  { owner := none, queue := [], outside := [], drain := false, cfg := none, tiles := [], tpoison := [] }

/-- The sorter at core reset (11 R255). -/
def Sorter.reset : Sorter :=
  { owner := none, queue := [], outside := [], k := 0, kept := [], pushed := 0, ovf := false,
    nanx := false, fill := 0 }

/-- A core at reset (01 R22, R25, 05 R114, 11 R255; the other values: log 9). -/
def Core.reset : Core :=
  { cyc := 0, wsPhase := 0, ctxidReg := 0, ctx := none, bankWr := 0xAAAA555500000000, bankRole := 0xAAAA555500000000,
    teams := [], groups := [], issued := [], tried := [], drawn := false, exits := [], aged := [], hintMiss := 0, check := false, ready := [],
    pends := [], storeQ := [], fences := [], l1 := [], roCache := [], tlb := [], eng := .reset, srt := .reset, sb := [], spoison := [],
    cmds := [], watch := [] }

/-- A die at reset (01 R25, 08 R191). -/
def Die.reset : Die :=
  { gkick := 0, wswin := Config.wswin, sharetab := 0, retrain := 0xF4240, weights := [], wpoison := [],
    wsIn := true, wsScrub := 0, wqs := [], launchQ := [], mhz := 2500, halted := 0,
    ero := { events := [], frozen := false, uncorr := 0 } }

/-- The module right after a cold reset: every core and die at reset (an unlisted one reads so), no
context, no team, memory with nothing listed. -/
def State.reset : State :=
  { mem := [], late := [], poison := [], cores := [], dies := [], ctlb := [], l2 := [], cxl := [], ctxs := [], grids := [], replays := [], scFences := 0, ctxtab := 0, units := [],
    ports := [], stks := [], host := .reset, cur := none, agenda := [], picks := 0, free := 0, uid := 1, wid := 1, hseq := 1 }

end Sys2Proof.Machine
end

