-- ==== Sys2Proof/Machine/Access.lean ====
section
/-! DEFINITION. Sparse tables, byte memory, reaching into the state, the places of addresses, and the
Erropex record (00 R1, R4; 19 R392, R393; 20 R410 to R412). -/

namespace Sys2Proof

/-! ## Sparse tables -/

/-- The value listed at `k`. -/
def Tab.get? {α : Type} : Tab α → Nat → Option α
  | [], _ => none
  | (j, v) :: t, k => if j = k then some v else Tab.get? t k

/-- Lists `v` at `k`, keeping the keys strictly rising. -/
def Tab.set {α : Type} : Tab α → Nat → α → Tab α
  | [], k, v => [(k, v)]
  | (j, u) :: t, k, v =>
      if k = j then (k, v) :: t else if k < j then (k, v) :: (j, u) :: t else (j, u) :: Tab.set t k v

/-- Removes what is listed at `k`. -/
def Tab.erase {α : Type} (t : Tab α) (k : Nat) : Tab α := t.filter fun e => !decide (e.1 = k)

/-- The value at `k`, an unlisted key reading `d`. -/
def Tab.getD {α : Type} (t : Tab α) (k : Nat) (d : α) : α := (Tab.get? t k).getD d

/-- Makes `k` read `v`, never listing the default `d`. -/
def Tab.put {α : Type} [DecidableEq α] (d : α) (t : Tab α) (k : Nat) (v : α) : Tab α :=
  if v = d then Tab.erase t k else Tab.set t k v

/-- Applies `f` to the value listed at `k`, if any. -/
def Tab.mod {α : Type} (t : Tab α) (k : Nat) (f : α → α) : Tab α :=
  match Tab.get? t k with
  | some v => Tab.set t k (f v)
  | none => t

/-- The keys are strictly rising and above `lo`. -/
def Tab.sortedFrom {α : Type} : Nat → Tab α → Bool
  | _, [] => true
  | lo, (k, _) :: t => lo ≤ k && Tab.sortedFrom (k + 1) t

/-- The canonical form of a table with default `d`: keys strictly rising, the default never listed. -/
def Tab.wf {α : Type} [DecidableEq α] (d : α) (t : Tab α) : Bool :=
  Tab.sortedFrom 0 t && t.all fun e => !decide (e.2 = d)

end Sys2Proof

namespace Sys2Proof.Machine

/-! ## Byte memory (00 R4) -/

/-- The byte at an address; an unlisted one reads 0 (log 3). -/
def Memory.read (m : Memory) (a : Nat) : Byte := Tab.getD m a 0
/-- Writes one byte, keeping the canonical form. -/
def Memory.write (m : Memory) (a : Nat) (b : Byte) : Memory := Tab.put 0 m a b
/-- The canonical form of memory. -/
def Memory.wf (m : Memory) : Bool := Tab.wf (0 : Byte) m
/-- `n` bytes from `a`. -/
def Memory.readN (m : Memory) (a : Nat) : Nat → List Byte
  | 0 => []
  | n + 1 => Memory.read m a :: Memory.readN m (a + 1) n
/-- Writes a list of bytes from `a`. -/
def Memory.writeN (m : Memory) (a : Nat) : List Byte → Memory
  | [] => m
  | b :: bs => Memory.writeN (Memory.write m a b) (a + 1) bs
/-- The little-endian number in `n` bytes from `a`. -/
def Memory.readLe (m : Memory) (a n : Nat) : Nat := leNat (Memory.readN m a n)
/-- Stores a number in `n` bytes, little-endian. -/
def Memory.writeLe (m : Memory) (a n v : Nat) : Memory := Memory.writeN m a (leBytes n v)

/-! ## Small list helpers -/

/-- Removes repeats, keeping the first of each. -/
def dedup (l : List Nat) : List Nat :=
  l.foldl (fun acc x => if acc.contains x then acc else acc ++ [x]) []

/-- Inserts a number into a rising list. -/
def insertNat (x : Nat) : List Nat → List Nat
  | [] => [x]
  | y :: t => if x < y then x :: y :: t else if x = y then y :: t else y :: insertNat x t

/-- Rising and without repeats. -/
def sortNat (l : List Nat) : List Nat := l.foldl (fun acc x => insertNat x acc) []

/-- The bits of a mask as the numbers below `n` that are set. -/
def maskToList (m : Nat) (n : Nat) : List Nat := (List.range n).filter fun i => m.testBit i
/-- A list of numbers as a mask. -/
def listToMask (l : List Nat) : Nat := l.foldl (fun a i => a ||| 2 ^ i) 0

/-! ## Reaching into the state -/

/-- Core `c` (96 × die + core); an unlisted core is at reset. -/
def State.core (s : State) (c : Nat) : Core := Tab.getD s.cores c Core.reset
def State.setCore (s : State) (c : Nat) (k : Core) : State := { s with cores := Tab.set s.cores c k }
def State.modCore (s : State) (c : Nat) (f : Core → Core) : State := s.setCore c (f (s.core c))
/-- Die `d`; an unlisted die is at reset. -/
def State.die (s : State) (d : Nat) : Die := Tab.getD s.dies d Die.reset
def State.modDie (s : State) (d : Nat) (f : Die → Die) : State :=
  { s with dies := Tab.set s.dies d (f (s.die d)) }
def State.team? (s : State) (c slot : Nat) : Option Team := Tab.get? (s.core c).teams slot
def State.modTeam (s : State) (c slot : Nat) (f : Team → Team) : State :=
  s.modCore c fun k => { k with teams := Tab.mod k.teams slot f }
def State.ctx? (s : State) (c : Nat) : Option Ctx := Tab.get? s.ctxs c
def State.modCtx (s : State) (c : Nat) (f : Ctx → Ctx) : State :=
  { s with ctxs := Tab.mod s.ctxs c f }
def State.modGrid (s : State) (g : Nat) (f : Grid → Grid) : State :=
  { s with grids := Tab.mod s.grids g f }
def Team.modThread (t : Team) (i : Nat) (f : Thread → Thread) : Team :=
  { t with threads := Tab.mod t.threads i f }
def Team.modHg (t : Team) (g : Nat) (f : HGroup → HGroup) : Team := { t with hgs := Tab.mod t.hgs g f }
def State.modThread (s : State) (c slot i : Nat) (f : Thread → Thread) : State :=
  s.modTeam c slot fun t => t.modThread i f

/-- The core's cycle number as a count. -/
def Core.now (k : Core) : Nat := k.cyc.toNat

/-- Draws one free value (log 1). -/
def State.draw (s : State) : Nat × State := (Config.free s.free, { s with free := s.free + 1 })
/-- Draws one free choice (log 1). -/
def State.drawBool (s : State) : Bool × State := (Config.freeBool s.free, { s with free := s.free + 1 })
/-- A name no result, access or command ever had. -/
def State.newUid (s : State) : Nat × State := (s.uid, { s with uid := s.uid + 1 })

/-- Home group and home lane of a thread (06 R138). -/
def hgOf (t : Nat) : Nat := t / 32
def laneOf (t : Nat) : Nat := t % 32

/-! ## Places (00 R1; 19 R392, R393; 20 R409) -/

/-- Quadrant of a core in the logical 12 × 8 mesh of four 6 × 4 quadrants, cores numbered row by row
(00 R1; log 15). -/
def quadOf (c : Nat) : Nat := 4 * (c / 96) + c % 12 / 6 + 2 * (c % 96 / 48)

/-- The stack of an HBM address, and the LP controller's die (R393). -/
def stackOf (pa : Nat) : Nat := Nat.xor (Nat.xor (pa / 2 ^ 12 % 8) (pa / 2 ^ 15 % 8)) (pa / 2 ^ 18 % 8)
def lpDie (pa : Nat) : Nat := (pa / 2 ^ 12 + pa / 2 ^ 20) % 2
/-- The channel of an HBM address within its stack (R393). -/
def chanOf (pa : Nat) : Nat := pa / 2 ^ 7 % Config.channels
/-- Line index within the stack, and the address of a line index of a stack (R393). -/
def lineOf (pa : Nat) : Nat := pa / 2 ^ 15 * 64 + pa / 64 % 64
def lineAddr (stk line : Nat) : Nat :=
  line / 64 * 2 ^ 15 + Nat.xor (Nat.xor stk (line / 64 % 8)) (line / 512 % 8) * 2 ^ 12 + line % 64 * 64
def inHbm (pa : Nat) : Bool := pa < 0x8000000000
def inLp (pa : Nat) : Bool := 0x10000000000 ≤ pa && pa < 0x20000000000
def inCxl (pa : Nat) : Bool := 0x100000000000 ≤ pa && pa < 0x200000000000
def inHost (pa : Nat) : Bool := 0x200000000000 ≤ pa && pa < 0x300000000000
/-- The host register window as privileged kernels reach it (20 R409). -/
def inWindow (pa : Nat) : Bool := 0x300000000000 ≤ pa && pa < 0x300001000000

/-- The die that an address homes on, and its home slice there (19 R393; log 12). -/
def homeDie (pa : Nat) : Nat := if inHbm pa then stackOf pa / 4 else lpDie pa
def sliceOf (pa : Nat) : Nat := Config.homeSlice (pa / 64) % Config.l2Slices

/-- The endpoint table names a valid peer (20 R421). -/
def HostWin.peer (h : HostWin) (n : Nat) : Bool :=
  let e := Memory.readLe h.endp (32 * n) 32
  n < 256 && e / 2 ^ 168 == 1

/-- Uncorrectable data in a byte range: a poisoned 64-byte line (20 R407). -/
def State.poisoned (s : State) (pa n : Nat) : Bool :=
  s.poison.any fun l => pa / 64 ≤ l / 64 && l / 64 ≤ (pa + n - 1) / 64

/-! ## The Erropex record (20 R410 to R412) -/

/-- Key of a unit's counters. -/
def unitKey (unit die inst : Nat) : Nat := (2 * unit + die) * 512 + inst
/-- Counters of a unit that has recorded and received nothing. -/
def EroUnit.reset : EroUnit := { seq := 0, stamp := 0, cyc := 0 }
def State.unit (s : State) (k : Nat) : EroUnit := Tab.getD s.units k EroUnit.reset

/-- Makes an event the newest of a die's record of 4,096, unless it is frozen; an uncorrectable one
may be the 64th and freeze it (R410, R412). -/
def Ero.add (e : Ero) (etype : Nat) (bs : List Byte) : Ero :=
  if e.frozen then e
  else
    let evs := e.events ++ [bs]
    let u := if etype = 2 then e.uncorr + 1 else e.uncorr
    { events := evs.drop (evs.length - 4096), frozen := decide (64 ≤ u), uncorr := u }

/-- The 32 bytes of an event (R410). -/
def eroBytes (unit die etype seq lcyc stamp ctx inst detail : Nat) : List Byte :=
  leBytes 1 unit ++ leBytes 1 die ++ leBytes 2 etype ++ leBytes 4 seq ++ leBytes 8 lcyc ++ leBytes 4 stamp
    ++ leBytes 2 ctx ++ leBytes 2 inst ++ leBytes 8 detail

/-- A message from one unit to another carries the sender's stamp (R411): the larger of the two,
compared modulo 2^32. -/
def State.message (s : State) (src dst : Nat) : State :=
  let a := (s.unit src).stamp
  let u := s.unit dst
  if a ≠ u.stamp ∧ (a - u.stamp).toNat < 2 ^ 31 then { s with units := Tab.set s.units dst { u with stamp := a } } else s

/-- Two units send each other a message, a request and its answer (R411). -/
def State.exchange (s : State) (a b : Nat) : State := (s.message a b).message b a

/-- The Erropex unit of a die's distributor. -/
def distUnit (die : Nat) : Nat := unitKey 6 die 0

/-- Messages that a unit has received and that the model does not follow one by one: the stamp of some unit
may have reached it, as a free choice (R411; log 9). -/
def State.hear (s : State) (dst : Nat) : State :=
  let (go, s) := s.drawBool
  let (j, s) := s.draw
  match go, s.units[j % s.units.length]? with
  | true, some e => s.message e.1 dst
  | _, _ => s

/-- A unit records an event (R410, R411), unless the die's record is frozen (R412). A core's own cycle count is `sr.cyc`;
another unit's is a count that advances by a free amount (log 9). -/
def State.ero (s : State) (unit die inst etype ctx detail : Nat) : State :=
  if (s.die die).ero.frozen then s
  else
    let k := unitKey unit die inst
    let s := s.hear k
    let u := s.unit k
    let (d, s) := s.draw
    let cyc := if unit = 1 then (s.core (96 * die + inst)).now else u.cyc + d
    let st := u.stamp + 1
    let ev := eroBytes unit die etype (u.seq % 2 ^ 32) (cyc % 2 ^ 64) st.toNat ctx inst detail
    let s := { s with units := Tab.set s.units k { seq := u.seq + 1, stamp := st, cyc := cyc } }
    s.modDie die fun e => { e with ero := e.ero.add etype ev }

/-- The Erropex unit of a core. -/
def coreUnit (c : Nat) : Nat := unitKey 1 (c / 96) (c % 96)

end Sys2Proof.Machine
end

