-- ==== Sys2Proof/Machine/Readback.lean ====
section
/-! DEFINITION. What readback and the host register window show: each state space as 64-bit words, its
entries packed field by field and padded to 64 bits (20 R409, R413 to R416; log 19). -/

namespace Sys2Proof.Machine

/-! ## Packing (R413) -/

/-- A field: width and value. -/
abbrev RbFld := Nat × Nat

/-- Packs fields from bit 0. -/
def packFld : List RbFld → Nat
  | [] => 0
  | (w, v) :: fs => v % 2 ^ w + 2 ^ w * packFld fs

/-- The 64-bit words of a number of `bits` bits. -/
def wordsOf (v bits : Nat) : List DWord := (List.range ((bits + 63) / 64)).map fun i => BitVec.ofNat 64 (v / 2 ^ (64 * i))

/-- One entry as words. -/
def rbEntry (fs : List RbFld) : List DWord := wordsOf (packFld fs) ((fs.map fun f => f.1).foldl (· + ·) 0)

/-- A flag. -/
def rbBit (b : Bool) : RbFld := (1, if b then 1 else 0)
/-- An optional home group of a team slot. -/
def rbOwner (o : Option (Nat × Nat)) : List RbFld :=
  match o with
  | some (s, g) => [(1, 1), (4, s), (5, g)]
  | none => [(10, 0)]
/-- An optional number of 64 bits. -/
def rbOpt (o : Option Nat) : List RbFld := [(1, if o.isSome then 1 else 0), (64, o.getD 0)]

/-! ## Spaces of a core -/

/-- Registers of a resident team (01 R8). -/
def Team.rbRegs (tm : Team) : List DWord :=
  (tm.threads.flatMap fun e => rbEntry ((List.range tm.regs).map (fun n => (32, (Tab.getD e.2.regs n 0).toNat))
    ++ [(48, e.2.preds.toNat)]))
  ++ tm.hgs.flatMap fun e => rbEntry ((List.range tm.sregs).map (fun n => (64, (Tab.getD e.2.scl n 0).toNat))
    ++ (List.range 4).map (fun n => (12, (Tab.getD e.2.idx n 0).toNat))
    ++ (List.range 16).map (fun n => (64, (Tab.getD e.2.hnd n 0).toNat)))

/-- Code of a thread state (06 R144, in the table's order). -/
def TState.code : TState → Nat
  | .binned _ => 0
  | .active _ => 1
  | .waiting _ => 2
  | .parked _ => 3
  | .rejoin _ => 4
  | .halted => 5
  | .exited => 6

/-- State, PC and filing cycle of the threads of a team (06 R144 to R146). -/
def Team.rbStates (slot : Nat) (tm : Team) : List DWord :=
  tm.threads.flatMap fun e => rbEntry [(4, slot), (10, e.1), (3, TState.code e.2.st), (57, e.2.pc.toNat),
    (64, match e.2.st with
      | .binned f => f
      | _ => 0)]

/-- Remap table, collectors and `rejoin` sets (06 R148; 07 R166, R169). -/
def Core.rbRemap (k : Core) : List DWord :=
  (k.groups.flatMap fun g => g.lanes.flatMap fun l => rbEntry [(4, g.slot), (10, l.1), (5, l.2), (32, g.gid)])
  ++ k.teams.flatMap fun e =>
    ((e.2.colls ++ ((e.2.trap.map fun tr => tr.colls).getD [])).flatMap fun c => rbEntry ([(4, e.1), (5, c.hg), (57, c.pc.toNat)] ++ c.mem.map fun m => (10, m.1)))
    ++ e.2.threads.flatMap fun t => match t.2.st with
      | .rejoin m => rbEntry [(4, e.1), (10, t.1), (32, m.toNat)]
      | _ => []

/-- The hint-miss count, then each thread's pending counters (02 R39, R40). -/
def Core.rbTokens (k : Core) : List DWord :=
  BitVec.ofNat 64 k.hintMiss :: k.teams.flatMap fun e => e.2.threads.flatMap fun t =>
    let n (c : Nat) : Nat := (t.2.posts.filter fun p => p.ctr == c).length
    rbEntry [(6, n 1), (6, n 2), (6, n 3)]

/-- Command slots and handle states (08 R198, R199). -/
def Core.rbCmds (k : Core) : List DWord :=
  (k.cmds.flatMap fun d => rbEntry [(64, d.h.toNat), (4, d.slot), (5, d.hg), (57, d.pc.toNat), rbBit d.begun,
    (32, (d.rest.map fun r => r.2).foldl (· + ·) 0), rbBit d.fault.isSome, rbBit d.erg.isSome])
  ++ k.teams.flatMap fun e => e.2.handles.flatMap fun h => rbEntry [(64, h.1), (2, h.2.st), rbBit h.2.kvb, (8, h.2.cause)]

/-- Bytes of one operand-buffer slot (08 R187). -/
def Core.slotBytes (k : Core) : Nat :=
  let banks := ((List.range 32).filter fun i => (k.bankRole.extractLsb' (2 * i) 2) == 2#2).length
  Config.bankBytes * banks / 16 / 64 * 64

/-- A word of the local store, bank by bank (08 R180): a scratchpad bank holds the units of the resident teams, barrier
objects among their bytes, an operand-buffer bank the slots' bytes, an L1 bank lines. The n-th bank of a role holds the
n-th part of that role's space (log 19). -/
def Core.rbLocal (k : Core) (index : Nat) : DWord :=
  let bank := 8 * index / Config.bankBytes
  let role (i : Nat) : BitVec 2 := k.bankRole.extractLsb' (2 * i) 2
  let a := Config.bankBytes * ((List.range bank).filter fun i => role i == role bank).length + 8 * index % Config.bankBytes
  let v : Nat :=
    if 32 ≤ bank then 0
    else if role bank = 0 then
      match k.teams.find? fun e => e.2.units.contains (a / 1024) with
      | some e => Memory.readLe e.2.scratch (1024 * (e.2.units.takeWhile fun u => u != a / 1024).length + a % 1024) 8
      | none => 0
    else if role bank = 2 then
      match Tab.get? k.teams (a / max 1 k.slotBytes) with
      | some tm => Memory.readLe tm.opbuf (a % max 1 k.slotBytes) 8
      | none => 0
    else if role bank = 1 then
      match k.l1[a / 64]? with
      | some l => leNat ((l.2.drop (a % 64)).take 8)
      | none => 0
    else 0
  BitVec.ofNat 64 v

/-- The matrix engine and the accumulator store (05 R114). -/
def Core.rbEngine (k : Core) : List DWord :=
  rbEntry (rbOwner k.eng.owner ++ (5, k.eng.queue.length) :: k.eng.queue.flatMap (fun w => [(4, w.slot), (5, w.hg)]))
  ++ rbEntry (rbBit k.eng.cfg.isSome :: (k.eng.cfg.getD []).map fun b => (8, b.toNat))
  ++ (List.range (Config.accBytes / 8)).map fun n =>
    BitVec.ofNat 64 ((Tab.getD k.eng.tiles (2 * n) 0).toNat + 2 ^ 32 * (Tab.getD k.eng.tiles (2 * n + 1) 0).toNat)

/-- The sorter (11 R255). -/
def Core.rbSorter (k : Core) : List DWord :=
  let q := k.srt
  rbEntry (rbOwner q.owner ++ [(12, q.k), (25, q.pushed), rbBit q.ovf, rbBit q.nanx, (5, q.queue.length)]
    ++ q.queue.flatMap fun w => [(4, w.slot), (5, w.hg)])
  ++ q.kept.flatMap fun x => rbEntry [(32, x.1.toNat), (32, x.2.toNat)]

/-- Code of a cause (16 R354). -/
def Cause.code : Cause → Nat
  | .ill => 1 | .opbound => 2 | .misalign => 3 | .prot => 4 | .poison => 5 | .arith => 6 | .handle => 7
  | .mxown => 8 | .tcfgbad => 9 | .kvbound => 10 | .watch => 11 | .swtrap => 12 | .bkpt => 13
  | .fatalpage => 14

/-- Trap records (16 R355), and the accesses that are not performed: the checkpoints (10 R250). -/
def Core.rbTraps (k : Core) : List DWord :=
  (k.teams.flatMap fun e => match e.2.trap with
    | none => []
    | some t => rbEntry ([(4, e.1), (8, t.req.cause.code), (13, t.req.code), (57, t.req.point.toNat), (64, t.cyc), rbBit t.halted]
        ++ t.req.mask.map fun n => (10, n)))
  ++ k.pends.flatMap fun p => match p.src with
    | .load a _ => rbEntry [(4, p.slot), (10, a.thr), (57, a.pc.toNat), (64, a.va)]
    | _ => []

/-- TLB entries (16 R348). -/
def rbTlb (l : List TlbEntry) : List DWord := l.flatMap fun t => rbEntry [(16, t.ctx), (57, t.va), (22, t.size), (64, t.leaf.toNat)]

/-- Watch points (20 R416): four words each. -/
def Core.rbWatch (k : Core) : List DWord :=
  (List.range 8).flatMap fun i => match Tab.get? k.watch i with
    | some w => wordsOf (w.base % 2 ^ 57 + 2 ^ 64 * (w.len % 2 ^ 32) + 2 ^ 96 * w.kinds.toNat + 2 ^ 112 * (w.ctx % 2 ^ 16)) 256
    | none => wordsOf 0 256

/-! ## Spaces of a die and of the module -/

/-- Bytes as words. -/
def rbBytes (bs : List Byte) : List DWord := wordsOf (leNat bs) (8 * bs.length)

/-- Work queues and waiters (11 R263, R266). -/
def Die.rbQueues (d : Die) : List DWord :=
  (List.range 64).flatMap fun i => match Tab.get? d.wqs i with
    | none => rbEntry [(64, 0)]
    | some q => rbEntry ([rbBit q.ctx.isSome, (16, q.ctx.getD 0), (11, q.items.length)])
        ++ (q.items.flatMap rbBytes) ++ q.waiters.flatMap fun w => rbEntry [(8, w.1.core), (4, w.1.slot), (10, w.2.1)]

/-- Kick, launch and placement queues of a die's distributor (13 R289, R291). -/
def State.rbDist (s : State) (die : Nat) : List DWord :=
  ((s.replays.filter fun e => e.2.die == die).flatMap fun e => rbEntry [(16, e.2.ctx), (57, e.2.table), (57, e.2.image), (32, e.2.nent),
    (57, e.2.rdone), rbBit e.2.begun, rbBit e.2.ended])
  ++ ((s.die die).launchQ.flatMap fun g => rbEntry [(32, g)])
  ++ (s.grids.filter fun g => g.2.die == die).flatMap fun g => rbEntry [(32, g.1), (16, g.2.ctx), (32, g.2.unplaced.length), (32, g.2.finished.length)]

/-- Meridian, Barchan and Erg of a die's contexts (14 R302; 15 R318, R326), and the journal (17 R372). -/
def Ctx.rbMer (x : Ctx) : List DWord :=
  rbEntry [(57, x.mer.tab), rbBit x.mer.idle, rbBit x.mer.stop, (64, x.mer.step), rbBit x.mer.flying, rbBit x.mer.ended, rbBit x.mer.begun, (57, x.mer.rdone), (16, x.mer.reports), (16, x.mer.cgroups)]
  ++ (x.mer.slots.flatMap fun q => rbEntry [(20, q.req), (32, q.qstart), (32, q.qlen), (32, q.kvlen), rbBit q.samp])
  ++ x.mer.pend.flatMap fun r => rbEntry [(20, r)]
def Ctx.rbRx (x : Ctx) : List DWord :=
  x.rx.flatMap fun p => p.2.flatMap fun n => rbEntry ([(22, n.idx), (7, n.fill), (32, n.page), (23, (n.parent.map (· + 1)).getD 0), (32, n.last)]
    ++ n.toks.map fun t => (32, t))
def Ctx.rbErg (x : Ctx) : List DWord :=
  (x.erg.pgs.flatMap fun e => rbEntry [(32, e.2.1), (128, e.2.2)])
  ++ (x.erg.cache.flatMap fun e => rbEntry [(20, e.1), (32, e.2.1), (32, e.2.2)]) ++ x.erg.resv.flatMap fun e => rbEntry [(20, e.1), (32, e.2.1), (32, e.2.2)]
def Ctx.rbJrn (x : Ctx) : List DWord :=
  rbEntry [(57, x.jrn.desc), (8, x.jrn.lvl), (57, x.jrn.base), (32, x.jrn.cap), (32, x.jrn.cnt), (32, x.jrn.pos), (8, x.jrn.stat)]
  ++ x.jrn.used.flatMap fun e => rbEntry [(32, e)]

/-- Buckets and spill pool of a port (17 R377). -/
def Port.rb (p : Port) : List DWord :=
  rbEntry ((p.share.zip p.tok).flatMap fun e => [(16, e.1.1), (12, e.1.2), (13, e.2)]) ++ rbEntry [(13, p.rest), (12, p.spill)]

/-- Postponement counts and the poison map of a controller (19 R397, R406). -/
def State.rbStack (s : State) (k : Nat) : List DWord :=
  let st := Tab.getD s.stks k Stk.reset
  (st.post.flatMap fun e => rbEntry [(16, e.1), (5, (e.2 % 32).toNat)])
  ++ ((s.poison.filter fun l => if k < 8 then inHbm l && stackOf l == k else inLp l && lpDie l == k - 8).flatMap fun l => rbEntry [(52, l)])

/-- A slice: word 0 looks up the home slice of an address (R414; 19 R393); then the lines that its sets hold, each as its
set and its line, and its poisoned lines (00 R1; 19 R406). -/
def State.rbSlice (s : State) (die slice : Nat) : List DWord :=
  let first := (Config.l2Slices * die + slice) * Config.l2Sets
  BitVec.ofNat 64 (sliceOf s.host.l2look.toNat)
    :: ((s.l2.filter fun e => decide (first ≤ e.1) && decide (e.1 < first + Config.l2Sets)).flatMap fun e =>
          e.2.flatMap fun l => rbEntry [(8, e.1 - first), (52, l)])
    ++ (s.poison.filter fun l => homeDie l == die && sliceOf l == slice).map fun l => BitVec.ofNat 64 l

/-- Pending faults of the contexts with a core on a die (16 R350). -/
def Ctx.rbFaults (x : Ctx) (die : Nat) : List DWord :=
  (x.faults.filter fun f => f.core / 96 == die).flatMap fun f => rbEntry [(32, f.fid), (3, f.kind), (8, f.core), (4, f.slot), (5, f.hg),
    (57, f.va), (57, f.pc.toNat)]

/-- The record's events in order. -/
def Ero.rb (e : Ero) : List DWord := e.events.flatMap rbBytes

/-- Instances of a space on a die (R413, R414): of a core or a port 96, with 4 quadrants after the cores for the TLBs; of a
slice 512; the stacks and the LP controllers by number; of a space of a die, which has one, whatever `unit` holds. -/
def rbHas (space die unit : Nat) : Bool :=
  if space = 11 then unit < 100
  else if space ≤ 12 ∨ space = 19 then unit < 96
  else if space = 20 then unit < Config.l2Slices
  else if space = 21 then (unit < 8 && unit / 4 == die) || unit == 8 + die
  else true

/-- The words of a space (R414); spaces that are read by index apart are given by `rbWord`. -/
def State.rbSpace (s : State) (space die unit : Nat) : List DWord :=
  let k := s.core (96 * die + unit)
  match space with
  | 1 => k.teams.flatMap fun e => e.2.rbRegs
  | 2 => k.teams.flatMap fun e => e.2.rbStates e.1
  | 3 => k.rbRemap
  | 4 => k.rbTokens
  | 5 => k.sb.flatMap fun e => rbEntry [rbBit e.opb, (4, e.slot), (22, e.start), (22, e.stop), rbBit e.wr, (64, e.cmd)]
  | 6 => k.rbCmds
  | 8 => k.rbEngine
  | 9 => k.rbSorter
  | 10 => k.rbTraps
  | 11 => if unit < 96 then rbTlb k.tlb else rbTlb (Tab.getD s.ctlb (4 * die + (unit - 96)) [])
  | 12 => k.rbWatch
  | 13 => (s.die die).rbQueues
  | 14 => s.rbDist die
  | 15 => s.ctxs.flatMap fun x => if x.2.mer.die == die then x.2.rbMer else []
  | 16 => s.ctxs.flatMap fun x => if x.2.mer.die == die then x.2.rbRx else []
  | 17 => s.ctxs.flatMap fun x => if x.2.mer.die == die then x.2.rbErg else []
  | 18 => if die = 0 then s.ctxs.flatMap fun x => x.2.rbJrn else []
  | 19 => (Tab.getD s.ports (96 * die + unit) Port.reset).rb
  | 20 => s.rbSlice die unit
  | 21 => s.rbStack unit
  | 22 => s.ctxs.flatMap fun x => x.2.rbFaults die
  | 23 => (s.die die).ero.rb
  | _ => []

/-- One word of a space; beyond the space it reads 0. -/
def State.rbWord (s : State) (space die unit index : Nat) : DWord :=
  if !rbHas space die unit then 0
  else if space = 7 then (s.core (96 * die + unit)).rbLocal index else (s.rbSpace space die unit).getD index 0

/-- The word that `RBSEL` selects (R413). -/
def State.rbSelected (s : State) : DWord :=
  let v := s.host.rbsel.toNat
  s.rbWord (v % 256) (v / 256 % 2) (v / 512 % 512) (v / 2 ^ 18 % 2 ^ 32)

/-- `RBSEL` with its index advanced by 1 (R413). -/
def HostWin.advance (h : HostWin) : HostWin :=
  let v := h.rbsel.toNat
  { h with rbsel := BitVec.ofNat 64 (v % 2 ^ 18 + 2 ^ 18 * ((v / 2 ^ 18 + 1) % 2 ^ 32)) }

/-! ## The window (R409) -/

/-- `DIESTAT` (R408, R409): cause 1 control miscompare, 2 thermal trip, 3 `ERRCTL`; a die in warm reset has state 2. -/
def State.diestat (s : State) : Nat :=
  let h (d : Nat) : Nat := (s.die d).halted
  let st (d : Nat) : Nat := if h d = 0 then 0 else if h d = 4 then 2 else 1
  st 0 + 4 * st 1 + 2 ^ 8 * (h 0 % 4) + 2 ^ 16 * (h 1 % 4)

/-- `STKSTAT` (19 R400). -/
def Stk.stat (k : Stk) : Nat :=
  let pmax := k.post.foldl (fun m e => max m e.2.toNat) 0
  k.rate + (if k.pend.isSome || k.running.isSome then 4 else 0) + (if k.training.isSome || k.running.isSome then 8 else 0) + 2 ^ 8 * pmax + 2 ^ 16 * min k.tfail 65535

/-- A register of the window. -/
def State.winReg (s : State) (off : Nat) : DWord :=
  if off = 0 then s.ctxtab
  else if off = 8 then s.host.ctxbell
  else if off = 0x10 then BitVec.ofNat 64 s.diestat
  else if off = 0x18 then s.host.rbsel
  else if off = 0x20 then s.rbSelected
  else if off = 0x28 then s.host.errctl
  else if off = 0x30 then s.host.fwstat
  else if off = 0x38 then s.host.attreq
  else if 0x1000 ≤ off ∧ off < 0x1280 ∧ off % 64 < 24 ∧ off < 0x1200 then
    let k := Tab.getD s.stks (off / 64 % 8) Stk.reset
    if off % 64 = 0 then k.reg else if off % 64 = 8 then BitVec.ofNat 64 k.stat else k.err.setWidth 64
  else if 0x2000 ≤ off ∧ off < 0x4000 then BitVec.ofNat 64 (Memory.readLe s.host.endp (off - 0x2000) 8)
  else if 0x100000 ≤ off ∧ off < 0x140000 then
    (s.die (off / 0x20000 % 2)).ero.rb.getD (off % 0x20000 / 8) 0
  else 0

/-- n bytes of the window (log 19). -/
def State.winRead (s : State) (pa n : Nat) : List Byte :=
  (List.range n).map fun i => let a := pa - 0x300000000000 + i
    BitVec.ofNat 8 ((s.winReg (a / 8 * 8)).toNat / 2 ^ (8 * (a % 8)))

end Sys2Proof.Machine
end

