-- ==== Sys2Proof/Machine/Ops.lean ====
section
/-! DEFINITION. The named operations over the state: registers, filing and issue groups, translation,
accesses in flight, barrier objects, and taking and ending a trap. -/

namespace Sys2Proof.Machine

/-! ## Registers (01 R8, R14, R16, R17) -/

/-- The 64-bit content of a register; vector registers and predicates zero-extended. -/
def Team.readReg (tm : Team) : RegAt → DWord
  | .v t n => match Tab.get? tm.threads t with
              | some th => (Tab.getD th.regs n 0).setWidth 64
              | none => 0
  | .p t n => match Tab.get? tm.threads t with
              | some th => if n = 0 ∨ th.preds.getLsbD n then 1 else 0
              | none => 0
  | .s g n => match Tab.get? tm.hgs g with
              | some hg => Tab.getD hg.scl n 0
              | none => 0
  | .x g n => match Tab.get? tm.hgs g with
              | some hg => (Tab.getD hg.idx n 0).setWidth 64
              | none => 0
  | .h g n => match Tab.get? tm.hgs g with
              | some hg => Tab.getD hg.hnd n 0
              | none => 0

/-- Writes a register: a vector register keeps the low 32 bits, an index register the low 12 (R17), a
write of p0 has no effect (R14), a handle write is counted (09 R230). -/
def Team.writeReg (tm : Team) (r : RegAt) (v : DWord) : Team :=
  match r with
  | .v t n => tm.modThread t fun th => { th with regs := Tab.put 0 th.regs n (v.setWidth 32) }
  | .p t n =>
      if n = 0 then tm
      else tm.modThread t fun th =>
        let m : BitVec 48 := 1#48 <<< n
        { th with preds := if v = 0 then th.preds &&& ~~~m else th.preds ||| m }
  | .s g n => tm.modHg g fun hg => { hg with scl := Tab.put 0 hg.scl n v }
  | .x g n => tm.modHg g fun hg => { hg with idx := Tab.put 0 hg.idx n (v.setWidth 12) }
  | .h g n => tm.modHg g fun hg =>
      { hg with hnd := Tab.put 0 hg.hnd n v, hver := Tab.set hg.hver n (Tab.getD hg.hver n 0 + 1) }

/-- Writes several registers in order; what is written is correct data again (20 R407). -/
def Team.writeRegs (tm : Team) (w : List (RegAt × DWord)) : Team :=
  let tm := w.foldl (fun tm e => tm.writeReg e.1 e.2) tm
  { tm with rpoison := tm.rpoison.filter fun r => !w.any fun e => e.1 == r }

def State.writeRegs (s : State) (c slot : Nat) (w : List (RegAt × DWord)) : State :=
  s.modTeam c slot fun tm => tm.writeRegs w

/-- The thread or home group that a register belongs to as a thread of that home group. -/
def RegAt.hg : RegAt → Nat
  | .v t _ => hgOf t
  | .p t _ => hgOf t
  | .s g _ => g
  | .x g _ => g
  | .h g _ => g

/-- Whether a guard holds for a thread (R14, R37). -/
def Team.guard (tm : Team) (g : Guard) (t : Nat) : Bool :=
  (tm.readReg (.p t g.p.val) != 0) != g.neg

/-! ## Pending counters (02 R40) -/

/-- Drops the written results at the head of one counter's order. -/
def dropDone (ctr : Nat) : List Post → List Post
  | [] => []
  | p :: ps =>
      if p.ctr = ctr then (if p.done then dropDone ctr ps else p :: ps)
      else p :: dropDone ctr ps

/-- The value of a pending counter. -/
def Thread.counter (th : Thread) (ctr : Nat) : Nat := (th.posts.filter fun p => p.ctr = ctr).length

/-- A result is written: every counter falls in order. -/
def Thread.settle (th : Thread) (uid : Nat) : Thread :=
  let ps := th.posts.map fun p => if p.uid = uid then { p with done := true } else p
  { th with posts := dropDone 1 (dropDone 2 (dropDone 3 ps)) }

/-- A result is written for every thread of a team that posted it. -/
def Team.settle (tm : Team) (uid : Nat) : Team :=
  { tm with threads := tm.threads.map fun e => if e.2.posts.any (fun p => p.uid == uid) then (e.1, e.2.settle uid) else e }

/-- A register lies in the window that the core saved for the handler (16 R356). -/
def Trap.inWindow (tr : Trap) (r : RegAt) : Bool :=
  match r with
  | .v t n => n < 16 && hgOf t == tr.hhg
  | .p t n => 1 ≤ n && n < 8 && hgOf t == tr.hhg
  | .x g _ => g == tr.hhg
  | _ => false

/-- Writes a register into the saved window. -/
def Trap.writeSaved (tr : Trap) (r : RegAt) (v : DWord) : Trap :=
  let upd (t : Nat) (f : Prior → Prior) : Trap := { tr with prior := tr.prior.map fun p => if p.thr = t then f p else p }
  match r with
  | .v t n => upd t fun p => { p with win := p.win.set n (v.setWidth 32) }
  | .p t n => upd t fun p =>
      { p with preds := if v = 0 then p.preds &&& ~~~(1#48 <<< n) else p.preds ||| (1#48 <<< n) }
  | .x _ n => { tr with winx := tr.winx.set n (v.toNat % 4096) }
  | _ => tr

/-- Writes a result that was owed under a name: one that a halted team owed before the halt goes to the
saved window where its register lies there (16 R355, R356). -/
def Team.writeOwed (tm : Team) (uid : Nat) (w : List (RegAt × DWord)) : Team :=
  match tm.trap with
  | some tr =>
      if tr.halted && decide (uid < tr.uid0) then
        let saved := w.filter fun e => tr.inWindow e.1
        let tm := tm.writeRegs (w.filter fun e => !tr.inWindow e.1)
        { tm with trap := some (saved.foldl (fun tr e => tr.writeSaved e.1 e.2) tr) }
      else tm.writeRegs w
  | none => tm.writeRegs w

/-- Posts a result to a thread's counter (0 posts nothing); `done` for a false guard. -/
def Thread.post (th : Thread) (ctr uid : Nat) (done : Bool) : Thread :=
  if ctr = 0 then th
  else { th with posts := dropDone ctr (th.posts ++ [{ ctr := ctr, uid := uid, done := done }]) }

/-- The uid of an outstanding result is done: registers written, counters fall, entry removed. -/
def State.writeBack (s : State) (c : Nat) (p : Pend) (w : List (RegAt × DWord)) : State :=
  let s := s.modTeam c p.slot fun tm => (tm.writeOwed p.uid w).settle p.uid
  s.modCore c fun k => { k with pends := k.pends.filter fun q => q.uid != p.uid }

/-- The outstanding result with this name. -/
def Core.pend? (k : Core) (uid : Nat) : Option Pend := k.pends.find? fun p => p.uid == uid

/-! ## Filing and issue groups (06 R144 to R152) -/

/-- Files threads at a PC with a filing cycle (R146). -/
def Team.file (tm : Team) (ts : List (Nat × PC)) (filed : Nat) : Team :=
  ts.foldl (fun tm e => tm.modThread e.1 fun th => { th with pc := e.2, st := .binned filed }) tm

def State.file (s : State) (c slot : Nat) (ts : List (Nat × PC)) : State :=
  s.modTeam c slot fun tm => tm.file ts (s.core c).now

/-- Takes threads out of their issue groups; a group left empty is gone. -/
def Core.ungroup (k : Core) (slot : Nat) (ts : List Nat) : Core :=
  let cut := k.groups.map fun g =>
    if g.slot = slot then { g with mem := g.mem.filter (fun t => !ts.contains t), lanes := g.lanes.filter fun l => !ts.contains l.1 }
    else g
  { k with groups := cut.filter fun g => !g.mem.isEmpty }

/-- A thread leaves its issue group for another state. -/
def State.setState (s : State) (c slot : Nat) (ts : List Nat) (st : TState) : State :=
  let s := s.modCore c fun k => k.ungroup slot ts
  s.modTeam c slot fun tm =>
    ts.foldl (fun tm t => tm.modThread t fun th => { th with st := st }) tm

/-- Dissolves an issue group: its members are filed for the PCs they hold (R152). -/
def State.dissolve (s : State) (c gid : Nat) : State :=
  match (s.core c).groups.find? fun g => g.gid == gid with
  | none => s
  | some g =>
      let s := s.modCore c fun k => { k with groups := k.groups.filter fun h => h.gid != gid }
      s.modTeam c g.slot fun tm =>
        tm.file (g.mem.filterMap fun t => (Tab.get? tm.threads t).map fun th => (t, th.pc)) (s.core c).now

/-- Every thread of a team that has been launched, in order. -/
def Team.launched (tm : Team) : List Nat := tm.threads.map fun e => e.1

/-- Whether a thread has exited. -/
def Team.exited (tm : Team) (t : Nat) : Bool :=
  match Tab.get? tm.threads t with
  | some th => th.st == .exited
  | none => true

/-- Launched threads of a home group that have not exited. -/
def Team.live (tm : Team) (g : Nat) : List Nat :=
  (tm.threads.filter fun e => hgOf e.1 == g && !(e.2.st == .exited)).map fun e => e.1

/-! ## Translation (16 R345 to R348; 19 R392; 20 R420) -/

/-- Whether memory, a host window or an attached CXL device backs a physical address. -/
def State.backed (s : State) (pa : Nat) : Bool :=
  pa < 0x8000000000 || (0x10000000000 ≤ pa && pa < 0x20000000000)
    || inHost pa || inWindow pa
    || s.cxl.any fun r => r.1 ≤ pa && pa < r.1 + r.2

/-- The kinds of access that R347 tells apart. -/
inductive AKind where
  | load | store | atomic | fetch
  deriving DecidableEq, Repr

/-- What translation of one address finds. -/
inductive Trans where
  | ok (pa : Nat)
  | fault
  | prot
  | poison
  deriving DecidableEq, Repr

/-- The leaf found by a walk: its entry, the page's size, and where the entry lies. -/
structure Leaf where
  entry : BitVec 64
  size : Nat
  at' : Nat
  deriving DecidableEq, Repr

/-- The result of a walk before the leaf's permissions are checked. -/
inductive Walk where
  | leaf (l : Leaf)
  | fault
  | prot
  | poison
  deriving DecidableEq, Repr

/-- Index bits of a level (R345). -/
def levelIndex (va lvl : Nat) : Nat :=
  match lvl with
  | 0 => va / 2 ^ 16 % 32
  | n + 1 => va / 2 ^ (21 + 9 * n) % 512

/-- The walk from a table at `base` of level `lvl` (R345, R346). -/
def State.walk (s : State) (va : Nat) : Nat → Nat → Walk
  | lvl, base =>
    let a := base + 8 * levelIndex va lvl
    if !s.backed a then .prot
    else if s.poisoned a 8 then .poison
    else
      let e := BitVec.ofNat 64 (Memory.readLe s.mem a 8)
      let addr := (e.extractLsb' 8 44).toNat * 256
      if !e.getLsbD 0 then .fault
      else if e.getLsbD 7 || e.extractLsb' 52 12 != 0 then .prot
      else
        match lvl with
        | 0 =>
            if e.getLsbD 1 && addr % 65536 == 0 then .leaf { entry := e, size := 65536, at' := a }
            else .prot
        | l + 1 =>
            if e.getLsbD 1 then
              if l = 0 ∧ addr % 2097152 = 0 then .leaf { entry := e, size := 2097152, at' := a }
              else .prot
            else if e.extractLsb' 2 5 != 0 || (l != 0 && addr % 4096 != 0) then .prot
            else State.walk s va l addr

/-- The leaf's permissions (R347). -/
def checkLeaf (priv : Bool) (k : AKind) (e : BitVec 64) : Bool :=
  (match k with
   | .load => e.getLsbD 2
   | .store => e.getLsbD 3
   | .atomic => e.getLsbD 2 && e.getLsbD 3
   | .fetch => e.getLsbD 4) && (priv || !e.getLsbD 5)

/-- Poison and permission of a leaf, and the physical address (R345, R347); a leaf of the host register
window needs `P` (20 R409). -/
def State.resolve (s : State) (priv : Bool) (k : AKind) (va size : Nat) (e : BitVec 64) : Trans :=
  if !checkLeaf priv k e then .prot
  else if e.getLsbD 6 then .poison
  else
    let pa := (e.extractLsb' 8 44).toNat * 256 + va % size
    if s.backed pa && (e.getLsbD 5 || !inWindow pa) then .ok pa else .prot

/-- The cached translation of an address in a TLB, if there is one. -/
def tlbFind (l : List TlbEntry) (ctx va : Nat) : Option TlbEntry :=
  l.find? fun t => t.ctx == ctx && t.va ≤ va && va < t.va + t.size

/-- Keeps a translation in a core's TLB. -/
def State.keepCore (s : State) (c : Nat) (e : TlbEntry) : State :=
  s.modCore c fun k => if k.tlb.contains e then k else { k with tlb := (e :: k.tlb).take Config.tlbEntries }
/-- Keeps a translation in the TLB of a core's quadrant. -/
def State.keepQuad (s : State) (c : Nat) (e : TlbEntry) : State :=
  let l := Tab.getD s.ctlb (quadOf c) []
  if l.contains e then s else { s with ctlb := Tab.set s.ctlb (quadOf c) ((e :: l).take Config.ctlbEntries) }

/-- The page of an address migrates: a command that moves it has not ended (R353). -/
def State.migrating (s : State) (ctx va : Nat) : Bool :=
  s.cores.any fun e => e.2.cmds.any fun d => match d.kind with
    | .mig x page _ size _ => x == ctx && va / size == page / size && d.fin.isNone && d.err.isNone
    | _ => false

/-- A translation by the page tables, which both TLBs may keep (R346, R348). -/
def State.walkFor (s : State) (c ctx va : Nat) (priv : Bool) (root : Nat) (k : AKind) : Trans × State :=
  match s.walk va 4 root with
  | .leaf l =>
      let ent : TlbEntry := { ctx := ctx, va := va / l.size * l.size, size := l.size, leaf := l.entry }
      (s.resolve priv k va l.size l.entry, (s.keepCore c ent).keepQuad c ent)
  | .fault => (.fault, s)
  | .prot => (.prot, s)
  | .poison => (.poison, s)

/-- Translates one address for a context on a core: a translation cached in the core's TLB or its
quadrant's may be used, and one that a walk finds may be kept (R348). Which of the allowed translations
is used is a free choice. -/
def State.translate (s : State) (c ctx va : Nat) (k : AKind) : Trans × State :=
  match s.ctx? ctx with
  | none => (.prot, s)
  | some cx =>
      let quad (s : State) : Trans × State :=
        match tlbFind (Tab.getD s.ctlb (quadOf c) []) ctx va with
        | none => s.walkFor c ctx va cx.priv cx.root k
        | some t =>
            let (old, s) := s.drawBool
            if old then (s.resolve cx.priv k va t.size t.leaf, s.keepCore c t) else s.walkFor c ctx va cx.priv cx.root k
      match tlbFind (s.core c).tlb ctx va with
      | none => quad s
      | some t =>
          let (old, s) := s.drawBool
          if old then (s.resolve cx.priv k va t.size t.leaf, s) else quad s

/-! ## Network ports (17 R375; log 20) -/

/-- The port whose stop serves the home slice of an address (19 R393; log 12). -/
def portOf (pa : Nat) : Nat := 96 * homeDie pa + sliceOf pa % 96

/-- The home slice of a line has taken it in, as the latest of its set (00 R1). Which lines an L2 holds never decides
a value (chapter 10). -/
def State.touchL2 (s : State) (pa : Nat) : State :=
  if inHbm pa || inLp pa then
    let key := (Config.l2Slices * homeDie pa + sliceOf pa) * Config.l2Sets + Config.l2Set (pa / 64) % Config.l2Sets
    let set := (Tab.getD s.l2 key []).filter fun l => l != pa / 64
    { s with l2 := Tab.set s.l2 key ((pa / 64 :: set).take Config.l2Ways) }
  else s

/-- The port of a place meters (R376). -/
def State.meters (s : State) (pa : Nat) : Bool :=
  (inHbm pa || inLp pa) && !(Tab.getD s.ports (portOf pa) Port.reset).share.isEmpty

/-- Spends a token for a tenant: of its bucket, else of the spill pool (R378). -/
def Port.spend (p : Port) (ctx : Nat) : Option Port :=
  let spill : Option Port := if p.spill = 0 then none else some { p with spill := p.spill - 1 }
  match p.share.findIdx? fun e => e.1 == ctx with
  | some i => if p.tok.getD i 0 = 0 then spill else some { p with tok := p.tok.set i (p.tok.getD i 0 - 1) }
  | none => if p.rest = 0 then spill else some { p with rest := p.rest - 1 }

/-- A request of a core would pass its port at once: none of its tenant waits, and a token is there (R378). -/
def State.portFree (s : State) (c pa : Nat) : Bool :=
  !s.meters pa || (let p := Tab.getD s.ports (portOf pa) Port.reset
                   let ctx := (s.core c).ctx.getD 0
                   p.wait.all (fun r => r.ctx != ctx) && (p.spend ctx).isSome)

/-- The requests of an access pass their ports at once, each with its token. -/
def State.passPorts (s : State) (c uid : Nat) : State :=
  { s with ports := s.ports.map fun e =>
      let mine (r : PReq) : Bool := r.core == c && r.uid == uid
      let p := (e.2.wait.filter mine).foldl (fun (p : Port) r => (p.spend r.ctx).getD p) e.2
      (e.1, { p with wait := p.wait.filter fun r => !mine r }) }

/-- The 64-byte requests of an access of a core enter the ports of their slices, where those meter (R375). -/
def State.enterPort (s : State) (c uid pa n : Nat) : State :=
  (List.range ((pa % 64 + n + 63) / 64)).foldl (fun s i =>
    let a := 64 * (pa / 64 + i)
    if !s.meters a then s
    else
      let p := Tab.getD s.ports (portOf a) Port.reset
      let r : PReq := { uid := uid, core := c, ctx := (s.core c).ctx.getD 0, urg := false }
      { s with ports := Tab.set s.ports (portOf a) { p with wait := p.wait ++ [r] } }) s

/-- A request of an access waits in a port. -/
def State.inPort (s : State) (c uid : Nat) : Bool :=
  s.ports.any fun e => e.2.wait.any fun r => r.uid == uid && r.core == c

/-- The requests of an access to a place enter their ports. -/
def State.portTgt (s : State) (c uid : Nat) (g : Tgt) (n : Nat) : State :=
  match g with
  | .mem pa => s.enterPort c uid pa n
  | _ => s

/-- The requests of a command that ends leave their ports. -/
def State.leavePorts (s : State) (c : Nat) (us : List Nat) : State :=
  if us.isEmpty then s
  else { s with ports := s.ports.map fun e => (e.1, { e.2 with wait := e.2.wait.filter fun r => !(r.core == c && us.contains r.uid) }) }

/-! ## Reading and writing at physical addresses (19 R406; 20 R409) -/

/-- The bytes at a physical address. -/
def State.readPa (s : State) (pa n : Nat) : List Byte := if inWindow pa then s.winRead pa n else Memory.readN s.mem pa n

/-- A read that takes `RBDATA` advances the index (20 R413). -/
def State.winSeen (s : State) (pa n : Nat) : State :=
  if inWindow pa && pa ≤ 0x300000000020 && 0x300000000020 < pa + n then { s with host := s.host.advance } else s

/-- Whole registers of the window that a write covers, each written next (20 R409; log 19). -/
def State.winWrite (s : State) (pa : Nat) (bs : List Byte) : State :=
  let first := (8 - pa % 8) % 8
  let evs := (List.range ((bs.length - first) / 8)).map fun i =>
    let o := first + 8 * i
    Act.reg (pa + o - 0x300000000000) (BitVec.ofNat 64 (leNat ((bs.drop o).take 8)))
  { s with agenda := evs ++ s.agenda }

/-- A discarded write is recorded by the controller of its line, or by the L2 (19 R406). -/
def State.dropped (s : State) (pa : Nat) : State :=
  if inHbm pa then s.ero 7 (stackOf pa / 4) (stackOf pa) 12 0xFFFF pa
  else if inLp pa then s.ero 8 (lpDie pa) 0 12 0xFFFF pa
  else s.ero 2 0 (sliceOf pa) 12 0xFFFF pa

/-- Writes bytes line by line: a whole line makes a poisoned line readable again, a smaller write to one
is dropped (19 R406). -/
def State.writeLines (s : State) : Nat → Nat → List Byte → State
  | 0, _, _ => s
  | f + 1, pa, bs =>
      let n := 64 - pa % 64
      let here := bs.take n
      let s :=
        if here.isEmpty then s
        else if !s.poisoned pa 1 then { s with mem := Memory.writeN s.mem pa here }
        else if here.length = 64 then
          { s with mem := Memory.writeN s.mem pa here, poison := s.poison.filter fun l => l / 64 != pa / 64 }
        else s.dropped pa
      if bs.length ≤ n then s else State.writeLines s f (pa + n) (bs.drop n)

/-- What stood in a range before is gone for every read (10 R242). -/
def State.forget (s : State) (pa n : Nat) : State :=
  if s.late.isEmpty then s
  else { s with late := s.late.filter fun e => !(decide (pa / 4 ≤ e.elem) && decide (e.elem < (pa + n + 3) / 4)) }

/-- Puts bytes at a physical address. -/
def State.putPa (s : State) (pa : Nat) (bs : List Byte) : State :=
  if inWindow pa then s.winWrite pa bs
  else if s.poison.isEmpty then { s with mem := Memory.writeN s.mem pa bs }
  else State.writeLines s (bs.length / 64 + 2) pa bs

/-- Writes bytes of the device's own at a physical address, seen by every later read. -/
def State.writePa (s : State) (pa : Nat) (bs : List Byte) : State := (s.forget pa bs.length).putPa pa bs

/-- The elements that a write replaces, as they stand. -/
def State.pastOf (s : State) (p : Path) (w : Agent) (pa n : Nat) : List Past :=
  if inWindow pa then []
  else (List.range ((pa + n + 3) / 4 - pa / 4)).map fun i =>
    { elem := pa / 4 + i, old := Memory.readN s.mem (4 * (pa / 4 + i)) 4, path := p, who := w, seen := [], gone := [] }

/-- An agent writes bytes on a path: until an `xfence` or a completion edge orders the write before them, reads of
other paths may return what stood there (10 R237; log 35). -/
def State.writeOn (s : State) (p : Path) (w : Agent) (pa : Nat) (bs : List Byte) : State :=
  let l := s.pastOf p w pa bs.length
  let t := s.putPa pa bs
  { t with late := l ++ t.late }

/-- A read of a path by a thread may miss a write (10 R237). -/
def Past.missable (e : Past) (p : Path) (t : Option (Nat × Nat)) : Bool :=
  e.path != p && !e.seen.contains p && (match t with
    | some x => !e.gone.contains x
    | none => true)

/-- The content of one element that a read of a path finds: that of memory, or, by free choices, one that a later write
has replaced, each write passed over being one that the read may miss (10 R237, R242). -/
def State.elemOn (p : Path) (t : Option (Nat × Nat)) (w : Nat) : List Past → Option (List Byte) → State → Option (List Byte) × State
  | [], v, s => (v, s)
  | e :: es, v, s =>
      if e.elem ≠ w then State.elemOn p t w es v s
      else if !e.missable p t then (v, s)
      else
        let (old, s) := s.drawBool
        if old then State.elemOn p t w es (some e.old) s else (v, s)

/-- The bytes that a read of a path by a thread finds, each aligned 4-byte element at one point of its history. -/
def State.readOn (s : State) (p : Path) (t : Option (Nat × Nat)) (pa n : Nat) : List Byte × State :=
  let mine (e : Past) : Bool := decide (pa / 4 ≤ e.elem) && decide (e.elem < (pa + n + 3) / 4) && e.missable p t
  if inWindow pa || !s.late.any mine then (s.readPa pa n, s)
  else
    let (vs, s) := (List.range ((pa + n + 3) / 4 - pa / 4)).foldl (fun (r : List (List Byte) × State) k =>
      let (v, s) := State.elemOn p t (pa / 4 + k) r.2.late none r.2
      (r.1 ++ [v.getD (Memory.readN s.mem (4 * (pa / 4 + k)) 4)], s)) (([] : List (List Byte)), s)
    (((vs.flatMap id).drop (pa % 4)).take n, s)

/-- The agent that a thread of a team is (10 R233). -/
def Team.agent (tm : Team) (core t : Nat) : Agent := .thr core tm.wid t tm.grid tm.cluster
def State.agentAt (s : State) (c slot t : Nat) : Agent :=
  match s.team? c slot with
  | some tm => tm.agent c t
  | none => .thr c 0 t 0 0

/-- A scope used by a thread includes an agent (10 R234). -/
def State.includes (s : State) (sc : Scope) (a b : Agent) : Bool :=
  match a, b with
  | .thr c w t g k, .thr d v u h l =>
      match sc with
      | .th => w == v && t == u
      | .grp => w == v && hgOf t == hgOf u
      | .team => w == v
      | .core => c == d
      | .clu => c == d || (g == h && k == l)
          || s.cores.any fun e => e.1 == d && e.2.teams.any fun x => x.2.grid == g && x.2.cluster == k
      | .quad => quadOf c == quadOf d
      | .die => c / 96 == d / 96
      | _ => true
  | _, .thr .. => true
  | _, .serve => decide (8 ≤ sc.code.toNat)
  | _, .host => decide (9 ≤ sc.code.toNat)
  | _, .peer => decide (10 ≤ sc.code.toNat)

/-- An `xfence` of a thread orders the writes of a path that its scope includes before reads of another path (10 R237;
log 35). -/
def State.seePath (s : State) (a : Agent) (sc : Scope) (p q : Path) : State :=
  if s.late.isEmpty then s
  else { s with late := s.late.map fun e => if e.path == p && s.includes sc a e.who then { e with seen := q :: e.seen } else e }

/-- A completion edge: the writes of the work completed are ordered before every later read (10 R237). -/
def State.seeWork (s : State) (done : Agent → Bool) : State :=
  if s.late.isEmpty then s else { s with late := s.late.filter fun e => !done e.who }
/-- Work of grids. -/
def Agent.ofGrids (gs : List Nat) : Agent → Bool
  | .thr _ _ _ g _ => gs.contains g
  | _ => false

/-! ## Raising a trap (16 R354, R355) -/

/-- A handler thread: the handler runs, the thread is of the handler home group and had not exited
when it began (R356). -/
def Team.isHandler (tm : Team) (t : Nat) : Bool :=
  match tm.trap with
  | some tr => tr.halted && tr.prior.any (fun p => p.thr == t && hgOf t == tr.hhg && !(p.st == .exited))
  | none => false

/-- Whether a thread may issue now: not stopped by a skid, and a handler thread when the team is
halted (R355). -/
def Team.mayIssue (tm : Team) (now t : Nat) : Bool :=
  match tm.trap with
  | none => true
  | some tr =>
      if tr.halted then tm.isHandler t
      else now ≤ tr.cyc + 16 && !tr.stopped.contains t

/-- `TRAPVEC` of a context (R343). -/
def State.trapvec (s : State) (ctx : Nat) : Nat := match s.ctx? ctx with
  | some x => x.trapvec.toNat
  | none => 0

/-- Records a trap: the trapping word's threads stop at once, the rest of the team begins its skid
(R355). A failure that finds a trap in progress is held (09 R232). -/
def State.raise (s : State) (c slot : Nat) (r : TrapReq) (stop : List Nat) : State :=
  s.modTeam c slot fun tm =>
    match tm.trap with
    | some tr => { tm with held := tm.held ++ [r]
                           trap := some (if tr.halted then tr else { tr with stopped := sortNat (tr.stopped ++ stop) }) }
    | none =>
        let tr : Trap := { req := r, cyc := (s.core c).now, halted := false, skids := [], stopped := stop,
                           prior := [], groups := [], colls := [], hhg := r.hg, winx := [], uid0 := 0,
                           vec := s.trapvec tm.ctx }
        { tm with trap := some tr }

/-! ## Accesses of the device on its own account (13 R284, R425; 14 R424): they never park -/

/-- The physical pieces of `n` bytes at a virtual address of a context; a failed translation or
permission is `PROT`. `f` bounds the number of pages. -/
def State.pieces (s : State) (ctx : Nat) (k : AKind) : Nat → Nat → Nat → Except Cause (List (Nat × Nat))
  | 0, _, _ => .ok []
  | f + 1, va, n =>
      if n = 0 then .ok []
      else
        match s.ctx? ctx with
        | none => .error .prot
        | some x =>
            if 2 ^ 57 ≤ va then .error .prot
            else
              match s.walk va 4 x.root with
              | .leaf l =>
                  match s.resolve x.priv k va l.size l.entry with
                  | .ok pa =>
                      let m := min n (65536 - va % 65536)
                      match State.pieces s ctx k f (va + m) (n - m) with
                      | .ok r => .ok ((pa, m) :: r)
                      | .error c => .error c
                  | .poison => .error .poison
                  | _ => .error .prot
              | .poison => .error .poison
              | _ => .error .prot

/-- Reads `n` bytes for a context. -/
def State.vread (s : State) (ctx va n : Nat) : Except Cause (List Byte) :=
  match s.pieces ctx .load (n / 65536 + 2) va n with
  | .error c => .error c
  | .ok ps =>
      if ps.any fun p => s.poisoned p.1 p.2 then .error .poison
      else .ok (ps.flatMap fun p => s.readPa p.1 p.2)

/-- Writes pieces on a path in order. -/
def State.writePieces (p : Path) (w : Agent) (s : State) : List (Nat × Nat) → List Byte → State
  | [], _ => s
  | (pa, n) :: ps, bs => State.writePieces p w (s.writeOn p w pa (bs.take n)) ps (bs.drop n)

/-- A write of `n` bytes is refused where it reaches part of a line that cannot be corrected (19 R406). -/
def State.refuses (s : State) (pa n : Nat) : Bool :=
  s.poison.any fun l => decide (pa / 64 ≤ l / 64) && decide (l / 64 ≤ (pa + n - 1) / 64)
    && !(decide (pa ≤ l / 64 * 64) && decide (l / 64 * 64 + 64 ≤ pa + n))

/-- An agent writes bytes for a context on a path. It waits for the reply, so that uncorrectable data where it writes is seen, and
then nothing is written (R425; 14 R424). -/
def State.vwriteOn (s : State) (p : Path) (w : Agent) (ctx va : Nat) (bs : List Byte) : Except Cause State :=
  match s.pieces ctx .store (bs.length / 65536 + 2) va bs.length with
  | .error c => .error c
  | .ok ps => if ps.any fun p => s.refuses p.1 p.2 then .error .poison else .ok (State.writePieces p w s ps bs)
/-- A serving agent writes bytes for a context on the `rq` path. -/
def State.vwrite (s : State) (ctx va : Nat) (bs : List Byte) : Except Cause State := s.vwriteOn .rq .serve ctx va bs

/-- A little-endian number of a context's memory. -/
def State.vget (s : State) (ctx va n : Nat) : Except Cause Nat := (s.vread ctx va n).map leNat
/-- Writes a number. -/
def State.vput (s : State) (ctx va n v : Nat) : Except Cause State := s.vwrite ctx va (leBytes n v)

/-! ## The choice journal (17 R366 to R373) -/

/-- Key of an occurrence count (R367). -/
def Arrival.key (a : Arrival) : Nat × Nat × Nat × Nat × Nat := (a.kind + 16 * a.src, a.site, a.grid, a.team, a.thr)
/-- The `occ` field of an arrival. -/
def Jrn.occOf (j : Jrn) (a : Arrival) : Nat :=
  match a.own with
  | some n => n
  | none => ((j.occ.find? fun e => e.1 == a.key).map fun e => e.2).getD 0
/-- Counts an arrival. -/
def Jrn.count (j : Jrn) (a : Arrival) : Jrn :=
  match a.own with
  | some _ => j
  | none => { j with occ := (a.key, j.occOf a + 1) :: j.occ.filter fun e => e.1 != a.key }

/-- The 32 bytes of an event (R370). -/
def Arrival.bytes (a : Arrival) (occ : Nat) : List Byte :=
  leBytes 1 a.kind ++ leBytes 1 a.src ++ leBytes 2 a.thr ++ leBytes 4 a.grid ++ leBytes 4 a.team
    ++ leBytes 4 (occ % 2 ^ 32) ++ leBytes 8 a.site ++ leBytes 4 a.val ++ leBytes 4 0

/-- Events of one site: one kind at one address; acceptances of grids and of kicks share the site of the
context's distributor (R366). -/
def sameSite (a : List Byte) (b : List Byte) : Bool :=
  let kind (l : List Byte) : List Byte := if l.take 1 == [6] then [5] else l.take 1
  kind a == kind b && ((a.drop 16).take 8) == ((b.drop 16).take 8)
/-- Two events name the same agent, occurrence and site; `val` is no part of an identity (R367). The reserved bytes
count: an event in which one is not zero names no arrival (00 R6). -/
def sameEvent (a : List Byte) (b : List Byte) : Bool := a.take 24 == b.take 24 && a.drop 28 == b.drop 28

/-- The journal's status changes, in the descriptor too where that can be written (R369). -/
def State.jrnStat (s : State) (ctx v : Nat) : State :=
  match s.ctx? ctx with
  | none => s
  | some x =>
      let s := s.modCtx ctx fun x => { x with jrn := { x.jrn with stat := v } }
      (s.vput ctx (x.jrn.desc + 20) 1 v).toOption.getD s

/-- Records a choice at level 2 (R371), after it is made: an access of the journal that fails, and a full event area, stop
the recording. -/
def State.record (s : State) (ctx : Nat) (a : Arrival) : State :=
  match s.ctx? ctx with
  | none => s
  | some x =>
      let j := x.jrn
      if j.lvl != 2 then s
      else
        let occ := j.occOf a
        let s := s.modCtx ctx fun x => { x with jrn := x.jrn.count a }
        if j.stat != 0 then s
        else
          match s.vwrite ctx (j.base + 32 * j.cnt) (a.bytes occ) with
          | .error _ => s.jrnStat ctx 4
          | .ok s =>
              let s := s.modCtx ctx fun x => { x with jrn := { x.jrn with cnt := j.cnt + 1 } }
              match s.vput ctx (j.desc + 12) 4 (j.cnt + 1) with
              | .error _ => s.jrnStat ctx 4
              | .ok s => if j.cap ≤ j.cnt + 1 then s.jrnStat ctx 2 else s

/-- What the journal says of an arrival at level 3 (R372): in turn at an event, to be held, or matching
no unconsumed event while the window reaches the end. -/
inductive Turn where
  | free
  | now (e : Nat)
  | wait
  | none
  deriving DecidableEq, Repr

/-- The unconsumed events of the window with their bytes; none where a read fails (R372, R373). -/
def State.window (s : State) (ctx : Nat) (j : Jrn) : Option (List (Nat × List Byte)) :=
  let n := min j.cnt (j.pos + 65536) - j.pos
  match s.vread ctx (j.base + 32 * j.pos) (32 * n) with
  | .error _ => none
  | .ok bs => some (((List.range n).map fun i => (j.pos + i, (bs.drop (32 * i)).take 32)).filter
      fun e => !j.used.contains e.1)

/-- The turn of an arrival. -/
def State.turn (s : State) (ctx : Nat) (a : Arrival) : Turn :=
  match s.ctx? ctx with
  | none => .free
  | some x =>
      if x.jrn.lvl != 3 then .free
      else
        let me := a.bytes (x.jrn.occOf a)
        match s.window ctx x.jrn with
        | none => .wait
        | some w =>
            match w.find? fun e => sameSite e.2 me with
            | some e =>
                if sameEvent e.2 me then .now e.1
                else if (w.any fun e => sameEvent e.2 me) || x.jrn.pos + 65536 < x.jrn.cnt then .wait else .none
            | none => if x.jrn.cnt ≤ x.jrn.pos + 65536 then .none else .wait

/-- Advances past consumed events at the head. -/
def Jrn.advance (j : Jrn) : Nat → Jrn
  | 0 => j
  | n + 1 => if j.used.contains j.pos then
      Jrn.advance { j with pos := j.pos + 1, used := j.used.filter fun e => e != j.pos } n else j

/-- Consumes an event at level 3 and counts the arrival. -/
def State.consume (s : State) (ctx : Nat) (a : Arrival) (e : Nat) : State :=
  let s := s.modCtx ctx fun x =>
    let j := x.jrn.count a
    { x with jrn := Jrn.advance { j with used := e :: j.used } (j.used.length + 1) }
  match s.ctx? ctx with
  | some x => (s.vput ctx (x.jrn.desc + 16) 4 x.jrn.pos).toOption.getD s
  | none => s

/-- A mismatch is met at an arrival (R373, case 1). -/
def State.mismatch (s : State) (ctx : Nat) : State :=
  let s := s.modCtx ctx fun x => { x with jrn := { x.jrn with mis := true } }
  { s with agenda := s.agenda ++ [.event (.journalMismatch ctx)] }

/-- An atomic whose order is a journaled choice: `.ord`, or of a float type, or `lacnt` (R366). -/
def MemAct.journaled (a : MemAct) : Bool :=
  match a with
  | .atom _ t ord _ _ _ => ord || (match t with
      | .f32 => true
      | .f16 => true
      | .bf16 => true
      | _ => false)
  | .elect _ _ _ => true
  | _ => false

/-- The arrival of a thread of a team at a word of memory or of a scratchpad. -/
def Team.arrival (tm : Team) (thr site : Nat) : Arrival :=
  { kind := 1, src := 0, thr := thr, grid := tm.ordinal, team := tm.index, own := none, site := site, val := 0 }

/-- The site of a word: its virtual address, or the team index and offset of a scratchpad (R366). -/
def State.site (s : State) (va : Nat) (g : Tgt) : Nat :=
  match g with
  | .scr r off =>
      let ix := match s.team? r.core r.slot with
        | some tm => tm.index
        | none => 0
      (ix * 2 ^ 21 + off) % 2 ^ 63 + 2 ^ 63
  | _ => va

/-! ## Accesses in flight (09 R205, R212; 10 R238, R242 to R245) -/

/-- The new value of an atomic (09 R212). -/
def atomNew (o : AtomOp) (t : AtomTy) (old b d : Nat) : Nat :=
  let w := t.w
  let m := 2 ^ w
  let sg (v : Nat) : Int := match t with
    | .i32 | .i64 => sext w v
    | _ => v
  let ft : Option FType := match t with
    | .f32 => some .f32
    | .f16 => some .f16
    | .bf16 => some .bf16
    | _ => none
  match o with
  | .add => match ft with
      | some f => roundRne (FVal.sum .rne [FType.decode f old, FType.decode f b]) f
      | none => (old + b) % m
  | .min => match ft with
      | some f => fminmax f false old b
      | none => if sg b < sg old then b else old
  | .max => match ft with
      | some f => fminmax f true old b
      | none => if sg old < sg b then b else old
  | .and => old &&& b
  | .or => old ||| b
  | .xor => Nat.xor old b
  | .exch => b
  | .cas => if old = b then d else old
  | .inc => if old ≥ b then 0 else old + 1
  | .dec => if old = 0 ∨ old > b then b else old - 1

/-- A loaded value placed in its destination registers (09 R202). -/
def placeLoad : List RegAt → Nat → List (RegAt × DWord)
  | [], _ => []
  | r :: rs, v =>
      match r with
      | .v _ _ => (r, BitVec.ofNat 64 (v % 2 ^ 32)) :: placeLoad rs (v / 2 ^ 32)
      | _ => (r, BitVec.ofNat 64 v) :: placeLoad rs (v / 2 ^ 64)

/-- An access that reads and writes at one point. -/
def MemAct.isRmw : MemAct → Bool
  | .atom _ _ _ _ _ _ => true
  | .elect _ _ _ => true
  | _ => false

def MemAct.isElect : MemAct → Bool
  | .elect _ _ _ => true
  | _ => false

/-- What an atomic leaves in memory (R212; 11 R269). -/
def MemAct.update (a : MemAct) (old : Nat) : Nat :=
  match a with
  | .atom o t _ b d _ => atomNew o t old b d
  | .elect n _ _ => let v := (old + 1) % 2 ^ 32
                    if v = n then 0 else v
  | _ => old

/-- The arrival of a `lacnt` elects its home group (11 R269). -/
def MemAct.elected (a : MemAct) (old : Nat) : Bool :=
  match a with
  | .elect n _ _ => (old + 1) % 2 ^ 32 == n
  | _ => false

/-- The registers an access writes for the value it found (R202, R212; 11 R269). -/
def MemAct.results (a : MemAct) (old : Nat) : List (RegAt × DWord) :=
  match a with
  | .load dst => placeLoad dst old
  | .atom _ _ _ _ _ dst => placeLoad dst old
  | .elect n d p => let v := (old + 1) % 2 ^ 32
                    d.map (fun r => (r, BitVec.ofNat 64 v)) ++ p.map fun r => (r, if v = n then 1 else 0)
  | .store _ => []

/-- The bytes of a target, read where they live. -/
def State.readTgt (s : State) (g : Tgt) (n : Nat) : List Byte :=
  match g with
  | .mem pa => s.readPa pa n
  | .scr r off =>
      match s.team? r.core r.slot with
      | some tm => if tm.wid = r.wid then Memory.readN tm.scratch off n else List.replicate n 0
      | none => List.replicate n 0
  | .wst d off => Memory.readN (s.die d).weights off n

/-- Writes bytes of a team's scratchpad; words written whole are correct again (20 R407). -/
def State.writeScr (s : State) (r : TRef) (off : Nat) (bs : List Byte) : State :=
  let covers (e : Nat × Nat) : Bool := e.1 == r.slot && decide (off ≤ e.2) && decide (e.2 + 4 ≤ off + bs.length)
  let s := s.modTeam r.core r.slot fun tm =>
    if tm.wid = r.wid then { tm with scratch := Memory.writeN tm.scratch off bs } else tm
  if (s.core r.core).spoison.isEmpty then s
  else s.modCore r.core fun k => { k with spoison := k.spoison.filter fun e => !covers e }

/-- Writes bytes at a target. No access writes the weight store (08 R190). -/
def State.writeTgt (s : State) (g : Tgt) (bs : List Byte) : State :=
  match g with
  | .mem pa => s.writePa pa bs
  | .scr r off => s.writeScr r off bs
  | .wst _ _ => s

/-- Uncorrectable data at a target (20 R407). -/
def State.badTgt (s : State) (g : Tgt) (n : Nat) : Bool :=
  match g with
  | .mem pa => s.poisoned pa n
  | .scr r off => (s.core r.core).spoison.any fun e => e.1 == r.slot && off / 4 ≤ e.2 / 4 && e.2 / 4 ≤ (off + n - 1) / 4
  | .wst d off => (s.die d).wpoison.any fun l => off / 64 ≤ l / 64 && l / 64 ≤ (off + n - 1) / 64

/-- Whether two ranges of one target space share a byte. -/
def Tgt.overlaps (a : Tgt) (n : Nat) (b : Tgt) (m : Nat) : Bool :=
  match a, b with
  | .mem x, .mem y => x < y + m && y < x + n
  | .scr r x, .scr q y => r == q && (x < y + m && y < x + n)
  | _, _ => false

/-- Where bytes of a team lie in a core's space, as runs (08 R183, R187, R192): its operand-buffer slot stands whole,
its scratchpad in the units that the allocation map gives it. -/
def Core.pieces (k : Core) (opb : Bool) (slot off n : Nat) : List (Nat × Nat) :=
  if opb then [(slot * k.slotBytes + off, n)]
  else
    let us := match Tab.get? k.teams slot with
      | some tm => tm.units
      | none => []
    (List.range ((off + n + 1023) / 1024 - off / 1024)).map fun i =>
      let u := off / 1024 + i
      let a := max off (1024 * u)
      (1024 * us.getD u u + a % 1024, min (off + n) (1024 * (u + 1)) - a)

/-- A recorded range that overlaps a local access, at 64-byte granularity (08 R193). -/
def Core.sbHit (k : Core) (opb : Bool) (slot off n : Nat) (wrOnly : Bool) : Bool :=
  n != 0 && !k.sb.isEmpty && (k.pieces opb slot off n).any fun p => k.sb.any fun e => e.opb == opb && (!wrOnly || e.wr)
    && (p.1 / 64 * 64 < e.stop && e.start < (p.1 + p.2 + 63) / 64 * 64)

/-- A line of a cache, replaced by bytes at an offset. -/
def patchLine (l : List Byte) (off : Nat) (bs : List Byte) : List Byte :=
  l.take off ++ bs ++ l.drop (off + bs.length)

/-- L1 lines that the banks in force hold (08 R180, R186). -/
def Core.l1Lines (k : Core) : Nat :=
  768 * ((List.range 32).filter fun i => (k.bankRole.extractLsb' (2 * i) 2) == 1#2).length

/-- A line of one of a core's caches is filled: it is no older than any team's placement. -/
def Core.refilled (k : Core) (ro : Bool) (line : Nat) : Core :=
  let cut (l : List Nat) : List Nat := l.filter fun x => x != line
  { k with teams := k.teams.map fun e => (e.1, if ro then { e.2 with noRo := cut e.2.noRo } else { e.2 with noL1 := cut e.2.noL1 }) }

/-- Takes a line into a core's L1. Where the L1 is full another line makes room, freely chosen: R186 names no policy,
and a hint affects nothing but that choice (log 30). -/
def State.fillL1 (s : State) (c line : Nat) : State :=
  let (v, s) := s.draw
  s.modCore c fun k =>
    let rest := k.l1.filter fun e => e.1 != line
    let kept := if rest.length < k.l1Lines then rest else rest.eraseIdx (v % max 1 rest.length)
    { k.refilled false line with l1 := (Tab.set kept line (Memory.readN s.mem (64 * line) 64)).take k.l1Lines }
/-- Takes a line into a core's read-only cache. -/
def State.fillRo (s : State) (c line : Nat) : State :=
  s.modCore c fun k => { k.refilled true line with roCache := Tab.set k.roCache line (Memory.readN s.mem (64 * line) 64) }

/-- A line of the L1, or of the read-only cache, that a load of a team may hit (10 R246). -/
def Core.l1Hit (k : Core) (slot line : Nat) : Option (List Byte) :=
  if (Tab.get? k.teams slot).any fun tm => tm.noL1.contains line then none else Tab.get? k.l1 line
def Core.roHit (k : Core) (slot line : Nat) : Option (List Byte) :=
  if (Tab.get? k.teams slot).any fun tm => tm.noRo.contains line then none else Tab.get? k.roCache line

/-- What a narrow load sees of the core's queued stores, oldest first (10 R235): those performed at `.core`, and by a free
choice, which performs it there, another thread's. -/
def State.forward (c slot thr pa n : Nat) : List SEntry → List Byte × State → List Byte × State
  | [], r => r
  | e :: es, (bs, s) =>
      let here := match e.tgt with
        | .mem q => e.path == .ls && e.parked.isNone && !(e.slot == slot && e.thr == thr) && decide (q < pa + n)
            && decide (pa < q + e.data.length) && !s.poisoned q e.data.length
        | _ => false
      if !here then State.forward c slot thr pa n es (bs, s)
      else
        let (go, s) := if e.near then (true, s) else s.drawBool
        if !go then State.forward c slot thr pa n es (bs, s)
        else
          let q := match e.tgt with
            | .mem q => q
            | _ => 0
          let bs := (List.range n).map fun i => if q ≤ pa + i ∧ pa + i < q + e.data.length then e.data.getD (pa + i - q) 0 else bs.getD i 0
          let s := if e.near then s else s.modCore c fun k =>
            { k with storeQ := k.storeQ.map fun x => if x.uid = e.uid then { x with near := true } else x }
          State.forward c slot thr pa n es (bs, s)

/-- The bytes a load returns: for a narrow `ls` load or an `ldro`, a line of the core's own cache may
serve it, and a line read may be kept (08 R186, 09 R208). -/
def State.loadBytes (s : State) (c slot : Nat) (a : Access) (g : Tgt) : List Byte × State :=
  match g with
  | .mem pa =>
      let me := (s.team? c slot).map fun tm => (tm.wid, a.thr)
      let (fresh, s) := s.readOn a.path me pa a.size
      let line := pa / 64
      let off := pa % 64
      if inWindow pa then (fresh, s.winSeen pa a.size)
      else if a.path = .ro then
        match (s.core c).roHit slot line with
        | some l =>
            let (hit, s) := s.drawBool
            if hit then ((l.drop off).take a.size, s) else (fresh, s.fillRo c line)
        | none => (fresh, s.fillRo c line)
      else if a.path = .ls ∧ a.sc.code.toNat ≤ 3 then
        let (bs, s) :=
          if (s.core c).l1Lines = 0 then (fresh, s)
          else match (s.core c).l1Hit slot line with
            | some l =>
                let (hit, s) := s.drawBool
                if hit then ((l.drop off).take a.size, s) else (fresh, s.fillL1 c line)
            | none => (fresh, s.fillL1 c line)
        State.forward c slot a.thr pa a.size (s.core c).storeQ (bs, s)
      else (fresh, s)
  | _ => (s.readTgt g a.size, s)

/-- What a fence, or another event of R243, at `.clu` or wider makes the core forget. -/
def State.dropL1 (s : State) (c : Nat) (sc : Scope) : State :=
  if 4 ≤ sc.code.toNat then s.modCore c fun k => { k with l1 := [] } else s

/-- A write of an agent on a core is performed: at its place, and in a line that the core's L1 holds (08 R186; log 27). -/
def State.putTgt (s : State) (c : Nat) (p : Path) (w : Agent) (g : Tgt) (bs : List Byte) : State :=
  match g with
  | .mem pa => (s.writeOn p w pa bs).modCore c fun k => { k with l1 := Tab.mod k.l1 (pa / 64) fun l => patchLine l (pa % 64) bs }
  | _ => s.writeTgt g bs

/-- An access that has issued and is not performed. -/
structure OutAcc where
  uid : Nat
  ins : Nat
  thr : Nat
  slot : Nat
  /-- none for a read of the weight store, which takes no path (10 R236) -/
  path : Option Path
  va : Nat
  tgt : Tgt
  size : Nat
  pure : Bool
  narrow : Bool
  isSt : Bool
  /-- a store performed at `.core`, and one that a wider fence of the core stands after -/
  near : Bool
  seen : Bool
  /-- a store parked on a page fault, or a read that a trap has set aside -/
  stuck : Bool
  /-- a store that was saved and restored with its context -/
  again : Bool
  /-- the arrival of a `lacnt` -/
  elect : Bool
  deriving DecidableEq, Repr

/-- The path that an access to a place takes (10 R236). -/
def Tgt.onPath (g : Tgt) (p : Path) : Option Path :=
  match g with
  | .wst _ _ => none
  | _ => some p

/-- The accesses of a core that are not performed, loads and atomics then stores. -/
def Core.outs (k : Core) : List OutAcc :=
  (k.pends.filterMap fun p => match p.src with
    | .load a g =>
        let ld := match a.act with
          | .load _ => true
          | _ => false
        some { uid := p.uid, ins := p.ins, thr := a.thr, slot := p.slot, path := g.onPath a.path, va := a.va, tgt := g, size := a.size,
               pure := ld, narrow := ld && decide (a.sc.code.toNat ≤ 3), isSt := false, near := false, seen := false, stuck := p.aside, again := false, elect := a.act.isElect }
    | _ => none)
  ++ k.storeQ.map fun e =>
    { uid := e.uid, ins := e.ins, thr := e.thr, slot := e.slot, path := some e.path, va := e.va, tgt := e.tgt, size := e.data.length,
      pure := false, narrow := false, isSt := true, near := e.near, seen := e.seen, stuck := e.parked.isSome || e.aside, again := e.again, elect := false }

/-- A `fence.ar` of its thread stands after an access (09 R217). -/
def OutAcc.fenced (fs : List (Nat × Nat × Nat)) (y : OutAcc) : Bool :=
  y.path == some .ls && fs.any fun f => f.1 == y.slot && f.2.1 == y.thr && decide (y.uid < f.2.2)

/-- What must be performed before an access: the earlier accesses of its thread on its path that
overlap it (10 R238), the earlier `ls` accesses of its thread that a `fence.ar` stands after, unless it is
a load and they are stores (09 R217), earlier accesses to the same other team's scratchpad (09 R207), and
the overlapping stores of lower threads of its own instruction (09 R203). Two home groups' stores of one `sst` are
among the last: log 30 orders them so. A store performed at `.core` comes before every later access of the core that
overlaps it but for a narrow load, which sees it in the queue, and one that a wider fence stands after comes before every
later `ls` write of the core (10 R235, R239; log 27); what a home group does after a `lacnt` comes after its arrival (11
R269). Stores that were saved with a context are performed in issue order (10 R251). -/
def OutAcc.needs (fs : List (Nat × Nat × Nat)) (x y : OutAcc) : Bool :=
  y.uid < x.uid && ((y.seen && x.path == some .ls && !x.pure)
    || (y.near && x.path == some .ls && !(x.pure && x.narrow) && Tgt.overlaps x.tgt x.size y.tgt y.size)
    || y.slot == x.slot
    && ((y.elect && hgOf y.thr == hgOf x.thr && x.path == some .ls) || (y.thr == x.thr && y.path == some .ls && x.path == some .ls && !(y.isSt && x.pure)
          && fs.any fun f => f.1 == x.slot && f.2.1 == x.thr && decide (y.uid < f.2.2) && decide (f.2.2 < x.uid))
        || (y.thr == x.thr && y.path == x.path
          && ((Tgt.overlaps x.tgt x.size y.tgt y.size && !(x.narrow && y.pure))
            || (match x.tgt, y.tgt with
                | .scr r _, .scr q _ => r == q
                | _, _ => false)))
        || (y.again && x.again)
        || (y.ins == x.ins && Tgt.overlaps x.tgt x.size y.tgt y.size && !y.pure)))

/-! ## Barrier objects (08 R194, R195) -/

/-- The fields of a barrier object. -/
structure BxObj where
  left : Nat
  reload : Nat
  round : Nat
  rsv : Nat
  deriving DecidableEq, Repr

def BxObj.ofBytes (bs : List Byte) : BxObj :=
  { left := leNat (bs.take 4), reload := leNat ((bs.drop 4).take 4), round := leNat ((bs.drop 8).take 2),
    rsv := leNat ((bs.drop 10).take 6) }
def BxObj.toBytes (b : BxObj) : List Byte :=
  leBytes 4 b.left ++ leBytes 4 b.reload ++ leBytes 2 b.round ++ leBytes 6 b.rsv

/-- The updates of R195: `bxinit`, `bxowe`, and `bxpay` or an arrival of bytes. -/
inductive BxOp where
  | init | owe | pay
  deriving DecidableEq, Repr

/-- The completion test (R195). -/
def BxObj.test (b : BxObj) : BxObj :=
  if b.left = 0 then { b with round := (b.round + 1) % 65536, left := b.reload } else b

/-- One update (R195); none where a reserved bit stands. -/
def BxObj.update (b : BxObj) (o : BxOp) (n : Nat) : Option BxObj :=
  match o with
  | .init => some { left := n, reload := n, round := 0, rsv := 0 }
  | .owe => if b.rsv = 0 then some ({ b with left := (b.left + n) % 2 ^ 32 }).test else none
  | .pay => if b.rsv = 0 then some ({ b with left := (b.left + 2 ^ 32 - n % 2 ^ 32) % 2 ^ 32 }).test else none

/-- An update at the object. -/
def State.bxUpdate (s : State) (t : Tgt) (o : BxOp) (n : Nat) : Option State :=
  match (BxObj.ofBytes (s.readTgt t 16)).update o n with
  | some b => some (s.writeTgt t b.toBytes)
  | none => none

/-- Whether round r has completed (R195). -/
def BxObj.completed (b : BxObj) (r : Nat) : Bool :=
  let d := (b.round + 65536 - r % 65536) % 65536
  1 ≤ d && d ≤ 32767

/-! ## Commands that end (08 R199; 09 R229) -/

/-- Releases a command's entries on every core. -/
def State.unclaim (s : State) (cmd : Nat) : State :=
  { s with cores := s.cores.map fun e => (e.1, { e.2 with sb := e.2.sb.filter fun x => x.cmd != cmd }) }

/-- No entry recorded earlier holds the command (R193). -/
def State.clear (s : State) (cmd : Nat) : Bool :=
  s.cores.all fun e => (e.2.sb.filter fun x => x.cmd == cmd).all fun x =>
    !(e.2.sb.any fun y => decide (y.cmd < cmd) && y.opb == x.opb && decide (y.start < x.stop) && decide (x.start < y.stop)
      && (x.wr || y.wr))

def Core.cmd? (k : Core) (id : Nat) : Option Cmd := k.cmds.find? fun c => c.id == id
def State.modCmd (s : State) (c id : Nat) (f : Cmd → Cmd) : State :=
  s.modCore c fun k => { k with cmds := k.cmds.map fun d => if d.id = id then f d else d }

/-- Bytes of a command not delivered yet. -/
def Cmd.owed (d : Cmd) : Nat := (d.rest.map fun r => r.2).foldl (· + ·) 0

/-- A command is stopped, and retires next with the state given (1 complete, 2 cancelled, 3 failed with a cause). Where
it pays into an object, the arrival of the bytes that it has not delivered is the next thing that happens (R199). -/
def State.cmdEnd (s : State) (c id st cause : Nat) : State :=
  match (s.core c).cmd? id with
  | none => s
  | some d =>
      if d.fin.isSome then s
      else
        let owes := d.obj.isSome && !d.rest.isEmpty
        let s := (s.leavePorts c (d.asks.map fun a => a.1)).modCmd c id fun d =>
          { d with fin := some (st, cause), rest := if owes then d.rest else [], asks := [], fault := none, erg := none }
        if owes then { s with agenda := .event (.commandPortionArrival c id) :: s.agenda } else s

/-! ## Teams that end (07 R163; 08 R185; 16 R363) -/

/-- The physical core and slot of every resident team of a cluster of a grid, with its record. -/
def State.clusterTeams (s : State) (grid cluster : Nat) : List (Nat × Nat × Team) :=
  s.cores.flatMap fun e => (e.2.teams.filter fun t => t.2.grid == grid && t.2.cluster == cluster).map
    fun t => (e.1, t.1, t.2)

/-- Whether a command of the team has not retired. -/
def Core.hasCmd (k : Core) (wid : Nat) : Bool := k.cmds.any fun d => d.wid == wid

/-- Nothing of a finished team is left to perform or to retire. -/
def Core.quiet (k : Core) (slot wid : Nat) : Bool :=
  !k.hasCmd wid && !(k.pends.any fun p => p.slot == slot) && !(k.storeQ.any fun e => e.wid == wid)

/-- Releases the thread slots and scratchpads of the finished teams of a cluster once every team of the
cluster has finished and their commands have retired (R163, R185). -/
def State.reap (s : State) (grid cluster : Nat) : State :=
  let ts := s.clusterTeams grid cluster
  if ts.all fun t => t.2.2.fin then
    ts.foldl (fun s t =>
      if (s.core t.1).quiet t.2.1 t.2.2.wid && t.2.2.trap.isNone then
        s.modCore t.1 fun k => { k with teams := Tab.erase k.teams t.2.1, ready := k.ready.filter fun r => r.1 != t.2.1 }
      else s) s
  else s

/-- Ends ownership of the engine; the handover drain begins (05 R116, R117). -/
def Engine.release (e : Engine) : Engine := { e with owner := none, drain := true }
/-- Ends the sorter's session (11 R261, R262). -/
def Sorter.endSession (x : Sorter) : Sorter :=
  { x with owner := none, k := 0, kept := [], pushed := 0, ovf := false, nanx := false, fill := 0 }

/-- Waiters in order: the first 16 stand in the queue, the others outside it (05 R115; 11 R259). -/
def inLine (l : List EWait) : List EWait × List EWait := (l.take 16, l.drop 16)
def Engine.line (e : Engine) (l : List EWait) : Engine := { e with queue := (inLine l).1, outside := (inLine l).2 }
def Sorter.line (q : Sorter) (l : List EWait) : Sorter := { q with queue := (inLine l).1, outside := (inLine l).2 }
def Engine.waiters (e : Engine) : List EWait := e.queue ++ e.outside
def Sorter.waiters (q : Sorter) : List EWait := q.queue ++ q.outside

/-- The waiters that `gone` selects leave the engine and the sorter, the others keeping their order, and an owner that
it selects gives them up (R117, R262). -/
def Core.leave (k : Core) (gone : Nat → Nat → Bool) : Core :=
  let keep (l : List EWait) : List EWait := l.filter fun w => !gone w.slot w.hg
  let owns (o : Option (Nat × Nat)) : Bool := match o with
    | some (sl, g) => gone sl g
    | none => false
  let eng := k.eng.line (keep k.eng.waiters)
  let srt := k.srt.line (keep k.srt.waiters)
  { k with eng := if owns eng.owner then eng.release else eng
           srt := if owns srt.owner then srt.endSession else srt }

/-- A home group's last thread is gone: it gives up engine and sorter, owned or to be granted again (R117, R262). -/
def Core.leaveHg (k : Core) (slot g : Nat) : Core := k.leave fun sl h => sl == slot && h == g

/-- A finished or killed team leaves the engine and the sorter (R117, R262). -/
def Core.leaveTeam (k : Core) (slot : Nat) : Core := k.leave fun sl _ => sl == slot

/-- The waits of a team's threads that `gone` selects, by thread and name, leave the waiter lists of the work queues
(11 R266). -/
def State.leaveQueues (s : State) (wid : Nat) (gone : Nat → Nat → Bool) : State :=
  { s with dies := s.dies.map fun e => (e.1, { e.2 with wqs := e.2.wqs.map fun q =>
      (q.1, { q.2 with waiters := q.2.waiters.filter fun w => !(w.1.wid == wid && gone w.2.1 w.2.2) }) }) }

/-- Stores that a test selects are given up, and the scoreboard entry of a `mst.loc` with its last one (05 R131). -/
def State.dropStores (s : State) (c : Nat) (f : SEntry → Bool) : State :=
  let ins := dedup (((s.core c).storeQ.filter f).map fun e => e.ins)
  let s := s.modCore c fun k => { k with storeQ := k.storeQ.filter fun e => !f e }
  ins.foldl (fun s i => if (s.core c).storeQ.any fun e => e.ins == i then s else s.unclaim i) s

/-- Accesses of a team that a trap has set aside are given up. -/
def State.dropAside (s : State) (c slot : Nat) : State :=
  let us := ((s.core c).pends.filter fun p => p.slot == slot && p.aside).map fun p => p.uid
  let s := us.foldl (fun s u => s.unclaim u) s
  (s.modCore c fun k => { k with pends := k.pends.filter fun p => !us.contains p.uid }).dropStores c fun e =>
    e.slot == slot && e.aside

/-- A team has finished: registers are released (01 R27), and its grid counts it (13 R285). -/
def State.teamDone (s : State) (c slot : Nat) : State :=
  match s.team? c slot with
  | none => s
  | some tm =>
      let s := (s.dropAside c slot).modCore c fun k => k.leaveTeam slot
      let s := s.modTeam c slot fun tm =>
        { tm with fin := true, threads := [], hgs := [], colls := [], hwaits := [], trap := none, held := [] }
      let s := s.message (coreUnit c) (distUnit ((s.grids.lookup tm.grid).elim (c / 96) fun g => g.die))
      let s := s.modGrid tm.grid fun g => { g with finished := sortNat (tm.index :: tm.taken ++ g.finished) }
      s.reap tm.grid tm.cluster

/-- What a halted thread waits for in a work queue, by the names of its waits. -/
def Team.queueWaits (tm : Team) (ts : List Nat) : List Nat :=
  let of (t : Nat) (st : TState) : Option Nat := match st with
    | .waiting (.wq _ u _ _ _ _) => if ts.contains t then some u else none
    | _ => none
  match tm.trap with
  | some tr => tr.prior.filterMap fun p => of p.thr p.st
  | none => []

/-- Threads exit (R163): what a handler thread waited for before the halt is given up with it (11 R266). A team whose
last thread exits while a trap of it is in its skid has no handler home group: the trap is taken, and is fatal (16 R355,
R357). -/
def State.exitThreads (s : State) (c slot : Nat) (ts : List Nat) : State :=
  match s.team? c slot with
  | none => s
  | some tm0 =>
      if tm0.fin then s
      else
        let us := tm0.queueWaits ts
        let s := (s.leaveQueues tm0.wid fun t u => ts.contains t && us.contains u).setState c slot ts .exited
        let s := s.modCore c fun k => { k with pends := k.pends.filter fun p => !us.contains p.uid }
        match s.team? c slot with
        | none => s
        | some tm =>
            let s := (dedup (ts.map hgOf)).foldl (fun s g =>
              if (tm.live g).isEmpty then s.modCore c fun k => k.leaveHg slot g else s) s
            let skid := match tm.trap with
              | some tr => !tr.halted
              | none => false
            if !skid && tm.threads.all fun e => e.2.st == .exited then s.teamDone c slot else s

/-- Performs the update of an atomic (R212), which is journaled where R366 says so; the value it found. -/
def State.rmw (s : State) (c slot : Nat) (a : Access) (g : Tgt) : Nat × State :=
  let old := leNat (s.readTgt g a.size)
  let s := s.putTgt c a.path (s.agentAt c slot a.thr) g (leBytes a.size (a.act.update old))
  (old, match a.act.journaled, s.team? c slot with
    | true, some tm => s.record tm.ctx (tm.arrival a.thr (s.site a.va g))
    | _, _ => s)

/-- The scoreboard entries of a team's `.loc` tile accesses, by name: in flight or in the store queue (05 R131). -/
def Core.tileClaims (k : Core) (slot : Nat) (tm : Team) : List Nat :=
  (k.pends.filter fun p => p.slot == slot).map (fun p => p.uid)
    ++ (k.storeQ.filter fun e => e.wid == tm.wid && e.path == .mx).map (fun e => e.ins)

/-- The unit that answers for a physical address: an L2 slice, or a CXL port (R410; 19 R392, R393). -/
def unitOf (pa : Nat) : Nat :=
  if inCxl pa then unitKey 11 0 (if 0x180000000000 ≤ pa then 1 else 0)
  else unitKey 2 (homeDie pa) (sliceOf pa)

/-- The messages of an access and its reply between a core and the unit that performs it (20 R411). -/
def State.mesh (s : State) (c : Nat) (g : Tgt) : State :=
  match g with
  | .mem pa => ((s.touchL2 pa).message (coreUnit c) (unitOf pa)).message (unitOf pa) (coreUnit c)
  | _ => s

/-- A store leaves the queue and is performed; the last one of a `mst.loc` releases its entry (05 R131). -/
def State.performStore (s : State) (c : Nat) (e : SEntry) : State :=
  let s := s.modCore c fun k => { k with storeQ := k.storeQ.filter fun q => q.uid != e.uid }
  let s := (s.mesh c e.tgt).putTgt c e.path (s.agentAt c e.slot e.thr) e.tgt e.data
  if e.path == .mx && !((s.core c).storeQ.any fun q => q.ins == e.ins) then s.unclaim e.ins else s

/-- Stores of a team that other threads of its core may have read in the queue are performed: a value that was read is
one that a write supplied (10 R242, R249; log 27). -/
def State.performNear (s : State) (c wid : Nat) : State :=
  let es := (s.core c).storeQ.filter fun e => e.wid == wid && e.near && e.parked.isNone
  es.foldl (fun s e => s.performStore c e) s

/-- Kills a team (R363). An atomic in flight performs wholly or not at all, as a free choice. -/
def State.killTeam (s : State) (c slot : Nat) : State :=
  match s.team? c slot with
  | none => s
  | some tm =>
      let s := s.performNear c tm.wid
      let mine := (s.core c).pends.filter fun p => p.slot == slot
      let s := mine.foldl (fun s p =>
        match p.src with
        | .load a g =>
            if a.act.isRmw then
              let (go, s) := s.drawBool
              if go then (s.rmw c slot a g).2 else s
            else s
        | _ => s) s
      let s := ((s.core c).tileClaims slot tm).foldl (fun s u => s.unclaim u) s
      let s := s.modCore c fun k =>
        { k with pends := k.pends.filter (fun p => p.slot != slot)
                 storeQ := k.storeQ.filter (fun e => e.wid != tm.wid)
                 groups := k.groups.filter (fun g => g.slot != slot) }
      let s := ((s.core c).cmds.filter fun d => d.wid == tm.wid).foldl (fun s d => s.cmdEnd c d.id 2 0) s
      let s := s.modCtx tm.ctx fun x => { x with faults := x.faults.filter fun f => f.wid != tm.wid }
      let s := s.leaveQueues tm.wid fun _ _ => true
      let s := s.modTeam c slot fun tm => { tm with killed := true }
      let s := s.ero 1 (c / 96) (c % 96) 15 tm.ctx tm.index
      s.teamDone c slot

/-! ## Fault entries (16 R350, R351) -/

/-- Faults of a context that no replay has taken up. -/
def Ctx.openFaults (x : Ctx) : Nat := (x.faults.filter fun f => f.accepted != 3).length

/-- The 32 bytes of a fault-ring entry (R351). -/
def faultEntry (f : PFault) (team : Nat) : List Byte :=
  let addr := if f.kind = 6 then f.info else f.va
  leBytes 4 f.fid ++ leBytes 1 f.kind ++ leBytes 1 f.core ++ leBytes 1 (f.slot % 16) ++ leBytes 1 f.hg
    ++ leBytes 8 addr ++ leBytes 4 (listToMask (f.mem.map laneOf)) ++ leBytes 4 team ++ leBytes 8 f.pc.toNat

/-- A fault receives the context's next fault id and enters the order in which entries are written
(R350, R351). The id it got. -/
def State.newFault (s : State) (ctx : Nat) (team : Nat) (f : PFault) : Nat × State :=
  match s.ctx? ctx with
  | none => (0, s)
  | some x =>
      let f := { f with fid := x.nextFid }
      (x.nextFid, s.modCtx ctx fun x =>
        { x with nextFid := (x.nextFid + 1) % 2 ^ 32
                 faults := if f.kind = 6 then x.faults else x.faults ++ [f]
                 ringQ := x.ringQ ++ [faultEntry f team] })

/-- The context entry of a context: its physical address (R339). -/
def State.ctxEntry (s : State) (ctx : Nat) : Nat := s.ctxtab.toNat + 128 * ctx

/-- Writes one status byte of a context entry at `.sys` (R339, R340): [2] `cst`, [3] `cerr`. -/
def State.putCtx (s : State) (ctx off v : Nat) : State :=
  s.writePa (s.ctxEntry ctx + off) [BitVec.ofNat 8 v]

/-- A fatal trap: the team is killed, reported in the ring and in the entry (R359). -/
def State.fatal (s : State) (c slot : Nat) (r : TrapReq) (nested : Bool) : State :=
  match s.team? c slot with
  | none => s
  | some tm =>
      let f : PFault :=
        { fid := 0, kind := 6, core := c, slot := slot, wid := tm.wid, hg := r.hg, va := 0,
          mem := r.mask.filter fun t => hgOf t == r.hg, pc := r.point, accs := [], uids := [], cmd := none,
          reissue := false, cont := r.point, accepted := 0,
          info := r.cause.code + 256 * r.code + (if nested then 2 ^ 21 else 0), pending := false }
      let s := (s.newFault tm.ctx tm.index f).2
      let s := s.putCtx tm.ctx 3 (if nested then 6 else 4)
      let s := s.ero 1 (c / 96) (c % 96) 9 tm.ctx r.cause.code
      s.killTeam c slot

/-- Raises a trap for an access or a result issued under a name: one of a handler thread is a nested trap
(16 R359). -/
def State.raiseFor (s : State) (c slot uid : Nat) (r : TrapReq) (stop : List Nat) : State :=
  match (s.team? c slot).bind fun tm => tm.trap with
  | some tr => if tr.halted && decide (tr.uid0 ≤ uid) then s.fatal c slot r true else s.raise c slot r stop
  | none => s.raise c slot r stop

/-! ## Performing accesses (09 R205 to R213; 10 R238, R243) -/

/-- Uncorrectable data that a core's read found: the unit that holds it records it, and its reply carries its stamp (20
R405, R407, R410, R411). -/
def State.eroUnit (s : State) (c : Nat) (g : Tgt) : State :=
  let ctx := (s.core c).ctx.getD 0xFFFF
  match g with
  | .mem pa =>
      let s := if inCxl pa then s.ero 11 0 (if 0x180000000000 ≤ pa then 1 else 0) 2 ctx pa
        else s.ero 2 (homeDie pa) (sliceOf pa) 2 ctx pa
      s.message (unitOf pa) (coreUnit c)
  | .wst d off => (s.ero 9 d 0 2 ctx off).message (unitKey 9 d 0) (coreUnit c)
  | .scr _ _ => s
/-- With the response of the core. -/
def State.eroPoison (s : State) (c va : Nat) (g : Tgt) : State :=
  (s.eroUnit c g).ero 1 (c / 96) (c % 96) 2 ((s.core c).ctx.getD 0xFFFF) va

/-- Sets accesses aside: they stay unperformed, in their places in program order, until a trap ends (10 R250). -/
def State.setAside (s : State) (c : Nat) (us : List Nat) (on : Bool) : State :=
  s.modCore c fun k =>
    { k with pends := k.pends.map fun q => if us.contains q.uid then { q with aside := on } else q
             storeQ := k.storeQ.map fun e => if us.contains e.uid then { e with aside := on } else e }

/-- Raises a trap at the checkpoint for reads in flight whose data cannot be returned (09 R206, 10 R250). Their results
stay owed. -/
def State.readTrap (s : State) (c slot : Nat) (cause : Cause) (ps : List Pend) : State :=
  match ps with
  | [] => s
  | p0 :: _ =>
      let accs := ps.filterMap fun p => match p.src with
        | .load a _ => some a
        | _ => none
      let us := ps.map fun p => p.uid
      let s := s.setAside c us true
      let thr := sortNat (accs.map fun a => a.thr)
      let pc := match accs with
        | a :: _ => a.pc
        | [] => 0
      s.raiseFor c slot p0.uid
        { cause := cause, code := 0, point := pc, mask := thr,
          addrs := accs.foldl (fun t a => Tab.set t a.thr a.va) [], kind := .checkpoint us, hg := p0.hg }
        thr

/-- The same for uncorrectable data, which the unit that holds it and the core record. -/
def State.poisonTrap (s : State) (c slot : Nat) (cause : Cause) (ps : List Pend) : State :=
  match ps with
  | { src := .load a g, .. } :: _ => (s.eroPoison c a.va g).readTrap c slot cause ps
  | _ => s.readTrap c slot cause ps

/-- Raises a trap at the checkpoint for an `mld`, which writes nothing. -/
def State.tileTrap (s : State) (c : Nat) (p : Pend) (thr : List Nat) (base : Nat) (pc : PC) : State :=
  (s.setAside c [p.uid] true).raiseFor c p.slot p.uid
    { cause := .poison, code := 0, point := pc, mask := sortNat thr, addrs := thr.foldl (fun t x => Tab.set t x base) [],
      kind := .checkpoint [p.uid], hg := p.hg } thr

/-- Performs a read or atomic whose earlier accesses are done. -/
def State.performPend (s : State) (c : Nat) (p : Pend) (a : Access) (g : Tgt) : State :=
  let s := s.mesh c g
  if a.act.isRmw then
    let (old, s) := s.rmw c p.slot a g
    let s := if a.act.elected old then s.dropL1 c a.sc else s
    s.writeBack c p (a.act.results old)
  else
    let (bs, s) := s.loadBytes c p.slot a g
    s.writeBack c p (a.act.results (leNat bs))

/-- What is left of a trap that a team may have taken: whether one is in progress, and the failures held. -/
def State.trapMark (s : State) (c slot : Nat) : Bool × Nat :=
  match s.team? c slot with
  | some tm => (tm.trap.isSome, tm.held.length)
  | none => (true, 0)

/-- The range scoreboard of the core that a scratchpad belongs to holds an access there: any recorded range for a
thread's, an earlier one for a tile access, which has an entry of its own (08 R193; 05 R131). -/
def State.heldAt (s : State) (path : Option Path) (ins : Nat) (g : Tgt) (n : Nat) : Bool :=
  match g with
  | .scr r off => if path == some .mx then !s.clear ins else (s.core r.core).sbHit false r.slot off n false
  | _ => false

/-- The home group of an `mld` owns the engine, or its handover drain is under way (05 R116, R136). -/
def Core.mayLoad (k : Core) (p : Pend) : Bool :=
  k.eng.owner == some (p.slot, p.hg)
    || (k.eng.owner.isNone && k.eng.drain && !(k.eng.waiters.any fun e => e.slot == p.slot && e.hg == p.hg && e.reload.isSome))

/-- Accesses of a home group, and its `mld`, older than an access that are neither performed nor parked: while one is
left no failure of the access is the oldest (09 R206; 10 R250). -/
def Core.olderLeft (k : Core) (slot hg uid ins : Nat) : Bool :=
  (k.outs.any fun y => y.slot == slot && hgOf y.thr == hg && decide (y.uid < uid) && y.ins != ins && !y.stuck)
    || k.pends.any fun q => q.slot == slot && q.hg == hg && decide (q.uid < uid) && !q.aside && k.mayLoad q && (match q.src with
      | .tile _ _ _ _ _ _ ps => !ps.isEmpty
      | _ => false)

/-- The updates of one instruction to one address, which are performed together (09 R213). -/
def Core.together (k : Core) (p : Pend) (a : Access) (g : Tgt) : List Pend :=
  if !a.act.isRmw then [p]
  else k.pends.filter fun q => q.ins == p.ins && (match q.src with
    | .load b h => h == g && b.act.isRmw
    | _ => false)

/-- What must be performed before an access, and before those that are performed with it. -/
def Core.before (k : Core) (x : OutAcc) : List Nat :=
  let set := match k.pend? x.uid with
    | some p => match p.src with
        | .load a g => (k.together p a g).map fun (q : Pend) => q.uid
        | _ => [x.uid]
    | none => [x.uid]
  let xs := k.outs.filter fun y => set.contains y.uid
  (k.outs.filter fun y => !set.contains y.uid && xs.any fun z => OutAcc.needs k.fences z y).map fun y => y.uid

/-- Performs the access named `uid`, after everything that must come before it; the updates of one
instruction to one address are performed together, in thread order (09 R213). A parked store, a read that a trap has set
aside, a request that waits in a port (17 R375), and an access that the scoreboard of its target holds, stay as they
are. Before data that cannot be corrected traps, the older accesses of the home group are performed, so that the access
is the oldest one unperformed (09 R206; 10 R250). -/
def State.perform (c : Nat) : Nat → Nat → State → State
  | 0, _, s => s
  | f + 1, uid, s =>
    match (s.core c).outs.find? fun x => x.uid == uid with
    | none => s
    | some x =>
        let s := (sortNat ((s.core c).before x)).foldl (fun s u => State.perform c f u s) s
        if x.stuck || !((s.core c).before x).isEmpty || s.inPort c uid || s.heldAt x.path x.ins x.tgt x.size then s
        else
          match (s.core c).storeQ.find? fun e => e.uid == uid with
          | some e => s.performStore c e
          | none =>
              match (s.core c).pend? uid with
              | some p =>
                  match p.src with
                  | .load a g =>
                      if s.badTgt g a.size then
                        let mark := s.trapMark c p.slot
                        let older := (s.core c).outs.filter fun y =>
                          y.slot == p.slot && hgOf y.thr == hgOf a.thr && decide (y.uid < uid) && y.ins != p.ins
                        let s := (sortNat (older.map fun y => y.uid)).foldl (fun s u => State.perform c f u s) s
                        if s.trapMark c p.slot != mark || (s.core c).olderLeft p.slot (hgOf a.thr) uid p.ins then s
                        else
                        let bad := (s.core c).pends.filter fun q => q.ins == p.ins && (match q.src with
                          | .load b h => s.badTgt h b.size
                          | _ => false)
                        s.poisonTrap c p.slot .poison bad
                      else
                        ((s.core c).together p a g).foldl (fun s q => match q.src with
                          | .load b h => s.performPend c q b h
                          | _ => s) s
                  | _ => s
              | none => s

/-- Performs an access with fuel for everything before it. -/
def State.performAcc (s : State) (c uid : Nat) : State :=
  State.perform c ((s.core c).outs.length + 1) uid s

/-- Puts n words of a byte list into the accumulator store. -/
def putWords (t : Tab Word) (at' : Nat) (bs : List Byte) (n : Nat) : Tab Word :=
  (List.range n).foldl (fun t i => Tab.put (0 : Word) t (at' + i) (BitVec.ofNat 32 (leNat ((bs.drop (4 * i)).take 4)))) t

/-- Performs an `mld` (05 R132): every element is read at once, after the overlapping `mst` stores of its
home group; uncorrectable data traps the team and writes nothing. -/
def State.performTile (s : State) (c : Nat) (p : Pend) : State :=
  match p.src with
  | .tile thr _ base _ loc pc ps =>
      if ps.isEmpty || p.aside || !(s.core c).mayLoad p || s.inPort c p.uid || (loc && !s.clear p.uid) then s
      else
        let before (s : State) : List Nat := ((s.core c).storeQ.filter fun e =>
          e.path == .mx && e.slot == p.slot && e.hg == p.hg && decide (e.uid < p.uid)
            && ps.any fun q => Tgt.overlaps q.2.1 q.2.2 e.tgt e.data.length).map fun e => e.uid
        let s := (sortNat (before s)).foldl (fun s u => s.performAcc c u) s
        if !(before s).isEmpty then s
        else if ps.any fun q => s.badTgt q.2.1 q.2.2 then
          let mark := s.trapMark c p.slot
          let older := (s.core c).outs.filter fun y => y.slot == p.slot && hgOf y.thr == p.hg && decide (y.uid < p.uid)
          let s := (sortNat (older.map fun y => y.uid)).foldl (fun s u => s.performAcc c u) s
          if s.trapMark c p.slot != mark || (s.core c).olderLeft p.slot p.hg p.uid p.ins then s
          else
          let s := match ps.find? fun q => s.badTgt q.2.1 q.2.2 with
            | some q => s.eroPoison c base q.2.1
            | none => s
          s.tileTrap c p thr base pc
        else
          let s := ps.foldl (fun s q =>
            let (bs, s) := match q.2.1 with
              | .mem pa => s.readOn .mx ((s.team? c p.slot).map fun (tm : Team) => (tm.wid, thr.headD 0)) pa q.2.2
              | g => (s.readTgt g q.2.2, s)
            let fill (e : Engine) : Engine :=
              { e with tiles := putWords e.tiles q.1 bs (q.2.2 / 4)
                       tpoison := e.tpoison.filter fun n => !(decide (q.1 ≤ n) && decide (n < q.1 + q.2.2 / 4)) }
            s.modCore c fun k => { k with eng := fill k.eng }) s
          (s.writeBack c p []).unclaim p.uid
  | _ => s

/-- Performs every access of these threads that `f` selects, oldest first. -/
def State.drain (s : State) (c slot : Nat) (ts : List Nat) (f : OutAcc → Bool) : State :=
  let us := ((s.core c).outs.filter fun x => x.slot == slot && ts.contains x.thr && f x).map fun x => x.uid
  (sortNat us).foldl (fun s u => s.performAcc c u) s

/-- Performs the `ls` accesses of these threads: what a fence orders before it (09 R217). -/
def State.drainLs (s : State) (c slot : Nat) (ts : List Nat) : State :=
  s.drain c slot ts fun x => x.path == some .ls

/-- Performs the `ls` writes of these threads. -/
def State.drainWrites (s : State) (c slot : Nat) (ts : List Nat) : State :=
  s.drain c slot ts fun x => x.path == some .ls && !x.pure

/-! ## Replays (16 R352) -/

/-- Threads of a team that are parked on a fault move to another state and PC, where the team is halted in
what `tret` restores. -/
def Team.moveParked (tm : Team) (fid : Nat) (st : TState) (pc : PC) : Team :=
  let th (e : Nat × Thread) : Nat × Thread := if e.2.st == .parked fid then (e.1, { e.2 with st := st, pc := pc }) else e
  let pr (p : Prior) : Prior := if p.st == .parked fid then { p with st := st, pc := pc } else p
  { tm with threads := tm.threads.map th, trap := tm.trap.map fun tr => { tr with prior := tr.prior.map pr } }

/-- The threads of a fault leave Parked for the bin of a PC. -/
def State.unpark (s : State) (f : PFault) (pc : PC) : State :=
  s.modTeam f.core f.slot fun tm => tm.moveParked f.fid (.binned ((s.core f.core).now + 1)) pc

/-- Every access of a replay has been performed (R352); a frozen team's threads stay as they are (R360). -/
def State.replayOver (s : State) (f : PFault) : Bool :=
  let k := s.core f.core
  let mine (u : Nat) : Bool := f.uids.any fun e => e.2 == u
  !(k.pends.any fun p => mine p.uid) && !(k.storeQ.any fun e => mine e.uid)
    && (match Tab.get? k.teams f.slot with
        | some tm => tm.wid == f.wid && !tm.frozen
        | none => false)

/-- The replays of a core whose accesses have been performed: their threads go on (R352). -/
def State.endReplays (s : State) (c : Nat) : State :=
  let due := s.ctxs.flatMap fun e => (e.2.faults.filter fun f => f.core == c && f.accepted == 3 && s.replayOver f).map fun f => (e.1, f)
  due.foldl (fun s e => (s.unpark e.2 e.2.cont).modCtx e.1 fun x =>
    { x with faults := x.faults.filter fun f => !(f.fid == e.2.fid && f.accepted == 3) }) s

/-! ## Halting a team and entering its handler (16 R355, R356) -/

/-- Completes what the team had issued before it halts: computed results are written and accesses are
performed (R113, R355). A read whose data cannot be corrected is held as a failure. -/
def State.completeIssued (s : State) (c slot : Nat) : State :=
  let s := ((s.core c).pends.filter fun p => p.slot == slot).foldl (fun s p =>
    match p.src with
    | .vals w _ => s.writeBack c p w
    | _ => s) s
  match s.team? c slot with
  | none => s
  | some tm =>
      let s := s.drain c slot tm.launched fun _ => true
      ((s.core c).pends.filter fun p => p.slot == slot).foldl (fun s p => s.performTile c p) s

/-- A thread as the halt finds it (R355, R356). -/
def Thread.priorOf (th : Thread) (t skid : Nat) (win : List Word) : Prior :=
  { thr := t, st := th.st, pc := th.pc, skid := skid, notBefore := th.notBefore, win := win, preds := th.preds,
    rst := th.st, rpc := th.pc, lane := th.lane }

/-- The window of a handler lane set to zero and false: v0 to v15 and p1 to p7 (R356). -/
def Thread.zeroWindow (th : Thread) : Thread :=
  { th with regs := th.regs.filter (fun e => 16 ≤ e.1), preds := th.preds &&& ~~~0xFE#48 }

/-- A handler lane is filed at the handler with its window cleared (R356). -/
def Thread.enterHandler (th : Thread) (vec now : Nat) : Thread :=
  { th.zeroWindow with pc := BitVec.ofNat 57 vec, st := .binned now, notBefore := 0, posts := [] }

/-- A thread enters Halted, unless it has exited (R355); its pending counters are zero in what is saved (04 R113). -/
def Thread.halt (th : Thread) : Thread := if th.st == .exited then th else { th with st := .halted, posts := [] }

/-- The handler home group: of the lowest thread in the mask, or, where no thread of that home group is left, of the
lowest one that has not exited; where every thread of the mask has exited, the lowest that has a live thread (R356,
R357; log 14). -/
def Team.handlerHg (tm : Team) (mask : List Nat) : Option Nat :=
  match (sortNat mask).find? fun t => !tm.exited t with
  | some u => match sortNat mask with
      | t :: _ => some (if (tm.live (hgOf t)).isEmpty then hgOf u else hgOf t)
      | [] => none
  | none => (List.range tm.hgroups).find? fun g => !(tm.live g).isEmpty

/-- TAKING A TRAP: every thread of the team has stopped. Its threads enter Halted with their prior
states recorded; with no handler, in a handler, or with no live thread, the trap is fatal; otherwise
the window of the handler home group is saved and cleared and its lanes are filed at `TRAPVEC`
(R355, R356, R359). -/
def State.takeTrap (s : State) (c slot : Nat) : State :=
  let s := s.completeIssued c slot
  match s.team? c slot with
  | none => s
  | some tm =>
    match tm.trap with
    | none => s
    | some tr =>
      let vec := tr.vec
      match tm.handlerHg tr.req.mask with
      | none => s.fatal c slot tr.req false
      | some hh =>
        if vec = 0 then s.fatal c slot tr.req false
        else
          let isH (t : Nat) (th : Thread) : Bool := hgOf t == hh && !(th.st == .exited)
          let prior := tm.threads.map fun e =>
            e.2.priorOf e.1 (Tab.getD tr.skids e.1 0)
              (if isH e.1 e.2 then (List.range 16).map fun n => Tab.getD e.2.regs n 0 else [])
          let now := (s.core c).now
          let grps := ((s.core c).groups.filter fun g => g.slot == slot).map fun g => { g with drawn := now - g.drawn }
          let s := s.modCore c fun k => { k with groups := k.groups.filter fun g => g.slot != slot }
          s.modTeam c slot fun tm =>
            let xs := [0, 1, 2, 3].map fun n => (tm.readReg (.x hh n)).toNat
            let enter (e : Nat × Thread) : Nat × Thread :=
              (e.1, if isH e.1 e.2 then e.2.enterHandler vec now else e.2.halt)
            let tm := { tm with threads := tm.threads.map enter }
            let tm := tm.modHg hh fun hg => { hg with idx := [] }
            { tm with colls := []
                      trap := some { tr with halted := true, prior := prior, groups := grps, colls := tm.colls, hhg := hh, winx := xs, uid0 := s.uid } }

/-- The trap may be taken now: the skid is over, or no live thread may issue any more (R355). -/
def Team.skidOver (tm : Team) (now : Nat) : Bool :=
  match tm.trap with
  | some tr => !tr.halted && (tr.cyc + 16 ≤ now || tm.threads.all fun e =>
      tr.stopped.contains e.1 || (match e.2.st with
        | .binned _ => false
        | .active _ => false
        | _ => true))
  | none => false

/-! ## Returning from a trap (16 R358) -/

/-- Unperformed accesses are given up: their results are no longer owed, by any thread that posted them, and the entry
of a `.loc` tile access is released (R358). -/
def State.abandon (s : State) (c slot : Nat) (uids : List Nat) : State :=
  let s := s.modTeam c slot fun tm => uids.foldl (fun tm u => tm.settle u) tm
  let s := uids.foldl (fun s u => s.unclaim u) s
  (s.modCore c fun k => { k with pends := k.pends.filter fun p => !uids.contains p.uid }).dropStores c fun e => uids.contains e.uid

/-- The stores of a `mst` that are parked on a fault are given up (05 R133). -/
def State.dropParked (s : State) (c fid wid : Nat) : State :=
  s.dropStores c fun e => e.wid == wid && e.parked == some fid

/-- Places a group in the active set, which stands in the order of the draws: names rise with them. -/
def insertGroup (g : Group) : List Group → List Group
  | [] => [g]
  | h :: hs => if g.gid < h.gid then g :: h :: hs else h :: insertGroup g hs

/-- Threads of a restored team that were Active go back to their groups when the active set has room
and the group's members still agree on their PC; otherwise they are filed (R355, R358; log 14). -/
def State.restoreGroups (s : State) (c slot : Nat) (gs : List Group) : State :=
  let now := (s.core c).now
  gs.foldl (fun s g =>
    match s.team? c slot with
    | none => s
    | some tm =>
        let mem := g.mem.filter fun t => match Tab.get? tm.threads t with
          | some th => th.st == .active g.gid
          | none => false
        let agree := mem.all fun t => (Tab.get? tm.threads t).map (fun th => th.pc) == some g.pc
        if mem.isEmpty then s
        else if agree && !g.ends && (s.core c).groups.length < 8 then
          let g := { g with mem := mem, lanes := g.lanes.filter (fun l => mem.contains l.1)
                            drawn := now - g.drawn, first := now + 1, heldAt := none }
          s.modCore c fun k => { k with groups := insertGroup g k.groups }
        else s.modTeam c slot fun tm =>
          tm.file (mem.filterMap fun t => (Tab.get? tm.threads t).map fun th => (t, th.pc)) now) s

/-- The saved state of one thread after `tret`: its window restored where it was a handler lane, and
its prior state and PC (R358). -/
def Prior.restore (p : Prior) (handler : Bool) (th : Thread) : Thread :=
  let regs := if handler then
      (List.range 16).foldl (fun r n => Tab.put 0 r n (p.win.getD n 0)) th.regs
    else th.regs
  let preds := if handler then (th.preds &&& ~~~0xFE#48) ||| (p.preds &&& 0xFE#48) else th.preds
  { th with regs := regs, preds := preds, st := if th.st == .exited then .exited else p.st, pc := p.pc,
            notBefore := p.notBefore, posts := if handler then [] else th.posts, lane := p.lane }

/-- RETURNING FROM A TRAP: handler threads stop, what they had issued completes (R113), and the faults they held stop
being pending; window, hidden state, prior states and PCs come back; the mask resumes by the trap's kind, at the fault point
or 12 beyond it (R357, R358). A failure held is then raised (R232). The replay of parked accesses is
left to `replay`. -/
def State.endTrap (s : State) (c slot : Nat) (skip : Bool)
    (replay : State → PFault → State) : State :=
  let s := s.completeIssued c slot
  match s.team? c slot with
  | none => s
  | some tm =>
    match tm.trap with
    | none => s
    | some tr =>
      let hs := (tr.prior.filter fun p => hgOf p.thr == tr.hhg && !(p.st == .exited)).map fun p => p.thr
      let r := tr.req
      -- handler threads stop: what they wait for and hold is dropped
      let left := ((s.core c).pends.filter fun p => p.slot == slot && decide (tr.uid0 ≤ p.uid)).map fun p => p.uid
      let s := left.foldl (fun s u => s.unclaim u) s
      let s := s.modCore c fun k =>
        { k with groups := k.groups.filter (fun g => g.slot != slot)
                 pends := k.pends.filter fun p => !(p.slot == slot && decide (tr.uid0 ≤ p.uid)) }
      -- the faults that they are parked on
      let mine := hs.filterMap fun t => match Tab.get? tm.threads t with
        | some th => match th.st with
            | .parked f => some f
            | _ => none
        | none => none
      let s := s.modCtx tm.ctx fun x => { x with faults := x.faults.filter fun f => !(f.wid == tm.wid && mine.contains f.fid) }
      let s := mine.foldl (fun s f => s.dropParked c f tm.wid) s
      let s := s.leaveQueues tm.wid fun t u => hs.contains t && decide (tr.uid0 ≤ u)
      let s := s.modTeam c slot fun tm =>
        let tm := tr.prior.foldl (fun tm p => tm.modThread p.thr (p.restore (hs.contains p.thr))) tm
        let tm := tm.modHg tr.hhg fun hg =>
          { hg with idx := (List.range 4).foldl (fun x n => Tab.put 0 x n (BitVec.ofNat 12 (tr.winx.getD n 0))) [] }
        { tm with trap := none, held := [], colls := tr.colls }
      -- where the threads of the mask resume
      let past := BitVec.ofNat 57 (r.point.toNat + 12)
      let move (s : State) (pc : PC) : State := s.modTeam c slot fun tm =>
        r.mask.foldl (fun tm t => tm.modThread t fun th => if th.st == .exited then th else { th with pc := pc }) tm
      let s := match r.kind with
        | .word => if skip then move s past else s
        | .after => s
        | .checkpoint ps =>
            if skip then move (s.abandon c slot ps) past else s.setAside c ps false
        | .command => s
        | .parked _ => s
      let s := s.restoreGroups c slot tr.groups
      -- failures held are raised one at a time, in the order in which they occurred
      let s := match tm.held with
        | [] => s
        | h :: hs =>
            let s := s.raise c slot h tm.launched
            s.modTeam c slot fun tm => { tm with held := hs }
      match r.kind with
      | .parked f =>
          if skip then ((s.abandon c slot (f.uids.map fun u => u.2)).dropParked c f.fid tm.wid).file c slot
            ((f.mem.filter fun t => match s.team? c slot with
              | some tm => !tm.exited t
              | none => false).map fun t => (t, past))
          else replay s f
      | _ => s

end Sys2Proof.Machine
end

