-- ==== Sys2Proof/Machine/Operands.lean ====
section
/-! DEFINITION. Operand forms: effective registers, the bounds of decode step 7, reading a source and
writing a destination (01 R11, R12, R15, R17, R19, R20; 02 R31; 04 R82 to R84; 03 R57). -/

namespace Sys2Proof

/-- The effective index of a vector operand under index registers `xs` (R12). -/
def Opd.eff (o : Opd) (xs : List Nat) : Nat :=
  match o with
  | .vec n => n.toNat
  | .ind x b => b.toNat + xs.getD x.toNat 0
  | _ => 0

/-- The registers that an operand covers for thread `t`: `n` vector registers, or the one register it
names, with its successor where it names a pair of scalars; none for p0, which holds nothing (R14). -/
def Opd.regs (o : Opd) (xs : List Nat) (t n : Nat) (pairS : Bool) : List Machine.RegAt :=
  match o with
  | .vec _ | .ind _ _ => (List.range n).map fun k => .v t (o.eff xs + k)
  | .scl m => if pairS then [.s (Machine.hgOf t) m.toNat, .s (Machine.hgOf t) (m.toNat + 1)] else [.s (Machine.hgOf t) m.toNat]
  | .idx m => [.x (Machine.hgOf t) m.toNat]
  | .hnd m => [.h (Machine.hgOf t) m.toNat]
  | .prd m => if m.val = 0 then [] else [.p t m.val]
  | _ => []

end Sys2Proof

namespace Sys2Proof.Machine

/-- The index registers of a home group. -/
def Team.xs (tm : Team) (g : Nat) : List Nat :=
  [0, 1, 2, 3].map fun n => (tm.readReg (.x g n)).toNat

/-- The registers a word touches through one use, with the index register an indirect operand reads. -/
def touches (u : OpUse) (tm : Team) (t : Nat) : List RegAt :=
  (match u.o with
   | .ind x _ => [.x (hgOf t) x.toNat]
   | _ => []) ++ u.o.regs (tm.xs (hgOf t)) t u.n u.pairS

/-- Decode step 7: the operand is out of bounds (R11, R12, R15, R19, R20). `tiles` is the tile count
of the loaded configuration. -/
def outOfBounds (u : OpUse) (tm : Team) (xs : List Nat) (tiles : Option Nat) : Bool :=
  match u.o with
  | .vec n => decide (1536 ≤ n.toNat) || (u.n != 0 && decide (tm.regs < n.toNat + u.n))
  | .ind _ _ => let e := u.o.eff xs
                e % u.al != 0 || (u.n != 0 && decide (tm.regs < e + u.n))
  | .scl n => decide (tm.sregs ≤ n.toNat) || (u.pairS && decide (tm.sregs ≤ n.toNat + 1))
  | .rsv _ => true
  | .til n => match tiles with
              | some c => decide (c ≤ n.val)
              | none => false
  | _ => false

/-- `n` vector registers of a thread from index `e`, as one number (R11, R202). -/
def Team.vecAt (tm : Team) (t e : Nat) : Nat → Nat
  | 0 => 0
  | n + 1 => (tm.readReg (.v t e)).toNat + 2 ^ 32 * Team.vecAt tm t (e + 1) n

/-- The value of an operand for thread `t`: `n` vector registers, or a 64-bit value; a short immediate
sign-extended (R31, R82, R202). -/
def Team.valX (tm : Team) (xs : List Nat) (t : Nat) (o : Opd) (n : Nat) : Nat :=
  match o with
  | .vec _ | .ind _ _ => tm.vecAt t (o.eff xs) n
  | .scl m => (tm.readReg (.s (hgOf t) m.toNat)).toNat
  | .idx m => (tm.readReg (.x (hgOf t) m.toNat)).toNat
  | .hnd m => (tm.readReg (.h (hgOf t) m.toNat)).toNat
  | .prd m => (tm.readReg (.p t m.val)).toNat
  | .imm i => (i.signExtend 64).toNat
  | _ => 0

/-- The value of an operand under the home group's own index registers. -/
def Team.val (tm : Team) (t : Nat) (o : Opd) (n : Nat) : Nat := tm.valX (tm.xs (hgOf t)) t o n

/-- An operand read as `.n32`. -/
def Team.n32 (tm : Team) (t : Nat) (o : Opd) : Nat := tm.val t o 1 % 2 ^ 32
/-- An operand read as a 64-bit value: a vector pair or a scalar. -/
def Team.n64 (tm : Team) (t : Nat) (o : Opd) : Nat := tm.val t o 2 % 2 ^ 64
/-- A predicate operand. -/
def Team.pred (tm : Team) (t : Nat) (o : Opd) : Bool := tm.val t o 1 != 0

/-- Splits a number into the values of `n` vector registers. -/
def words : Nat → Nat → List DWord
  | 0, _ => []
  | n + 1, v => BitVec.ofNat 64 (v % 2 ^ 32) :: words n (v / 2 ^ 32)

/-- The writes of a value to a destination: a vector destination takes `n` registers of 32 bits, any
other the value whole. -/
def Team.destX (xs : List Nat) (t : Nat) (o : Opd) (n v : Nat) : List (RegAt × DWord) :=
  match o with
  | .vec _ | .ind _ _ => (o.regs xs t n false).zip (words n v)
  | o => (o.regs xs t n false).map fun r => (r, BitVec.ofNat 64 v)

/-- The writes of a value to a destination under the home group's own index registers. -/
def Team.dest (tm : Team) (t : Nat) (o : Opd) (n v : Nat) : List (RegAt × DWord) :=
  Team.destX (tm.xs (hgOf t)) t o n v

end Sys2Proof.Machine
end

