-- ==== Sys2Proof/Machine/TileConf.lean ====
section
/-! DEFINITION. The tile-configuration block: its fields, its validity, the element formats and the
extents of fragments (05 R119, R120, R122, R123), and which registers a word of the matrix engine
covers under the configuration in force (R125). -/

namespace Sys2Proof.Machine

/-- Operand element format: a float format, or INT8 or INT4 (R119). -/
inductive OpFmt where
  | fl (f : FType) | int8 | int4
  deriving DecidableEq, Repr

def OpFmt.ofCode : Nat → Option OpFmt
  | 1 => some (.fl .f16) | 2 => some (.fl .bf16) | 3 => some (.fl .e4m3) | 4 => some (.fl .e5m2)
  | 5 => some (.fl .e3m2) | 6 => some (.fl .e2m3) | 7 => some (.fl .e2m1) | 8 => some .int8
  | 9 => some .int4 | _ => none
def OpFmt.w : OpFmt → Nat
  | .fl f => FType.w f
  | .int8 => 8
  | .int4 => 4
/-- K per instruction (R119). -/
def OpFmt.k : OpFmt → Nat
  | .fl .f16 => 32 | .fl .bf16 => 32 | .fl .e2m1 => 128 | .int4 => 128 | _ => 64
def OpFmt.isInt : OpFmt → Bool
  | .fl _ => false
  | _ => true

/-- Output format of `mst` (R119). -/
inductive OutFmt where
  | fl (f : FType) | int (t : IType)
  deriving DecidableEq, Repr

def OutFmt.ofCode : Nat → Option OutFmt
  | 0 => some (.fl .f32) | 1 => some (.fl .f16) | 2 => some (.fl .bf16) | 3 => some (.fl .e4m3)
  | 4 => some (.fl .e5m2) | 5 => some (.fl .e3m2) | 6 => some (.fl .e2m3) | 7 => some (.fl .e2m1)
  | 8 => some (.int .i8) | 9 => some (.int .n8) | 10 => some (.int .i16) | 11 => some (.int .i32)
  | _ => none
def OutFmt.w : OutFmt → Nat
  | .fl f => FType.w f
  | .int t => t.w

/-- A validated configuration (R119). -/
structure TileCfg where
  m : Nat
  n : Nat
  a : OpFmt
  b : OpFmt
  accInt : Bool
  scmode : Bool
  groups : Nat
  epi : Nat
  out : OutFmt
  rnd : Rnd
  scoff : Nat
  bioff : Nat
  mxsoff : Nat
  gtoff : Nat
  deriving DecidableEq, Repr

/-- A little-endian field of a block of bytes. -/
def fieldLe (bs : List Byte) (off n : Nat) : Nat := leNat ((bs.drop off).take n)

/-- Microscaled formats: codes 3 to 7 (R120). -/
def OpFmt.isMx : OpFmt → Bool
  | .fl .f16 => false
  | .fl .bf16 => false
  | .fl _ => true
  | _ => false
def OutFmt.isMx : OutFmt → Bool
  | .fl .f32 => false
  | .fl .f16 => false
  | .fl .bf16 => false
  | .fl _ => true
  | _ => false

/-- The configuration in a block of 64 bytes; none where R120 rejects it. -/
def TileCfg.ofBytes (bs : List Byte) : Option TileCfg :=
  let b (i : Nat) : Nat := fieldLe bs i 1
  match OpFmt.ofCode (b 2), OpFmt.ofCode (b 3), OutFmt.ofCode (b 8), (if b 9 < 8 then Rnd.ofCode (BitVec.ofNat 3 (b 9)) else none) with
  | some fa, some fb, some fo, some r =>
      let n := 16 * (b 1 + 1)
      let c : TileCfg :=
        { m := 16 * (b 0 + 1), n := n, a := fa, b := fb, accInt := b 4 == 1, scmode := b 5 == 1,
          groups := b 6, epi := b 7, out := fo, rnd := r, scoff := fieldLe bs 16 4, bioff := fieldLe bs 20 4,
          mxsoff := fieldLe bs 24 4, gtoff := fieldLe bs 28 4 }
      let ok := b 0 < 16 && b 1 < 16 && b 4 ≤ 1 && b 5 ≤ 1 && b 6 ≤ 64 && b 7 < 64
        && fieldLe bs 10 6 == 0 && fieldLe bs 32 32 == 0
        && fa.k == fb.k && fa.isInt == fb.isInt && c.accInt == fa.isInt
        && (!c.scmode || (fa.isMx && fb.isMx))
        && (!(b 7).testBit 5 || (fo.isMx && n % 32 == 0))
        && c.scoff % 4 == 0 && c.bioff % 4 == 0 && c.gtoff % 4 == 0
      if ok then some c else none
  | _, _, _, _ => none

/-- The loaded configuration (R114). -/
def Engine.conf (e : Engine) : Option TileCfg := e.cfg.bind TileCfg.ofBytes

/-- Number of tiles (R19). -/
def TileCfg.count (c : TileCfg) : Nat := min (Config.accBytes / (c.m * c.n * 4)) 48

/-- Ceil(x ÷ 32). -/
def stripes (x : Nat) : Nat := (x + 31) / 32
/-- Registers per stripe (R122). -/
def OpFmt.rk (f : OpFmt) : Nat := f.k * f.w / 32
def TileCfg.sa (c : TileCfg) : Nat := stripes c.m
def TileCfg.sb (c : TileCfg) : Nat := stripes c.n
/-- Fragment sizes (R122). -/
def TileCfg.fa (c : TileCfg) : Nat := c.sa * c.a.rk
def TileCfg.fb (c : TileCfg) : Nat := c.sb * c.b.rk

/-- A use whose extent is `n` registers where a configuration is loaded, else its base only (R125). -/
def OpUse.extent (u : OpUse) (cfg : Option TileCfg) (f : TileCfg → Nat) : OpUse :=
  match cfg with
  | some c => { u with n := f c }
  | none => u

/-- The operand fields of an instruction, fragments with the extent the configuration gives them. -/
def usesUnder (cfg : Option TileCfg) (i : Instr) : List OpUse :=
  match i with
  | .mma _ d a b => [.dstk d [.t], OpUse.extent (.src a [.v]) cfg TileCfg.fa,
                     OpUse.extent (.src b [.v]) cfg TileCfg.fb]
  | .mmas _ d a b x => [.dstk d [.t], OpUse.extent (.src a [.v]) cfg TileCfg.fa,
                        OpUse.extent (.src b [.v]) cfg TileCfg.fb,
                        OpUse.extent (.src x [.v]) cfg fun c => c.sa + c.sb]
  | .mmag _ d a b x => [.dstk d [.t], OpUse.extent (.src a [.v]) cfg TileCfg.fa,
                        OpUse.extent (.src b [.v]) cfg fun c => c.groups * c.fb]
      ++ OpUse.opt (fun x => OpUse.extent (.src x [.v]) cfg fun c => c.sa + c.groups * c.sb) x
  | i => i.uses

end Sys2Proof.Machine
end

