-- ==== Sys2Proof/Machine/Issue.lean ====
section
/-! DEFINITION. Issuing a word: fetch, holds, the order of checks, the effect and what follows it
(02 R28, R37 to R41, R45; 06 R149 to R154; 16 R355). -/

namespace Sys2Proof.Machine

/-! ## What the issue of a word needs to know -/

/-- The issue of one word: core, team slot, issue group, PC, members, the members whose guard is
true, the team as the word finds it, and whether the context is privileged. -/
structure Iss where
  core : Nat
  slot : Nat
  gid : Nat
  pc : PC
  mem : List Nat
  ts : List Nat
  tm : Team
  priv : Bool
  now : Nat
  share : Option Nat
  /-- the pipe lanes of the members in the issue group (06 R148) -/
  lanes : Tab Nat
  deriving DecidableEq, Repr

/-- The home groups that have a thread with a true guard, in order. -/
def Iss.hgs (w : Iss) : List Nat := sortNat (w.ts.map hgOf)
/-- A home group's lowest thread with a true guard. -/
def Iss.lead (w : Iss) (g : Nat) : Nat := ((sortNat w.ts).find? fun t => hgOf t == g).getD (32 * g)
/-- A home group's threads with a true guard, in order. -/
def Iss.of (w : Iss) (g : Nat) : List Nat := (sortNat w.ts).filter fun t => hgOf t == g
def Iss.die (w : Iss) : Nat := w.core / 96
def Iss.tref (w : Iss) : TRef := { core := w.core, slot := w.slot, wid := w.tm.wid }

/-- What a word did: the new state; results that are outstanding, by thread and name; threads that
do not continue at PC + 12; threads that keep the word as their next; whether the group dissolves. -/
structure Done where
  s : State
  owes : List (Nat × Nat) := []
  jump : List (Nat × PC) := []
  stay : List Nat := []
  diss : Bool := false

/-- How an issue attempt ends: the word's effect, an entry fault (cause, code, threads that fail,
their addresses), or a hold of the fourth row of R151, with what holds each thread, after which the word is
tried again. -/
inductive Res where
  | done (d : Done)
  | trap (cause : Cause) (code : Nat) (mask : List Nat) (addrs : Tab Nat)
  | hold (on : Nat → List HoldOn)
  /-- the trap of a word that resumes at PC + 12 (R164) -/
  | softTrap (cause : Cause) (code : Nat)
  /-- an earlier access trapped while the word was tried: the word does not issue -/
  | cut (s : State)
  /-- an entry fault found after the state moved on (earlier accesses were performed) -/
  | trapIn (s : State) (cause : Cause) (mask : List Nat) (addrs : Tab Nat)

/-! ## Traps of a word (16 R355, R359) -/

/-- A word traps: outside a trap its team begins to halt, in a skid its threads stop, in a handler the
trap is fatal. -/
def State.wordTrap (s : State) (w : Iss) (cause : Cause) (code : Nat) (mask : List Nat) (addrs : Tab Nat)
    (kind : TrapKind) : State :=
  let r : TrapReq := { cause := cause, code := code, point := w.pc, mask := sortNat mask, addrs := addrs,
                       kind := kind, hg := match sortNat mask with
                         | t :: _ => hgOf t
                         | [] => 0 }
  match s.team? w.core w.slot with
  | none => s
  | some tm =>
      match tm.trap with
      | none => s.raise w.core w.slot r w.mem
      | some tr =>
          if tr.halted then s.fatal w.core w.slot r true
          else s.modTeam w.core w.slot fun tm =>
            { tm with trap := some { tr with stopped := sortNat (tr.stopped ++ w.mem) } }

/-! ## After the word (02 R39 to R41; 06 R152; 16 R355) -/

/-- One member after the word: its next PC, its stall, its post. -/
def Thread.after (th : Thread) (pc : PC) (notBefore lane : Nat) (ctr uid : Nat) (done : Bool) : Thread :=
  let th := th.post ctr uid done
  { th with pc := pc, notBefore := notBefore, lane := lane }

/-- The PC that follows the word. -/
def Iss.next (w : Iss) : PC := BitVec.ofNat 57 (w.pc.toNat + 12)

/-- The last value listed for a thread. -/
def lookupT {α : Type} (l : List (Nat × α)) (t : Nat) : Option α := (l.find? fun e => e.1 == t).map fun e => e.2

/-- What follows the word's effect for its members and its group. -/
def State.finish (w : Iss) (ht : Hints) (d : Done) : State :=
  let s := d.s
  let go := w.mem.filter fun t => !d.stay.contains t
  let upd (tm : Team) (t : Nat) : Team := tm.modThread t fun th =>
    let owed := lookupT d.owes t
    th.after ((lookupT d.jump t).getD w.next) (w.now + ht.stall.toNat + 1) (Tab.getD w.lanes t th.lane)
      ht.post.toNat (owed.getD 0) owed.isNone
  let s := s.modTeam w.core w.slot fun tm =>
    let tm := go.foldl upd tm
    match tm.trap with
    | some tr =>
        if tr.halted || decide (w.now ≤ tr.cyc) then tm
        else { tm with trap := some { tr with skids := go.foldl (fun k t => Tab.set k t (Tab.getD k t 0 + 1)) tr.skids } }
    | none => tm
  let pcs := match s.team? w.core w.slot with
    | some tm => (go.filterMap fun t => match Tab.get? tm.threads t with
        | some th => if th.st == .active w.gid then some th.pc.toNat else none
        | none => none)
    | none => []
  let npc := match pcs with
    | p :: _ => BitVec.ofNat 57 p
    | [] => w.next
  let split := match pcs with
    | [] => false
    | p :: ps => ps.any fun q => q != p
  s.modCore w.core fun k =>
    { k with issued := if go.isEmpty then k.issued else k.issued ++ [(w.gid, w.pc, w.share)]
             groups := k.groups.map fun g =>
               if g.gid = w.gid then
                 { g with pc := npc, heldAt := none, missed := false, ends := g.ends || d.diss || ht.yld || split }
               else g }

/-- An attempt found the word held: its group is not tried again in this cycle, and the slot is offered to the next
group (R149). -/
def State.passOver (s : State) (c gid : Nat) (share : Option Nat) : State :=
  let s := s.modCore c fun k => { k with tried := k.tried ++ [gid] }
  if share.isNone then { s with agenda := .issue c :: s.agenda } else s

/-- A hold of the fourth row of R151. Once it has lasted 8 cycles (counted as log 25 says) the threads that it holds
wait until it is over for them, and the group leaves the active set at the end of the cycle. -/
def State.holdWord (s : State) (w : Iss) (on : Nat → List HoldOn) : State :=
  let s := s.passOver w.core w.gid w.share
  match (s.core w.core).groups.find? fun g => g.gid == w.gid with
  | none => s
  | some g =>
      let at' (a : Nat) (e : Bool) (s : State) : State := s.modCore w.core fun k =>
        { k with groups := k.groups.map fun h => if h.gid = w.gid then { h with heldAt := some a, ends := e } else h }
      match g.heldAt with
      | none => at' w.now g.ends s
      | some h =>
          if w.now < h + 8 then s
          else
            (w.ts.filter fun t => !(on t).isEmpty).foldl (fun s t => s.setState w.core w.slot [t] (.waiting (.heldOn (on t))))
              (at' h true s)

/-! ## The order of checks (02 R45) -/

/-- The registers of one half of a pair word for a thread that its guard admits (R36). -/
def Half.touches (h : Half) (t : Nat) : List RegAt :=
  (h.d :: h.reads).map fun r => .v t r.toNat

/-- A half's guard (R33, R36). -/
def Team.halfGuard (tm : Team) (h : Half) (t : Nat) : Bool :=
  (tm.readReg (.p t h.p.toNat) != 0) != h.neg

/-- Whether a thread takes part in a word: its guard, or for a pair word either half's (R36, R37). -/
def admits (i : Instr) (g : Guard) (tm : Team) (t : Nat) : Bool :=
  match i with
  | .pairWord _ _ _ p q => tm.halfGuard p t || tm.halfGuard q t
  | _ => tm.guard g t

/-- Threads of the word that a half's own guard admits (R36). -/
def Iss.half (w : Iss) (h : Half) : List Nat := w.ts.filter fun t => w.tm.halfGuard h t

/-- A half names a register beyond the allotment (R35, R12). -/
def Half.out (h : Half) (regs : Nat) : Bool := (h.d :: h.reads).any fun r => decide (regs ≤ r.toNat)

/-- Threads that fail decode step 7 for some operand; a pair word per half (R35). -/
def Iss.oob (w : Iss) (i : Instr) (us : List OpUse) (tiles : Option Nat) : List Nat :=
  match i with
  | .pairWord _ _ _ p q => (if Half.out p w.tm.regs then w.half p else []) ++ if Half.out q w.tm.regs then w.half q else []
  | _ => w.ts.filter fun t => us.any fun u => outOfBounds u w.tm (w.tm.xs (hgOf t)) tiles

/-- A word of class 8 other than `macq` and `mrel`: what its source registers hold matters only after the faults of
its entry that R125 puts first, and is tested there. -/
def ofEngine : Instr → Bool
  | .tcfg .. | .mma .. | .mmas .. | .mmag .. | .mld .. | .mst .. | .mrd .. | .mwr .. => true
  | _ => false

/-- The registers a word reads for a thread before the faults of its entry: guards, the index register of an indirect
operand, and sources. A half of a pair word reads its sources where its guard is true (R36). -/
def readsOf (tm : Team) (g : Guard) (i : Instr) (us : List OpUse) (t : Nat) : List RegAt :=
  let half (h : Half) : List RegAt := if tm.halfGuard h t then h.reads.map fun r => .v t r.toNat else []
  let index (u : OpUse) : List RegAt := match u.o with
    | .ind x _ => [.x (hgOf t) x.toNat]
    | _ => []
  match i with
  | .pairWord _ _ _ p q => [.p t p.p.toNat, .p t q.p.toNat] ++ half p ++ half q
  | _ => .p t g.p.val :: us.flatMap fun u => index u ++ if u.dst || ofEngine i then [] else touches u tm t

/-- Threads that read a register whose data cannot be corrected (20 R407). -/
def Iss.badRegs (w : Iss) (g : Guard) (i : Instr) (us : List OpUse) : List Nat :=
  if w.tm.rpoison.isEmpty then []
  else w.ts.filter fun t => (readsOf w.tm g i us t).any fun r => w.tm.rpoison.contains r

/-- Members that would continue at PC + 12, which lies outside the address space (R28). -/
def Iss.past (w : Iss) (falls : List Nat) : List Nat :=
  if 2 ^ 57 ≤ w.pc.toNat + 12 then falls else []

/-- The issue of the current word by its issue group, `adm` telling which members take part. -/
def State.issBy (s : State) (adm : Team → Nat → Bool) : Option Iss :=
  match s.cur with
  | none => none
  | some cu =>
      match s.team? cu.core cu.slot with
      | none => none
      | some tm =>
          let priv := match s.ctx? tm.ctx with
            | some x => x.priv
            | none => false
          some { core := cu.core, slot := cu.slot, gid := cu.gid, pc := cu.pc, mem := cu.mem,
                 ts := cu.mem.filter fun t => adm tm t, tm := tm, priv := priv, now := (s.core cu.core).now,
                 share := cu.share
                 lanes := match (s.core cu.core).groups.find? fun g => g.gid == cu.gid with
                   | some g => g.lanes
                   | none => [] }

/-- The issue of a word under one guard. -/
def State.iss (s : State) (g : Guard) : Option Iss := s.issBy fun tm t => tm.guard g t

/-- Ends an issue attempt. -/
def State.conclude (s : State) (w : Iss) (ht : Hints) (r : Res) : State :=
  match r with
  | .done d => State.finish w ht d
  | .trap c code mask addrs => s.wordTrap w c code mask addrs .word
  | .hold on => s.holdWord w on
  | .softTrap c code =>
      let s := match (s.team? w.core w.slot).bind fun tm => tm.trap with
        | none => s.modTeam w.core w.slot fun tm =>
            w.mem.foldl (fun tm t => tm.modThread t fun th => { th with pc := w.next }) tm
        | some _ => s
      let s := s.modCore w.core fun k =>
        { k with groups := k.groups.map fun g => if g.gid = w.gid then { g with pc := w.next } else g }
      s.wordTrap w c code w.ts [] .after
  | .cut s => s
  | .trapIn s c mask addrs => s.wordTrap w c 0 mask addrs .word

/-- Runs a word for its issue group: with no true guard it only passes (R14); otherwise the bounds of
step 7, the next PC of R28, and the entry's own checks and effect. -/
def runWord (i : Instr) (h : Hdr) (falls : Iss → List Nat) (body : Iss → State → Res) (s : State) :
    Host.Outcome State Fault Refusal :=
  match s.issBy (admits i h.g) with
  | none => .fault .noIssuer
  | some w =>
      if w.ts.isEmpty then
        match w.past w.mem with
        | [] => .next (State.finish w h.ht { s := s })
        | bad => .next (s.wordTrap w .prot 0 bad [] .word)
      else
        let eng := (s.core w.core).eng.conf
        match w.oob i (usesUnder eng i) (eng.map TileCfg.count) with
        | [] =>
            match w.past (falls w), w.badRegs h.g i (usesUnder eng i) with
            | [], [] => .next (s.conclude w h.ht (body w s))
            | [], bad => .next (s.wordTrap w .poison 0 bad [] .word)
            | bad, _ => .next (s.wordTrap w .prot 0 bad [] .word)
        | bad => .next (s.wordTrap w .opbound 0 bad [] .word)

/-- Every member continues at PC + 12. -/
def allFall (w : Iss) : List Nat := w.mem

/-! ## Results (02 R39, R40) -/

/-- Writes the results of a fixed-latency producer: in the registers at once, usable after `lat`
cycles; a post falls then. -/
def State.fixedWrite (s : State) (w : Iss) (lat post : Nat) (wr : List (RegAt × DWord)) : Done :=
  let due := w.now + lat
  let s := s.writeRegs w.core w.slot wr
  let s := s.modCore w.core fun k => { k with ready := k.ready ++ wr.map fun e => (w.slot, e.1, due) }
  if post = 0 then { s := s }
  else
    let (u, s) := s.newUid
    let p : Pend := { uid := u, ins := u, slot := w.slot, hg := (w.hgs.headD 0), regs := [],
                      src := .vals [] (some due), issuedAt := w.now, missed := false, urgent := false, aside := false }
    { s := s.modCore w.core fun k => { k with pends := k.pends ++ [p] }, owes := w.ts.map fun t => (t, u) }

/-- Records a result that a variable-latency producer writes later. -/
def State.laterWrite (s : State) (w : Iss) (ts : List Nat) (wr : List (RegAt × DWord)) : Done :=
  let (u, s) := s.newUid
  let p : Pend := { uid := u, ins := u, slot := w.slot, hg := (w.hgs.headD 0), regs := wr.map fun e => e.1,
                    src := .vals wr none, issuedAt := w.now, missed := false, urgent := false, aside := false }
  { s := s.modCore w.core fun k => { k with pends := k.pends ++ [p] }, owes := ts.map fun t => (t, u) }

/-- A per-thread computation that may raise a trap in some threads: its writes, or the threads that
fail. -/
def perThread (w : Iss) (f : Nat → Except Cause (List (RegAt × DWord))) :
    Except (Cause × List Nat) (List (RegAt × DWord)) :=
  let rs := w.ts.map fun t => (t, f t)
  let bad := rs.filterMap fun r => match r.2 with
    | .error c => some (r.1, c)
    | .ok _ => none
  match bad with
  | (_, c) :: _ => .error (c, bad.map fun b => b.1)
  | [] => .ok (rs.flatMap fun r => match r.2 with
      | .ok l => l
      | .error _ => [])

/-- A fixed-latency word of classes 0, 1 and 3: each thread with a true guard computes its writes. -/
def fixedWord (i : Instr) (h : Hdr) (lat : Nat) (f : Iss → Nat → Except Cause (List (RegAt × DWord))) (s : State) :
    Host.Outcome State Fault Refusal :=
  runWord i h allFall (fun w s => match perThread w (f w) with
    | .error (c, bad) => .trap c 0 bad []
    | .ok wr => .done (s.fixedWrite w lat h.ht.post.toNat wr)) s

/-- A variable-latency word of classes 0 and 1. -/
def laterWord (i : Instr) (h : Hdr) (f : Iss → Nat → Except Cause (List (RegAt × DWord))) (s : State) :
    Host.Outcome State Fault Refusal :=
  runWord i h allFall (fun w s => match perThread w (f w) with
    | .error (c, bad) => .trap c 0 bad []
    | .ok wr => .done (s.laterWrite w w.ts wr)) s

/-- The writes of a per-home-group computation: for each home group with a thread whose guard is true,
from its lowest such thread (R16). -/
def perHg (w : Iss) (f : Nat → Nat → Except Cause (List (RegAt × DWord))) :
    Except (Cause × List Nat) (List (RegAt × DWord)) :=
  let rs := w.hgs.map fun g => (g, f g (w.lead g))
  let bad := rs.filterMap fun r => match r.2 with
    | .error c => some (r.1, c)
    | .ok _ => none
  match bad with
  | (_, c) :: _ => .error (c, bad.flatMap fun b => w.of b.1)
  | [] => .ok (rs.flatMap fun r => match r.2 with
      | .ok l => l
      | .error _ => [])

/-- A fixed-latency word of class 2, once for each home group. -/
def fixedHg (i : Instr) (h : Hdr) (lat : Nat) (f : Iss → Nat → Nat → Except Cause (List (RegAt × DWord)))
    (s : State) : Host.Outcome State Fault Refusal :=
  runWord i h allFall (fun w s => match perHg w (f w) with
    | .error (c, bad) => .trap c 0 bad []
    | .ok wr => .done (s.fixedWrite w lat h.ht.post.toNat wr)) s

/-- A variable-latency word, once for each home group. -/
def laterHg (i : Instr) (h : Hdr) (f : Iss → Nat → Nat → Except Cause (List (RegAt × DWord))) (s : State) :
    Host.Outcome State Fault Refusal :=
  runWord i h allFall (fun w s => match perHg w (f w) with
    | .error (c, bad) => .trap c 0 bad []
    | .ok wr => .done (s.laterWrite w w.ts wr)) s

/-- The word has a long-latency dependence for some threads: they wait at the word, which has taken effect for them
and stays their next word until the wait ends; every other member is filed for the word, which has no effect for it
(R151). -/
def State.waitAt (s : State) (w : Iss) (ts : List (Nat × WaitCond)) (owes : List (Nat × Nat)) : Done :=
  let s := ts.foldl (fun s e => s.setState w.core w.slot [e.1] (.waiting e.2)) s
  { s := s, owes := owes, jump := ts.map (fun e => (e.1, w.pc)), stay := w.mem.filter (fun t => !ts.any fun e => e.1 == t),
    diss := true }

/-- Threads wait to issue the word again: nothing of it has taken effect. -/
def State.waitBefore (s : State) (w : Iss) (ts : List Nat) (c : WaitCond) : Done :=
  { s := s.setState w.core w.slot ts (.waiting c), stay := w.mem, diss := true }

end Sys2Proof.Machine
end

