-- ==== Sys2Proof/Machine/Flags.lean ====
section
/-! DEFINITION. Conditions: the compares of R91 and when an operation raises `ARITH` (03 R66, R68). The
machine keeps no flag register: a compare writes a predicate, and `ARITH` is a trap under the launch
flag `ATRAP`. -/

namespace Sys2Proof.Machine

/-- An integer compare (R91). -/
def icmp (cc : Cond) (a b : Int) : Bool :=
  match cc with
  | .eq => a == b
  | .ne => a != b
  | .lt => a < b
  | .le => a ≤ b
  | .gt => b < a
  | .ge => b ≤ a
  | .ord => false
  | .uno => false

/-- A float compare (R66, R91): any comparison with a NaN is unordered; −0 equals +0. -/
def fcmp (cc : Cond) (a b : FVal) : Bool :=
  let un := a.isNaN || b.isNaN
  let c := FVal.cmp a b
  match cc with
  | .eq => !un && c == 0
  | .ne => un || c != 0
  | .lt => !un && c < 0
  | .le => !un && c ≤ 0
  | .gt => !un && 0 < c
  | .ge => !un && 0 ≤ c
  | .ord => !un
  | .uno => un

/-- An invalid float operation (R66, R68): a NaN from operands none of which is NaN. -/
def invalidOp (ops : List FVal) (r : FVal) : Bool := r.isNaN && ops.all fun x => !x.isNaN

/-- The trap of a computation that is invalid, under `ATRAP` (R68); otherwise its result. -/
def arith (atrap bad : Bool) (r : List (RegAt × DWord)) : Except Cause (List (RegAt × DWord)) :=
  if atrap && bad then .error .arith else .ok r

/-- Whether a conversion without `.sat` to a format that has no NaN has a NaN source (R68). -/
def noNaNTarget (f : FType) (sat : Bool) (x : FVal) : Bool :=
  !sat && x.isNaN && (f == .e3m2 || f == .e2m3 || f == .e2m1)

end Sys2Proof.Machine
end

