-- ==== Sys2Proof/Machine/Trans.lean ====
section
/-! DEFINITION. The functions of class 1 ops 0x20 to 0x2B as numbers, and the bound that R77 sets on a result
that no table fixes (03 R77 to R79; log 5). A number is held as an integer in units of 2^-512. -/

namespace Sys2Proof.Machine

/-- Units of 2^-512. -/
def fxOne : Int := 2 ^ 512
def fxMul (a b : Int) : Int := (a * b).fdiv fxOne
def fxDiv (a b : Int) : Int := (a * fxOne).fdiv b
/-- A finite value. -/
def fxOf (x : FVal) : Int :=
  match x with
  | .fin s p d e =>
      let k := e + 512
      let n : Int := if 0 ≤ k then ((p * 2 ^ k.toNat / d : Nat) : Int) else ((p / (d * 2 ^ (-k).toNat) : Nat) : Int)
      if s then -n else n
  | _ => 0
/-- The value of a number of units. -/
def fxVal (v : Int) : FVal := .fin (v < 0) v.natAbs 1 (-512)

/-- ln 2, 1/√(2π) in units of 2^-512, and π in units of 2^-704. -/
def fxLn2 : Int := 0xb17217f7d1cf79abc9e3b39803f2f6af40f343267298b62d8a0d175b8baafa2be7b876206debac98559552fb4afa1b10ed2eae35c138214427573b291169b825
def fxGauss : Int := 0x662114cf50d942343f2cf1402eae38bfd3829f30512706d8c0471b4802639d2e9df8ac55447d3db723f5d3abb374e88deb14277970be1513278e993445f08cff
def fxPi704 : Int := 0x3243f6a8885a308d313198a2e03707344a4093822299f31d0082efa98ec4e6c89452821e638d01377be5466cf34e90c6cc0ac29b7c97c50dd3f84d5b5b54709179216d5d98979fb1bd1310ba698dfb5ac2ffd72dbd01adfb7

/-- The sum of terms of which each follows from the one before: n more terms, the next of index k. -/
def fxSeries (next : Int → Nat → Int) : Nat → Nat → Int → Int
  | 0, _, t => t
  | n + 1, k, t => t + fxSeries next n (k + 1) (next t k)

/-- Squares a number n times. -/
def fxSquares : Nat → Int → Int
  | 0, v => v
  | n + 1, v => fxSquares n (fxMul v v)

/-- e^x, for x of at most 250 in magnitude: the Taylor series at x ÷ 512, squared nine times. -/
def fxExp (x : Int) : Int :=
  fxSquares 9 (fxSeries (fun t k => (fxMul t (x.fdiv 512)).fdiv k) 80 1 fxOne)

/-- The natural logarithm of m in [1, 2): 2 atanh((m − 1) ÷ (m + 1)). -/
def fxLnM (m : Int) : Int :=
  let z := fxDiv (m - fxOne) (m + fxOne)
  let zz := fxMul z z
  let rec go (n k : Nat) (t : Int) : Int :=
    match n with
    | 0 => 0
    | n + 1 => t.fdiv (2 * k + 1) + go n (k + 1) (fxMul t zz)
  2 * go 170 0 z

/-- log2 of a positive p ÷ d × 2^e. -/
def fxLog2 (p d : Nat) (e : Int) : Int :=
  let n := floorLog2 p d e
  fxOne * n + fxDiv (fxLnM (fxOf (.fin false p d (e - n)))) fxLn2

/-- An angle brought into [0, 2π). -/
def fxTurn (x : Int) : Int := ((x * 2 ^ 192).fmod (2 * fxPi704)).fdiv (2 ^ 192)

/-- Sine and cosine by their series at an angle of at most 2π. -/
def fxSin (x : Int) : Int :=
  let r := fxTurn x
  let rr := fxMul r r
  fxSeries (fun t k => -((fxMul t rr).fdiv (2 * k * (2 * k + 1)))) 90 1 r
def fxCos (x : Int) : Int :=
  let r := fxTurn x
  let rr := fxMul r r
  fxSeries (fun t k => -((fxMul t rr).fdiv ((2 * k - 1) * (2 * k)))) 90 1 fxOne

/-- The standard normal distribution function, for x of at most 16 in magnitude. -/
def fxPhi (x : Int) : Int :=
  let xx := fxMul x x
  fxOne.fdiv 2 + fxSeries (fun t k => (fxMul t xx).fdiv (2 * k + 1)) 900 1
    (fxMul (fxMul fxGauss (fxExp (-(xx.fdiv 2)))) x)

/-- 1/(1 + e^−x). Far out the value is nearer to 1 or to 0 than a unit, and never 1 or 0 itself. -/
def fxSigm (x : Int) : Int :=
  if 200 * fxOne < x then fxOne - 1
  else if x < -200 * fxOne then 1
  else fxDiv fxOne (fxOne + fxExp (-x))

/-- The function of an op less 0x20 (R77) at finite operands for which R78 gives nothing, in units of 2^-512. Where
the value lies nearer than a unit to a number that it never reaches, the result is the next unit on its side, so
that R77's exponent of the exact result is the right one. -/
def fxFn (fn : Nat) (x y : FVal) : Int :=
  let v := fxOf x
  match fn with
  | 0 => fxOf (FVal.div (.fin false 1 1 0) x)
  | 1 => match x with
      | .fin _ p d e => let k := e + 512
                        (isqrt (2 ^ 1536 * d / (if 0 ≤ k then p * 2 ^ k.toNat else p / 2 ^ (-k).toNat)) : Nat)
      | _ => 0
  | 2 => (isqrt (v.natAbs * 2 ^ 512) : Nat)
  | 3 => fxOf (FVal.div x y)
  | 4 => if v < -200 * fxOne then 1
         else if v ≤ 200 * fxOne ∧ v.fmod fxOne = 0 then 2 ^ (512 + v.fdiv fxOne).toNat
         else fxExp (fxMul (min v (200 * fxOne)) fxLn2)
  | 5 => match x with
      | .fin _ p d e => fxLog2 p d e
      | _ => 0
  | 6 => fxSin v
  | 7 => fxCos v
  | 8 => if 100 * fxOne < v then fxOne - 1
         else if v < -100 * fxOne then 1 - fxOne
         else let q := fxExp (2 * v)
              fxDiv (q - fxOne) (q + fxOne)
  | 9 => fxSigm v
  | 10 => if 16 * fxOne < v then v - 1 else if v < -16 * fxOne then -1 else fxMul v (fxPhi v)
  | _ => fxMul v (fxSigm v)

/-- An ulp of an exact result in a format (R77), in units of 2^-512. -/
def fxUlp (t : FType) (v : Int) : Int :=
  let e := if v = 0 then FType.emin t else max (floorLog2 v.natAbs 1 (-512)) (FType.emin t)
  2 ^ (512 + e - FType.mbits t).toNat

/-- The bound of R77 on the distance from the exact result `v` at operand `x`. -/
def transBound (fn : Nat) (t : FType) (fast : Bool) (x v : Int) : Int :=
  let u := fxUlp t v
  let ax : Int := x.natAbs
  if t = .f32 then
    if fast then
      match fn with
      | 5 => if fxOne.fdiv 2 ≤ x ∧ x ≤ 2 * fxOne then 2 ^ 491 else 2 * u
      | 6 | 7 => 2 ^ 492 + ax.fdiv (2 ^ 46)
      | 8 | 9 => 2 ^ 492
      | 10 | 11 => max (2 ^ 492) (ax.fdiv (2 ^ 20))
      | _ => 2 * u
    else
      match fn with
      | 8 | 9 | 10 | 11 => 2 * u
      | _ => u
  else if fast then 2 * u else u

/-- A subnormal pattern becomes the zero of its sign (R67). -/
def flushSub (t : FType) (n : Nat) : Nat :=
  let (s, e, m) := FType.fields t n
  if e = 0 && m != 0 then FType.encode t s 0 (FType.emin t - FType.mbits t) else n

/-- A finite pattern lies within the bound of R77, and is one that the grade can write: the fast grade writes no
subnormal number (R67). -/
def transWithin (fn : Nat) (t : FType) (fast : Bool) (x v : Int) (n : Nat) : Bool :=
  match FType.decode t n with
  | .fin s p d e =>
      let c := fxOf (.fin s p d e)
      decide (((c - v).natAbs : Int) ≤ transBound fn t fast x v) && !(fast && flushSub t n != n)
  | _ => false

/-- The result that R77 bounds and does not fix: the device's own value where it lies within the bound, which it
always does on the hardware; else the exact result rounded. At the fast grade R67 replaces a result that
`RoundFloat` makes subnormal by the zero of its sign: DEDUCED (log 5) that this is `RoundFloat` of the exact result;
and where that is no subnormal number the device picks none either. -/
def transPick (fn : Nat) (t : FType) (fast : Bool) (r : Rnd) (sat : Bool) (x y : FVal) (n : Nat) : Nat :=
  let v := fxFn fn x y
  let e := roundFloat (if v = 0 then .zero x.sign else fxVal v) t r sat
  if fast && flushSub t e != e then flushSub t e
  else if transWithin fn t fast (fxOf x) v n then n else e

end Sys2Proof.Machine
end

