-- ==== Sys2Proof/Machine/Arith.lean ====
section
/-! DEFINITION. What the integer and float operations compute from operand patterns, shared by the vector,
scalar and pair forms (04 R84 to R108). -/

namespace Sys2Proof.Machine

/-! ## Integers (R84 to R93): from w-bit patterns to a w-bit pattern -/

/-- The pattern of an exact result after `Fit`. -/
def fitBits (t : IType) (sat : Bool) (v : Int) : Nat := intBits t.w (fit v t sat)

def iadd (t : IType) (sat : Bool) (a b : Nat) : Nat := fitBits t sat (IType.val t a + IType.val t b)
def isub (t : IType) (sat : Bool) (a b : Nat) : Nat := fitBits t sat (IType.val t a - IType.val t b)
def imul (t : IType) (sat : Bool) (a b : Nat) : Nat := fitBits t sat (IType.val t a * IType.val t b)
/-- The high w bits of the exact product. -/
def imulh (t : IType) (a b : Nat) : Nat := intBits t.w ((IType.val t a * IType.val t b).fdiv (2 ^ t.w))
def imad (t : IType) (sat : Bool) (a b c : Nat) : Nat :=
  fitBits t sat (IType.val t a * IType.val t b + IType.val t c)
/-- The type of twice the width (R86). -/
def wideType : IType → IType
  | .i16 => .i32 | .n16 => .n32 | .i32 => .i64 | .n32 => .n64 | t => t
def imadw (t : IType) (sat : Bool) (a b c : Nat) : Nat :=
  fitBits (wideType t) sat (IType.val t a * IType.val t b + IType.val (wideType t) c)
/-- Division (R87): quotient, or remainder under `rem`. -/
def idiv (t : IType) (sat rem : Bool) (a b : Nat) : Nat :=
  let x := IType.val t a
  let y := IType.val t b
  if y = 0 then (if rem then intBits t.w x else 2 ^ t.w - 1)
  else if rem then intBits t.w (x.tmod y)
  else fitBits t sat (x.tdiv y)
def imin (t : IType) (a b : Nat) : Nat := if IType.val t b < IType.val t a then b % 2 ^ t.w else a % 2 ^ t.w
def imax (t : IType) (a b : Nat) : Nat := if IType.val t a < IType.val t b then b % 2 ^ t.w else a % 2 ^ t.w
def iabs (t : IType) (sat : Bool) (a : Nat) : Nat := fitBits t sat (IType.val t a).natAbs
def ineg (t : IType) (sat : Bool) (a : Nat) : Nat := fitBits t sat (-IType.val t a)
def inot (t : IType) (a : Nat) : Nat := 2 ^ t.w - 1 - a % 2 ^ t.w
/-- Shifts and rotates by B[7:0] (R88). -/
def ishl (t : IType) (a b : Nat) : Nat := a * 2 ^ (b % 256) % 2 ^ t.w
def ishr (t : IType) (a b : Nat) : Nat := a % 2 ^ t.w / 2 ^ (b % 256)
def isra (t : IType) (a b : Nat) : Nat := intBits t.w ((IType.val t a).fdiv (2 ^ (b % 256)))
def irot (t : IType) (a b : Nat) : Nat :=
  let k := b % 256 % t.w
  let x := a % 2 ^ t.w
  x * 2 ^ k % 2 ^ t.w + x / 2 ^ (t.w - k)
/-- Field extract (R89). -/
def ibfe (t : IType) (a b c : Nat) : Nat :=
  let pos := b % 256
  let len := min (c % 256) t.w
  if len = 0 then 0
  else
    let f := intBits len ((IType.val t a).fdiv (2 ^ pos))
    if t.signed then intBits t.w (sext len f) else f
/-- Field insert (R89). -/
def ibfi (t : IType) (pos len a b : Nat) : Nat :=
  let x := a % 2 ^ t.w
  x % 2 ^ pos + b % 2 ^ len * 2 ^ pos + x / 2 ^ (pos + len) * 2 ^ (pos + len)
/-- Number of set bits among the low `n`. -/
def popBits : Nat → Nat → Nat
  | 0, _ => 0
  | n + 1, v => v % 2 + popBits n (v / 2)
/-- Leading zeros of an `n`-bit pattern. -/
def clzBits : Nat → Nat → Nat
  | 0, _ => 0
  | n + 1, v => if v.testBit n then 0 else 1 + clzBits n v
/-- Trailing zeros of an `n`-bit pattern. -/
def ctzBits : Nat → Nat → Nat
  | 0, _ => 0
  | n + 1, v => if v % 2 = 1 then 0 else 1 + ctzBits n (v / 2)
/-- The bits of an `n`-bit pattern in reverse order. -/
def revBits : Nat → Nat → Nat
  | 0, _ => 0
  | n + 1, v => v % 2 * 2 ^ n + revBits n (v / 2)
/-- Byte permute (R93). -/
def iprmt (a b c : Nat) : Nat :=
  let pool := a % 2 ^ 32 + 2 ^ 32 * (b % 2 ^ 32)
  let one (i : Nat) : Nat :=
    let k := c / 2 ^ (8 * i) % 256
    let v := if k.testBit 3 then 0 else pool / 2 ^ (8 * (k % 8)) % 256
    let v := if k.testBit 4 then 255 - v else v
    if k.testBit 5 then revBits 8 v else v
  one 0 + 2 ^ 8 * one 1 + 2 ^ 16 * one 2 + 2 ^ 24 * one 3
/-- Carry and borrow forms (R92): 64-bit results. -/
def iaddc (a b c : Nat) : Nat := a % 2 ^ 32 + b % 2 ^ 32 + c % 2
def isubb (a b c : Nat) : Nat :=
  let v : Int := (a % 2 ^ 32 : Nat) - (b % 2 ^ 32 : Nat) - (c % 2 : Nat)
  intBits 32 v + (if v < 0 then 2 ^ 32 else 0)

/-! ## Floats (R96 to R103): from patterns to a pattern, and whether the operation is invalid -/

/-- A rounded result with whether the operation was invalid (R62, R66, R72). -/
def fres (t : FType) (r : Rnd) (sat : Bool) (ops : List FVal) (v : FVal) : Nat × Bool :=
  (roundFloat v t r sat, invalidOp ops v)
def fadd (t : FType) (r : Rnd) (sat : Bool) (a b : Nat) : Nat × Bool :=
  let x := FType.decode t a
  let y := FType.decode t b
  fres t r sat [x, y] (FVal.sum r [x, y])
def fsub (t : FType) (r : Rnd) (sat : Bool) (a b : Nat) : Nat × Bool :=
  let x := FType.decode t a
  let y := FType.decode t b
  fres t r sat [x, y] (FVal.sum r [x, y.neg])
def fmul (t : FType) (r : Rnd) (sat : Bool) (a b : Nat) : Nat × Bool :=
  let x := FType.decode t a
  let y := FType.decode t b
  fres t r sat [x, y] (x.mul y)
def ffma (t : FType) (r : Rnd) (sat : Bool) (a b c : Nat) : Nat × Bool :=
  let x := FType.decode t a
  let y := FType.decode t b
  let z := FType.decode t c
  fres t r sat [x, y, z] (FVal.sum r [x.mul y, z])
/-- Two products and an addend, one rounding (R103). -/
def fdot2 (t : FType) (r : Rnd) (sat : Bool) (a b c : Nat) : Nat × Bool :=
  let x0 := FType.decode t (a % 2 ^ 16)
  let x1 := FType.decode t (a / 2 ^ 16)
  let y0 := FType.decode t (b % 2 ^ 16)
  let y1 := FType.decode t (b / 2 ^ 16)
  let z := FType.decode .f32 c
  fres .f32 r sat [x0, x1, y0, y1, z] (FVal.sum r [x0.mul y0, x1.mul y1, z])
/-- Float to float (R98). -/
def fcvt (t : FType) (r : Rnd) (sat : Bool) (s : FType) (a : Nat) : Nat × Bool :=
  let x := FType.decode s a
  (roundFloat x t r sat, noNaNTarget t sat x)
/-- Float to integer (R99), and whether the source is a NaN or out of range without `.sat` (R68). -/
def fcvtF2i (t : FType) (r : Rnd) (sat : Bool) (i : IType) (a : Nat) : Nat × Bool :=
  let (v, bad) := f2i (FType.decode t a) i r
  (intBits i.w v, !sat && bad)
/-- Integer to float (R99). -/
def fcvtI2f (t : FType) (r : Rnd) (sat : Bool) (i : IType) (a : Nat) : Nat :=
  roundFloat (FVal.ofInt (IType.val i a)) t r sat
/-- Scaling by a power of two (R100). Beyond ±1,000 a scale changes no result of any format. -/
def fscale (t : FType) (r : Rnd) (sat : Bool) (a : Nat) (n : Int) : Nat :=
  roundFloat ((FType.decode t a).scale (clampInt n (-1000) 1000)) t r sat
/-- Two values rounded side by side (R101). -/
def fpack2 (t : FType) (r : Rnd) (sat : Bool) (a b : Nat) : Nat × Bool :=
  let x := FType.decode .f32 a
  let y := FType.decode .f32 b
  (roundFloat x t r sat + 2 ^ FType.w t * roundFloat y t r sat, false)
/-- An element of the unpacked source as `.f32` (R102). -/
def funpk1 (t : FType) (a i : Nat) : Nat := roundRne (FType.decode t (elemOf a (FType.w t) i)) .f32

/-! ## Transcendental values that the manual bounds and does not fix (R77) -/

/-- The device's own value for an operation number, type, grade, mode, `.sat` and operands, within the bound of R77
(log 5). -/
def transOpen (fn : Nat) (t : FType) (fast : Bool) (r : Rnd) (sat : Bool) (a b : Nat) : Nat :=
  transPick fn t fast r sat (FType.decode t a) (FType.decode t b)
    (Config.transcendental fn t.code.toNat fast r.code.toNat sat a b % 2 ^ FType.w t)

end Sys2Proof.Machine
end

