-- ==== Sys2Proof/Machine/IntVec.lean ====
section
/-! DEFINITION. Class 0: the integer vector and address instructions, and the random numbers (04 R86 to
R95; latencies 02 R39). -/

namespace Sys2Proof.Machine

/-- A source under an integer type, as a pattern (R82). -/
def Iss.src (w : Iss) (t : Nat) (ty : IType) (o : Opd) : Nat := w.tm.val t o ty.regs
/-- The writes of a result pattern of an integer type (R57, R84). -/
def Iss.put (w : Iss) (t : Nat) (d : Opd) (ty : IType) (bits : Nat) : List (RegAt × DWord) :=
  w.tm.dest t d ty.regs (extend ty (IType.val ty bits) 32)
/-- The write of a truth value to a predicate. -/
def Iss.putP (w : Iss) (t : Nat) (d : Opd) (b : Bool) : List (RegAt × DWord) :=
  w.tm.dest t d 1 (if b then 1 else 0)

/-- One, two and three sources under one type. -/
def int1 (i : Instr) (h : Hdr) (lat : Nat) (t : IType) (d a : Opd) (f : Nat → Nat) (s : State) :
    Host.Outcome State Fault Refusal :=
  fixedWord i h lat (fun w th => .ok (w.put th d t (f (w.src th t a)))) s
def int2 (i : Instr) (h : Hdr) (lat : Nat) (t : IType) (d a b : Opd) (f : Nat → Nat → Nat) (s : State) :
    Host.Outcome State Fault Refusal :=
  fixedWord i h lat (fun w th => .ok (w.put th d t (f (w.src th t a) (w.src th t b)))) s
def int3 (i : Instr) (h : Hdr) (lat : Nat) (t : IType) (d a b c : Opd) (f : Nat → Nat → Nat → Nat) (s : State) :
    Host.Outcome State Fault Refusal :=
  fixedWord i h lat (fun w th => .ok (w.put th d t (f (w.src th t a) (w.src th t b) (w.src th t c)))) s
/-- Two sources of which the second is read as 32 bits (R86, R88). -/
def intSh (i : Instr) (h : Hdr) (t : IType) (d a b : Opd) (f : Nat → Nat → Nat) (s : State) :
    Host.Outcome State Fault Refusal :=
  fixedWord i h 4 (fun w th => .ok (w.put th d t (f (w.src th t a) (w.tm.n32 th b)))) s
/-- A count of bits, written as `.n32` (R86). -/
def intCnt (i : Instr) (h : Hdr) (t : IType) (d a : Opd) (f : Nat → Nat) (s : State) :
    Host.Outcome State Fault Refusal :=
  fixedWord i h 4 (fun w th => .ok (w.put th d .n32 (f (w.src th t a)))) s

/-- R86. -/
def execVadd (h : Hdr) (t : IType) (sat : Bool) (d a b : Opd) (s : State) : Host.Outcome State Fault Refusal :=
  int2 (.vadd h t sat d a b) h 4 t d a b (iadd t sat) s
/-- R86. -/
def execVsub (h : Hdr) (t : IType) (sat : Bool) (d a b : Opd) (s : State) : Host.Outcome State Fault Refusal :=
  int2 (.vsub h t sat d a b) h 4 t d a b (isub t sat) s
/-- R86; latency of a multiply. -/
def execVmul (h : Hdr) (t : IType) (sat : Bool) (d a b : Opd) (s : State) : Host.Outcome State Fault Refusal :=
  int2 (.vmul h t sat d a b) h 6 t d a b (imul t sat) s
/-- R86. -/
def execVmulh (h : Hdr) (t : IType) (d a b : Opd) (s : State) : Host.Outcome State Fault Refusal :=
  int2 (.vmulh h t d a b) h 6 t d a b (imulh t) s
/-- R86. -/
def execVmad (h : Hdr) (t : IType) (sat : Bool) (d a b c : Opd) (s : State) : Host.Outcome State Fault Refusal :=
  int3 (.vmad h t sat d a b c) h 6 t d a b c (imad t sat) s
/-- R86: C and D have twice the width. -/
def execVmadw (h : Hdr) (t : IType) (sat : Bool) (d a b c : Opd) (s : State) : Host.Outcome State Fault Refusal :=
  fixedWord (.vmadw h t sat d a b c) h 6 (fun w th => .ok (w.put th d (wideType t)
    (imadw t sat (w.src th t a) (w.src th t b) (w.src th (wideType t) c)))) s
/-- R87: a zero divisor raises `ARITH` under `ATRAP`. -/
def execVdiv (h : Hdr) (t : IType) (sat rem : Bool) (d a b : Opd) (s : State) : Host.Outcome State Fault Refusal :=
  laterWord (.vdiv h t sat rem d a b) h (fun w th =>
    arith w.tm.atrap (w.src th t b % 2 ^ t.w == 0)
      (w.put th d t (idiv t sat rem (w.src th t a) (w.src th t b)))) s
/-- R86. -/
def execVmin (h : Hdr) (t : IType) (d a b : Opd) (s : State) : Host.Outcome State Fault Refusal :=
  int2 (.vmin h t d a b) h 4 t d a b (imin t) s
/-- R86. -/
def execVmax (h : Hdr) (t : IType) (d a b : Opd) (s : State) : Host.Outcome State Fault Refusal :=
  int2 (.vmax h t d a b) h 4 t d a b (imax t) s
/-- R86. -/
def execVabs (h : Hdr) (t : IType) (sat : Bool) (d a : Opd) (s : State) : Host.Outcome State Fault Refusal :=
  int1 (.vabs h t sat d a) h 4 t d a (iabs t sat) s
/-- R86. -/
def execVneg (h : Hdr) (t : IType) (sat : Bool) (d a : Opd) (s : State) : Host.Outcome State Fault Refusal :=
  int1 (.vneg h t sat d a) h 4 t d a (ineg t sat) s
/-- R86: bitwise. -/
def execVand (h : Hdr) (t : IType) (d a b : Opd) (s : State) : Host.Outcome State Fault Refusal :=
  int2 (.vand h t d a b) h 4 t d a b (fun x y => x &&& y) s
/-- R86: bitwise. -/
def execVor (h : Hdr) (t : IType) (d a b : Opd) (s : State) : Host.Outcome State Fault Refusal :=
  int2 (.vor h t d a b) h 4 t d a b (fun x y => x ||| y) s
/-- R86: bitwise. -/
def execVxor (h : Hdr) (t : IType) (d a b : Opd) (s : State) : Host.Outcome State Fault Refusal :=
  int2 (.vxor h t d a b) h 4 t d a b (fun x y => x ^^^ y) s
/-- R86. -/
def execVnot (h : Hdr) (t : IType) (d a : Opd) (s : State) : Host.Outcome State Fault Refusal :=
  int1 (.vnot h t d a) h 4 t d a (inot t) s
/-- R88. -/
def execVshl (h : Hdr) (t : IType) (d a b : Opd) (s : State) : Host.Outcome State Fault Refusal :=
  intSh (.vshl h t d a b) h t d a b (ishl t) s
/-- R88. -/
def execVshr (h : Hdr) (t : IType) (d a b : Opd) (s : State) : Host.Outcome State Fault Refusal :=
  intSh (.vshr h t d a b) h t d a b (ishr t) s
/-- R88. -/
def execVsra (h : Hdr) (t : IType) (d a b : Opd) (s : State) : Host.Outcome State Fault Refusal :=
  intSh (.vsra h t d a b) h t d a b (isra t) s
/-- R88. -/
def execVrot (h : Hdr) (t : IType) (d a b : Opd) (s : State) : Host.Outcome State Fault Refusal :=
  intSh (.vrot h t d a b) h t d a b (irot t) s
/-- R89. -/
def execVbfe (h : Hdr) (t : IType) (d a b c : Opd) (s : State) : Host.Outcome State Fault Refusal :=
  fixedWord (.vbfe h t d a b c) h 4 (fun w th => .ok (w.put th d t
    (ibfe t (w.src th t a) (w.tm.n32 th b) (w.tm.n32 th c)))) s
/-- R89. -/
def execVbfi (h : Hdr) (t : IType) (pos : BitVec 6) (len : BitVec 7) (d a b : Opd) (s : State) : Host.Outcome State Fault Refusal :=
  int2 (.vbfi h t pos len d a b) h 4 t d a b (ibfi t pos.toNat len.toNat) s
/-- R86. -/
def execVpopc (h : Hdr) (t : IType) (d a : Opd) (s : State) : Host.Outcome State Fault Refusal :=
  intCnt (.vpopc h t d a) h t d a (popBits t.w) s
/-- R86. -/
def execVclz (h : Hdr) (t : IType) (d a : Opd) (s : State) : Host.Outcome State Fault Refusal :=
  intCnt (.vclz h t d a) h t d a (fun x => clzBits t.w (x % 2 ^ t.w)) s
/-- R86. -/
def execVctz (h : Hdr) (t : IType) (d a : Opd) (s : State) : Host.Outcome State Fault Refusal :=
  intCnt (.vctz h t d a) h t d a (ctzBits t.w) s
/-- R86. -/
def execVbrev (h : Hdr) (t : IType) (d a : Opd) (s : State) : Host.Outcome State Fault Refusal :=
  int1 (.vbrev h t d a) h 4 t d a (revBits t.w) s
/-- R86: A where C is not zero. -/
def execVsel (h : Hdr) (t : IType) (d a b c : Opd) (s : State) : Host.Outcome State Fault Refusal :=
  int3 (.vsel h t d a b c) h 4 t d a b c (fun x y z => if z % 2 ^ t.w = 0 then y else x) s
/-- R90. -/
def execVlea (h : Hdr) (t : IType) (sh : BitVec 3) (d a b : Opd) (s : State) : Host.Outcome State Fault Refusal :=
  fixedWord (.vlea h t sh d a b) h 4 (fun w th => .ok (w.put th d .n64
    (intBits 64 ((w.tm.n64 th a : Int) + IType.val t (w.src th t b) * 2 ^ sh.toNat)))) s
/-- R91. -/
def execVcmp (h : Hdr) (t : IType) (cc : Cond) (d a b : Opd) (s : State) : Host.Outcome State Fault Refusal :=
  fixedWord (.vcmp h t cc d a b) h 4 (fun w th => .ok (w.putP th d
    (icmp cc (IType.val t (w.src th t a)) (IType.val t (w.src th t b))))) s
/-- R92. -/
def execVaddc (h : Hdr) (d a b c : Opd) (s : State) : Host.Outcome State Fault Refusal :=
  fixedWord (.vaddc h d a b c) h 4 (fun w th => .ok (w.put th d .n64
    (iaddc (w.tm.n32 th a) (w.tm.n32 th b) (w.tm.n32 th c)))) s
/-- R92. -/
def execVsubb (h : Hdr) (d a b c : Opd) (s : State) : Host.Outcome State Fault Refusal :=
  fixedWord (.vsubb h d a b c) h 4 (fun w th => .ok (w.put th d .n64
    (isubb (w.tm.n32 th a) (w.tm.n32 th b) (w.tm.n32 th c)))) s
/-- R86. -/
def execVmov (h : Hdr) (t : IType) (d a : Opd) (s : State) : Host.Outcome State Fault Refusal :=
  int1 (.vmov h t d a) h 4 t d a id s
/-- R94. -/
def execVmovi (h : Hdr) (f : LaneForm) (i : BitVec 32) (d : Opd) (s : State) : Host.Outcome State Fault Refusal :=
  fixedWord (.vmovi h f i d) h 4 (fun w th => .ok (w.put th d .n32
    (match f with
     | .plain => i.toNat
     | .hlane => i.toNat + laneOf th
     | .thr => i.toNat + th))) s
/-- R93. -/
def execVprmt (h : Hdr) (d a b c : Opd) (s : State) : Host.Outcome State Fault Refusal :=
  int3 (.vprmt h d a b c) h 4 .n32 d a b c iprmt s
/-- R95: the generator of R80. -/
def execVrng (h : Hdr) (d a b c : Opd) (s : State) : Host.Outcome State Fault Refusal :=
  laterWord (.vrng h d a b c) h (fun w th => .ok (w.put th d .n32
    (obgen (w.tm.n64 th a) (w.tm.n64 th b) (w.tm.n32 th c)))) s
/-- R95: the float form of R81. -/
def execVrngf (h : Hdr) (d a b c : Opd) (s : State) : Host.Outcome State Fault Refusal :=
  laterWord (.vrngf h d a b c) h (fun w th => .ok (w.put th d .n32
    (rngFloat (obgen (w.tm.n64 th a) (w.tm.n64 th b) (w.tm.n32 th c))))) s

end Sys2Proof.Machine
end

