-- ==== Sys2Proof/Machine/FloatVec.lean ====
section
/-! DEFINITION. Class 1: the float vector instructions (04 R96 to R104; 03 R62 to R78; latencies 02 R39). -/

namespace Sys2Proof.Machine

/-- A float source under a type (R82); a short immediate is converted in the instruction's mode (R31). -/
def Team.fval (tm : Team) (t : Nat) (ty : FType) (r : Rnd) (sat : Bool) (o : Opd) : Nat :=
  match o with
  | .imm i => roundFloat (FVal.ofInt i.toInt) ty r sat
  | o => tm.val t o 1 % 2 ^ FType.w ty
/-- A 32-bit source read as packed elements; a converted immediate fills every element (R31). -/
def Team.fpacked (tm : Team) (t : Nat) (ty : FType) (r : Rnd) (sat : Bool) (o : Opd) : Nat :=
  match o with
  | .imm i =>
      let e := roundFloat (FVal.ofInt i.toInt) ty r sat
      if FType.w ty = 16 then e + 2 ^ 16 * e else e + 2 ^ 8 * e + 2 ^ 16 * e + 2 ^ 24 * e
  | o => tm.val t o 1 % 2 ^ 32
/-- The write of a float or mask result, higher bits zero (R57). -/
def Iss.putF (w : Iss) (t : Nat) (d : Opd) (bits : Nat) : List (RegAt × DWord) := w.tm.dest t d 1 bits

/-- One, two and three float sources of one type, with the invalid case of R68. -/
def flt1 (i : Instr) (h : Hdr) (lat : Nat) (t : FType) (r : Rnd) (sat : Bool) (d a : Opd) (f : Nat → Nat × Bool)
    (s : State) : Host.Outcome State Fault Refusal :=
  fixedWord i h lat (fun w th =>
    let v := f (w.tm.fval th t r sat a)
    arith w.tm.atrap v.2 (w.putF th d v.1)) s
def flt2 (i : Instr) (h : Hdr) (lat : Nat) (t : FType) (r : Rnd) (sat : Bool) (d a b : Opd)
    (f : Nat → Nat → Nat × Bool) (s : State) : Host.Outcome State Fault Refusal :=
  fixedWord i h lat (fun w th =>
    let v := f (w.tm.fval th t r sat a) (w.tm.fval th t r sat b)
    arith w.tm.atrap v.2 (w.putF th d v.1)) s
def flt3 (i : Instr) (h : Hdr) (lat : Nat) (t : FType) (r : Rnd) (sat : Bool) (d a b c : Opd)
    (f : Nat → Nat → Nat → Nat × Bool) (s : State) : Host.Outcome State Fault Refusal :=
  fixedWord i h lat (fun w th =>
    let v := f (w.tm.fval th t r sat a) (w.tm.fval th t r sat b) (w.tm.fval th t r sat c)
    arith w.tm.atrap v.2 (w.putF th d v.1)) s

/-! ## Transcendentals (R77, R78, R104) -/

/-- The twelve functions of class 1 ops 0x20 to 0x2B. -/
inductive TransFn where
  | rcp | rsq | sqrt | div | exp2 | log2 | sin | cos | tanh | sigm | gelu | silu
  deriving DecidableEq, Repr

/-- The function's number, as its op less 0x20. -/
def TransFn.num : TransFn → Nat
  | .rcp => 0 | .rsq => 1 | .sqrt => 2 | .div => 3 | .exp2 => 4 | .log2 => 5 | .sin => 6 | .cos => 7
  | .tanh => 8 | .sigm => 9 | .gelu => 10 | .silu => 11

/-- What R78, R66 and exact or correctly rounded entries fix: an exact value to round, a pattern, an
invalid operation, or nothing (a value within the bound of R77). -/
inductive TransRes where
  | exact (v : FVal)
  | bits (n : Nat)
  | invalid
  | open'
  deriving DecidableEq, Repr

/-- The exponent n where a positive finite value is 2^n. -/
def powOfTwo (p d : Nat) (e : Int) : Option Int :=
  let n := floorLog2 p d e
  match FVal.cmp (.fin false p d e) (.fin false 1 1 n) with
  | 0 => some n
  | _ => none

/-- The integer that a finite value is, if it is one. -/
def asInt (x : FVal) : Option Int :=
  let n := x.toIntR .rtz
  if FVal.cmp x (FVal.ofInt n) = 0 then some n else none

/-- A value that is a power of two within the type's range. -/
def pow2Val (t : FType) (n : Int) : Bool := FType.emin t - FType.mbits t ≤ n && n ≤ FType.emax t

/-- The special and exact results (R66, R78), for operands that are not NaN; `acc` the accurate grade. -/
def transSpecial (fn : TransFn) (t : FType) (acc : Bool) (r : Rnd) (sat : Bool) (x y : FVal) : TransRes :=
  match fn with
  | .rcp => match x with
      | .inf s => .exact (.zero s)
      | .fin s p d e => if p = 0 then .exact (.inf s) else if acc then .exact (FVal.div (.fin false 1 1 0) (.fin s p d e)) else .open'
      | .nan => .invalid
  | .rsq => match x with
      | .inf s => if s then .invalid else .exact (.zero false)
      | .fin s p _ _ => if p = 0 then .exact (.inf s) else if s then .invalid else .open'
      | .nan => .invalid
  | .sqrt => match x with
      | .inf s => if s then .invalid else .exact (.inf false)
      | .fin s p d e => if p = 0 then .exact (.zero s) else if s then .invalid
          else if acc then .bits (roundSqrt t r sat p d e) else .open'
      | .nan => .invalid
  | .div =>
      let q := FVal.div x y
      match q with
      | .nan => .invalid
      | .inf s => .exact (.inf s)
      | .fin s p d e => if p = 0 || acc then .exact (.fin s p d e)
          else match FVal.cmp (match y with
              | .fin _ p d e => .fin false p d e
              | v => v) (.fin false 1 1 126) with
            | 1 => if t = .f32 then .exact (.zero s) else .open'
            | _ => .open'
  | .exp2 => match x with
      | .inf s => .exact (if s then .zero false else .inf false)
      | .fin _ _ _ _ => match asInt x with
          | some n => if pow2Val t n then .exact (.fin false 1 1 n) else .open'
          | none => .open'
      | .nan => .invalid
  | .log2 => match x with
      | .inf s => if s then .invalid else .exact (.inf false)
      | .fin s p d e => if p = 0 then .exact (.inf true) else if s then .invalid
          else match powOfTwo p d e with
            | some n => .exact (FVal.ofInt n)
            | none => .open'
      | .nan => .invalid
  | .sin => match x with
      | .fin s p _ _ => if p = 0 then .exact (.zero s) else .open'
      | _ => .invalid
  | .cos => match x with
      | .fin _ p _ _ => if p = 0 then .exact (.fin false 1 1 0) else .open'
      | _ => .invalid
  | .tanh => match x with
      | .inf s => .exact (.fin s 1 1 0)
      | .fin s p _ _ => if p = 0 then .exact (.zero s) else .open'
      | .nan => .invalid
  | .sigm => match x with
      | .inf s => .exact (if s then .zero false else .fin false 1 1 0)
      | .fin _ p _ _ => if p = 0 then .exact (.fin false 1 1 (-1)) else .open'
      | .nan => .invalid
  | .gelu | .silu => match x with
      | .inf s => .exact (if s then .zero true else .inf false)
      | .fin s p _ _ => if p = 0 then .exact (.zero s) else .open'
      | .nan => .invalid

/-- The pattern of a transcendental result and whether the operation was invalid (R77, R78, R104). At the fast
grade subnormal inputs are flushed first (R67); R78's special results are as its table gives them, subnormal ones
too: R104 flushes before R78 is applied. A value that the tables leave within a bound is the device's own, a function of the operand bits, type,
grade, mode and `.sat` (R79; log 5). -/
def transFn (fn : TransFn) (t : FType) (r : Rnd) (sat fast : Bool) (a b : Nat) : Nat × Bool :=
  let a := if fast then flushSub t a else a
  let two := fn == .div
  let b := if !two then 0 else if fast then flushSub t b else b
  let x := FType.decode t a
  let y := FType.decode t b
  if x.isNaN || (two && y.isNaN) then (FType.canon t, false)
  else match transSpecial fn t (!fast) r sat x y with
    | .exact v => (roundFloat v t r sat, false)
    | .bits n => (n, false)
    | .invalid => (FType.canon t, true)
    | .open' => (transOpen fn.num t fast r sat a b, false)

/-- A transcendental word of one or two sources: a variable-latency producer. -/
def trans2 (i : Instr) (h : Hdr) (fn : TransFn) (t : FType) (r : Rnd) (sat fast : Bool) (d a b : Opd) (s : State) :
    Host.Outcome State Fault Refusal :=
  laterWord i h (fun w th =>
    let v := transFn fn t r sat fast (w.tm.fval th t r sat a) (w.tm.fval th t r sat b)
    arith w.tm.atrap v.2 (w.putF th d v.1)) s

/-! ## The meanings -/

/-- R96. -/
def execVfadd (h : Hdr) (t : FType) (r : Rnd) (sat : Bool) (d a b : Opd) (s : State) : Host.Outcome State Fault Refusal :=
  flt2 (.vfadd h t r sat d a b) h 5 t r sat d a b (fadd t r sat) s
/-- R96. -/
def execVfsub (h : Hdr) (t : FType) (r : Rnd) (sat : Bool) (d a b : Opd) (s : State) : Host.Outcome State Fault Refusal :=
  flt2 (.vfsub h t r sat d a b) h 5 t r sat d a b (fsub t r sat) s
/-- R96. -/
def execVfmul (h : Hdr) (t : FType) (r : Rnd) (sat : Bool) (d a b : Opd) (s : State) : Host.Outcome State Fault Refusal :=
  flt2 (.vfmul h t r sat d a b) h 5 t r sat d a b (fmul t r sat) s
/-- R96, R72: one rounding. -/
def execVffma (h : Hdr) (t : FType) (r : Rnd) (sat : Bool) (d a b c : Opd) (s : State) : Host.Outcome State Fault Refusal :=
  flt3 (.vffma h t r sat d a b c) h 5 t r sat d a b c (ffma t r sat) s
/-- R66. -/
def execVfmin (h : Hdr) (t : FType) (d a b : Opd) (s : State) : Host.Outcome State Fault Refusal :=
  flt2 (.vfmin h t d a b) h 5 t .rne false d a b (fun x y => (fminmax t false x y, false)) s
/-- R66. -/
def execVfmax (h : Hdr) (t : FType) (d a b : Opd) (s : State) : Host.Outcome State Fault Refusal :=
  flt2 (.vfmax h t d a b) h 5 t .rne false d a b (fun x y => (fminmax t true x y, false)) s
/-- R91. -/
def execVfcmp (h : Hdr) (t : FType) (cc : Cond) (d a b : Opd) (s : State) : Host.Outcome State Fault Refusal :=
  fixedWord (.vfcmp h t cc d a b) h 5 (fun w th => .ok (w.putP th d
    (fcmp cc (FType.decode t (w.tm.fval th t .rne false a)) (FType.decode t (w.tm.fval th t .rne false b))))) s
/-- R97. -/
def execVfclass (h : Hdr) (t : FType) (d a : Opd) (s : State) : Host.Outcome State Fault Refusal :=
  flt1 (.vfclass h t d a) h 5 t .rne false d a (fun x => (fclass t x, false)) s
/-- R98. -/
def execVfcvt (h : Hdr) (t : FType) (r : Rnd) (sat : Bool) (k : FType) (d a : Opd) (s : State) : Host.Outcome State Fault Refusal :=
  flt1 (.vfcvt h t r sat k d a) h 6 k r sat d a (fcvt t r sat k) s
/-- R99. A signed integer result is sign-extended (R57, R84; log 36). -/
def execVfcvti (h : Hdr) (t : FType) (r : Rnd) (sat : Bool) (i2f : Bool) (i : IType) (d a : Opd) (s : State) : Host.Outcome State Fault Refusal :=
  fixedWord (.vfcvti h t r sat i2f i d a) h 6 (fun w th =>
    if i2f then .ok (w.putF th d (fcvtI2f t r sat i (w.src th i a)))
    else
      let v := fcvtF2i t r sat i (w.tm.fval th t r sat a)
      arith w.tm.atrap v.2 (w.put th d i v.1)) s
/-- R100. -/
def execVfround (h : Hdr) (t : FType) (r : Rnd) (d a : Opd) (s : State) : Host.Outcome State Fault Refusal :=
  flt1 (.vfround h t r d a) h 6 t r false d a (fun x => (froundInt t x r, false)) s
/-- R100: B is read as `.i32`. -/
def execVfscale (h : Hdr) (t : FType) (r : Rnd) (sat : Bool) (d a b : Opd) (s : State) : Host.Outcome State Fault Refusal :=
  fixedWord (.vfscale h t r sat d a b) h 6 (fun w th => .ok (w.putF th d
    (fscale t r sat (w.tm.fval th t r sat a) (IType.val .i32 (w.tm.n32 th b))))) s
/-- R101: the 8-bit forms keep the other half of D. -/
def execVfpack (h : Hdr) (t : FType) (r : Rnd) (sat : Bool) (hi : Bool) (d a b : Opd) (s : State) : Host.Outcome State Fault Refusal :=
  fixedWord (.vfpack h t r sat hi d a b) h 6 (fun w th =>
    let v := fpack2 t r sat (w.tm.fval th .f32 r sat a) (w.tm.fval th .f32 r sat b)
    let old := w.tm.val th d 1
    let n := if FType.w t = 16 then v.1
             else if hi then old % 2 ^ 16 + 2 ^ 16 * v.1 else old / 2 ^ 16 * 2 ^ 16 + v.1
    arith w.tm.atrap v.2 (w.putF th d n)) s
/-- R102. -/
def execVfunpk (h : Hdr) (t : FType) (hi : Bool) (d a : Opd) (s : State) : Host.Outcome State Fault Refusal :=
  fixedWord (.vfunpk h t hi d a) h 6 (fun w th =>
    let x := w.tm.fpacked th t .rne false a
    let k := if hi then 2 else 0
    .ok (w.tm.dest th d 2 (funpk1 t x k + 2 ^ 32 * funpk1 t x (k + 1)))) s
/-- R103. -/
def execVfdot2 (h : Hdr) (t : FType) (r : Rnd) (sat : Bool) (d a b c : Opd) (s : State) : Host.Outcome State Fault Refusal :=
  fixedWord (.vfdot2 h t r sat d a b c) h 5 (fun w th =>
    let v := fdot2 t r sat (w.tm.fpacked th t r sat a) (w.tm.fpacked th t r sat b) (w.tm.fval th .f32 r sat c)
    arith w.tm.atrap v.2 (w.putF th d v.1)) s
/-- R104. -/
def execVfdiv (h : Hdr) (t : FType) (r : Rnd) (sat fast : Bool) (d a b : Opd) (s : State) : Host.Outcome State Fault Refusal :=
  trans2 (.vfdiv h t r sat fast d a b) h .div t r sat fast d a b s
/-- R104. -/
def execVfrcp (h : Hdr) (t : FType) (r : Rnd) (sat fast : Bool) (d a : Opd) (s : State) : Host.Outcome State Fault Refusal :=
  trans2 (.vfrcp h t r sat fast d a) h .rcp t r sat fast d a a s
/-- R104. -/
def execVfrsq (h : Hdr) (t : FType) (r : Rnd) (sat fast : Bool) (d a : Opd) (s : State) : Host.Outcome State Fault Refusal :=
  trans2 (.vfrsq h t r sat fast d a) h .rsq t r sat fast d a a s
/-- R104. -/
def execVfsqrt (h : Hdr) (t : FType) (r : Rnd) (sat fast : Bool) (d a : Opd) (s : State) : Host.Outcome State Fault Refusal :=
  trans2 (.vfsqrt h t r sat fast d a) h .sqrt t r sat fast d a a s
/-- R104. -/
def execVfexp2 (h : Hdr) (t : FType) (r : Rnd) (sat fast : Bool) (d a : Opd) (s : State) : Host.Outcome State Fault Refusal :=
  trans2 (.vfexp2 h t r sat fast d a) h .exp2 t r sat fast d a a s
/-- R104. -/
def execVflog2 (h : Hdr) (t : FType) (r : Rnd) (sat fast : Bool) (d a : Opd) (s : State) : Host.Outcome State Fault Refusal :=
  trans2 (.vflog2 h t r sat fast d a) h .log2 t r sat fast d a a s
/-- R104. -/
def execVfsin (h : Hdr) (t : FType) (r : Rnd) (sat fast : Bool) (d a : Opd) (s : State) : Host.Outcome State Fault Refusal :=
  trans2 (.vfsin h t r sat fast d a) h .sin t r sat fast d a a s
/-- R104. -/
def execVfcos (h : Hdr) (t : FType) (r : Rnd) (sat fast : Bool) (d a : Opd) (s : State) : Host.Outcome State Fault Refusal :=
  trans2 (.vfcos h t r sat fast d a) h .cos t r sat fast d a a s
/-- R104. -/
def execVftanh (h : Hdr) (t : FType) (r : Rnd) (sat fast : Bool) (d a : Opd) (s : State) : Host.Outcome State Fault Refusal :=
  trans2 (.vftanh h t r sat fast d a) h .tanh t r sat fast d a a s
/-- R104. -/
def execVfsigm (h : Hdr) (t : FType) (r : Rnd) (sat fast : Bool) (d a : Opd) (s : State) : Host.Outcome State Fault Refusal :=
  trans2 (.vfsigm h t r sat fast d a) h .sigm t r sat fast d a a s
/-- R104. -/
def execVfgelu (h : Hdr) (t : FType) (r : Rnd) (sat fast : Bool) (d a : Opd) (s : State) : Host.Outcome State Fault Refusal :=
  trans2 (.vfgelu h t r sat fast d a) h .gelu t r sat fast d a a s
/-- R104. -/
def execVfsilu (h : Hdr) (t : FType) (r : Rnd) (sat fast : Bool) (d a : Opd) (s : State) : Host.Outcome State Fault Refusal :=
  trans2 (.vfsilu h t r sat fast d a) h .silu t r sat fast d a a s

end Sys2Proof.Machine
end

