-- ==== Sys2Proof/Machine/Scalar.lean ====
section
/-! DEFINITION. Class 2 but for its memory accesses, and the predicate instructions of class 3 (04 R105 to
R109, R111, R112; 01 R16, R21 to R23; latencies 02 R39). -/

namespace Sys2Proof.Machine

/-- The writes of an integer result to a scalar or index register: extended to 64 bits (R57, R106). -/
def Iss.putS (w : Iss) (t : Nat) (d : Opd) (ty : IType) (bits : Nat) : List (RegAt × DWord) :=
  w.tm.dest t d 1 (extend ty (IType.val ty bits) 64)
/-- A truth value to a predicate of every thread of a home group with a true guard (R106). -/
def Iss.putPs (w : Iss) (g : Nat) (d : Opd) (b : Bool) : List (RegAt × DWord) :=
  (w.of g).flatMap fun t => w.putP t d b

/-- One, two and three integer sources, once for each home group. -/
def sint1 (i : Instr) (h : Hdr) (t : IType) (d a : Opd) (f : Nat → Nat) (s : State) : Host.Outcome State Fault Refusal :=
  fixedHg i h 2 (fun w _ th => .ok (w.putS th d t (f (w.tm.val th a 1)))) s
def sint2 (i : Instr) (h : Hdr) (t : IType) (d a b : Opd) (f : Nat → Nat → Nat) (s : State) :
    Host.Outcome State Fault Refusal :=
  fixedHg i h 2 (fun w _ th => .ok (w.putS th d t (f (w.tm.val th a 1) (w.tm.val th b 1)))) s
def sint3 (i : Instr) (h : Hdr) (t : IType) (d a b c : Opd) (f : Nat → Nat → Nat → Nat) (s : State) :
    Host.Outcome State Fault Refusal :=
  fixedHg i h 2 (fun w _ th => .ok (w.putS th d t (f (w.tm.val th a 1) (w.tm.val th b 1) (w.tm.val th c 1)))) s
/-- A scalar float operation of two or three sources (R108). -/
def sflt2 (i : Instr) (h : Hdr) (t : FType) (r : Rnd) (d a b : Opd) (f : Nat → Nat → Nat × Bool) (s : State) :
    Host.Outcome State Fault Refusal :=
  fixedHg i h 4 (fun w _ th =>
    let v := f (w.tm.fval th t r false a) (w.tm.fval th t r false b)
    arith w.tm.atrap v.2 (w.putF th d v.1)) s

/-- One predicate result for each thread (R105). -/
def predWord (i : Instr) (h : Hdr) (d : Opd) (f : Iss → Nat → Bool) (s : State) : Host.Outcome State Fault Refusal :=
  fixedWord i h 2 (fun w th => .ok (w.putP th d (f w th))) s

/-- `sr.wsnext` (R21, 08 R191, 20 R423): core cycles until the next refresh window begins. -/
def State.wsnext (s : State) (c : Nat) : Nat :=
  let ph := (s.core c).wsPhase
  if ph < Config.wsLength * Config.wsUnit then 0
  else min ((Config.wsPeriod * Config.wsUnit - ph) / Config.wsCycle (s.die (c / 96)).mhz) 0xFFFFFFFF

/-- The value of a special source for a home group whose lowest thread with a true guard is `th` (R21). -/
def specialValue (s : State) (w : Iss) (th n : Nat) : Nat :=
  let nteams := match Tab.get? s.grids w.tm.grid with
    | some g => fieldLe g.record 8 4
    | none => 0
  match n with
  | 0 => th
  | 1 => laneOf th
  | 2 => hgOf th
  | 3 => w.tm.index
  | 4 => w.tm.cluster
  | 5 => w.core % 96
  | 6 => w.core / 96
  | 7 => nteams
  | 8 => (s.core w.core).now
  | 9 => s.wsnext w.core
  | 10 => w.tm.detlvl
  | 11 => w.tm.slotw.toNat
  | 12 => w.tm.regs
  | 13 => w.tm.sregs
  | _ => w.tm.hgroups

/-- R106. -/
def execSadd (h : Hdr) (t : IType) (sat : Bool) (d a b : Opd) (s : State) : Host.Outcome State Fault Refusal :=
  sint2 (.sadd h t sat d a b) h t d a b (iadd t sat) s
/-- R106. -/
def execSsub (h : Hdr) (t : IType) (sat : Bool) (d a b : Opd) (s : State) : Host.Outcome State Fault Refusal :=
  sint2 (.ssub h t sat d a b) h t d a b (isub t sat) s
/-- R106. -/
def execSmul (h : Hdr) (t : IType) (sat : Bool) (d a b : Opd) (s : State) : Host.Outcome State Fault Refusal :=
  sint2 (.smul h t sat d a b) h t d a b (imul t sat) s
/-- R106. -/
def execSmad (h : Hdr) (t : IType) (sat : Bool) (d a b c : Opd) (s : State) : Host.Outcome State Fault Refusal :=
  sint3 (.smad h t sat d a b c) h t d a b c (imad t sat) s
/-- R106. -/
def execSand (h : Hdr) (t : IType) (d a b : Opd) (s : State) : Host.Outcome State Fault Refusal :=
  sint2 (.sand h t d a b) h t d a b (fun x y => x &&& y) s
/-- R106. -/
def execSor (h : Hdr) (t : IType) (d a b : Opd) (s : State) : Host.Outcome State Fault Refusal :=
  sint2 (.sor h t d a b) h t d a b (fun x y => x ||| y) s
/-- R106. -/
def execSxor (h : Hdr) (t : IType) (d a b : Opd) (s : State) : Host.Outcome State Fault Refusal :=
  sint2 (.sxor h t d a b) h t d a b (fun x y => x ^^^ y) s
/-- R106, R88. -/
def execSshl (h : Hdr) (t : IType) (d a b : Opd) (s : State) : Host.Outcome State Fault Refusal :=
  sint2 (.sshl h t d a b) h t d a b (ishl t) s
/-- R106, R88. -/
def execSshr (h : Hdr) (t : IType) (d a b : Opd) (s : State) : Host.Outcome State Fault Refusal :=
  sint2 (.sshr h t d a b) h t d a b (ishr t) s
/-- R106, R88. -/
def execSsra (h : Hdr) (t : IType) (d a b : Opd) (s : State) : Host.Outcome State Fault Refusal :=
  sint2 (.ssra h t d a b) h t d a b (isra t) s
/-- R106. -/
def execSmin (h : Hdr) (t : IType) (d a b : Opd) (s : State) : Host.Outcome State Fault Refusal :=
  sint2 (.smin h t d a b) h t d a b (imin t) s
/-- R106. -/
def execSmax (h : Hdr) (t : IType) (d a b : Opd) (s : State) : Host.Outcome State Fault Refusal :=
  sint2 (.smax h t d a b) h t d a b (imax t) s
/-- R106, R91: to every thread of the home group with a true guard. -/
def execScmp (h : Hdr) (t : IType) (cc : Cond) (d a b : Opd) (s : State) : Host.Outcome State Fault Refusal :=
  fixedHg (.scmp h t cc d a b) h 2 (fun w g th => .ok (w.putPs g d
    (icmp cc (IType.val t (w.tm.val th a 1)) (IType.val t (w.tm.val th b 1))))) s
/-- R106. -/
def execSsel (h : Hdr) (t : IType) (d a b c : Opd) (s : State) : Host.Outcome State Fault Refusal :=
  sint3 (.ssel h t d a b c) h t d a b c (fun x y z => if z % 2 ^ t.w = 0 then y else x) s
/-- R106. -/
def execSmov (h : Hdr) (t : IType) (d a : Opd) (s : State) : Host.Outcome State Fault Refusal :=
  sint1 (.smov h t d a) h t d a id s
/-- R107. -/
def execSmovi (h : Hdr) (f : SForm) (i : BitVec 32) (d : Opd) (s : State) : Host.Outcome State Fault Refusal :=
  fixedHg (.smovi h f i d) h 2 (fun w _ th => .ok (w.tm.dest th d 1
    (match f with
     | .sext => (i.signExtend 64).toNat
     | .zext => i.toNat
     | .hi => i.toNat * 2 ^ 32 + w.tm.val th d 1 % 2 ^ 32))) s
/-- R108. -/
def execSfadd (h : Hdr) (t : FType) (r : Rnd) (d a b : Opd) (s : State) : Host.Outcome State Fault Refusal :=
  sflt2 (.sfadd h t r d a b) h t r d a b (fadd t r false) s
/-- R108. -/
def execSfmul (h : Hdr) (t : FType) (r : Rnd) (d a b : Opd) (s : State) : Host.Outcome State Fault Refusal :=
  sflt2 (.sfmul h t r d a b) h t r d a b (fmul t r false) s
/-- R108. -/
def execSffma (h : Hdr) (t : FType) (r : Rnd) (d a b c : Opd) (s : State) : Host.Outcome State Fault Refusal :=
  fixedHg (.sffma h t r d a b c) h 4 (fun w _ th =>
    let v := ffma t r false (w.tm.fval th t r false a) (w.tm.fval th t r false b) (w.tm.fval th t r false c)
    arith w.tm.atrap v.2 (w.putF th d v.1)) s
/-- R108, R91. -/
def execSfcmp (h : Hdr) (t : FType) (cc : Cond) (d a b : Opd) (s : State) : Host.Outcome State Fault Refusal :=
  fixedHg (.sfcmp h t cc d a b) h 4 (fun w g th => .ok (w.putPs g d
    (fcmp cc (FType.decode t (w.tm.fval th t .rne false a)) (FType.decode t (w.tm.fval th t .rne false b))))) s
/-- R108: as `vfcvt` and `vfcvti`. A signed integer result is sign-extended (R57, R84; log 36). -/
def execSfcvt (h : Hdr) (t : FType) (r : Rnd) (k : SCvt) (d a : Opd) (s : State) : Host.Outcome State Fault Refusal :=
  fixedHg (.sfcvt h t r k d a) h 4 (fun w _ th =>
    match k with
    | .f2f f =>
        let v := fcvt t r false f (w.tm.fval th f r false a)
        arith w.tm.atrap v.2 (w.putF th d v.1)
    | .f2i i =>
        let v := fcvtF2i t r false i (w.tm.fval th t r false a)
        arith w.tm.atrap v.2 (w.putS th d i v.1)
    | .i2f i => .ok (w.putF th d (fcvtI2f t r false i (w.tm.val th a 1)))) s
/-- R109, R21: the special source, for the lowest thread with a true guard. -/
def execSread (h : Hdr) (d a : Opd) (s : State) : Host.Outcome State Fault Refusal :=
  laterHg (.sread h d a) h (fun w _ th => .ok (w.tm.dest th d 1
    (match a with
     | .spc n => specialValue s w th n.val
     | _ => 0))) s
/-- R111: one lane's register, when its thread is in the issue group with a true guard; else 0. -/
def execVtos (h : Hdr) (lane : BitVec 5) (first w64 : Bool) (d a : Opd) (s : State) : Host.Outcome State Fault Refusal :=
  laterHg (.vtos h lane first w64 d a) h (fun w g th =>
    let src := if first then th else 32 * g + lane.toNat
    .ok (w.tm.dest th d 1 (if w.ts.contains src then w.tm.val src a (w64n w64) else 0))) s
/-- R112. -/
def execStov (h : Hdr) (w64 : Bool) (d a : Opd) (s : State) : Host.Outcome State Fault Refusal :=
  laterWord (.stov h w64 d a) h (fun w th => .ok (w.tm.dest th d (w64n w64) (w.tm.val th a 1))) s
/-- R105. -/
def execPand (h : Hdr) (na nb : Bool) (d a b : Opd) (s : State) : Host.Outcome State Fault Refusal :=
  predWord (.pand h na nb d a b) h d (fun w th =>
    (w.tm.pred th a != na) && (w.tm.pred th b != nb)) s
/-- R105. -/
def execPor (h : Hdr) (na nb : Bool) (d a b : Opd) (s : State) : Host.Outcome State Fault Refusal :=
  predWord (.por h na nb d a b) h d (fun w th =>
    (w.tm.pred th a != na) || (w.tm.pred th b != nb)) s
/-- R105. -/
def execPxor (h : Hdr) (na nb : Bool) (d a b : Opd) (s : State) : Host.Outcome State Fault Refusal :=
  predWord (.pxor h na nb d a b) h d (fun w th =>
    (w.tm.pred th a != na) != (w.tm.pred th b != nb)) s
/-- R105. -/
def execPnot (h : Hdr) (d a : Opd) (s : State) : Host.Outcome State Fault Refusal :=
  predWord (.pnot h d a) h d (fun w th => !w.tm.pred th a) s
/-- R105. -/
def execPmov (h : Hdr) (d a : Opd) (s : State) : Host.Outcome State Fault Refusal :=
  predWord (.pmov h d a) h d (fun w th => w.tm.pred th a) s
/-- R105. -/
def execPset (h : Hdr) (w64 : Bool) (d a : Opd) (s : State) : Host.Outcome State Fault Refusal :=
  predWord (.pset h w64 d a) h d (fun w th => if w64 then w.tm.n64 th a != 0 else w.tm.n32 th a != 0) s

end Sys2Proof.Machine
end

