-- ==== Sys2Proof/Machine/CrossLane.lean ====
section
/-! DEFINITION. The cross-lane instructions of class 3: collection, firing and the results (07 R168 to
R178; 03 R75, R76), with the event of a firing. -/

namespace Sys2Proof.Machine

/-! ## Reaching a cross-lane word (R169) -/

/-- Adds members to a home group's collector for a PC. -/
def joinColl (hg : Nat) (pc : PC) (i : Instr) (m : List (Nat × Bool × List Nat)) : List Coll → List Coll
  | [] => [{ hg := hg, pc := pc, ins := i, mem := m }]
  | c :: cs =>
      if c.hg = hg ∧ c.pc = pc then { c with mem := c.mem ++ m } :: cs else c :: joinColl hg pc i m cs

/-- Every member joins its home group's collector, whatever its guard; the issue group is gone (R169). -/
def State.collect (s : State) (w : Iss) (i : Instr) : State :=
  let lanes := match (s.core w.core).groups.find? fun g => g.gid == w.gid with
    | some g => g.lanes
    | none => []
  let s := s.modTeam w.core w.slot fun tm =>
    let tm := w.mem.foldl (fun tm t => tm.modThread t fun th => { th with lane := Tab.getD lanes t th.lane }) tm
    let part (g : Nat) : List (Nat × Bool × List Nat) :=
      (w.mem.filter fun t => hgOf t == g).map fun t => (t, w.ts.contains t, w.tm.xs g)
    let cs := (sortNat (w.mem.map hgOf)).foldl (fun cs g => joinColl g w.pc i (part g) cs) tm.colls
    { tm with colls := cs }
  s.setState w.core w.slot w.mem (.waiting (.collect w.pc))

/-- A cross-lane word: decode step 7 and the next PC are checked, then its members are collected. -/
def crossWord (i : Instr) (h : Hdr) (s : State) : Host.Outcome State Fault Refusal :=
  match s.iss h.g with
  | none => .fault .noIssuer
  | some w =>
      match w.oob i i.uses none with
      | [] =>
          match w.past w.mem, w.badRegs h.g i i.uses with
          | [], [] => .next (s.collect w i)
          | [], bad => .next (s.wordTrap w .poison 0 bad [] .word)
          | bad, _ => .next (s.wordTrap w .prot 0 bad [] .word)
      | bad => .next (s.wordTrap w .opbound 0 bad [] .word)

/-! ## Firing (R169 to R178) -/

/-- A participant: its thread and the index registers it reached the word with. -/
structure Part where
  t : Nat
  xs : List Nat
  deriving DecidableEq, Repr

/-- The participant in a home lane. -/
def partAt (ps : List Part) (lane : Nat) : Option Part := ps.find? fun p => laneOf p.t == lane

/-- The writes of a value to a participant's destination. -/
def Part.put (p : Part) (d : Opd) (n v : Nat) : List (RegAt × DWord) := Team.destX p.xs p.t d n v
/-- A participant's operand. -/
def Part.val (p : Part) (tm : Team) (o : Opd) (n : Nat) : Nat := tm.valX p.xs p.t o n

/-- The source lane of `vshfl` (R173). -/
def shflSrc (m : ShMode) (c l b : Nat) : Nat :=
  let wd := 32 / 2 ^ c
  let base := l - l % wd
  let r := l - base
  match m with
  | .idx => base + b % wd
  | .rot => base + (r + b) % wd
  | .edge => base + (clampInt ((r : Int) + IType.val .i32 b) 0 ((wd : Int) - 1)).toNat
  | .swap => base + Nat.xor r (b % wd)

/-- A vector destination is written in every participant, a scalar one once (R175, R176). -/
def putAll (ps : List Part) (d : Opd) (n vec scl : Nat) : List (RegAt × DWord) :=
  match d with
  | .scl _ => match ps with
      | p :: _ => p.put d n scl
      | [] => []
  | _ => ps.flatMap fun p => p.put d n vec

/-- One step of a reduction (R75, R176). -/
def redStep (o : RedOp) (t : RedType) (sat : Bool) (r : Rnd) (a b : Nat) : Nat :=
  match t with
  | .int t => match o with
      | .add => iadd t sat a b
      | .min => imin t a b
      | .max => imax t a b
      | .and => a &&& b
      | .or => a ||| b
      | .xor => a ^^^ b
  | t =>
      let f : FType := match t with
        | .f16 => .f16
        | .bf16 => .bf16
        | _ => .f32
      match o with
      | .add => (fadd f r false a b).1
      | .min => fminmax f false a b
      | _ => fminmax f true a b

/-- The identity of an operation (R75). -/
def redIdent (o : RedOp) (t : RedType) : Nat :=
  match t with
  | .int t => match o with
      | .add => 0
      | .min => intBits t.w (IType.maxOf t)
      | .max => intBits t.w (IType.minOf t)
      | .and => 2 ^ t.w - 1
      | .or => 0
      | .xor => 0
  | t =>
      let f : FType := match t with
        | .f16 => .f16
        | .bf16 => .bf16
        | _ => .f32
      match o with
      | .add => FType.encode f true 0 (FType.emin f - FType.mbits f)
      | .min => FType.infOf f false
      | _ => FType.infOf f true

/-- Width of a reduction type. -/
def RedType.w : RedType → Nat
  | .int t => t.w
  | .f32 => 32
  | _ => 16

/-- One pass of the tree: for every i a multiple of 2d (R75). -/
def redPass (f : Nat → Nat → Nat) (d : Nat) (y : List Nat) : List Nat :=
  (List.range 32).map fun i =>
    if i % (2 * d) = 0 then f (y.getD i 0) (y.getD (i + d) 0) else y.getD i 0
/-- The fixed tree (R75). -/
def redTree (f : Nat → Nat → Nat) (y : List Nat) : Nat :=
  ([1, 2, 4, 8, 16].foldl (fun y d => redPass f d y) y).getD 0 0
/-- One pass of the scan (R76). -/
def scanPass (f : Nat → Nat → Nat) (d : Nat) (y : List Nat) : List Nat :=
  (List.range 32).map fun i => if d ≤ i then f (y.getD (i - d) 0) (y.getD i 0) else y.getD i 0
/-- The inclusive scan (R76). -/
def scanAll (f : Nat → Nat → Nat) (y : List Nat) : List Nat :=
  [1, 2, 4, 8, 16].foldl (fun y d => scanPass f d y) y

/-- The values of the 32 lanes, the identity where no participant is (R170). -/
def laneVals (tm : Team) (ps : List Part) (a : Opd) (t : RedType) (ident : Nat) : List Nat :=
  (List.range 32).map fun l => match partAt ps l with
    | some p => p.val tm a t.regs % 2 ^ RedType.w t
    | none => ident

/-- A reduction result as a register holds it (R57). -/
def RedType.widen (t : RedType) (v r : Nat) : Nat :=
  match t with
  | .int t => extend t (IType.val t v) r
  | _ => v

/-- The number of bits set in a list of truths, and its mask by lane. -/
def laneMask (ps : List Part) (f : Part → Bool) : Nat := listToMask ((ps.filter f).map fun p => laneOf p.t)

/-- `vlanemap`'s state of a lane: 0 never launched, 1 participant, 2 collected with a false guard, 3
parked, 4 exited, 5 any other (R177). -/
def laneState (tm : Team) (c : Coll) (l : Nat) : Nat :=
  let t := 32 * c.hg + l
  match c.mem.find? fun m => m.1 == t with
  | some m => if m.2.1 then 1 else 2
  | none => match Tab.get? tm.threads t with
      | none => 0
      | some th => match th.st with
          | .parked _ => 3
          | .exited => 4
          | _ => 5

/-- The writes of a firing (R173 to R177). -/
def fireWrites (tm : Team) (c : Coll) (ps : List Part) : List (RegAt × DWord) :=
  match c.ins with
  | .vshfl _ m seg w64 d a b v =>
      let n := w64n w64
      ps.flatMap fun p =>
        let src := partAt ps (shflSrc m seg.val (laneOf p.t) (p.val tm b 1 % 2 ^ 32))
        let pv (x : Nat) : List (RegAt × DWord) := match v with
          | some o => p.put o 1 x
          | none => []
        match src with
        | some q => p.put d n (q.val tm a n) ++ pv 1
        | none => p.put d n 0 ++ pv 0
  | .vvote _ m d a k =>
      let bit (p : Part) : Bool := p.val tm a 1 != 0
      let cnt := (ps.filter bit).length
      ps.flatMap fun p =>
        let r := match m with
          | .ge => decide ((match k with
              | some o => p.val tm o 1 % 2 ^ 32
              | none => 0) ≤ cnt)
          | .all => cnt == ps.length
          | .same => cnt == ps.length || cnt == 0
          | .elect => bit p && !(ps.any fun q => bit q && decide (q.t < p.t))
        p.put d 1 (if r then 1 else 0)
  | .vballot _ cnt d a =>
      let m := laneMask ps fun p => p.val tm a 1 != 0
      let v := if cnt then popBits 32 m else m
      putAll ps d 1 v v
  | .vredux _ o t sat r d a =>
      let v := redTree (redStep o t sat r) (laneVals tm ps a t (redIdent o t))
      putAll ps d t.regs (RedType.widen t v 32) (RedType.widen t v 64)
  | .vscan _ o t sat excl r d a =>
      let ys := scanAll (redStep o t sat r) (laneVals tm ps a t (redIdent o t))
      ps.flatMap fun p =>
        let l := laneOf p.t
        let v := if excl then (if l = 0 then redIdent o t else ys.getD (l - 1) 0) else ys.getD l 0
        p.put d t.regs (RedType.widen t v 32)
  | .vmatch _ w64 d a =>
      let n := w64n w64
      ps.flatMap fun p =>
        p.put d 1 (laneMask ps fun q => q.val tm a n % 2 ^ (32 * n) == p.val tm a n % 2 ^ (32 * n))
  | .vlanemap _ d a =>
      ps.flatMap fun p =>
        let l := p.val tm a 1 % 32
        let st := laneState tm c l
        let lane := match Tab.get? tm.threads (32 * c.hg + l) with
          | some th => th.lane
          | none => 0
        p.put d 1 (st + 8 * (if st = 0 then 0 else lane))
  | _ => []

/-- Cycles for which a firing occupies the cross-lane unit (R172). -/
def fireCycles (i : Instr) : Nat :=
  match i with
  | .vshfl _ _ _ w64 _ _ _ _ => if w64 then 6 else 4
  | .vmatch _ w64 _ _ => if w64 then 6 else 4
  | .vredux _ _ (.int _) _ _ _ _ => 8
  | .vredux _ _ _ _ _ _ _ => 16
  | .vscan _ _ (.int _) _ _ _ _ _ => 8
  | .vscan _ _ _ _ _ _ _ _ => 16
  | _ => 4

/-- The header of a cross-lane instruction. -/
def crossHints (i : Instr) : Option Hints :=
  match i with
  | .vshfl h _ _ _ _ _ _ _ => some h.ht
  | .vvote h _ _ _ _ => some h.ht
  | .vballot h _ _ _ => some h.ht
  | .vredux h _ _ _ _ _ _ => some h.ht
  | .vscan h _ _ _ _ _ _ _ => some h.ht
  | .vmatch h _ _ _ => some h.ht
  | .vlanemap h _ _ => some h.ht
  | _ => none

/-- A collector fires when no thread of its home group outside it has its PC as next word while
Binned, Active or Waiting (R169). The collectors of a halted program are put away with the trap (R178), so that one
in place while a handler runs is the handler's own. -/
def Team.mayFire (tm : Team) (c : Coll) : Bool :=
  !tm.frozen && tm.threads.all fun e =>
    hgOf e.1 != c.hg || (c.mem.any fun m => m.1 == e.1) || e.2.pc != c.pc || (match e.2.st with
      | .binned _ => false
      | .active _ => false
      | .waiting _ => false
      | _ => true)

/-- Fires a collector: every source is read, then the results are written; the collected threads are
filed for the next word, together (R169, R172). -/
def State.fire (s : State) (k slot : Nat) (c : Coll) : State :=
  match s.team? k slot, crossHints c.ins with
  | some tm, some ht =>
      let ps := (sortNat ((c.mem.filter fun m => m.2.1).map fun m => m.1)).filterMap fun t =>
        (c.mem.find? fun m => m.1 == t).map fun m => ({ t := t, xs := m.2.2 } : Part)
      let wr := fireWrites tm c ps
      let now := (s.core k).now
      let pc := BitVec.ofNat 57 (c.pc.toNat + 12)
      s.modTeam k slot fun tm =>
        let tm := tm.writeRegs wr
        let tm := { tm with colls := tm.colls.filter fun x => !(x.hg == c.hg && x.pc == c.pc) }
        let tm := c.mem.foldl (fun tm m => tm.modThread m.1 fun th =>
          th.after pc (now + ht.stall.toNat + 1) th.lane ht.post.toNat 0 true) tm
        tm.file (c.mem.map fun m => (m.1, pc)) (now + fireCycles c.ins + 1)
  | _, _ => s

/-- COLLECTOR_FIRE (R169 to R178). Where the collector does not exist or may not fire yet, nothing
happens. -/
def execCollectorFire (core slot hg : Nat) (pc : PC) (s : State) : Host.Outcome State Fault Refusal :=
  match s.team? core slot with
  | none => .next s
  | some tm =>
      match tm.colls.find? fun c => c.hg == hg && c.pc == pc with
      | none => .next s
      | some c => if tm.mayFire c then .next (s.fire core slot c) else .next s

/-- R173. -/
def execVshfl (h : Hdr) (m : ShMode) (seg : Fin 6) (w64 : Bool) (d a b : Opd) (v : Option Opd) (s : State) :
    Host.Outcome State Fault Refusal := crossWord (.vshfl h m seg w64 d a b v) h s
/-- R174. -/
def execVvote (h : Hdr) (m : VoteMode) (d a : Opd) (k : Option Opd) (s : State) : Host.Outcome State Fault Refusal :=
  crossWord (.vvote h m d a k) h s
/-- R175. -/
def execVballot (h : Hdr) (cnt : Bool) (d a : Opd) (s : State) : Host.Outcome State Fault Refusal :=
  crossWord (.vballot h cnt d a) h s
/-- R176. -/
def execVredux (h : Hdr) (o : RedOp) (t : RedType) (sat : Bool) (r : Rnd) (d a : Opd) (s : State) :
    Host.Outcome State Fault Refusal := crossWord (.vredux h o t sat r d a) h s
/-- R176. -/
def execVscan (h : Hdr) (o : RedOp) (t : RedType) (sat excl : Bool) (r : Rnd) (d a : Opd) (s : State) :
    Host.Outcome State Fault Refusal := crossWord (.vscan h o t sat excl r d a) h s
/-- R177. -/
def execVmatch (h : Hdr) (w64 : Bool) (d a : Opd) (s : State) : Host.Outcome State Fault Refusal :=
  crossWord (.vmatch h w64 d a) h s
/-- R177. -/
def execVlanemap (h : Hdr) (d a : Opd) (s : State) : Host.Outcome State Fault Refusal :=
  crossWord (.vlanemap h d a) h s

end Sys2Proof.Machine
end

