-- ==== Sys2Proof/Machine/Control.lean ====
section
/-! DEFINITION. Class 4: control transfers, reconvergence, exit and the trap instructions, with the event
of a `rejoin`'s release (07 R159 to R167). -/

namespace Sys2Proof.Machine

/-- The threads that continue at the following word of a transfer: those with a false guard (R159). -/
def falseFall (w : Iss) : List Nat := w.mem.filter fun t => !w.ts.contains t

/-- The target of `bra` and `call`, computed exactly (R32, R159). -/
def relTarget (pc : PC) (i : BitVec 32) : Int := (pc.toNat : Int) + 12 + 4 * i.toInt

/-- A transfer to targets given for each thread: the checks of R159, then the writes and the PCs. -/
def State.transfer (s : State) (w : Iss) (tgt : Nat → Nat) (wr : List (RegAt × DWord)) : Res :=
  let mis := w.ts.filter fun t => tgt t % 4 != 0
  let out := w.ts.filter fun t => decide (2 ^ 57 ≤ tgt t)
  match mis, out with
  | [], [] =>
      let jump := w.ts.map fun t => (t, BitVec.ofNat 57 (tgt t))
      match wr with
      | [] => .done { s := s, jump := jump }
      | wr => .done { s.laterWrite w w.ts wr with jump := jump }
  | [], bad => .trap .prot 0 bad (bad.map fun t => (t, tgt t))
  | bad, _ => .trap .misalign 0 bad (bad.map fun t => (t, tgt t))

/-- `bra` and `call`: one displacement for every thread. -/
def relWord (i : Instr) (h : Hdr) (imm : BitVec 32) (wr : Iss → List (RegAt × DWord)) (s : State) :
    Host.Outcome State Fault Refusal :=
  runWord i h falseFall (fun w s =>
    let t := relTarget w.pc imm
    if t < 0 then .trap .prot 0 w.ts []
    else s.transfer w (fun _ => t.toNat) (wr w)) s

/-- The return address, PC + 12, in the pair that D names (R161). -/
def Iss.linkTo (w : Iss) (d : Opd) : List (RegAt × DWord) :=
  w.ts.flatMap fun t => w.tm.dest t d 2 (w.pc.toNat + 12)

/-- `brx`, `callx` and `ret`: the target each thread reads. -/
def regWord (i : Instr) (h : Hdr) (a : Opd) (wr : Iss → List (RegAt × DWord)) (s : State) :
    Host.Outcome State Fault Refusal :=
  runWord i h falseFall (fun w s => s.transfer w (fun t => w.tm.n64 t a) (wr w)) s

/-- R161. -/
def execBra (h : Hdr) (i : BitVec 32) (s : State) : Host.Outcome State Fault Refusal :=
  relWord (.bra h i) h i (fun _ => []) s
/-- R161. -/
def execBrx (h : Hdr) (a : Opd) (s : State) : Host.Outcome State Fault Refusal :=
  regWord (.brx h a) h a (fun _ => []) s
/-- R161: a variable-latency producer of D. -/
def execCall (h : Hdr) (i : BitVec 32) (d : Opd) (s : State) : Host.Outcome State Fault Refusal :=
  relWord (.call h i d) h i (fun w => w.linkTo d) s
/-- R161. -/
def execCallx (h : Hdr) (d a : Opd) (s : State) : Host.Outcome State Fault Refusal :=
  regWord (.callx h d a) h a (fun w => w.linkTo d) s
/-- R161: as `brx`. -/
def execRet (h : Hdr) (a : Opd) (s : State) : Host.Outcome State Fault Refusal :=
  regWord (.ret h a) h a (fun _ => []) s

/-- A word that dissolves its group, whatever the guards (R162). -/
def groupWord (h : Hdr) (s : State) : Host.Outcome State Fault Refusal :=
  match s.iss h.g with
  | none => .fault .noIssuer
  | some w =>
      match w.past w.mem with
      | [] => .next (State.finish w h.ht { s := s, diss := true })
      | bad => .next (s.wordTrap w .prot 0 bad [] .word)

/-- R162. -/
def execReform (h : Hdr) (s : State) : Host.Outcome State Fault Refusal := groupWord h s
/-- R162: a `nop` whose yield hint is set. -/
def execYield (h : Hdr) (s : State) : Host.Outcome State Fault Refusal :=
  groupWord { h with ht := { h.ht with yld := true } } s
/-- R162. -/
def execNop (h : Hdr) (s : State) : Host.Outcome State Fault Refusal :=
  runWord (.nop h) h allFall (fun _ s => .done { s := s }) s

/-- The join mask of a thread: A[31:0] with its own lane (R166). -/
def joinMask (tm : Team) (t : Nat) (a : Opd) : BitVec 32 := BitVec.ofNat 32 (tm.n32 t a ||| 2 ^ laneOf t)

/-- R166: threads with a true guard arrive; the others pass. -/
def execRejoin (h : Hdr) (a : Opd) (s : State) : Host.Outcome State Fault Refusal :=
  runWord (.rejoin h a) h allFall (fun w s =>
    let s := w.ts.foldl (fun s t => s.setState w.core w.slot [t] (.rejoin (joinMask w.tm t a))) s
    .done { s := s, jump := w.ts.map fun t => (t, w.pc) }) s

/-- The threads of a home group At rejoin at a PC, with their masks. -/
def Team.atRejoin (tm : Team) (g : Nat) (pc : PC) : List (Nat × BitVec 32) :=
  tm.threads.filterMap fun e => match e.2.st with
    | .rejoin m => if hgOf e.1 = g ∧ e.2.pc = pc then some (e.1, m) else none
    | _ => none

/-- The release test (R166): every lane waited for was never launched, has exited or has arrived. -/
def Team.mayRelease (tm : Team) (g : Nat) (q : List (Nat × BitVec 32)) : Bool :=
  !q.isEmpty && q.all fun e => (List.range 32).all fun l =>
    !e.2.getLsbD l || tm.exited (32 * g + l) || q.any fun x => x.1 == 32 * g + l

/-- REJOIN_RELEASE (R166): the threads are filed for the following word, with one filing cycle. -/
def execRejoinRelease (core slot hg : Nat) (pc : PC) (s : State) : Host.Outcome State Fault Refusal :=
  match s.team? core slot with
  | none => .next s
  | some tm =>
      let q := tm.atRejoin hg pc
      if tm.mayRelease hg q && !tm.frozen then
        .next (s.file core slot (q.map fun e => (e.1, BitVec.ofNat 57 (pc.toNat + 12))))
      else .next s

/-- R163: the threads enter Exited at the end of the cycle (06 R144). -/
def execExit (h : Hdr) (s : State) : Host.Outcome State Fault Refusal :=
  runWord (.exit h) h falseFall (fun w s =>
    .done { s := s.modCore w.core fun k => { k with exits := k.exits ++ [(w.slot, w.ts)] } }) s

/-- R164. -/
def execSwtrap (h : Hdr) (code : BitVec 13) (s : State) : Host.Outcome State Fault Refusal :=
  runWord (.swtrap h code) h allFall (fun _ _ => .softTrap .swtrap code.toNat) s
/-- R164. -/
def execBkpt (h : Hdr) (code : BitVec 13) (s : State) : Host.Outcome State Fault Refusal :=
  runWord (.bkpt h code) h allFall (fun _ _ => .softTrap .bkpt code.toNat) s

end Sys2Proof.Machine
end

