-- ==== Sys2Proof/Machine/Sched.lean ====
section
/-! DEFINITION. The core's scheduler: instruction fetch, which words are held, which group issues
next, drawing issue groups, and what is tested at the end of a cycle (02 R28, R39, R40; 06 R145 to
R155; 16 R347, R350). -/

namespace Sys2Proof.Machine

/-! ## Watch points (20 R416) and fetch (02 R28; 16 R347) -/

/-- Whether an access of a kind (bit of R416) by a context overlaps a watch point of the core. -/
def Core.watched (k : Core) (ctx va n kind : Nat) : Bool :=
  k.watch.any fun e => e.2.len != 0 && e.2.ctx == ctx && e.2.kinds.getLsbD kind
    && decide (va < e.2.base + e.2.len) && decide (e.2.base < va + n)

/-- What a fetch finds. -/
inductive Fetch where
  | word (w : IWord)
  | fault (va : Nat)
  | bad (c : Cause) (va : Nat)
  deriving DecidableEq, Repr

/-- The bytes of a word that stand in two places, `m` of them in the first: unless they are uncorrectable, which their unit
and the core record, or a CXL device does not answer, as a free choice (19 R405). -/
def State.fetched (s : State) (c a p q m : Nat) : Fetch × State :=
  let (lost, s) := if inCxl p || inCxl q then s.drawBool else (false, s)
  if lost then (.bad .poison a, s.ero 11 0 (if 0x180000000000 ≤ p then 1 else 0) 14 ((s.core c).ctx.getD 0xFFFF) a)
  else if s.poisoned p m then (.bad .poison a, s.eroPoison c a (.mem p))
  else if decide (m < 12) && s.poisoned q (12 - m) then (.bad .poison a, s.eroPoison c a (.mem q))
  else if m = 12 then (.word (BitVec.ofNat 96 (leNat (s.readPa p 12))), s)
  else (.word (BitVec.ofNat 96 (leNat (Memory.readN s.mem p m ++ Memory.readN s.mem q (12 - m)))), s)

/-- Fetches the 12 bytes at a PC for a context on a core. -/
def State.fetch (s : State) (c ctx : Nat) (pc : PC) : Fetch × State :=
  let a := pc.toNat
  let z := a + 11
  if 2 ^ 57 ≤ z then (.bad .prot a, s)
  else if (s.core c).watched ctx a 12 4 then (.bad .watch a, s)
  else
    let (r, s) := s.translate c ctx a .fetch
    match r with
    | .prot => (.bad .prot a, s)
    | .poison => (.bad .poison a, s)
    | .fault => (.fault a, s)
    | .ok p =>
        if a / 65536 = z / 65536 then s.fetched c a p p 12
        else
          let m := 65536 - a % 65536
          let (r, s) := s.translate c ctx (a + m) .fetch
          match r with
          | .prot => (.bad .prot (a + m), s)
          | .poison => (.bad .poison (a + m), s)
          | .fault => (.fault (a + m), s)
          | .ok q => s.fetched c a p q m

/-! ## Holds (02 R39, R40; 06 R150, R151) -/

/-- The guards of a word, from its bits, one of which admits a thread: its own, or for a word of class 11 those of its
two halves (R29, R33, R37, R45); none where the guard is reserved. -/
def wordGuards (w : IWord) : Option (List Guard) :=
  let half (lo : Nat) : Guard := { neg := w.getLsbD (lo + 3), p := ⟨(w.extractLsb' lo 3).toNat % 48, Nat.mod_lt _ (by decide)⟩ }
  if w.extractLsb' 92 4 = 11#4 then some [half 40, half 0]
  else (Guard.ofBits (Raw.ofWord w).g).map fun g => [g]

/-- The hints of a word, from its bits (R33, R38); a pair word has no thresholds. -/
def wordHints (w : IWord) : Hints :=
  if w.extractLsb' 92 4 = 11#4 then
    { stall := w.extractLsb' 88 4, yld := w.getLsbD 87, post := w.extractLsb' 85 2, need := 0, fwd := false }
  else Hints.ofBits (Raw.ofWord w).ht

/-- Some guard of a word admits a thread. -/
def Team.guards (tm : Team) (gs : List Guard) (t : Nat) : Bool := gs.any fun g => tm.guard g t

/-- The registers whose values or places a word needs for a thread: its guards' predicates, whatever the rest of the
word holds (R37), and its operands where the guard is true. -/
def wordTouches (tm : Team) (cfg : Option TileCfg) (w : IWord) (i : Except Illegal Instr) (t : Nat) : List RegAt :=
  let gs := (wordGuards w).getD []
  gs.map (fun g => .p t g.p.val) ++ (match i with
    | .error _ => []
    | .ok (.pairWord _ _ _ p q) =>
        (if tm.halfGuard p t then Half.touches p t else []) ++ if tm.halfGuard q t then Half.touches q t else []
    | .ok i => if tm.guards gs t then (usesUnder cfg i).flatMap fun u => touches u tm t else [])

/-- What holds the next word of a group: for each thread the unmet counters and the pending registers;
the threads whose hold is a long-latency dependence at once; a stall or a fixed-latency interlock; and
whether an interlock alone holds it: nothing else keeps the word from issuing for any member (R39, R40). -/
structure HoldInfo where
  long : List (Nat × List (Nat × Nat) × List RegAt)
  quick : List Nat
  short : Bool
  miss : Bool
  deriving DecidableEq, Repr

/-- What holds a word for one thread: counters over their bounds, registers with a pending write, a stall, a register
of a fixed-latency result that is not usable, and whether the hold is long-latency at once. -/
structure ThreadHold where
  thr : Nat
  unmet : List (Nat × Nat)
  regs : List RegAt
  stall : Bool
  lat : Bool
  quick : Bool
  deriving DecidableEq, Repr

/-- The counters that a word's thresholds and post still wait for (R40). -/
def unmetNeeds (ht : Hints) (th : Thread) : List (Nat × Nat) :=
  let bound (code : Nat) : Option Nat := match code with
    | 1 => some 3
    | 2 => some 1
    | 3 => some 0
    | _ => none
  let need := [1, 2, 3].filterMap fun n =>
    match bound (ht.need.extractLsb' (2 * (n - 1)) 2).toNat with
    | some b => if b < th.counter n then some (n, b) else none
    | none => none
  if ht.post != 0 && 63 ≤ th.counter ht.post.toNat then need ++ [(ht.post.toNat, 62)] else need

/-- The hold of a word for a group, if any. -/
def State.holdOf (s : State) (c : Nat) (g : Group) (w : IWord) (i : Except Illegal Instr) : HoldInfo :=
  let k := s.core c
  match Tab.get? k.teams g.slot with
  | none => { long := [], quick := [], short := true, miss := false }
  | some tm =>
      let ht := wordHints w
      let cfg := k.eng.conf
      -- what the team owed before a halt is not owed to the window its handler uses (16 R356)
      let owed (p : Pend) (r : RegAt) : Bool := p.regs.contains r && (match tm.trap with
        | some tr => !(tr.halted && decide (p.uid < tr.uid0) && tr.inWindow r)
        | none => true)
      let mine := k.pends.filter fun p => p.slot == g.slot
      let missed (uid : Nat) : Bool := mine.any fun p => p.uid == uid && p.missed
      let one (t : Nat) (th : Thread) : ThreadHold :=
        let unmet := unmetNeeds ht th
        let regs := wordTouches tm cfg w i t
        let pend := regs.filter fun r => mine.any fun p => owed p r
        { thr := t, unmet := unmet, regs := pend, stall := decide (k.now < th.notBefore)
          lat := k.ready.any fun e => e.1 == g.slot && decide (k.now < e.2.2) && regs.contains e.2.1
          quick := (th.posts.any fun p => !p.done && (unmet.any fun u => u.1 == p.ctr) && missed p.uid)
            || mine.any fun p => p.missed && p.regs.any fun r => pend.contains r }
      let rs := g.mem.filterMap fun t => (Tab.get? tm.threads t).map (one t)
      { long := rs.filterMap fun r => if r.unmet.isEmpty && r.regs.isEmpty then none else some (r.thr, r.unmet, r.regs)
        quick := rs.filterMap fun r => if r.quick then some r.thr else none
        short := decide (k.now < g.first) || rs.any fun r => r.stall || r.lat
        miss := decide (g.first ≤ k.now) && rs.all (fun r => r.unmet.isEmpty && !r.stall)
          && rs.any fun r => r.lat || !r.regs.isEmpty }

/-- Nothing holds the word. -/
def HoldInfo.free (h : HoldInfo) : Bool := h.long.isEmpty && !h.short

/-! ## Choosing the group that issues (06 R149, R154) -/

/-- Issues made in this cycle; a shared issue counts once. -/
def Core.issues (k : Core) : Nat := (k.issued.filter fun e => e.2.2.isNone).length

/-- A group whose next word can issue now: not one that issued or was found held in this cycle or that leaves the
active set, no member stopped, and no hold. A group whose fetch fails is tried too. -/
def State.canIssue (s : State) (c : Nat) (g : Group) : Bool :=
  let k := s.core c
  match Tab.get? k.teams g.slot with
  | none => false
  | some tm =>
      !g.ends && !k.tried.contains g.gid && !(k.issued.any fun e => e.1 == g.gid) && (g.mem.all fun t => tm.mayIssue k.now t)
        && (match (s.fetch c tm.ctx g.pc).1 with
            | .word w => (s.holdOf c g w (decodeWord w)).free
            | _ => decide (g.first ≤ k.now) && g.mem.all fun t => match Tab.get? tm.threads t with
                | some th => decide (th.notBefore ≤ k.now)
                | none => false)

/-- Pipe lanes of two groups do not overlap (R154). -/
def Group.apart (a b : Group) : Bool := !(a.lanes.any fun x => b.lanes.any fun y => x.2 == y.2)

/-- The word at a group's PC is of class 0, 1 or 11 (R154). -/
def State.coClass (s : State) (c : Nat) (g : Group) : Bool :=
  match Tab.get? (s.core c).teams g.slot with
  | none => false
  | some tm => match (s.fetch c tm.ctx g.pc).1 with
      | .word w => let k := (w.extractLsb' 92 4).toNat
                   k == 0 || k == 1 || k == 11
      | _ => false

/-- The group that takes the next issue slot: the oldest that can issue. -/
def State.nextGroup (s : State) (c : Nat) : Option Group :=
  if (s.core c).issues < 2 then (s.core c).groups.find? fun g => s.canIssue c g else none

/-- A younger group that may share the issue just made (R154): the group, and the older one. Where one may share,
the first of them in draw order does (log 28). -/
def State.shareGroup (s : State) (c : Nat) : Option (Group × Nat) :=
  let k := s.core c
  match k.issued.getLast? with
  | some (gid, pc, none) =>
      match k.groups.find? fun g => g.gid == gid with
      | some o =>
          match k.groups.find? fun g => g.slot == o.slot && g.pc == pc && g.gid != gid && Group.apart o g
              && s.coClass c g && s.canIssue c g with
          | some g => some (g, gid)
          | none => none
      | none => none
  | _ => none

/-- What an issue slot comes to. -/
inductive Attempt where
  | idle (s : State)
  | run (i : Instr) (s : State)

/-- The fetch of the current word is held (16 R350, R353; R151, fourth row). -/
def State.holdFetch (s : State) (on : Nat → List HoldOn) : State :=
  match s.issBy fun _ _ => true with
  | some w => s.holdWord w on
  | none => s

/-- Threads park on a missing page of an instruction fetch, one sub-group for each home group (16
R350); with no room for the faults the word is held. -/
def State.parkFetch (s : State) (c : Nat) (g : Group) (tm : Team) (va : Nat) : State :=
  let hs := sortNat (g.mem.map hgOf)
  match s.ctx? tm.ctx with
  | none => s
  | some x =>
      if Config.maxFaults < x.openFaults + hs.length then s.holdFetch fun _ => [.faults hs.length]
      else hs.foldl (fun s h =>
        let mem := g.mem.filter fun t => hgOf t == h
        let (fid, s) := s.newFault tm.ctx tm.index
          { fid := 0, kind := 5, core := c, slot := g.slot, wid := tm.wid, hg := h, va := va, mem := mem, pc := g.pc,
            accs := [], uids := [], cmd := none, reissue := true, cont := g.pc, accepted := 0, info := 0,
            pending := true }
        s.setState c g.slot mem (.parked fid)) s

/-- The datapath check of a word fails again: the team halts with `POISON` at the word, which writes nothing (20 R407). -/
def State.checkFails (s : State) (c : Nat) : State :=
  let s := s.modCore c fun k => { k with check := false }
  match s.iss { neg := false, p := 0 } with
  | none => s
  | some is => s.wordTrap is .poison 0 is.mem [] .word

/-- Issues the next word of a group: fetch, then decode steps 1 to 6 (R45). -/
def State.attempt (s : State) (c : Nat) (g : Group) (share : Option Nat) : Attempt :=
  match Tab.get? (s.core c).teams g.slot with
  | none => .idle s
  | some tm =>
      let s := { s with cur := some { core := c, slot := g.slot, gid := g.gid, pc := g.pc, mem := g.mem, share := share } }
      let moving := [g.pc.toNat, g.pc.toNat + 11].filter fun a => s.migrating tm.ctx a
      if !moving.isEmpty then .idle { s.holdFetch fun _ => moving.map fun a => .page tm.ctx a with cur := none }
      else
      let (f, s) := s.fetch c tm.ctx g.pc
      match f with
      | .word w =>
          match decodeWord w with
          | .ok i => if (s.core c).check then .idle { s.checkFails c with cur := none } else .run i s
          | .error e =>
              match s.issBy fun tm t => match wordGuards w with
                | some gs => tm.guards gs t
                | none => true with
              | none => .idle { s with cur := none }
              | some is =>
                  let s :=
                    if e = .reservedGuard then s.wordTrap is .ill 0 is.mem [] .word
                    else if !is.ts.isEmpty then s.wordTrap is .ill 0 is.ts [] .word
                    else match is.past is.mem with
                      | [] => State.finish is (wordHints w) { s := s }
                      | bad => s.wordTrap is .prot 0 bad [] .word
                  .idle { s with cur := none }
      | .fault va => .idle { s.parkFetch c g tm va with cur := none }
      | .bad cause va =>
          match s.iss { neg := false, p := 0 } with
          | none => .idle { s with cur := none }
          | some is =>
              .idle { s.wordTrap is cause 0 is.mem (is.mem.map fun t => (t, va)) .word with cur := none }

/-! ## Drawing issue groups (06 R145 to R148) -/

/-- A bin: its filing cycle, team slot and PC, and its threads in order. -/
structure Bin where
  filed : Nat
  slot : Nat
  pc : Nat
  mem : List Nat
  deriving DecidableEq, Repr

/-- Adds a thread to the bins. -/
def addBin (slot pc filed t : Nat) : List Bin → List Bin
  | [] => [{ filed := filed, slot := slot, pc := pc, mem := [t] }]
  | b :: bs =>
      if b.slot = slot ∧ b.pc = pc then { b with filed := min b.filed filed, mem := b.mem ++ [t] } :: bs
      else b :: addBin slot pc filed t bs

/-- The bins of a core as they stood at the start of the cycle; a frozen team's threads stay as they are (16 R360). -/
def Core.bins (k : Core) : List Bin :=
  (k.teams.filter fun e => !e.2.frozen).foldl (fun bs e =>
    e.2.threads.foldl (fun bs th =>
      match th.2.st with
      | .binned f => if f < k.now && e.2.mayIssue k.now th.1 then addBin e.1 th.2.pc.toNat f th.1 bs else bs
      | _ => bs) bs) []

/-- The age of a bin reaches 16 cycles (R146, R147). -/
def Bin.old (b : Bin) (now : Nat) : Bool := b.filed + 16 ≤ now

/-- A bin is full, or flagged aged (R147). -/
def Core.eligible (k : Core) (b : Bin) : Bool :=
  32 ≤ b.mem.length || (b.old k.now && k.aged.contains (b.slot, BitVec.ofNat 57 b.pc))

/-- The earlier of two bins in the order of R147. -/
def Bin.before (a b : Bin) : Bool :=
  a.filed < b.filed || (a.filed == b.filed && (a.slot < b.slot || (a.slot == b.slot && a.pc < b.pc)))

/-- The first bin in that order. -/
def firstBin : List Bin → Option Bin
  | [] => none
  | b :: bs => match firstBin bs with
      | none => some b
      | some c => if Bin.before b c then some b else some c

/-- The bin that a draw takes now (R147). -/
def Core.drawable (k : Core) : Option Bin :=
  if k.drawn || 8 ≤ k.groups.length then none
  else
    let bs := k.bins
    match firstBin (bs.filter fun b => k.eligible b) with
    | some b => some b
    | none => if k.groups.isEmpty then firstBin bs else none

/-- Places members in pipe lanes (R148). -/
def placeLanes : List Nat → List Nat → Tab Nat
  | [], _ => []
  | t :: ts, free =>
      let l := if free.contains (laneOf t) then laneOf t else free.headD 0
      Tab.set (placeLanes ts (free.filter fun x => x != l)) t l

/-- Draws an issue group from a bin (R147, R148). Threads left in it keep their filing cycles, and with them their age. -/
def State.drawGroup (s : State) (c : Nat) (b : Bin) : State :=
  let mem := b.mem.take 32
  let now := (s.core c).now
  let (gid, s) := s.newUid
  let lanes := placeLanes mem (List.range 32)
  let g : Group := { gid := gid, slot := b.slot, pc := BitVec.ofNat 57 b.pc, mem := mem, drawn := now, first := now + 1,
                     heldAt := none, missed := false, lanes := lanes, ends := false }
  let s := s.modCore c fun k => { k with
    groups := k.groups ++ [g]
    drawn := true }
  s.modTeam c b.slot fun tm => mem.foldl (fun tm t => tm.modThread t fun th => { th with st := .active gid }) tm

/-! ## The end of a cycle -/

/-- The next word of a group as its fetch finds it. -/
def State.peekWord (s : State) (c : Nat) (g : Group) : Option IWord :=
  match Tab.get? (s.core c).teams g.slot with
  | none => none
  | some tm => match (s.fetch c tm.ctx g.pc).1 with
      | .word w => some w
      | _ => none

/-- A group that has not issued and whose next word is held. -/
def State.held? (s : State) (c : Nat) (g : Group) : Option HoldInfo :=
  if (s.core c).issued.any fun e => e.1 == g.gid then none
  else match s.peekWord c g with
    | none => none
    | some w =>
        let h := s.holdOf c g w (decodeWord w)
        if h.free then none else some h

/-- The group has a long-latency dependence that dissolves it (R151). A hold has lasted 8 cycles, where the spec does
not say from which point they count, at the end of the eighth cycle after the first held one (log 25). No
word is exempt, the multiplies of 12 R274 and R281 included (log 39). -/
def State.mustDissolve (s : State) (c : Nat) (g : Group) : Bool :=
  match s.held? c g with
  | none => false
  | some h => !h.quick.isEmpty || (!h.long.isEmpty && (match g.heldAt with
      | some a => decide (a + 8 ≤ (s.core c).now)
      | none => false))

/-- Notes at the end of a cycle: when a hold on a variable-latency producer began, and the hint miss
of a word that an interlock holds, once for each word (R39, R40, R151). -/
def State.noteHolds (s : State) (c : Nat) : State :=
  (s.core c).groups.foldl (fun s g =>
    match s.held? c g with
    | none => s
    | some h =>
        let now := (s.core c).now
        let count := h.miss && !g.missed && decide ((s.core c).issues < 2)
        s.modCore c fun k =>
          { k with hintMiss := if count then k.hintMiss + 1 else k.hintMiss
                   groups := k.groups.map fun x =>
                     if x.gid = g.gid then
                       { x with heldAt := if h.long.isEmpty then none else some (x.heldAt.getD now)
                                missed := x.missed || count }
                     else x }) s

/-- The `exit`s of the cycle take effect (R144). -/
def State.endExits (s : State) (c : Nat) : State :=
  let es := (s.core c).exits
  es.foldl (fun s e => s.exitThreads c e.1 e.2) (s.modCore c fun k => { k with exits := [] })

/-- Issue groups that leave the active set at the end of the cycle do so: their members are filed (06 R144). -/
def State.endGroups (s : State) (c : Nat) : State :=
  ((s.core c).groups.filter fun g => g.ends).foldl (fun s g => s.dissolve c g.gid) s

/-- Reads in flight that the L1 reports as missed: not to the core's own scratchpad and not in the
local L1; when it reports is free (R151). -/
def State.noteMisses (s : State) (c : Nat) : State :=
  (s.core c).pends.foldl (fun s p =>
    match p.src with
    | .load a g =>
        let loc := match g with
          | .scr r _ => r.core == c
          | .mem pa => a.path == .ls && ((s.core c).l1Hit p.slot (pa / 64)).isSome
          | .wst _ _ => false
        if p.missed || loc then s
        else
          let (b, s) := s.drawBool
          if b then s.modCore c fun k =>
            { k with pends := k.pends.map fun q => if q.uid = p.uid then { q with missed := true } else q }
          else s
    | _ => s) s

/-- A cycle of an `idle` wait passes (16 R344). -/
def idleTick (st : TState) : TState :=
  match st with
  | .waiting (.idle n b) => .waiting (.idle (n - 1) b)
  | st => st

/-- A window of a die's weight store is on, in the time of the die's first core: the cores of a die advance one by one
here, and each keeps the time of its own `sr.wsnext` (08 R191; log 1). -/
def State.wsDue (s : State) (die : Nat) : Bool := decide ((s.core (96 * die)).wsPhase < Config.wsLength * Config.wsUnit)

/-- A window of a die's weight store begins, where its time has come, and scrubs the next 4 KiB; what the scrub finds is a
free choice (20 R407). -/
def State.wsEnter (s : State) (die : Nat) : State :=
  if (s.die die).wsIn || !s.wsDue die then s
  else
    let at' := (s.die die).wsScrub * 4096
    let (v, s) := s.draw
    let (o, s) := s.draw
    let line := at' + 64 * (o % 64)
    let s := s.modDie die fun d => { d with wsIn := true, wsScrub := (d.wsScrub + 1) % 262144 }
    match v % 3 with
    | 1 => s.ero 9 die 0 1 0xFFFF line
    | 2 => (s.modDie die fun d => { d with wpoison := insertNat line d.wpoison }).ero 9 die 0 2 0xFFFF line
    | _ => s

/-- A window of a die's weight store ends, where its time is over. -/
def State.wsLeave (s : State) (die : Nat) : State := if s.wsDue die then s else s.modDie die fun d => { d with wsIn := false }

/-- A window of a die's weight store begins or ends with the cycle that its first core has begun. -/
def State.wsTurn (s : State) (c : Nat) : State :=
  if c % 96 != 0 || s.wsDue (c / 96) == (s.die (c / 96)).wsIn then s
  else if s.wsDue (c / 96) then s.wsEnter (c / 96)
  else s.wsLeave (c / 96)

/-- Advances a core's cycle number: results of fixed latency due then are written for their posts,
interlocks that are over go, idle counts run, the sorter takes 32 pairs (11 R260). -/
def State.tickCore (s : State) (c : Nat) : State :=
  let now := (s.core c).now
  let s := ((s.core c).pends.filter fun p => match p.src with
      | .vals _ (some d) => decide (d ≤ now + 1)
      | _ => false).foldl (fun s p => match p.src with
        | .vals w _ => s.writeBack c p w
        | _ => s) s
  let s := ((s.core c).teams.filter fun e => e.2.fin).foldl (fun s e => s.reap e.2.grid e.2.cluster) s
  let mhz := (s.die (c / 96)).mhz
  State.wsTurn (c := c) <| s.modCore c fun k =>
    { k with
      cyc := k.cyc + 1
      wsPhase := (k.wsPhase + Config.wsCycle mhz) % (Config.wsPeriod * Config.wsUnit)
      issued := []
      tried := []
      drawn := false
      aged := k.aged.filter fun e => k.bins.any fun b => b.slot == e.1 && b.pc == e.2.toNat && b.old now
      ready := k.ready.filter (fun e => now + 1 < e.2.2)
      srt := { k.srt with fill := k.srt.fill - 32 }
      teams := k.teams.map fun e => if e.2.frozen then e else (e.1, { e.2 with
        threads := e.2.threads.map fun th => (th.1, { th.2 with st := idleTick th.2.st })
        trap := e.2.trap.map fun tr => { tr with prior := tr.prior.map fun p => { p with st := idleTick p.st } } }) }

end Sys2Proof.Machine
end

