-- ==== Sys2Proof/Machine/Memory.lean ====
section
/-! DEFINITION. Class 5 and the memory accesses of class 2: addresses and their checks, translation and
parking, loads, stores, atomics, prefetch, and the events that perform what is in flight (09 R201 to
R214; 04 R110; 08 R183, R184, R189; 16 R345 to R350). -/

namespace Sys2Proof.Machine

/-- One access as an instruction forms it: the thread that performs it, its address, and the threads
that park with it (R201, R203; 04 R110). -/
structure Req where
  t : Nat
  va : Nat
  park : List Nat
  deriving DecidableEq, Repr

/-! ## Addresses (R201) -/

/-- (A + B) mod 2^64: A a pair or a scalar, B read as `.i32`. -/
def Team.gaddr (tm : Team) (t : Nat) (a b : Opd) : Nat :=
  intBits 64 ((tm.n64 t a : Int) + IType.val .i32 (tm.n32 t b))
/-- (A + B) mod 2^32: A as `.n32`, B as `.i32`. -/
def Team.laddr (tm : Team) (t : Nat) (a b : Opd) : Nat :=
  intBits 32 ((tm.n32 t a : Int) + IType.val .i32 (tm.n32 t b))

/-- One access for each thread with a true guard, in thread order. -/
def Iss.reqs (w : Iss) (f : Nat → Nat) : List Req := (sortNat w.ts).map fun t => { t := t, va := f t, park := [t] }

/-- Teams of a cluster (06 R140): 1 without a cluster shape. -/
def State.clusterSize (s : State) (grid : Nat) : Nat :=
  match Tab.get? s.grids grid with
  | some g => max 1 (fieldLe g.record 17 1 * fieldLe g.record 18 1)
  | none => 1

/-- The team of a rank of a team's cluster (08 R184, R185). -/
def State.rankTeam (s : State) (tm : Team) (rank : Nat) : Option TRef :=
  ((s.clusterTeams tm.grid tm.cluster).find? fun e => e.2.2.rank == rank).map fun e =>
    { core := e.1, slot := e.2.1, wid := e.2.2.wid }

/-- The checks of a cluster address over `n` bytes (R184). -/
def State.clusterOk (s : State) (tm : Team) (a n : Nat) : Bool :=
  a < 2 ^ 25 && a / 2 ^ 21 % 16 < s.clusterSize tm.grid && a % 2 ^ 21 + n ≤ tm.loc
    && decide (a % 2 ^ 21 < tm.loc)

/-- Where a cluster address lies. -/
def State.clusterTgt (s : State) (w : Iss) (a : Nat) : Option Tgt :=
  if a / 2 ^ 21 % 16 = w.tm.rank then some (.scr w.tref (a % 2 ^ 21))
  else (s.rankTeam w.tm (a / 2 ^ 21 % 16)).map fun r => .scr r (a % 2 ^ 21)

/-- The checks of R201 in their order: alignment, then the space's own check. -/
def checkReqs (rs : List Req) (align : Nat) (ok : Nat → Bool) : Option (Cause × List Nat × Tab Nat) :=
  let mis := rs.filter fun r => r.va % align != 0
  let bad := rs.filter fun r => !ok r.va
  let res (c : Cause) (l : List Req) : Cause × List Nat × Tab Nat :=
    (c, l.flatMap (fun r => r.park), l.flatMap fun r => r.park.map fun t => (t, r.va))
  match mis, bad with
  | [], [] => none
  | [], bad => some (res .prot bad)
  | mis, _ => some (res .misalign mis)

/-! ## Translation of an instruction's accesses (16 R347, R348, R350) -/

/-- What translation finds for one access. -/
inductive Found where
  | ok (pa : Nat)
  | fault
  | bad (c : Cause)
  deriving DecidableEq, Repr

/-- The bit of R416 for a kind of access. -/
def AKind.watchBit : AKind → Nat
  | .load => 0
  | .store => 1
  | .atomic => 2
  | .fetch => 4

/-- Translates the accesses of one instruction, each page looked up once (R348). -/
def State.lookupAll (s : State) (c ctx : Nat) (k : AKind) (size : Nat) :
    List Req → List (Nat × Trans) → List (Req × Found) × State
  | [], _ => ([], s)
  | r :: rs, memo =>
      if (s.core c).watched ctx r.va size k.watchBit then
        let (l, s) := State.lookupAll s c ctx k size rs memo
        ((r, .bad .watch) :: l, s)
      else
        let page := r.va / 65536
        let (t, s) := match memo.find? fun e => e.1 == page with
          | some e => (e.2, s)
          | none => s.translate c ctx (page * 65536) k
        let f : Found := match t with
          | .ok p => .ok (p + r.va % 65536)
          | .fault => .fault
          | .prot => .bad .prot
          | .poison => .bad .poison
        let (l, s) := State.lookupAll s c ctx k size rs ((page, t) :: memo)
        ((r, f) :: l, s)

/-- The failing accesses of an instruction, all of them (16 R355), with the first failing one's cause. -/
def foundBad (l : List (Req × Found)) : Option (Cause × List Req) :=
  let bad := l.filterMap fun e => match e.2 with
    | .bad c => some (c, e.1)
    | _ => none
  match bad with
  | [] => none
  | (c, _) :: _ => some (c, bad.map fun b => b.2)

/-- Accesses of home groups of a team that are neither performed nor parked, and their `mld`, by name. -/
def Core.groupsLeft (k : Core) (slot : Nat) (hs : List Nat) : List Nat :=
  ((k.outs.filter fun y => y.slot == slot && hs.contains (hgOf y.thr) && !y.stuck).map fun y => y.uid)
    ++ (k.pends.filter fun p => p.slot == slot && hs.contains p.hg && !p.aside && k.mayLoad p && (match p.src with
      | .tile _ _ _ _ _ _ ps => !ps.isEmpty
      | _ => false)).map fun p => p.uid

/-- A permission or poison condition, or a watch point, found at translation: the earlier accesses of
the home groups are performed, so that the word is the oldest unperformed one (R206, 10 R250), and it
traps with nothing performed. While one of them stays unperformed the word is held. -/
def State.accessTrap (s : State) (w : Iss) (c : Cause) (bad : List Req) : Res :=
  let hs := dedup (bad.map fun r => hgOf r.t)
  let old := (s.team? w.core w.slot).bind fun tm => tm.trap
  let s := s.drain w.core w.slot (w.tm.launched.filter fun t => hs.contains (hgOf t)) fun _ => true
  let new := (s.team? w.core w.slot).bind fun tm => tm.trap
  let left := (s.core w.core).groupsLeft w.slot hs
  if old.isNone && new.isSome then .cut s
  else if !left.isEmpty then .hold fun _ => [.accs left]
  else .trapIn s c (bad.flatMap fun r => r.park) (bad.flatMap fun r => r.park.map fun t => (t, r.va))

/-- The parked sub-groups of an instruction: its faulting accesses by home group and page (R350). -/
def faultGroups : List Req → List (Nat × Nat × List Req)
  | [] => []
  | r :: rs =>
      let gs := faultGroups rs
      let k := (hgOf r.t, r.va / 65536)
      if gs.any fun g => g.1 == k.1 && g.2.1 == k.2 then
        gs.map fun g => if g.1 == k.1 && g.2.1 == k.2 then (g.1, g.2.1, r :: g.2.2) else g
      else (k.1, k.2, [r]) :: gs

/-- Parks the sub-groups of a faulting instruction. `acc` gives each access, `uid` the names of the
results it owes. -/
def State.parkReqs (s : State) (w : Iss) (kind ins : Nat) (rs : List Req) (acc : Req → Access)
    (uids : Req → List (Nat × Nat)) : State :=
  (faultGroups rs).foldl (fun s g =>
    let mem := sortNat (g.2.2.flatMap fun r => r.park)
    let va := (g.2.2.map fun r => r.va).headD 0
    let (fid, s) := s.newFault w.tm.ctx w.tm.index
      { fid := 0, kind := kind, core := w.core, slot := w.slot, wid := w.tm.wid, hg := g.1, va := va, mem := mem,
        pc := w.pc, accs := g.2.2.map acc, uids := g.2.2.flatMap uids, cmd := none, reissue := false,
        cont := w.next, accepted := 0, info := ins, pending := true }
    s.setState w.core w.slot mem (.parked fid)) s

/-- No room for the faults of an instruction (R350). -/
def State.faultsFull (s : State) (ctx : Nat) (n : Nat) : Bool :=
  match s.ctx? ctx with
  | some x => n != 0 && Config.maxFaults < x.openFaults + n
  | none => false

/-! ## Issuing accesses -/

/-- What a migration holds for a thread: its accesses to the page (16 R353). -/
def State.pageHolds (s : State) (ctx : Nat) (rs : List Req) (t : Nat) : List HoldOn :=
  (rs.filter fun r => r.park.contains t && s.migrating ctx r.va).map fun r => .page ctx r.va

/-- Names for a list of accesses. -/
def State.newUids (s : State) : Nat → List Nat × State
  | 0 => ([], s)
  | n + 1 =>
      let (u, s) := s.newUid
      let (us, s) := State.newUids s n
      (u :: us, s)

/-- Puts a read or atomic in flight; its registers are pending until it is performed. -/
def State.sendRead (s : State) (w : Iss) (uid ins : Nat) (a : Access) (g : Tgt) (dst : List RegAt) : State :=
  (s.portTgt w.core uid g a.size).modCore w.core fun k => { k with pends := k.pends ++
    [{ uid := uid, ins := ins, slot := w.slot, hg := hgOf a.thr, regs := dst, src := .load a g,
       issuedAt := w.now, missed := false, urgent := false, aside := false }] }

/-- Registers that a parked access still owes. -/
def State.owe (s : State) (w : Iss) (uid ins : Nat) (a : Access) (dst : List RegAt) : State :=
  s.modCore w.core fun k => { k with pends := k.pends ++
    [{ uid := uid, ins := ins, slot := w.slot, hg := hgOf a.thr, regs := dst, src := .wait,
       issuedAt := w.now, missed := true, urgent := false, aside := false }] }

/-- Puts a store in the core's store queue. -/
def State.sendStore (s : State) (w : Iss) (uid ins : Nat) (a : Access) (g : Tgt) (data : List Byte) (mem : List Nat) :
    State :=
  (s.portTgt w.core uid g data.length).modCore w.core fun k => { k with storeQ := k.storeQ ++
    [{ uid := uid, ins := ins, slot := w.slot, wid := w.tm.wid, thr := a.thr, hg := hgOf a.thr, path := a.path,
       va := a.va, tgt := g, data := data, pc := w.pc, mem := mem, parked := none, sc := a.sc, near := false, seen := false,
       again := false, aside := false }] }

/-- One access performed at once at a scratchpad of the core, with the writes of its result. -/
def State.localNow (s : State) (a : Access) (g : Tgt) : List (RegAt × DWord) × State :=
  match a.act with
  | .store data => ([], s.writeTgt g data)
  | act =>
      let old := leNat (s.readTgt g a.size)
      (act.results old, if act.isRmw then s.writeTgt g (leBytes a.size (act.update old)) else s)

/-- The destinations of an access. -/
def MemAct.dst : MemAct → List RegAt
  | .load dst => dst
  | .store _ => []
  | .atom _ _ _ _ _ dst => dst
  | .elect _ d p => d ++ p

/-- Sends the accesses that translated, in thread order, and gives what each thread's post waits for. -/
def State.sendAll (s : State) (w : Iss) (ins : Nat) (acc : Req → Access) :
    List (Req × Nat × Tgt) → List (Nat × Nat) → State × List (Nat × Nat)
  | [], owes => (s, owes)
  | (r, uid, g) :: rest, owes =>
      let a := acc r
      match a.act with
      | .store data => State.sendAll (s.sendStore w uid ins a g data r.park) w ins acc rest owes
      | act => State.sendAll (s.sendRead w uid ins a g act.dst) w ins acc rest
                 (if act.dst.isEmpty then owes else owes ++ r.park.map fun t => (t, uid))

/-- Runs a step that may raise a trap for this team; the trap ends the issue attempt. -/
def State.guarded (s : State) (w : Iss) (f : State → State) : Except State State :=
  let old := (s.team? w.core w.slot).bind fun tm => tm.trap
  let s := f s
  let new := (s.team? w.core w.slot).bind fun tm => tm.trap
  if old.isNone && new.isSome then .error s else .ok s

/-- Performs the accesses of the core that `f` selects before a word that takes effect as it issues. One that stays
unperformed, held by the scoreboard of its target, holds the word for the threads that it concerns (log 27). -/
def State.performFirst (s : State) (w : Iss) (f : OutAcc → Bool) : Except Res State :=
  let sel (s : State) : List OutAcc := (s.core w.core).outs.filter f
  match s.guarded w fun s => (sortNat ((sel s).map fun y => y.uid)).foldl (fun s u => s.performAcc w.core u) s with
  | .error s => .error (.cut s)
  | .ok s =>
      let on (t : Nat) : List Nat :=
        ((sel s).filter fun y => y.near || y.thr == t || (y.elect && hgOf y.thr == hgOf t)).map fun y => y.uid
      if (sel s).isEmpty then .ok s else .error (.hold fun t => if (on t).isEmpty then [] else [.accs (on t)])

/-- What comes before an `ls` access that a word makes as it issues: accesses that a fence of its thread stands after,
stores among them where the word writes, with those that a wider fence of the core stands after, and the arrival of a
`lacnt` of its home group (09 R217; 10 R239; 11 R269). -/
def Iss.ahead (w : Iss) (s : State) (writes : Bool) (y : OutAcc) : Bool :=
  (y.slot == w.slot && w.ts.contains y.thr && OutAcc.fenced (s.core w.core).fences y && (writes || !y.isSt))
    || (y.elect && y.slot == w.slot && w.ts.any fun t => hgOf t == hgOf y.thr)
    || (writes && y.seen)

/-- Threads whose arrivals are not in their turn wait for it, and the word has no effect yet for the others (06 R151;
17 R372); an arrival that the journal does not hold is a mismatch. -/
def State.waitTurn (s : State) (w : Iss) (late : List (List Nat × Arrival)) : Done :=
  let s := late.foldl (fun s e => match s.turn w.tm.ctx e.2 with
    | .none => s.mismatch w.tm.ctx
    | _ => s) s
  s.waitAt w (late.flatMap fun e => e.1.map fun t => (t, .journal e.2)) []

/-- At level 3 each journaled arrival performs in its turn, or is held (17 R372): those that go on, those
held, and the journal with the arrivals consumed. -/
def State.gate {α : Type} (w : Iss) (arr : α → Option Arrival) : List α → State → List α × List α × State
  | [], s => ([], [], s)
  | x :: xs, s =>
      match arr x with
      | none =>
          let (g, h, s) := State.gate w arr xs s
          (x :: g, h, s)
      | some a =>
          match s.turn w.tm.ctx a with
          | .free =>
              let (g, h, s) := State.gate w arr xs s
              (x :: g, h, s)
          | .now e =>
              let (g, h, s) := State.gate w arr xs (s.consume w.tm.ctx a e)
              (x :: g, h, s)
          | .wait =>
              let (g, h, s) := State.gate w arr xs s
              (g, x :: h, s)
          | .none =>
              let (g, h, s) := State.gate w arr xs (s.mismatch w.tm.ctx)
              (g, x :: h, s)

/-- The journaled arrival of an access, if it is one. -/
def Iss.arrivalOf (w : Iss) (s : State) (r : Req) (acc : Req → Access) (g : Tgt) : Option Arrival :=
  if (acc r).act.journaled then some (w.tm.arrival r.t (s.site r.va g)) else none

/-- The context replays a journal. -/
def State.replaying (s : State) (ctx : Nat) : Bool :=
  match s.ctx? ctx with
  | some x => x.jrn.lvl == 3
  | none => false

/-- What stands before a word whose accesses are journaled and take their turns as it issues (17 R372): the threads' earlier
accesses are performed, the ports pass its requests, and no recorded range holds them; otherwise the word is held. -/
def State.turnReady (s : State) (w : Iss) (jrn : Bool) (gs : List Tgt) (size : Nat) : Except Res State :=
  if !(s.replaying w.tm.ctx && jrn) then .ok s
  else match s.performFirst w fun y => y.slot == w.slot && w.ts.contains y.thr with
    | .error r => .error r
    | .ok s =>
        let on := gs.flatMap fun g => match g with
          | .mem pa => if s.portFree w.core pa then [] else [HoldOn.port pa]
          | .scr r off => if (s.core r.core).sbHit false r.slot off size false then [.range r.core false r.slot off size] else []
          | .wst _ _ => []
        if on.isEmpty then .ok s else .error (.hold fun _ => on)

/-- Journaled accesses of a replaying context are performed as they issue, so that they keep their turn (17
R372): the state, and what stays owed. One whose bytes cannot be corrected is left to its read. -/
def State.inTurn (s : State) (w : Iss) (jrn : Bool) (us : List (Nat × Tgt)) (owes : List (Nat × Nat)) :
    State × List (Nat × Nat) :=
  if s.replaying w.tm.ctx && jrn then
    let s := us.foldl (fun s e => if s.badTgt e.2 1 then s else (s.passPorts w.core e.1).performAcc w.core e.1) s
    (s, owes.filter fun o => ((s.core w.core).pend? o.2).isSome)
  else (s, owes)

/-- A word of global accesses, checked: it translates all of them, traps, parks or sends them (R206,
R350). -/
def globalAccess (w : Iss) (s : State) (k : AKind) (size : Nat) (rs : List Req) (acc : Req → Access) : Res :=
  if rs.any fun r => s.migrating w.tm.ctx r.va then .hold (s.pageHolds w.tm.ctx rs)
  else
  let (fs, s) := State.lookupAll s w.core w.tm.ctx k size rs []
  match foundBad fs with
  | some (c, bad) => s.accessTrap w c bad
  | none =>
      let faulty := fs.filterMap fun e => if e.2 = .fault then some e.1 else none
      let groups := faultGroups faulty
      if s.faultsFull w.tm.ctx groups.length then
        .hold fun t => if faulty.any fun r => r.park.contains t then [.faults groups.length] else []
      else
        let (us, s) := State.newUids s rs.length
        let (ins, s) := s.newUid
        let named := (fs.zip us)
        let good := named.filterMap fun e => match e.1.2 with
          | .ok pa => some (e.1.1, e.2, Tgt.mem pa)
          | _ => none
        let bad := named.filterMap fun e => if e.1.2 = .fault then some (e.1.1, e.2) else none
        let uidOf (r : Req) : Nat := ((bad.find? fun e => e.1 == r).map fun e => e.2).getD 0
        let isRead := match k with
          | .store => false
          | _ => true
        match s.turnReady w (good.any fun e => (acc e.1).act.journaled) (good.map fun e => e.2.2) size with
        | .error r => r
        | .ok s =>
        let (good, late, s1) := State.gate w (fun e => w.arrivalOf s e.1 acc e.2.2) good s
        if !late.isEmpty then
          .done (s.waitTurn w (late.filterMap fun e => (w.arrivalOf s e.1 acc e.2.2).map fun a => (e.1.park, a)))
        else
        let s := s1
        let (s, owes) := State.sendAll s w ins acc good []
        let (s, owes) := s.inTurn w (good.any fun e => (acc e.1).act.journaled) (good.map fun e => e.2) owes
        let s := bad.foldl (fun s e =>
          if isRead && !(acc e.1).act.dst.isEmpty then s.owe w e.2 ins (acc e.1) (acc e.1).act.dst else s) s
        let names (r : Req) : List (Nat × Nat) := r.park.map fun t => (t, uidOf r)
        let owed (r : Req) : List (Nat × Nat) := if isRead && !(acc r).act.dst.isEmpty then names r else []
        let kind := match k with
          | .store => 1
          | .atomic => 2
          | _ => 0
        let s := s.parkReqs w kind ins (bad.map fun e => e.1) acc names
        let parked := bad.flatMap fun e => e.1.park
        .done { s := s, owes := owes ++ bad.flatMap (fun e => owed e.1), jump := parked.map fun t => (t, w.pc) }

/-- A word of scratchpad accesses whose places are known: those of this core are performed at once, in
thread order, unless the range scoreboard holds one (08 R193, R207); the others travel over the mesh. -/
def scratchAccess (w : Iss) (s : State) (size : Nat) (rs : List (Req × Tgt)) (acc : Req → Access) : Res :=
  let here (g : Tgt) : Bool := match g with
    | .scr r _ => r.core == w.core
    | _ => false
  let ranges (t : Nat) : List HoldOn := (rs.filter fun e => e.1.park.contains t && here e.2).filterMap fun e => match e.2 with
    | .scr r off => if (s.core r.core).sbHit false r.slot off size false then some (.range r.core false r.slot off size) else none
    | _ => none
  if w.ts.any fun t => !(ranges t).isEmpty then .hold ranges
  else
    let near := rs.filter fun e => here e.2
    let writes := near.any fun e => match (acc e.1).act with
      | .load _ => false
      | _ => true
    match if near.isEmpty then .ok s else s.performFirst w (w.ahead s writes) with
    | .error r => r
    | .ok s =>
    let poisoned := (near.filter fun e => s.badTgt e.2 size && (acc e.1).act.dst != []).map fun e => e.1
    if !poisoned.isEmpty then s.accessTrap w .poison poisoned
    else
      match s.turnReady w (rs.any fun e => !here e.2 && (acc e.1).act.journaled) ((rs.filter fun e => !here e.2).map fun e => e.2) size with
      | .error r => r
      | .ok s =>
      let (go, late, s1) := State.gate w (fun e => w.arrivalOf s e.1 acc e.2) rs s
      if !late.isEmpty then
        .done (s.waitTurn w (late.filterMap fun e => (w.arrivalOf s e.1 acc e.2).map fun a => (e.1.park, a)))
      else
        let (wr, s) := near.foldl (fun p e =>
          let (l, s) := State.localNow p.2 (acc e.1) e.2
          let s := if (acc e.1).act.journaled then s.record w.tm.ctx (w.tm.arrival e.1.t (s.site e.1.va e.2)) else s
          (p.1 ++ l, s)) (([] : List (RegAt × DWord)), s1)
        let d : Done := if wr.isEmpty then { s := s } else s.laterWrite w (near.flatMap fun e => e.1.park) wr
        let far := go.filter fun e => !here e.2
        let (us, s) := State.newUids d.s far.length
        let (ins, s) := s.newUid
        let (s, owes) := State.sendAll s w ins acc ((far.zip us).map fun e => (e.1.1, e.2, e.1.2)) []
        let (s, owes) := s.inTurn w (far.any fun e => (acc e.1).act.journaled) (us.zip (far.map fun e => e.2)) owes
        .done { d with s := s, owes := d.owes ++ owes }

/-! ## The instructions -/

/-- Destination registers of a thread (R202). -/
def Iss.dst (w : Iss) (t : Nat) (d : Opd) (n : Nat) : List RegAt := d.regs (w.tm.xs (hgOf t)) t n false

/-- Store data of a thread (R202). -/
def Iss.data (w : Iss) (t : Nat) (wd : AWidth) (c : Opd) : List Byte :=
  leBytes wd.bytes (w.tm.val t c wd.regs % 2 ^ (8 * wd.bytes))

/-- An access record. -/
def Iss.access (w : Iss) (r : Req) (path : Path) (size : Nat) (sc : Scope) (ch : CHint) (act : MemAct) : Access :=
  { path := path, thr := r.t, va := r.va, size := size, sc := sc, ch := ch, act := act, pc := w.pc }

/-- A global access word: the checks of R201, then translation. -/
def globalWord (i : Instr) (h : Hdr) (k : AKind) (size : Nat) (rs : Iss → List Req) (acc : Iss → Req → Access)
    (s : State) : Host.Outcome State Fault Refusal :=
  runWord i h allFall (fun w s =>
    match checkReqs (rs w) size (fun a => decide (a < 2 ^ 57)) with
    | some (c, m, as) => .trap c 0 m as
    | none => globalAccess w s k size (rs w) (acc w)) s

/-- A team scratchpad word: the checks of R201, then the accesses. -/
def localWord (i : Instr) (h : Hdr) (size : Nat) (rs : Iss → List Req) (acc : Iss → Req → Access) (s : State) :
    Host.Outcome State Fault Refusal :=
  runWord i h allFall (fun w s =>
    match checkReqs (rs w) size (fun a => decide (a + size ≤ w.tm.loc)) with
    | some (c, m, as) => .trap c 0 m as
    | none => scratchAccess w s size ((rs w).map fun r => (r, .scr w.tref r.va)) (acc w)) s

/-- A cluster scratchpad word (R184, R207). -/
def clusterWord (i : Instr) (h : Hdr) (size : Nat) (rs : Iss → List Req) (acc : Iss → Req → Access) (s : State) :
    Host.Outcome State Fault Refusal :=
  runWord i h allFall (fun w s =>
    match checkReqs (rs w) size (fun a => s.clusterOk w.tm a size) with
    | some (c, m, as) => .trap c 0 m as
    | none => scratchAccess w s size ((rs w).filterMap fun r => (s.clusterTgt w r.va).map fun g => (r, g)) (acc w)) s

/-- LD (R205). -/
def execLd (h : Hdr) (wd : AWidth) (sc : Scope) (ch : CHint) (d a b : Opd) (s : State) :
    Host.Outcome State Fault Refusal :=
  globalWord (.ld h wd sc ch d a b) h .load wd.bytes (fun w => w.reqs fun t => w.tm.gaddr t a b)
    (fun w r => w.access r .ls wd.bytes sc ch (.load (w.dst r.t d wd.regs))) s
/-- ST (R205). -/
def execSt (h : Hdr) (wd : AWidth) (sc : Scope) (ch : CHint) (a b c : Opd) (s : State) :
    Host.Outcome State Fault Refusal :=
  globalWord (.st h wd sc ch a b c) h .store wd.bytes (fun w => w.reqs fun t => w.tm.gaddr t a b)
    (fun w r => w.access r .ls wd.bytes sc ch (.store (w.data r.t wd c))) s
/-- LDL (R207). -/
def execLdl (h : Hdr) (wd : AWidth) (d a b : Opd) (s : State) : Host.Outcome State Fault Refusal :=
  localWord (.ldl h wd d a b) h wd.bytes (fun w => w.reqs fun t => w.tm.laddr t a b)
    (fun w r => w.access r .ls wd.bytes .team .dflt (.load (w.dst r.t d wd.regs))) s
/-- STL (R207). -/
def execStl (h : Hdr) (wd : AWidth) (a b c : Opd) (s : State) : Host.Outcome State Fault Refusal :=
  localWord (.stl h wd a b c) h wd.bytes (fun w => w.reqs fun t => w.tm.laddr t a b)
    (fun w r => w.access r .ls wd.bytes .team .dflt (.store (w.data r.t wd c))) s
/-- LDCL (R207, 08 R184). -/
def execLdcl (h : Hdr) (wd : AWidth) (d a b : Opd) (s : State) : Host.Outcome State Fault Refusal :=
  clusterWord (.ldcl h wd d a b) h wd.bytes (fun w => w.reqs fun t => w.tm.gaddr t a b)
    (fun w r => w.access r .ls wd.bytes .clu .dflt (.load (w.dst r.t d wd.regs))) s
/-- STCL (R207, 08 R184). -/
def execStcl (h : Hdr) (wd : AWidth) (a b c : Opd) (s : State) : Host.Outcome State Fault Refusal :=
  clusterWord (.stcl h wd a b c) h wd.bytes (fun w => w.reqs fun t => w.tm.gaddr t a b)
    (fun w r => w.access r .ls wd.bytes .clu .dflt (.store (w.data r.t wd c))) s
/-- LDRO (R208): `ld` at scope `.th` through the read-only path. -/
def execLdro (h : Hdr) (wd : AWidth) (ch : CHint) (d a b : Opd) (s : State) : Host.Outcome State Fault Refusal :=
  globalWord (.ldro h wd ch d a b) h .load wd.bytes (fun w => w.reqs fun t => w.tm.gaddr t a b)
    (fun w r => w.access r .ro wd.bytes .th ch (.load (w.dst r.t d wd.regs))) s

/-- A weight-store range (08 R189). -/
def weightOk (a n : Nat) : Bool := a < 2 ^ 31 && decide (a % 2 ^ 30 + n ≤ 2 ^ 30)

/-- LDW (R209; 08 R189 to R191): never a page fault. -/
def execLdw (h : Hdr) (wd : AWidth) (d a b : Opd) (s : State) : Host.Outcome State Fault Refusal :=
  runWord (.ldw h wd d a b) h allFall (fun w s =>
    let rs := w.reqs fun t => w.tm.gaddr t a b
    match checkReqs rs wd.bytes (fun a => weightOk a wd.bytes) with
    | some (c, m, as) => .trap c 0 m as
    | none =>
        let (us, s) := State.newUids s rs.length
        let (ins, s) := s.newUid
        let acc (r : Req) : Access := w.access r .ls wd.bytes .th .dflt (.load (w.dst r.t d wd.regs))
        let (s, owes) := State.sendAll s w ins acc
          ((rs.zip us).map fun e => (e.1, e.2, Tgt.wst (e.1.va / 2 ^ 30 % 2) (e.1.va % 2 ^ 30))) []
        .done { s := s, owes := owes }) s

/-- PREF (R210): at `.core` the line enters the L1, at `.die` its home slice; an address that meets any fault is dropped. -/
def execPref (h : Hdr) (die : Bool) (ch : CHint) (a b : Opd) (s : State) : Host.Outcome State Fault Refusal :=
  runWord (.pref h die ch a b) h allFall (fun w s =>
    let rs := w.reqs fun t => w.tm.gaddr t a b
    match checkReqs rs 1 (fun a => decide (a < 2 ^ 57)) with
    | some (c, m, as) => .trap c 0 m as
    | none =>
      if rs.any fun r => s.migrating w.tm.ctx r.va then .hold (s.pageHolds w.tm.ctx rs)
      else
        let (fs, s) := State.lookupAll s w.core w.tm.ctx .load 1 rs []
        let s := fs.foldl (fun s e => match e.2 with
          | .ok pa =>
              if s.poisoned pa 1 || inWindow pa then s
              else if die then s.touchL2 pa
              else if (s.core w.core).l1Lines = 0 then s
              else s.fillL1 w.core (pa / 64)
          | _ => s) s
        .done { s := s }) s

/-- The float format of an atomic type (R211). -/
def AtomTy.float : AtomTy → Option FType
  | .f32 => some .f32
  | .f16 => some .f16
  | .bf16 => some .bf16
  | _ => none

/-- Operand B of an atomic (R212). A short immediate of a float type is converted as R31 has it for float
instructions, with R212's rounding (log 36). -/
def Iss.atomB (w : Iss) (t : Nat) (ty : AtomTy) (b : Opd) : Nat :=
  match AtomTy.float ty, b with
  | some f, .imm i => roundFloat (FVal.ofInt i.toInt) f .rne false
  | _, o => w.tm.val t o ty.regs % 2 ^ ty.w

/-- The action of an atomic for a thread (R212): B, D as read before for `cas`, and D as destination. -/
def Iss.atomAct (w : Iss) (t : Nat) (o : AtomOp) (ty : AtomTy) (ord : Bool) (d : Option Opd) (b : Opd) : MemAct :=
  match d with
  | some x => .atom o ty ord (w.atomB t ty b) (w.tm.val t x ty.regs % 2 ^ ty.w) (w.dst t x ty.regs)
  | none => .atom o ty ord (w.atomB t ty b) 0 []

/-- ATOM (R211 to R213). -/
def execAtom (h : Hdr) (o : AtomOp) (t : AtomTy) (ord : Bool) (sc : Scope) (d a b : Opd) (s : State) :
    Host.Outcome State Fault Refusal :=
  globalWord (.atom h o t ord sc d a b) h .atomic (t.w / 8) (fun w => w.reqs fun th => w.tm.n64 th a)
    (fun w r => w.access r .ls (t.w / 8) sc .dflt (w.atomAct r.t o t ord (some d) b)) s
/-- ATOML (R214): at the scratchpad that holds the address. -/
def execAtoml (h : Hdr) (o : AtomOp) (t : AtomTy) (ord cl : Bool) (d a b : Opd) (s : State) :
    Host.Outcome State Fault Refusal :=
  let acc (w : Iss) (r : Req) : Access :=
    w.access r .ls (t.w / 8) .clu .dflt (w.atomAct r.t o t ord (some d) b)
  if cl then
    clusterWord (.atoml h o t ord cl d a b) h (t.w / 8) (fun w => w.reqs fun th => w.tm.n64 th a) acc s
  else
    localWord (.atoml h o t ord cl d a b) h (t.w / 8) (fun w => w.reqs fun th => w.tm.n32 th a) acc s
/-- RED (R211 to R213): as `atom` with no destination. -/
def execRed (h : Hdr) (o : AtomOp) (t : AtomTy) (ord : Bool) (sc : Scope) (a b : Opd) (s : State) :
    Host.Outcome State Fault Refusal :=
  globalWord (.red h o t ord sc a b) h .atomic (t.w / 8) (fun w => w.reqs fun th => w.tm.n64 th a)
    (fun w r => w.access r .ls (t.w / 8) sc .dflt (w.atomAct r.t o t ord none b)) s

/-- One access for each home group, by its lowest thread with a true guard; a fault parks all of its
threads with a true guard (04 R110). -/
def Iss.hgReqs (w : Iss) (f : Nat → Nat) : List Req :=
  w.hgs.map fun g => { t := w.lead g, va := f (w.lead g), park := w.of g }

/-- SLD (04 R110). -/
def execSld (h : Hdr) (wd : AWidth) (sc : Scope) (ch : CHint) (d a b : Opd) (s : State) :
    Host.Outcome State Fault Refusal :=
  globalWord (.sld h wd sc ch d a b) h .load wd.bytes
    (fun w => w.hgReqs fun t => (w.tm.n64 t a + w.tm.val t b 1) % 2 ^ 64)
    (fun w r => w.access r .ls wd.bytes sc ch (.load (w.dst r.t d 1))) s
/-- SST (04 R110). -/
def execSst (h : Hdr) (wd : AWidth) (sc : Scope) (ch : CHint) (a b c : Opd) (s : State) :
    Host.Outcome State Fault Refusal :=
  globalWord (.sst h wd sc ch a b c) h .store wd.bytes
    (fun w => w.hgReqs fun t => (w.tm.n64 t a + w.tm.val t b 1) % 2 ^ 64)
    (fun w r => w.access r .ls wd.bytes sc ch (.store (w.data r.t wd c))) s

/-! ## Performing what is in flight -/

/-- VARIABLE_LATENCY_WRITEBACK (02 R40, 04 R113): the k-th computed result of a core is written. -/
def execVariableLatencyWriteback (core k : Nat) (s : State) : Host.Outcome State Fault Refusal :=
  match ((s.core core).pends.filter fun p => match p.src with
      | .vals _ none => true
      | _ => false)[k]? with
  | some p => match p.src with
      | .vals w _ => .next (s.writeBack core p w)
      | _ => .next s
  | none => .next s

/-- A refresh window may hold a read of the weight store now (08 R191): of the core's own die while the
core is in a window and the read issued at most 32 cycles before it, of the other die while that die is in
one. Whether it does is a free choice. -/
def State.wsHeld (s : State) (c issued : Nat) (g : Tgt) : Bool × State :=
  let k := s.core c
  let may := match g with
    | .wst d _ =>
        if d = c / 96 then decide (k.wsPhase < Config.wsLength * Config.wsUnit)
          && decide (k.now - issued ≤ k.wsPhase / Config.wsCycle (s.die d).mhz + 32)
        else (s.die d).wsIn
    | _ => false
  if may then s.drawBool else (false, s)

/-- LOAD_DATA_RETURN (R205, R212): the k-th read or atomic in flight of a core is performed and its data
returns, an `mld`'s data to its tile. A read of the weight store may be held while a window is on. -/
def execLoadDataReturn (core k : Nat) (s : State) : Host.Outcome State Fault Refusal :=
  match ((s.core core).pends.filter fun p => match p.src with
      | .load _ _ => true
      | .tile _ _ _ _ _ _ _ => true
      | _ => false)[k]? with
  | some p => match p.src with
      | .tile _ _ _ _ _ _ _ => if s.inPort core p.uid then .next s else .next (s.performTile core p)
      | .load _ g =>
          let (held, s) := s.wsHeld core p.issuedAt g
          if held || s.inPort core p.uid then .next s else .next (s.performAcc core p.uid)
      | _ => .next s
  | none => .next s

/-- STORE_GLOBALLY_PERFORMED (R205; 10 R235): the k-th queued store of a core is performed. -/
def execStoreGloballyPerformed (core k : Nat) (s : State) : Host.Outcome State Fault Refusal :=
  match (s.core core).storeQ[k]? with
  | some e => if s.inPort core e.uid then .next s else .next (s.performAcc core e.uid)
  | none => .next s

end Sys2Proof.Machine
end

