-- ==== Sys2Proof/Machine/Pool.lean ====
section
/-! DEFINITION. The KV pool: descriptor, page metadata, block tables, frames, eviction and recall, and
the request table's header and records as the device reads them (14 R297, R299, R424; 15 R316 to
R325). -/

namespace Sys2Proof.Machine

/-! ## The pool descriptor (R316, R317) -/

/-- A valid pool descriptor, with its address. -/
structure Pool where
  desc : Nat
  p : Nat
  ekv : Nat
  eix : Nat
  pages : Nat
  frames : Nat × Nat × Nat
  rxcap : Nat
  base : Nat × Nat × Nat
  pgmeta : Nat
  syncb : Nat
  rxbase : Nat
  rxauto : Bool
  flring : Nat
  flsz : Nat
  deriving DecidableEq, Repr

/-- The descriptor in 128 bytes; none where R316 calls it invalid. -/
def Pool.ofBytes (a : Nat) (bs : List Byte) : Option Pool :=
  let f := fieldLe bs
  let adr (o : Nat) : Bool := f o 8 < 2 ^ 57 && f o 8 % 64 == 0
  let elem (o : Nat) (z : Bool) : Bool := (z && f o 4 == 0) || (f o 4 % 16 == 0 && 16 ≤ f o 4 && f o 4 ≤ 16384)
  let ok := f 0 1 < 3 && f 1 1 < 2 && f 2 2 == 0 && elem 4 false && elem 8 true && f 16 4 != 0
    && f 28 4 ≤ 2 ^ 22 && [32, 40, 48, 56, 64, 72, 80].all adr
    && 1 ≤ f 88 4 && f 88 4 ≤ 2 ^ 20 && f 88 4 == 2 ^ (Nat.log2 (f 88 4)) && f 92 36 == 0
  if ok then some
    { desc := a, p := 16 * 2 ^ f 0 1, ekv := f 4 4, eix := f 8 4, pages := f 12 4 + 1, frames := (f 16 4, f 20 4, f 24 4),
      rxcap := f 28 4, base := (f 32 8, f 40 8, f 48 8), pgmeta := f 56 8, syncb := f 64 8, rxbase := f 72 8, rxauto := f 1 1 == 1,
      flring := f 80 8, flsz := f 88 4 }
  else none

/-- Frame size (R317). -/
def Pool.frame (q : Pool) : Nat := 64 * ((q.p * (q.ekv + q.eix) + 63) / 64)
/-- Base address and frame count of a tier. -/
def Pool.tier (q : Pool) (t : Nat) : Nat × Nat :=
  match t with
  | 0 => (q.base.1, q.frames.1)
  | 1 => (q.base.2.1, q.frames.2.1)
  | _ => (q.base.2.2, q.frames.2.2)
/-- Address of a frame. -/
def Pool.at' (q : Pool) (t fr : Nat) : Nat := (q.tier t).1 + fr * q.frame
/-- Address of row `p` of a frame's plane (R317). -/
def Pool.row (q : Pool) (t fr p : Nat) (ix : Bool) : Nat :=
  if ix then q.at' t fr + q.p * q.ekv + p * q.eix else q.at' t fr + p * q.ekv

/-- Reads a pool descriptor: none where it is invalid. -/
def State.pool (s : State) (ctx a : Nat) : Except Cause (Option Pool) :=
  if a % 128 != 0 then .ok none else (s.vread ctx a 128).map (Pool.ofBytes a)

/-! ## Page metadata (R318) -/

/-- An entry of the metadata array. -/
structure PgMeta where
  refs : Nat
  tier : Nat
  prio : Nat
  held : Bool
  poison : Bool
  fill : Nat
  frame : Nat
  lastuse : Nat
  pins : Nat
  deriving DecidableEq, Repr

def PgMeta.ofBytes (bs : List Byte) : PgMeta :=
  let w := fieldLe bs 0 4
  { refs := w % 65536, tier := w / 2 ^ 16 % 4, prio := w / 2 ^ 18 % 16, held := w.testBit 22, poison := w.testBit 23,
    fill := w / 2 ^ 24 % 128, frame := fieldLe bs 4 4, lastuse := fieldLe bs 8 4, pins := fieldLe bs 12 2 }
def PgMeta.toBytes (m : PgMeta) : List Byte :=
  leBytes 4 (m.refs + 2 ^ 16 * m.tier + 2 ^ 18 * m.prio + (if m.held then 2 ^ 22 else 0)
    + (if m.poison then 2 ^ 23 else 0) + 2 ^ 24 * m.fill)
    ++ leBytes 4 m.frame ++ leBytes 4 m.lastuse ++ leBytes 2 m.pins ++ leBytes 2 0

/-- The entry as Erg takes it: one that names no frame of the pool, in transit or beyond its tier, stands for a
frame of the pool of which nothing is known (R317; log 32). -/
def PgMeta.within (q : Pool) (m : PgMeta) : PgMeta :=
  if m.tier < 3 && decide (m.frame < (q.tier m.tier).2) then m
  else
    let ts := (List.range 3).filter fun t => (q.tier t).2 != 0
    let n := leNat m.toBytes
    let t := ts.getD (Config.strayTier n % max 1 ts.length) 0
    { m with tier := t, frame := Config.strayFrame n % max 1 (q.tier t).2 }

/-- Entry i of the array; a page that the pool does not have, and an entry with a reserved bit set, which 00 R6 lets
nobody ignore, are refused (log 23). -/
def State.getPg (s : State) (ctx : Nat) (q : Pool) (i : Nat) : Except Cause PgMeta :=
  if q.pages ≤ i then .error .prot
  else (s.vread ctx (q.pgmeta + 16 * i) 16).bind fun bs =>
    if (fieldLe bs 0 4).testBit 31 || fieldLe bs 14 2 != 0 then .error .prot else .ok ((PgMeta.ofBytes bs).within q)
/-- Writes an entry, which Erg's metadata cache holds from then on (20 R414). -/
def State.putPg (s : State) (ctx : Nat) (q : Pool) (i : Nat) (m : PgMeta) : Except Cause State :=
  (s.vwriteOn .gk .serve ctx (q.pgmeta + 16 * i) m.toBytes).map fun s => s.modCtx ctx fun x =>
    { x with erg := { x.erg with pgs := (q.desc, i, leNat m.toBytes) :: x.erg.pgs.filter fun e => !(e.1 == q.desc && e.2.1 == i) } }
/-- One atomic update of a page's metadata (R321). -/
def State.modPg (s : State) (ctx : Nat) (q : Pool) (i : Nat) (f : PgMeta → PgMeta) : Except Cause State :=
  match s.getPg ctx q i with
  | .error c => .error c
  | .ok m => s.putPg ctx q i (f m)

/-- Every page's metadata, in order; an entry that cannot be read stops the scan. -/
def State.allPg (s : State) (ctx : Nat) (q : Pool) : Except Cause (List (Nat × PgMeta)) :=
  (List.range q.pages).foldlM (fun l i => match s.getPg ctx q i with
    | .error c => .error c
    | .ok m => .ok (l ++ [(i, m)])) []

/-- A page is free: no reference and no pin (R321). -/
def PgMeta.free (m : PgMeta) : Bool := m.refs == 0 && m.pins == 0

/-- The lowest free page (R321). -/
def lowestFree (l : List (Nat × PgMeta)) : Option Nat := (l.find? fun e => e.2.free).map fun e => e.1

/-- Frames of a tier that are in use: those that pages hold, and reserved HBM frames (R317, R322). -/
def usedFrames (l : List (Nat × PgMeta)) (t : Nat) (resv : List Nat) : List Nat :=
  (l.filterMap fun e => if !e.2.free && e.2.tier == t then some e.2.frame else none) ++ (if t = 0 then resv else [])

/-- The lowest free frame of a tier (R321). -/
def freeFrame (q : Pool) (l : List (Nat × PgMeta)) (t : Nat) (resv : List Nat) : Option Nat :=
  let used := usedFrames l t resv
  (List.range (min (q.tier t).2 (used.length + 1))).find? fun f => !used.contains f

/-- Erg's reserved frames of a context. -/
def State.resv (s : State) (ctx : Nat) : List Nat :=
  match s.ctx? ctx with
  | some x => x.erg.resv.map fun e => e.2.2
  | none => []

/-! ## Moving pages (R323, R325) -/

/-- Whether a page may be evicted from a tier (R323, R325). -/
def PgMeta.candidate (m : PgMeta) (t : Nat) : Bool :=
  m.tier == t && decide (1 ≤ m.refs) && m.pins == 0 && !m.held && !m.poison

/-- The order in which candidates are taken (R323). -/
def evictBefore (a b : Nat × PgMeta) : Bool :=
  let k (m : PgMeta) : Nat := if m.refs = 1 then 0 else 1
  a.2.prio < b.2.prio || (a.2.prio == b.2.prio && (a.2.lastuse < b.2.lastuse || (a.2.lastuse == b.2.lastuse
    && (k a.2 < k b.2 || (k a.2 == k b.2 && a.1 < b.1)))))

/-- The first candidate in that order that has not been tried. -/
def pickVictim (l : List (Nat × PgMeta)) (t : Nat) (tried : List Nat) : Option (Nat × PgMeta) :=
  l.foldl (fun best e =>
    if e.2.candidate t && !tried.contains e.1 then
      match best with
      | some b => if evictBefore e b then some e else some b
      | none => some e
    else best) none

/-- How the copy of a page to another frame ends: done, or aborted. -/
inductive Moved where
  | ok (s : State)
  | abort (s : State) (c : Cause)

/-- The die whose Erg serves a context's pool. -/
def State.ergDie (s : State) (ctx : Nat) : Nat :=
  match s.ctx? ctx with
  | some x => x.mer.die
  | none => 0

/-- Copies a page to a frame of another tier and updates its metadata; while it moves, its tier is 3. An abort leaves it
mapped where it was, and an uncorrectable source poisons it (R323, R325). -/
def State.movePage (s : State) (ctx : Nat) (q : Pool) (i : Nat) (m : PgMeta) (t fr : Nat) : Moved :=
  let stop (s : State) (c : Cause) : Moved :=
    let back := s.modPg ctx q i fun k => { k with tier := m.tier, frame := m.frame, poison := k.poison || c == .poison }
    .abort ((back.toOption.getD s).ero 4 (s.ergDie ctx) 0 (if c = .poison then 4 else 12) ctx i) c
  match s.modPg ctx q i fun k => { k with tier := 3 } with
  | .error c => .abort s c
  | .ok s =>
      match s.vread ctx (q.at' m.tier m.frame) q.frame with
      | .error c => stop s c
      | .ok bs =>
          match s.vwriteOn .gk .serve ctx (q.at' t fr) bs with
          | .error c => stop s (if c = .poison then .prot else c)
          | .ok s =>
              match s.modPg ctx q i fun k => { k with tier := t, frame := fr } with
              | .ok s => .ok s
              | .error c => .abort s c

/-- Evicts one page of HBM to a free LP frame, an LP page going to CXL first where the LP tier is full; an aborted move
goes on to the next candidate, and its page is not tried again for the need (R323): whether a page moved, and the pages
tried. -/
def State.evictOne (ctx : Nat) (q : Pool) : Nat → List Nat → State → Bool × List Nat × State
  | 0, tried, s => (false, tried, s)
  | f + 1, tried, s =>
      match s.allPg ctx q with
      | .error _ => (false, tried, s)
      | .ok l =>
          match pickVictim l 0 tried with
          | none => (false, tried, s)
          | some v =>
              match freeFrame q l 1 [] with
              | some fr =>
                  match s.movePage ctx q v.1 v.2 1 fr with
                  | .ok s => (true, tried, s)
                  | .abort s _ => State.evictOne ctx q f (v.1 :: tried) s
              | none =>
                  match pickVictim l 1 tried, freeFrame q l 2 [] with
                  | some w, some fr =>
                      match s.movePage ctx q w.1 w.2 2 fr with
                      | .ok s => State.evictOne ctx q f tried s
                      | .abort s _ => State.evictOne ctx q f (w.1 :: tried) s
                  | _, _ => (false, tried, s)

/-- A free HBM frame for a need, evicting where none is free (R323), and the pages tried for it. -/
def State.frameFor (s : State) (ctx : Nat) (q : Pool) (tried : List Nat) : Option Nat × List Nat × State :=
  match s.allPg ctx q with
  | .error _ => (none, tried, s)
  | .ok l =>
      match freeFrame q l 0 (s.resv ctx) with
      | some fr => (some fr, tried, s)
      | none =>
          match State.evictOne ctx q (2 * q.pages + 1) tried s with
          | (false, tried, s) => (none, tried, s)
          | (true, tried, s) => match s.allPg ctx q with
              | .error _ => (none, tried, s)
              | .ok l => (freeFrame q l 0 (s.resv ctx), tried, s)

/-- A free HBM frame for a need of its own. -/
def State.hbmFrame (s : State) (ctx : Nat) (q : Pool) : Option Nat × State :=
  let r := s.frameFor ctx q []
  (r.1, r.2.2)

/-- The pages whose eviction has aborted for the recall of a page that waits for a frame (R323). -/
def State.triedFor (s : State) (ctx : Nat) (q : Pool) (i : Nat) : List Nat :=
  match s.ctx? ctx with
  | some x => ((x.erg.tried.find? fun e => e.1 == q.desc && e.2.1 == i).map fun e => e.2.2).getD []
  | none => []
def State.setTried (s : State) (ctx : Nat) (q : Pool) (i : Nat) (l : List Nat) : State :=
  s.modCtx ctx fun x =>
    let rest := x.erg.tried.filter fun e => !(e.1 == q.desc && e.2.1 == i)
    { x with erg := { x.erg with tried := if l.isEmpty then rest else (q.desc, i, l) :: rest } }

/-- How a recall ends (R325). -/
inductive Recall where
  | ok (s : State)
  | noFrame (s : State)
  | abort (s : State) (c : Cause)

/-- Brings a page to HBM (R325). -/
def State.recall? (s : State) (ctx : Nat) (q : Pool) (i : Nat) : Recall :=
  match s.getPg ctx q i with
  | .error c => .abort s c
  | .ok m =>
      if m.tier = 0 then .ok s
      else if m.poison then .abort s .poison
      else
        match s.frameFor ctx q (s.triedFor ctx q i) with
        | (none, tried, s) => .noFrame (s.setTried ctx q i tried)
        | (some fr, _, s) =>
            let s := s.setTried ctx q i []
            match s.getPg ctx q i with
            | .error c => .abort s c
            | .ok m => match s.movePage ctx q i m 0 fr with
                | .ok s => .ok s
                | .abort s c => .abort s c

/-- Adds to a page's references; an increment above 65,535 is not made (R321). -/
def State.refPg (s : State) (ctx : Nat) (q : Pool) (i : Nat) (up : Bool) : Except Cause State :=
  s.modPg ctx q i fun m =>
    if up then (if m.refs = 0 || m.refs = 65535 then m else { m with refs := m.refs + 1 }) else { m with refs := m.refs - 1 }

/-- Allocates the lowest free page in an HBM frame: one reference, fill 0 (R321). -/
def State.allocPage (s : State) (ctx : Nat) (q : Pool) : Option Nat × State :=
  match s.hbmFrame ctx q with
  | (none, s) => (none, s)
  | (some fr, s) =>
      match s.allPg ctx q with
      | .error _ => (none, s)
      | .ok l => match lowestFree l with
          | none => (none, s)
          | some i => match s.putPg ctx q i
              { refs := 1, tier := 0, prio := 0, held := false, poison := false, fill := 0, frame := fr, lastuse := 0, pins := 0 } with
              | .ok s => (some i, s)
              | .error _ => (none, s)

/-! ## The request table (14 R297 to R299, R424) -/

/-- The header's fields, by offset and bytes. -/
def hdrFld (bs : List Byte) (o n : Nat) : Nat := fieldLe bs o n

/-- A header that obeys R297. -/
def hdrValid (bs : List Byte) : Bool :=
  let f := fieldLe bs
  let adr (o : Nat) : Bool := f o 8 < 2 ^ 57
  let pow (v : Nat) : Bool := 1 ≤ v && v ≤ 2 ^ 20 && v == 2 ^ (Nat.log2 v)
  let rng (o lo hi : Nat) : Bool := lo ≤ f o 4 && f o 4 ≤ hi
  rng 0 1 (2 ^ 20) && f 4 1 < 2 && f 5 1 < 2 && f 7 1 == 0 && rng 8 1 65536 && rng 12 1 8192 && rng 16 1 65536
    && rng 20 1 8192 && pow (f 88 4) && f 100 4 == 0 && pow (f 112 4) && f 144 112 == 0
    && [32, 40, 48, 56, 64, 72, 80, 104].all adr && [48, 56, 64, 80, 104].all (fun o => f o 8 % 16 == 0)
    && f 32 8 % 64 == 0 && f 40 8 % 64 == 0

/-- Address of a record (R297). -/
def recAddr (tab r : Nat) : Nat := tab + 256 * (r + 1)

/-- A field of a record. -/
def State.recFld (s : State) (ctx tab r o n : Nat) : Except Cause Nat := s.vget ctx (recAddr tab r + o) n
/-- Writes a field of a record. -/
def State.setRec (s : State) (ctx tab r o n v : Nat) : Except Cause State := s.vput ctx (recAddr tab r + o) n v

/-- A record becomes FAULTED from state 2 or 3 (R312). -/
def State.faultReq (s : State) (ctx tab r cause : Nat) : Except Cause State :=
  match s.recFld ctx tab r 4 1, s.vget ctx (tab + 24) 8 with
  | .ok st, .ok step =>
      if st = 2 ∨ st = 3 then
        match s.setRec ctx tab r 4 1 5 with
        | .error c => .error c
        | .ok s => match s.setRec ctx tab r 104 1 cause with
            | .error c => .error c
            | .ok s => s.setRec ctx tab r 108 4 (step % 2 ^ 32)
      else .ok s
  | .error c, _ => .error c
  | _, .error c => .error c

/-- Block-table entry b of a request: page and per-referencer fill (R319). R319 gives no handling of a set reserved bit,
and 00 R6 lets nobody ignore it: such an entry is refused (log 23). -/
def State.blkEntry (s : State) (ctx tab r b : Nat) : Except Cause (Nat × Nat) :=
  match s.recFld ctx tab r 32 8 with
  | .error c => .error c
  | .ok bt => (s.vread ctx (bt + 8 * b) 8).bind fun bs =>
      if leNat (bs.take 8) < 2 ^ 39 then .ok (fieldLe bs 0 4, fieldLe bs 4 1) else .error .prot
/-- Writes a block-table entry. -/
def State.setBlk (s : State) (ctx tab r b page rfill : Nat) : Except Cause State :=
  match s.recFld ctx tab r 32 8 with
  | .error c => .error c
  | .ok bt => s.vwriteOn .gk .serve ctx (bt + 8 * b) (leBytes 4 page ++ leBytes 4 rfill)

/-- The page that a gather's translation of a block finds: Erg's cached translation may be used, as a
free choice, and a translation read from the table is cached (R248, R331, R333). -/
def State.blkPage (s : State) (ctx tab r b : Nat) : Except Cause (Nat × State) :=
  let old := (s.ctx? ctx).bind fun x => x.erg.cache.find? fun e => e.1 == r && e.2.1 == b
  let (go, s) := s.drawBool
  match old, go with
  | some e, true => .ok (e.2.2, s)
  | _, _ =>
      match s.blkEntry ctx tab r b with
      | .error c => .error c
      | .ok e => .ok (e.1, s.modCtx ctx fun x =>
          { x with erg := { x.erg with cache := (r, b, e.1) :: x.erg.cache.filter fun k => !(k.1 == r && k.2.1 == b) } })

/-- Erg forgets its cached translations of blocks lo to hi − 1 of a request. -/
def State.dropBlks (s : State) (ctx r lo hi : Nat) : State :=
  s.modCtx ctx fun x => { x with erg := { x.erg with cache := x.erg.cache.filter fun e =>
    !(e.1 == r && decide (lo ≤ e.2.1) && decide (e.2.1 < hi)) } }

/-- The table named by `RQBASE` of a context. -/
def State.rqbase (s : State) (ctx : Nat) : Nat :=
  match s.ctx? ctx with
  | some x => x.rqbase.toNat
  | none => 0

/-! ## `prio` and `lastuse` of a page (R318) -/

/-- The bytes of a node's entry, 64 + 4P of them and never all zero, which is what an entry with no node holds (R317): of
Barchan's own form, which no rule gives (log 13). -/
def RxNode.bytes (q : Pool) (n : RxNode) : List Byte :=
  let bs := (List.range (64 + 4 * q.p)).map fun k => Config.nodeByte n.form k
  if bs.all fun b => b == 0 then 1 :: bs.drop 1 else bs

/-- Barchan's nodes of a pool of a context: those whose entries of the node array stand in memory (R317, R326). -/
def State.rx (s : State) (ctx : Nat) (q : Pool) : Except Cause (List RxNode) :=
  match s.ctx? ctx with
  | none => .ok []
  | some x => (Tab.getD x.rx q.desc []).foldlM (fun l n => do
      let bs ← s.vread ctx (q.rxbase + n.idx * (64 + 4 * q.p)) (64 + 4 * q.p)
      return if bs == n.bytes q then l ++ [n] else l) []
def State.modRx (s : State) (ctx : Nat) (q : Pool) (f : List RxNode → List RxNode) : State :=
  s.modCtx ctx fun x => { x with rx := Tab.set x.rx q.desc (f (Tab.getD x.rx q.desc [])) }
/-- Writes a node to its entry. -/
def State.putNode (s : State) (ctx : Nat) (q : Pool) (n : RxNode) : Except Cause State :=
  let (v, s) := s.draw
  let n := { n with form := v }
  (s.vwriteOn .gk .serve ctx (q.rxbase + n.idx * (64 + 4 * q.p)) (n.bytes q)).map fun s =>
    s.modRx ctx q fun l => l.filter (fun k => k.idx != n.idx) ++ [n]
/-- Takes a node out of its entry. -/
def State.dropNode (s : State) (ctx : Nat) (q : Pool) (i : Nat) : Except Cause State :=
  (s.vwriteOn .gk .serve ctx (q.rxbase + i * (64 + 4 * q.p)) (List.replicate (64 + 4 * q.p) 0)).map fun s =>
    s.modRx ctx q fun l => l.filter fun k => k.idx != i

/-- `prio` and `lastuse` of a page from the requests that reference it, those admitted in the form phase under way among
them, and Barchan's last match (R318). -/
def State.refreshPg (s : State) (ctx : Nat) (q : Pool) (tab nrec : Nat) (adm : List Nat) (pg : Nat) : Except Cause State := do
  let users ← (List.range nrec).foldlM (fun (a : Nat × Nat) r => do
    let st ← s.recFld ctx tab r 4 1
    let n ← s.recFld ctx tab r 24 4
    if (2 ≤ st && st ≤ 5) || adm.contains r then
      let names ← (List.range n).foldlM (fun b i => do
        let e ← s.blkEntry ctx tab r i
        return b || e.1 == pg) false
      if names then
        let p ← s.recFld ctx tab r 5 1
        let l ← s.recFld ctx tab r 100 4
        return (max a.1 (p % 16), max a.2 l)
      else return a
    else return a) (0, 0)
  let ns ← s.rx ctx q
  let rxl := (ns.filter fun n => n.page == pg).foldl (fun m n => max m n.last) 0
  s.modPg ctx q pg fun m => { m with prio := users.1, lastuse := max users.2 rxl }

/-- The pages of a request's block table. -/
def State.pagesOf (s : State) (ctx tab r : Nat) : Except Cause (List Nat) := do
  let n ← s.recFld ctx tab r 24 4
  (List.range n).foldlM (fun l b => do
    let e ← s.blkEntry ctx tab r b
    return l ++ [e.1]) []

/-- What a record binds beyond its ranges, where it is a request's, at `syncb` + 64 × i of the pool of the context's
request table: every page that the request's block table names (R320; 10 R247). -/
def State.requestPages (s : State) (ctx va : Nat) : List (Nat × Nat) :=
  let tab := s.rqbase ctx
  let all : Except Cause (List (Nat × Nat)) := do
    let n ← s.vget ctx tab 4
    let pd ← s.vget ctx (tab + 72) 8
    match ← s.pool ctx pd with
    | none => return []
    | some q =>
        let i := (va - q.syncb) / 64
        if va < q.syncb || va % 64 != 0 || n ≤ i then return []
        else
          let ps ← s.pagesOf ctx tab i
          ps.foldlM (fun l g => do
            let m ← s.getPg ctx q g
            return l ++ [(q.at' m.tier m.frame, q.frame)]) []
  if tab = 0 then [] else all.toOption.getD []

/-- The pages of a request take their `prio` and `lastuse` afresh (R318). -/
def State.refreshReq (s : State) (ctx : Nat) (q : Pool) (tab nrec r : Nat) : Except Cause State := do
  let ps ← s.pagesOf ctx tab r
  ps.foldlM (fun s g => s.refreshPg ctx q tab nrec [] g) s

end Sys2Proof.Machine
end

