-- ==== Sys2Proof/Machine/Sync.lean ====
section
/-! DEFINITION. Class 6: sync records, fences, barriers and barrier objects (09 R215 to R222; 08 R194
to R197; 10 R238, R243). -/

namespace Sys2Proof.Machine

/-! ## What a fence does -/

/-- The cores that a scope includes for an agent on a core, in a cluster (10 R234). -/
def State.inScope (s : State) (sc : Scope) (c : Nat) (grid cluster : Nat) (d : Nat) : Bool :=
  match sc with
  | .th | .grp | .team | .core => d == c
  | .clu => d == c || (s.clusterTeams grid cluster).any fun e => e.1 == d
  | .quad => quadOf d == quadOf c
  | .die => d / 96 == c / 96
  | _ => true

/-- The `ls` accesses of threads of a team. -/
def OutAcc.lsOf (slot : Nat) (ts : List Nat) (y : OutAcc) : Bool := y.slot == slot && ts.contains y.thr && y.path == some .ls

/-- A scope that includes agents of other cores (10 R234). -/
def Scope.wide (sc : Scope) : Bool := decide (4 ≤ sc.code.toNat)

/-- Stores are performed at `.core` (10 R235): a fence or a release no wider than the core orders them for agents of its
core alone, which see them in the queue (log 27). -/
def State.takeIn (s : State) (c : Nat) (f : OutAcc → Bool) : State :=
  let us := ((s.core c).outs.filter fun y => y.isSt && y.path == some .ls && f y).map fun y => y.uid
  s.modCore c fun k => { k with storeQ := k.storeQ.map fun e => if us.contains e.uid then { e with near := true } else e }

/-- `fence.ar` of threads: their `ls` loads and atomics are performed; their queued stores are performed at `.core`, or at
a wider scope ordered before what follows, together with those that agents of the core have seen (R217; 10 R235, R239);
at `.clu` or wider the L1 is invalidated (10 R243). -/
def State.fenceAr (s : State) (c slot : Nat) (ts : List Nat) (sc : Scope) : State :=
  let s := s.drain c slot ts fun x => x.path == some .ls && !x.isSt
  if !Scope.wide sc then s.takeIn c fun y => y.lsOf slot ts
  else
    let (u, s) := s.newUid
    let s := s.modCore c fun k =>
      let live (f : Nat × Nat × Nat) : Bool :=
        k.outs.any fun y => y.slot == f.1 && y.thr == f.2.1 && decide (y.uid < f.2.2)
      { k with fences := (k.fences ++ ts.map fun t => (slot, t, u)).filter live
               storeQ := k.storeQ.map fun e => if e.near then { e with seen := true } else e }
    s.dropL1 c sc

/-- The `ls` loads and atomics of a word's threads are performed, or hold it, and then its `fence.ar` takes place. -/
def State.fenceWord (s : State) (w : Iss) (ts : List Nat) (sc : Scope) : Except Res State :=
  match s.performFirst w fun y => y.lsOf w.slot ts && !y.isSt with
  | .error r => .error r
  | .ok s => .ok (s.fenceAr w.core w.slot ts sc)

/-- Everything that a wide fence orders before what follows is performed: the threads' `ls` accesses, and the stores that
agents of the core have seen. -/
def State.fenceAll (s : State) (w : Iss) : Except Res State :=
  s.performFirst w fun y => y.lsOf w.slot w.ts || y.near

/-- FENCE (R217): `.sc` takes its place in the single order of `.sc` fences; it orders earlier stores before later loads
for the threads that its scope includes. Those of its own core see a store that is performed at `.core` whatever they
load with. -/
def execFence (h : Hdr) (seqc : Bool) (sc : Scope) (s : State) : Host.Outcome State Fault Refusal :=
  runWord (.fence h seqc sc) h allFall (fun w s =>
    match if seqc && Scope.wide sc then s.fenceAll w else .ok s with
    | .error r => r
    | .ok s => match s.fenceWord w w.ts sc with
        | .error r => r
        | .ok s => .done { s := if seqc then { s with scFences := s.scFences + 1 } else s }) s

/-! ## Sync records (R215, R216) -/

/-- A sync record: the count and the ranges in force. -/
structure SyncRec where
  relcnt : Nat
  ranges : List (Nat × Nat)
  deriving DecidableEq, Repr

/-- Reads a record of 64 bytes; none where R215 raises `PROT`. -/
def SyncRec.ofBytes (bs : List Byte) : Option SyncRec :=
  let n := fieldLe bs 0 8 % 8
  let rng (i : Nat) : Nat × Nat := (fieldLe bs (16 + 12 * i) 8, fieldLe bs (24 + 12 * i) 4)
  let good := (List.range 4).all fun i =>
    if i < n then (rng i).1 < 2 ^ 57 && (rng i).2 != 0 else (rng i).1 == 0 && (rng i).2 == 0
  if 1 ≤ n && n ≤ 4 && fieldLe bs 0 8 / 8 == 0 && good then
    some { relcnt := fieldLe bs 8 8, ranges := (List.range n).map rng }
  else none

/-- Whether `n` bytes at an address meet a range of the record. -/
def SyncRec.covers (r : SyncRec) (va n : Nat) : Bool :=
  r.ranges.any fun e => va < e.1 + e.2 && e.1 < va + n

/-- Performs accesses by name, oldest first. -/
def State.performAll (s : State) (c : Nat) (us : List Nat) : State :=
  (sortNat us).foldl (fun s u => s.performAcc c u) s

/-- Threads park on a missing page so that their word issues again after the replay (16 R350). -/
def State.parkAgain (s : State) (w : Iss) (kind : Nat) (rs : List Req) : State :=
  (faultGroups rs).foldl (fun s g =>
    let mem := sortNat (g.2.2.flatMap fun r => r.park)
    let (fid, s) := s.newFault w.tm.ctx w.tm.index
      { fid := 0, kind := kind, core := w.core, slot := w.slot, wid := w.tm.wid, hg := g.1,
        va := (g.2.2.map fun r => r.va).headD 0, mem := mem, pc := w.pc, accs := [], uids := [], cmd := none,
        reissue := true, cont := w.pc, accepted := 0, info := 0, pending := true }
    s.setState w.core w.slot mem (.parked fid)) s

/-- A word over records of `size` bytes read at issue: the checks of R201, translation with one lookup
for each page, poison, parking; `f` takes effect for the accesses that translated. -/
def recordWord (w : Iss) (s : State) (k : AKind) (size align : Nat) (rs : List Req)
    (f : State → List (Req × Nat) → Res) : Res :=
  match checkReqs rs align (fun a => decide (a < 2 ^ 57)) with
  | some (c, m, as) => .trap c 0 m as
  | none =>
      if rs.any fun r => s.migrating w.tm.ctx r.va then .hold (s.pageHolds w.tm.ctx rs)
      else
      let (fs, s) := State.lookupAll s w.core w.tm.ctx k size rs []
      match foundBad fs with
      | some (c, bad) => s.accessTrap w c bad
      | none =>
          let faulty := fs.filterMap fun e => if e.2 = .fault then some e.1 else none
          let good := fs.filterMap fun e => match e.2 with
            | .ok pa => some (e.1, pa)
            | _ => none
          let pois := good.filter fun e => s.poisoned e.2 size
          let groups := faultGroups faulty
          if s.faultsFull w.tm.ctx groups.length then
            .hold fun t => if faulty.any fun r => r.park.contains t then [.faults groups.length] else []
          else if !pois.isEmpty then s.accessTrap w .poison (pois.map fun e => e.1)
          else
            match f s good with
            | .done d =>
                let ts := faulty.flatMap fun r => r.park
                let kind := match k with
                  | .atomic => 2
                  | .store => 1
                  | _ => 0
                .done { d with s := d.s.parkAgain w kind faulty, jump := d.jump ++ ts.map fun t => (t, w.pc) }
            | r => r

/-- What comes before a word over sync records: the threads' own accesses to the records, before an `acq`, which acquires,
their earlier loads (10 R239), and what comes before every `ls` access. -/
def Iss.syncFirst (w : Iss) (s : State) (k : AKind) (good : List (Req × Nat)) (y : OutAcc) : Bool :=
  (y.lsOf w.slot w.ts && ((k == .load && !y.isSt) || good.any fun e =>
      e.1.t == y.thr && decide (y.va < e.1.va + 64) && decide (e.1.va < y.va + y.size)))
    || (y.near && good.any fun e => Tgt.overlaps (.mem e.2) 64 y.tgt y.size)
    || w.ahead s (k == .atomic) y

/-- A word over sync records: what comes first is performed, the records are read and checked (R215), then `f` acts on
them. -/
def syncWord (w : Iss) (s : State) (k : AKind) (a : Opd)
    (f : State → List (Nat × Nat × SyncRec) → Res) : Res :=
  recordWord w s k 64 64 (w.reqs fun t => w.tm.n64 t a) fun s good =>
    match s.performFirst w (w.syncFirst s k good) with
    | .error r => r
    | .ok s =>
        let rs := good.map fun e => (e.1, e.2, SyncRec.ofBytes (Memory.readN s.mem e.2 64))
        let bad := rs.filter fun r => r.2.2.isNone
        if bad.isEmpty then f s (rs.filterMap fun r => r.2.2.map fun q => (r.1.t, r.2.1, q))
        else .trapIn s .prot (bad.map fun r => r.1.t) (bad.map fun r => (r.1.t, r.1.va))

/-- The record as an `acq` or a `rel` takes it: a request's covers the pages that its block table names, beyond its ranges
(15 R320). -/
def State.covering (s : State) (ctx va : Nat) (r : SyncRec) : SyncRec := { r with ranges := r.ranges ++ s.requestPages ctx va }

/-- The elements of a context's ranges that a test selects are marked. -/
def State.markPast (s : State) (ctx : Nat) (rs : List (Nat × Nat)) (f : Past → Past) : State :=
  if s.late.isEmpty then s
  else
    let ps := rs.flatMap fun e => match s.pieces ctx .load (e.2 / 65536 + 2) e.1 e.2 with
      | .ok l => l
      | .error _ => []
    let hit (e : Past) : Bool := ps.any fun p => decide (p.1 / 4 ≤ e.elem) && decide (e.elem < (p.1 + p.2 + 3) / 4)
    { s with late := s.late.map fun e => if hit e then f e else e }

/-- What the `rel` of an appender covers beside its own writes: the copies and the entries that its `kvapp` made (10
R247). -/
def Past.released (x : Nat × Nat) (e : Past) : Past :=
  if e.path == .gk && e.gone.contains x then { e with seen := .ls :: e.seen } else e

/-- What a `rel` releases: the thread's earlier `ls` accesses within the ranges of its record, and what it has seen of other
agents' of its core there. -/
def Iss.relCovers (w : Iss) (s : State) (sc : Scope) (a : Opd) (rs : List (Nat × Nat × SyncRec)) (y : OutAcc) : Bool :=
  y.path == some .ls && rs.any fun r => (s.covering w.tm.ctx (w.tm.n64 r.1 a) r.2.2).covers y.va y.size
    && ((y.slot == w.slot && y.thr == r.1) || (y.near && Scope.wide sc))

/-- REL (R216): the thread's earlier accesses within the ranges are performed at the scope, then the count goes up. -/
def execRel (h : Hdr) (sc : Scope) (a : Opd) (s : State) : Host.Outcome State Fault Refusal :=
  runWord (.rel h sc a) h allFall (fun w s =>
    syncWord w s .atomic a fun s rs =>
      let full (r : Nat × Nat × SyncRec) : SyncRec := s.covering w.tm.ctx (w.tm.n64 r.1 a) r.2.2
      let cov := w.relCovers s sc a rs
      match s.performFirst w fun y => cov y && (Scope.wide sc || !y.isSt) with
      | .error r => r
      | .ok s =>
          let s := if Scope.wide sc then s else s.takeIn w.core cov
          .done { s := rs.foldl (fun s r =>
            let n := Memory.readLe s.mem (r.2.1 + 8) 8
            let s := s.markPast w.tm.ctx (full r).ranges (Past.released (w.tm.wid, r.1))
            s.putTgt w.core .ls (w.tm.agent w.core r.1) (.mem (r.2.1 + 8)) (leBytes 8 ((n + 1) % 2 ^ 64))) s }) s

/-- Forgets the L1 lines that a record's ranges may cover: a line that any of this context's range pages
translates to (10 R243). -/
def State.dropRanges (s : State) (c ctx : Nat) (r : SyncRec) : State :=
  let line (pa : Nat) : Bool := r.ranges.any fun e =>
    -- the lines of the physical pages that back the range
    (List.range ((e.1 % 65536 + e.2 + 65535) / 65536)).any fun i =>
      match s.ctx? ctx with
      | none => false
      | some x =>
          let va := (e.1 / 65536 + i) * 65536
          match s.walk va 4 x.root with
          | .leaf l =>
              let p := ((l.entry.extractLsb' 8 44).toNat * 256 + va % l.size) / 65536
              pa / 65536 == p && decide (va + pa % 65536 < e.1 + e.2) && decide (e.1 < va + pa % 65536 + 64)
          | _ => false
  s.modCore c fun k => { k with l1 := k.l1.filter fun e => !line (64 * e.1) }

/-- ACQ (R216): the count is read and no later read within the ranges is older: the L1's lines of the
ranges are invalidated (10 R243). -/
def execAcq (h : Hdr) (sc : Scope) (d : Option Opd) (a : Opd) (s : State) : Host.Outcome State Fault Refusal :=
  runWord (.acq h sc d a) h allFall (fun w s =>
    syncWord w s .load a fun s rs =>
      let s := rs.foldl (fun s r => s.dropRanges w.core w.tm.ctx (s.covering w.tm.ctx (w.tm.n64 r.1 a) r.2.2)) s
      match d with
      | none => .done { s := s }
      | some o =>
          let put (r : Nat × Nat × SyncRec) : List (RegAt × DWord) := w.tm.dest r.1 o 2 r.2.2.relcnt
          let first (r : Nat × Nat × SyncRec) : Bool := !(rs.any fun q => hgOf q.1 == hgOf r.1 && decide (q.1 < r.1))
          let own := match o with
            | .scl _ => rs.filter first
            | _ => rs
          .done (s.laterWrite w (rs.map fun r => r.1) (own.flatMap put))) s

/-! ## XFENCE (R218) -/

/-- The queued stores of `mst` that a home group issued and that are not performed. -/
def Core.mstLeft (k : Core) (wid hg : Nat) : List SEntry :=
  k.storeQ.filter fun e => e.wid == wid && e.hg == hg && e.path == .mx

/-- Later commands of the threads on a path come after their earlier ones: what `xfence` does where both paths are one
that commands take (R218). -/
def State.orderCmds (s : State) (c slot : Nat) (ts : List Nat) (p : Path) : State :=
  let (u, s) := s.newUid
  s.modTeam c slot fun tm => { tm with cmdFences := tm.cmdFences ++ ts.map fun t => (t, p, u) }

/-- What an `xfence` does once the writes ordered before it are performed; where both paths are one it acts as
`fence.ar` on that path. -/
def State.xfenceDone (s : State) (c slot : Nat) (ts : List Nat) (sc : Scope) (ca cb : Path) : State :=
  let s := if ca = cb then s else ts.foldl (fun s t => s.seePath (s.agentAt c slot t) sc ca cb) s
  match cb, s.team? c slot with
  | .ro, some tm =>
      { s with cores := s.cores.map fun e =>
          if s.inScope sc c tm.grid tm.cluster e.1 then (e.1, { e.2 with roCache := [] }) else e }
  | .ls, _ => s.fenceAr c slot ts sc
  | p, _ => if ca = p ∧ (p = .cp ∨ p = .gk) then s.orderCmds c slot ts p else s

/-- Accesses of path `p` of a home group are held by an `xfence` one of its threads still waits at. -/
def Team.xfenced (tm : Team) (g : Nat) (p : Path) : Bool :=
  tm.threads.any fun e => hgOf e.1 == g && (match e.2.st with
    | .waiting (.xfence _ _ _ cb) => cb == p
    | _ => false)

/-- The reads of `mld` of a home group that are not performed. -/
def Core.mldLeft (k : Core) (slot hg : Nat) : List Pend :=
  k.pends.filter fun p => p.slot == slot && p.hg == hg && (match p.src with
    | .tile _ _ _ _ _ _ _ => true
    | _ => false)

/-- Accesses of a thread that an `xfence` from a path waits for: its own `ls` writes, with what agents of the core have
seen, or its home group's `mst` stores, parked ones among them, and where both paths are `mx` its `mld`. -/
def Core.xfenceLeft (k : Core) (w : Iss) (ca cb : Path) (t : Nat) : List Nat :=
  match ca with
  | .ls => if cb = .ls then (k.outs.filter fun y => y.lsOf w.slot [t] && !y.isSt).map fun y => y.uid
      else (k.outs.filter fun y => (y.lsOf w.slot [t] && !y.pure) || y.near).map fun y => y.uid
  | .mx => (k.mstLeft w.tm.wid (hgOf t)).map (fun e => e.uid)
      ++ if cb = .mx then (k.mldLeft w.slot (hgOf t)).map fun p => p.uid else []
  | .ro => if cb = .ro then (k.outs.filter fun y => y.slot == w.slot && y.thr == t && y.path == some .ro).map fun y => y.uid else []
  | _ => []

/-- XFENCE (R218): the writes ordered before it are performed; while one is left, parked or held by the scoreboard of its
target, the thread waits. -/
def execXfence (h : Hdr) (sc : Scope) (ca cb : Path) (s : State) : Host.Outcome State Fault Refusal :=
  runWord (.xfence h sc ca cb) h allFall (fun w s =>
    match s.guarded w fun s =>
        let us := w.ts.flatMap fun t => (s.core w.core).xfenceLeft w ca cb t
        ((s.core w.core).pends.filter fun p => us.contains p.uid).foldl (fun s p => s.performTile w.core p) (s.performAll w.core us) with
    | .error s => .cut s
    | .ok s =>
        let left (t : Nat) : List Nat := (s.core w.core).xfenceLeft w ca cb t
        match w.ts.filter fun t => !(left t).isEmpty with
        | [] => match if cb = .ls then s.performFirst w (fun y => y.lsOf w.slot w.ts && !y.isSt) else .ok s with
            | .error r => r
            | .ok s => .done { s := s.xfenceDone w.core w.slot w.ts sc ca cb }
        | stuck => .done (s.waitAt w (stuck.map fun t => (t, .xfence (left t) sc ca cb)) [])) s

/-! ## Barriers (R220) -/

/-- A barrier that no thread has arrived at. -/
def Barrier.reset : Barrier := { phase := 0, arrived := [] }

/-- The barrier a thread names: of its team, or of its cluster (kept with the grid). -/
def State.barrier (s : State) (tm : Team) (cl : Bool) (id : Nat) : Barrier :=
  if cl then match Tab.get? s.grids tm.grid with
    | some g => Tab.getD g.bars (4 * tm.cluster + id) Barrier.reset
    | none => Barrier.reset
  else Tab.getD tm.bars id Barrier.reset

/-- Replaces a barrier. -/
def State.setBarrier (s : State) (c slot : Nat) (tm : Team) (cl : Bool) (id : Nat) (b : Barrier) : State :=
  if cl then s.modGrid tm.grid fun g => { g with bars := Tab.set g.bars (4 * tm.cluster + id) b }
  else s.modTeam c slot fun tm => { tm with bars := Tab.set tm.bars id b }

/-- One thread's arrival. -/
def State.arriveBar (s : State) (w : Iss) (cl : Bool) (t id : Nat) : State :=
  let b := s.barrier ((s.team? w.core w.slot).getD w.tm) cl id
  s.setBarrier w.core w.slot w.tm cl id { b with arrived := b.arrived ++ [(w.tm.rank, t)] }

/-- `bar` and `barcl`. -/
def barWord (i : Instr) (h : Hdr) (cl nf arv : Bool) (a : Opd) (s : State) : Host.Outcome State Fault Refusal :=
  runWord i h allFall (fun w s =>
    let bad := w.ts.filter fun t => decide ((if cl then 4 else 16) ≤ w.tm.n32 t a)
    if !bad.isEmpty then .trap .opbound 0 bad []
    else
      let again := w.ts.filter fun t => ((s.barrier w.tm cl (w.tm.n32 t a)).arrived).contains (w.tm.rank, t)
      if !again.isEmpty then
        let s := again.foldl (fun s t => s.setState w.core w.slot [t]
          (.waiting (.barFirst cl (w.tm.n32 t a) (s.barrier w.tm cl (w.tm.n32 t a)).phase nf arv))) s
        .done { s := s, stay := w.mem, diss := true }
      else
        match if nf then .ok s else if cl then s.fenceAll w else s.fenceWord w w.ts .team with
        | .error r => r
        | .ok s =>
            let ts := (sortNat w.ts).map fun t => (t, WaitCond.bar cl (w.tm.n32 t a) (s.barrier w.tm cl (w.tm.n32 t a)).phase nf)
            let s := (sortNat w.ts).foldl (fun s t => s.arriveBar w cl t (w.tm.n32 t a)) s
            if arv then .done { s := if nf || !cl then s else s.dropL1 w.core .clu }
            else .done (s.waitAt w ts [])) s

/-- BAR (R220). -/
def execBar (h : Hdr) (nf arv : Bool) (a : Opd) (s : State) : Host.Outcome State Fault Refusal :=
  barWord (.bar h nf arv a) h false nf arv a s
/-- BARCL (R220). -/
def execBarcl (h : Hdr) (nf arv : Bool) (a : Opd) (s : State) : Host.Outcome State Fault Refusal :=
  barWord (.barcl h nf arv a) h true nf arv a s

/-- A thread does not hold the release: it has exited, or it has arrived and is not halted (R220). -/
def barDone (b : Barrier) (tm : Team) (t : Nat) (th : Thread) : Bool :=
  match th.st with
  | .exited => true
  | .halted => false
  | _ => b.arrived.contains (tm.rank, t)

/-- The teams of a barrier's set, by core and slot. -/
def State.barSet (s : State) (cl : Bool) (a b : Nat) : List (Nat × Nat × Team) :=
  if cl then s.clusterTeams a b
  else match s.team? a b with
    | some tm => [(a, b, tm)]
    | none => []

/-- BARRIER_RELEASE (R220): the phase completes when every thread of the set has arrived, has exited, or
belongs to a finished team; the waiting threads are filed after their fence. For `bar` the numbers are
core and slot, for `barcl` grid and cluster. -/
def execBarrierRelease (cl : Bool) (a b id : Nat) (s : State) : Host.Outcome State Fault Refusal :=
  match s.barSet cl a b with
  | [] => .next s
  | (c0, s0, t0) :: ts =>
      let set := (c0, s0, t0) :: ts
      let br := s.barrier t0 cl id
      let ready := !br.arrived.isEmpty && !(set.any fun e => e.2.2.frozen) && set.all fun e => e.2.2.fin || e.2.2.threads.all fun th => barDone br e.2.2 th.1 th.2
      if !ready then .next s
      else
        let s := s.setBarrier c0 s0 t0 cl id { phase := br.phase + 1, arrived := [] }
        .next (set.foldl (fun s e =>
          let go (nf : Bool) : List (Nat × PC) := e.2.2.threads.filterMap fun th => match th.2.st with
            | .waiting (.bar cl' id' p nf') =>
                if cl' = cl ∧ id' = id ∧ p = br.phase ∧ nf' = nf then some (th.1, BitVec.ofNat 57 (th.2.pc.toNat + 12)) else none
            | _ => none
          let fenced := go false
          let s := if fenced.isEmpty then s
            else s.fenceAr e.1 e.2.1 (fenced.map fun t => t.1) (if cl then .clu else .team)
          s.modTeam e.1 e.2.1 fun tm => tm.file (fenced ++ go true) ((s.core e.1).now + 1)) s)

/-! ## Barrier objects (R221, R222; 08 R194 to R197) -/

/-- The objects a word names, each with its place, or the trap of its addresses. -/
def State.objects (s : State) (w : Iss) (cl : Bool) (rs : List Req) :
    Except (Cause × List Nat × Tab Nat) (List (Req × Tgt)) :=
  if cl then
    match checkReqs rs 16 (fun a => s.clusterOk w.tm a 16) with
    | some e => .error e
    | none => .ok (rs.filterMap fun r => (s.clusterTgt w r.va).map fun g => (r, g))
  else
    match checkReqs rs 16 (fun a => decide (a + 16 ≤ w.tm.loc)) with
    | some e => .error e
    | none => .ok (rs.map fun r => (r, .scr w.tref r.va))

/-- The object address of a thread: A under R201 with B read as zero. -/
def Team.objAddr (tm : Team) (cl : Bool) (t : Nat) (a : Opd) : Nat := if cl then tm.n64 t a else tm.n32 t a

/-- One request for each thread, or under `.grp` one for each home group by its lowest thread. -/
def Iss.objReqs (w : Iss) (grp cl : Bool) (a : Opd) : List Req :=
  if grp then w.hgReqs fun t => w.tm.objAddr cl t a else w.reqs fun t => w.tm.objAddr cl t a

/-- A recorded range holds an access to an object (08 R193). -/
def State.objHeld (s : State) (o : Tgt) : Bool :=
  match o with
  | .scr r off => (s.core r.core).sbHit false r.slot off 16 false
  | _ => false

/-- What holds a word over objects, for one thread. -/
def State.objRanges (s : State) (os : List (Req × Tgt)) (t : Nat) : List HoldOn :=
  (os.filter fun e => e.1.park.contains t && s.objHeld e.2).filterMap fun e => match e.2 with
    | .scr r off => some (.range r.core false r.slot off 16)
    | _ => none

/-- What comes before an access to objects: as `Iss.ahead`, and the earlier accesses of the threads to another team's
scratchpad that an object there lies in (09 R207). -/
def Iss.objAhead (w : Iss) (s : State) (writes : Bool) (os : List (Req × Tgt)) (y : OutAcc) : Bool :=
  w.ahead s writes y || (y.near && os.any fun e => Tgt.overlaps e.2 16 y.tgt y.size) || (y.slot == w.slot && os.any fun e => e.1.t == y.thr && (match e.2, y.tgt with
    | .scr r _, .scr q _ => r == q
    | _, _ => false))

/-- The objects hit uncorrectable data. -/
def State.objPoison (s : State) (os : List (Req × Tgt)) : List Req :=
  (os.filter fun e => s.badTgt e.2 16).map fun e => e.1

/-- `bxinit`, `bxowe` and `bxpay` (R221). -/
def bxWord (i : Instr) (h : Hdr) (o : BxOp) (grp cl : Bool) (sc : Option Scope) (a b : Opd) (s : State) :
    Host.Outcome State Fault Refusal :=
  runWord i h allFall (fun w s =>
    match s.objects w cl (w.objReqs grp cl a) with
    | .error (c, m, as) => .trap c 0 m as
    | .ok os =>
        if os.any fun e => s.objHeld e.2 then .hold (s.objRanges os)
        else
          let far := match sc with
            | some sc => Scope.wide sc
            | none => false
          match s.performFirst w fun y =>
              w.objAhead s true os y || (sc.isSome && y.lsOf w.slot w.ts && (far || !y.isSt)) || (far && y.near) with
          | .error r => r
          | .ok s =>
              let s := match sc with
                | some sc => s.fenceAr w.core w.slot w.ts sc
                | none => s
              let bad := if o = .init then [] else os.filter fun e => ((BxObj.ofBytes (s.readTgt e.2 16)).rsv) != 0
              match s.objPoison os with
              | p :: ps => s.accessTrap w .poison (p :: ps)
              | [] =>
                  if !bad.isEmpty then
                    .trapIn s .prot (bad.flatMap fun e => e.1.park) (bad.flatMap fun e => e.1.park.map fun t => (t, e.1.va))
                  else .done { s := os.foldl (fun s e => (s.bxUpdate e.2 o (w.tm.n32 e.1.t b)).getD s) s }) s

/-- BXINIT (R221). -/
def execBxinit (h : Hdr) (grp cl : Bool) (a b : Opd) (s : State) : Host.Outcome State Fault Refusal :=
  bxWord (.bxinit h grp cl a b) h .init grp cl none a b s
/-- BXOWE (R221). -/
def execBxowe (h : Hdr) (grp cl : Bool) (a b : Opd) (s : State) : Host.Outcome State Fault Refusal :=
  bxWord (.bxowe h grp cl a b) h .owe grp cl none a b s
/-- BXPAY (R221). -/
def execBxpay (h : Hdr) (grp cl : Bool) (sc : Scope) (a b : Opd) (s : State) : Host.Outcome State Fault Refusal :=
  bxWord (.bxpay h grp cl sc a b) h .pay grp cl (some sc) a b s

/-- A command touches only the local store of its core and its die's weight store (08 R197). -/
def Cmd.isLocal (d : Cmd) (c : Nat) : Bool :=
  let loc (e : End) : Bool := match e with
    | .glob _ => false
    | .scr t _ => t.core == c
    | .opb _ => true
    | .wst die _ => die == c / 96
  match d.kind with
  | .copy a b _ _ => loc a && loc b
  | _ => false

/-- The condition of a local wait on an object (08 R197). -/
def State.localWait (s : State) (c : Nat) (o : Tgt) : Bool :=
  match o with
  | .scr r _ =>
      let mine := (s.core c).cmds.filter fun d => d.obj == some o && d.fin.isNone
      r.core == c && (BxObj.ofBytes (s.readTgt o 16)).left == (mine.map Cmd.owed).foldl (· + ·) 0
        && mine.all fun d => d.isLocal c
  | _ => false

/-- The awaited round has completed. -/
def State.roundOver (s : State) (o : Tgt) (r : BitVec 16) : Bool :=
  (BxObj.ofBytes (s.readTgt o 16)).completed r.toNat

/-- The words that read objects, with the threads whose round has completed (R222). An object in a range that a command
has recorded holds the word (08 R193), unless the word waits for a round that has not completed (`wait`): that hold is a
`bxwait` hold, in which the team may be evicted (18 R391; log 28). -/
def bxRead (i : Instr) (h : Hdr) (cl wait : Bool) (a b : Opd) (f : Iss → State → List (Req × Tgt × Bool) → Res) (s : State) :
    Host.Outcome State Fault Refusal :=
  runWord i h allFall (fun w s =>
    match s.objects w cl (w.objReqs false cl a) with
    | .error (c, m, as) => .trap c 0 m as
    | .ok os =>
        let past (s : State) (e : Req × Tgt) : Bool := s.roundOver e.2 (BitVec.ofNat 16 (w.tm.n32 e.1.t b))
        if (os.any fun e => s.objHeld e.2) && !(wait && os.any fun e => !past s e) then .hold (s.objRanges os)
        else
          match s.performFirst w (w.objAhead s false os) with
          | .error r => r
          | .ok s =>
              match s.objPoison os with
              | p :: ps => s.accessTrap w .poison (p :: ps)
              | [] => f w s (os.map fun e => (e.1, e.2, past s e))) s

/-- A read that observes completion is followed by a fence of its thread (R222). -/
def State.bxFence (s : State) (w : Iss) (sc : Scope) (rs : List (Req × Tgt × Bool)) : Except Res State :=
  let seen := (rs.filter fun r => r.2.2).map fun r => r.1.t
  if seen.isEmpty then .ok s else s.fenceWord w seen sc

/-- BXWAIT (R222). -/
def execBxwait (h : Hdr) (cl : Bool) (sc : Scope) (a b : Opd) (s : State) : Host.Outcome State Fault Refusal :=
  bxRead (.bxwait h cl sc a b) h cl true a b (fun w s rs =>
    match rs.filter fun r => !r.2.2 with
    | [] => match s.bxFence w sc rs with
        | .error r => r
        | .ok s => .done { s := s }
    | wait => .done (s.waitAt w (wait.map fun r =>
        (r.1.t, .bxwait r.2.1 (BitVec.ofNat 16 (w.tm.n32 r.1.t b)) sc (s.localWait w.core r.2.1))) [])) s

/-- BXPOLL (R222). -/
def execBxpoll (h : Hdr) (cl : Bool) (sc : Scope) (d a b : Opd) (s : State) : Host.Outcome State Fault Refusal :=
  bxRead (.bxpoll h cl sc d a b) h cl false a b (fun w s rs =>
    match s.bxFence w sc rs with
    | .error r => r
    | .ok s => .done (s.laterWrite w w.ts (rs.flatMap fun r => w.tm.dest r.1.t d 1 (if r.2.2 then 1 else 0)))) s

/-- A local wait whose condition fails stops being one (08 R197). -/
def State.noteLocal (s : State) (c : Nat) (st : TState) : TState :=
  match st with
  | .waiting (.bxwait o r sc true) => .waiting (.bxwait o r sc (s.localWait c o))
  | st => st

/-- At the end of a cycle, in a halted team's prior states too, since its waits go on (08 R197; 16 R355). -/
def State.noteLocalWaits (s : State) (c : Nat) : State :=
  s.modCore c fun k => { k with teams := k.teams.map fun e => (e.1, { e.2 with
    threads := e.2.threads.map fun th => (th.1, { th.2 with st := s.noteLocal c th.2.st })
    trap := e.2.trap.map fun tr => { tr with prior := tr.prior.map fun p => { p with st := s.noteLocal c p.st } } }) }

end Sys2Proof.Machine
end

