-- ==== Sys2Proof/Machine/Async.lean ====
section
/-! DEFINITION. Class 7: asynchronous commands and handles, the operand-buffer read, and the events of a
command's portions, retirement and failure (09 R223 to R232; 08 R192 to R200; 15 R325, R333). -/

namespace Sys2Proof.Machine

/-! ## Handles (08 R198, R199; 09 R230) -/

/-- The handle values that teams hold names under, saved teams' among them. -/
def State.handleVals (s : State) : List Nat :=
  (s.cores.flatMap fun e => e.2.teams.flatMap fun t => t.2.handles.map fun h => h.1)
    ++ s.ctxs.flatMap fun e => e.2.saved.flatMap fun q => q.team.handles.map fun h => h.1

/-- The bits of the n-th handle: never the null handle, nor a handle that names another command; where the free
bits are one of those, the lowest value that is none (R198; log 11). -/
def handleVal (n : Nat) (used : List Nat) : DWord :=
  let b := Config.handleBits n
  if b != 0 && !used.contains b.toNat then b
  else BitVec.ofNat 64 (((List.range (used.length + 1)).find? fun k => !used.contains (k + 1)).getD 0 + 1)

/-- A new handle of a team, pending. -/
def State.newHandle (s : State) (c slot : Nat) : DWord × State :=
  let h := handleVal s.hseq s.handleVals
  let s := { s with hseq := s.hseq + 1 }
  (h, s.modTeam c slot fun tm =>
    { tm with handles := Tab.set tm.handles h.toNat { st := 0, kvb := false, cause := 0 } })

/-- What a handle value names in a team: a null handle is complete; none for a value the device did not
produce for it. -/
def Team.handle (tm : Team) (h : DWord) : Option HState :=
  if h = 0 then some { st := 1, kvb := false, cause := 0 } else Tab.get? tm.handles h.toNat

/-- The status word (R230). -/
def HState.word (h : HState) : Nat := h.st + (if h.kvb then 4 else 0) + 256 * h.cause

/-! ## Scoreboard entries (08 R192, R193) -/

/-- A range to record: the core that holds the memory, operand buffer, team slot, bounds, written. -/
structure Claim where
  core : Nat
  opb : Bool
  slot : Nat
  lo : Nat
  n : Nat
  wr : Bool
  deriving DecidableEq, Repr

/-- An entry of a core: the bounding range of the bytes in the core's space, rounded outward to 64 bytes. -/
def Core.sbEntry (k : Core) (opb : Bool) (slot lo hi : Nat) (wr : Bool) (cmd : Nat) : SbEntry :=
  let ps := k.pieces opb slot lo (hi - lo)
  { opb := opb, slot := slot, lo := lo, hi := hi, wr := wr, cmd := cmd
    start := ps.foldl (fun m p => min m (p.1 / 64 * 64)) ((ps.headD (0, 0)).1 / 64 * 64)
    stop := ps.foldl (fun m p => max m ((p.1 + p.2 + 63) / 64 * 64)) 0 }

/-- Room for the entries on each core. -/
def State.sbRoom (s : State) (ks : List Claim) : Bool :=
  ks.all fun k => (s.core k.core).sb.length + (ks.filter fun q => q.core == k.core).length ≤ Config.sbEntries

def State.claim (s : State) (cmd : Nat) (ks : List Claim) : State :=
  ks.foldl (fun s k => s.modCore k.core fun q =>
    { q with sb := q.sb ++ [q.sbEntry k.opb k.slot k.lo (k.lo + k.n) k.wr cmd] }) s

/-! ## Issuing a command (R223) -/

/-- What one home group's command is. -/
structure Order where
  kind : CmdKind
  obj : Option Tgt
  rest : List (Nat × Nat)
  claims : List Claim
  path : Path

/-- The two scalars of the A field, from the home group's registers. -/
def Iss.pair (w : Iss) (g : Nat) (a : Opd) : Nat × Nat :=
  match a with
  | .scl m => ((w.tm.readReg (.s g m.toNat)).toNat, (w.tm.readReg (.s g (m.toNat + 1))).toNat)
  | _ => (0, 0)

/-- The barrier object of a pair: none for all ones; its checks (R194). -/
def State.orderObj (s : State) (w : Iss) (v : Nat) : Except (Cause × Nat) (Option Tgt) :=
  if v = 2 ^ 64 - 1 then .ok none
  else if v % 16 != 0 then .error (.misalign, v)
  else if !s.clusterOk w.tm v 16 then .error (.prot, v)
  else .ok (s.clusterTgt w v)

/-- A new command of a home group: resources are taken, its handle made. -/
def State.order (s : State) (w : Iss) (g : Nat) (o : Order) : DWord × State :=
  let (id, s) := s.newUid
  let (h, s) := s.newHandle w.core w.slot
  let d : Cmd :=
    { id := id, h := h, slot := w.slot, wid := w.tm.wid, hg := g, pc := w.pc, mask := w.of g, kind := o.kind, obj := o.obj,
      begun := false, rest := o.rest, asks := [], zeroLen := o.rest.isEmpty, pins := [], srcs := [], fault := none, erg := none,
      kvb := false, geo := (0, 0, 0), err := none, fin := none }
  let s := s.claim id o.claims
  (h, s.modCore w.core fun k => { k with cmds := k.cmds ++ [d] })

/-- The first operand that is not aligned: (value, alignment) pairs in order (R201). -/
def aligned (l : List (Nat × Nat)) : Except (Cause × Nat) Unit :=
  match l.find? fun e => e.1 % e.2 != 0 with
  | some e => .error (.misalign, e.1)
  | none => .ok ()

/-- The alignment of a pair's object: none for all ones (R194). -/
def objAlign (v : Nat) : Nat × Nat := if v = 2 ^ 64 - 1 then (0, 16) else (v, 16)

/-- A word that issues one command for each home group: every check first, alignment before ranges across the home
groups (R201), then the resources, then the commands and their handles (R223). -/
def asyncWord (i : Instr) (h : Hdr) (d : Opd) (f : Iss → State → Nat → Except (Cause × Nat) Order) (s : State) :
    Host.Outcome State Fault Refusal :=
  runWord i h allFall (fun w s =>
    let os := w.hgs.map fun g => (g, f w s g)
    let bad := os.filterMap fun o => match o.2 with
      | .error e => some (o.1, e)
      | .ok _ => none
    match bad with
    | (_, c, _) :: _ =>
        let c := if bad.any fun b => b.2.1 == .misalign then .misalign else c
        let bad := bad.filter fun b => b.2.1 == c
        .trap c 0 (bad.flatMap fun b => w.of b.1) (bad.flatMap fun b => (w.of b.1).map fun t => (t, b.2.2))
    | [] =>
        let os := os.filterMap fun o => match o.2 with
          | .ok x => some (o.1, x)
          | .error _ => none
        let ks := os.flatMap fun o => o.2.claims
        let here (c : Nat) : Nat := (ks.filter fun k => k.core == c).length
        let on (t : Nat) : List HoldOn :=
          (if Config.cmdSlots < (s.core w.core).cmds.length + os.length then [.cmds os.length] else [])
            ++ (if s.sbRoom ks then [] else (dedup (ks.map fun k => k.core)).map fun c => .entries c (here c))
            ++ (os.filter fun o => o.1 == hgOf t && w.tm.xfenced o.1 o.2.path).map fun o => .xfence o.1 o.2.path
        if w.ts.any fun t => !(on t).isEmpty then .hold on
        else
          let (wr, s) := os.foldl (fun p o =>
            let (hv, s) := p.2.order w o.1 o.2
            (p.1 ++ w.tm.dest (w.lead o.1) d 1 hv.toNat, s)) (([] : List (RegAt × DWord)), s)
          .done (s.laterWrite w w.ts wr)) s

/-- A cluster range that a command touches: where it lies (R184). -/
def State.side (s : State) (w : Iss) (a n : Nat) : Except (Cause × Nat) (TRef × Nat) :=
  if !s.clusterOk w.tm a n then .error (.prot, a)
  else match s.clusterTgt w a with
    | some (.scr r off) => .ok (r, off)
    | _ => .error (.prot, a)

/-- The whole range, if it is not empty. -/
def whole (n : Nat) : List (Nat × Nat) := if n = 0 then [] else [(0, n)]
/-- A claim on a scratchpad range, if it is not empty. -/
def scrClaim (r : TRef) (off n : Nat) (wr : Bool) : List Claim :=
  if n = 0 then [] else [{ core := r.core, opb := false, slot := r.slot, lo := off, n := n, wr := wr }]

/-- The other side of a copy and the length, aligned with the operands of the pair (R224). -/
def copyArgs (w : Iss) (g : Nat) (b x : Opd) (local' : Nat) (pair : Nat) : Except (Cause × Nat) (Nat × Nat) := do
  let v := w.tm.n64 (w.lead g) b
  let n := w.tm.n32 (w.lead g) x
  aligned [(local', 4), (v, 4), (n, 4), objAlign pair]
  return (v, n)

/-- The range of the other side: an address of global memory, or a range of a weight store (R201, R189). -/
def copyRange (v n : Nat) (wst : Bool) : Except (Cause × Nat) Unit :=
  if wst && !weightOk v n then .error (.prot, v)
  else if !wst && decide (2 ^ 57 ≤ v) then .error (.prot, v)
  else .ok ()

/-- The weight-store end of an address (R189). -/
def wstEnd (v : Nat) : End := .wst (v / 2 ^ 30 % 2) (v % 2 ^ 30)

/-- CPY_G2L (R225). -/
def execCpyG2l (h : Hdr) (sc : Scope) (ch : CHint) (d a b x : Opd) (s : State) : Host.Outcome State Fault Refusal :=
  asyncWord (.cpyG2l h sc ch d a b x) h d (fun w s g => do
    let (v, n) ← copyArgs w g b x (w.pair g a).1 (w.pair g a).2
    let (r, off) ← s.side w (w.pair g a).1 n
    copyRange v n false
    let o ← s.orderObj w (w.pair g a).2
    return { kind := .copy (.glob v) (.scr r off) n sc, obj := o, rest := whole n, claims := scrClaim r off n true, path := .cp }) s
/-- CPY_L2G (R225). -/
def execCpyL2g (h : Hdr) (sc : Scope) (ch : CHint) (d a b x : Opd) (s : State) : Host.Outcome State Fault Refusal :=
  asyncWord (.cpyL2g h sc ch d a b x) h d (fun w s g => do
    let (v, n) ← copyArgs w g b x (w.pair g a).1 (w.pair g a).2
    let (r, off) ← s.side w (w.pair g a).1 n
    copyRange v n false
    let o ← s.orderObj w (w.pair g a).2
    return { kind := .copy (.scr r off) (.glob v) n sc, obj := o, rest := whole n, claims := scrClaim r off n false, path := .cp }) s
/-- CPY_W2L (R225). -/
def execCpyW2l (h : Hdr) (d a b x : Opd) (s : State) : Host.Outcome State Fault Refusal :=
  asyncWord (.cpyW2l h d a b x) h d (fun w s g => do
    let (v, n) ← copyArgs w g b x (w.pair g a).1 (w.pair g a).2
    let (r, off) ← s.side w (w.pair g a).1 n
    copyRange v n true
    let o ← s.orderObj w (w.pair g a).2
    return { kind := .copy (wstEnd v) (.scr r off) n .th, obj := o, rest := whole n, claims := scrClaim r off n true, path := .cp }) s

/-- CPYO (R225). -/
def execCpyo (h : Hdr) (wst : Bool) (ch : CHint) (d a b x : Opd) (s : State) : Host.Outcome State Fault Refusal :=
  asyncWord (.cpyo h wst ch d a b x) h d (fun w s g => do
    let off := (w.pair g a).1 % 2 ^ 32
    let (v, n) ← copyArgs w g b x off (w.pair g a).2
    copyRange v n wst
    if (s.core w.core).slotBytes < off + n || (s.core w.core).slotBytes ≤ off then throw (.prot, off)
    let o ← s.orderObj w (w.pair g a).2
    return { kind := .copy (if wst then wstEnd v else .glob v) (.opb off) n .th, obj := o, rest := whole n,
             claims := if n = 0 then [] else [{ core := w.core, opb := true, slot := w.slot, lo := off, n := n, wr := true }],
             path := .cp }) s
/-- CPYL (R225): overlapping ranges are recorded as both read and written. -/
def execCpyl (h : Hdr) (d a b x : Opd) (s : State) : Host.Outcome State Fault Refusal :=
  asyncWord (.cpyl h d a b x) h d (fun w s g => do
    let n := w.tm.n32 (w.lead g) x
    aligned [((w.pair g a).1, 4), (w.tm.n64 (w.lead g) b, 4), (n, 4), objAlign (w.pair g a).2]
    let (r, off) ← s.side w (w.pair g a).1 n
    let (q, src) ← s.side w (w.tm.n64 (w.lead g) b) n
    let o ← s.orderObj w (w.pair g a).2
    let both := r == q && decide (off < src + n) && decide (src < off + n)
    return { kind := .copy (.scr q src) (.scr r off) n .clu, obj := o, rest := whole n,
             claims := scrClaim r off n true ++ scrClaim q src n both, path := .cp }) s

/-- Block indices of a home group's participants, ascending (R226). -/
def Iss.blocks (w : Iss) (g : Nat) (b : Opd) : List Nat := (w.of g).map fun t => w.tm.n32 t b

/-- GKV (R226): its destination entry runs to the end of the scratchpad. -/
def execGkv (h : Hdr) (ix : Bool) (d a b x : Opd) (s : State) : Host.Outcome State Fault Refusal :=
  asyncWord (.gkv h ix d a b x) h d (fun w s g => do
    let dst := (w.pair g a).1
    let (pd, rq) := w.pair g x
    aligned [(dst, 64), (pd, 4), objAlign (w.pair g a).2]
    let (r, off) ← s.side w dst 0
    let o ← s.orderObj w (w.pair g a).2
    return { kind := .gather (w.blocks g b) pd (rq % 2 ^ 32) ix r off, obj := o, rest := [(0, 1)],
             claims := scrClaim r off (w.tm.loc - off) true, path := .gk }) s
/-- KVPF (R227). -/
def execKvpf (h : Hdr) (ix : Bool) (d a b x : Opd) (s : State) : Host.Outcome State Fault Refusal :=
  asyncWord (.kvpf h ix d a b x) h d (fun w s g => do
    let o ← s.orderObj w (w.pair g a).2
    return { kind := .kvpf (w.blocks g b) (w.pair g a).1 (w.tm.n32 (w.lead g) x) ix, obj := o, rest := [(0, 1)],
             claims := [], path := .gk }) s

/-! ## Failure, portions and retirement -/

/-- A command meets an error: it stops, and its failure is the next thing that happens (R229). -/
def State.cmdError (s : State) (c id : Nat) (cause : Cause) : State :=
  let s := s.modCmd c id fun d => { d with err := some cause }
  { s with agenda := .event (.commandFailure c id) :: s.agenda }

/-- COMMAND_FAILURE (R229, R232): the handle ends failed, the cause is recorded, as uncorrectable where it is `POISON` (20 R412;
log 9), and the team halts, or the failure is held; then the command retires. -/
def execCommandFailure (core id : Nat) (s : State) : Host.Outcome State Fault Refusal :=
  match (s.core core).cmd? id with
  | none => .next s
  | some d =>
      match d.err, d.fin with
      | some cause, none =>
          let s := ({ s with agenda := .event (.commandRetire core id) :: s.agenda }).cmdEnd core id 3 cause.code
          let ctx := match s.team? core d.slot with
            | some tm => tm.ctx
            | none => 0xFFFF
          let s := s.ero 1 (core / 96) (core % 96) (if cause = .poison then 2 else 12) ctx cause.code
          .next (s.raise core d.slot
            { cause := cause, code := 0, point := d.pc, mask := sortNat d.mask, addrs := [], kind := .command, hg := d.hg } [])
      | _, _ => .next s

/-- Counts n bytes into the object; a set reserved bit fails the command (08 R195, R196). -/
def State.count (s : State) (c : Nat) (d : Cmd) (n : Nat) : State :=
  match d.obj with
  | none => s
  | some o => match s.bxUpdate o .pay n with
      | some s => s
      | none => s.cmdError c d.id .prot

/-- The path of a command's accesses to global memory (10 R236). -/
def CmdKind.path : CmdKind → Path
  | .copy _ _ _ _ => .cp
  | .gather _ _ _ _ _ _ => .gk
  | .kvpf _ _ _ _ => .gk
  | .kvinv _ => .gk
  | .evict _ _ => .gk
  | .peer _ _ => .nt
  | .tlbinv _ => .ls
  | .mig _ _ _ _ _ => .cp
  | .done => .ls

/-- The thread that a command acts for: the lowest that issued it (10 R233). -/
def Cmd.lead (d : Cmd) : Nat := (sortNat d.mask).headD 0
def State.cmdAgent (s : State) (c : Nat) (d : Cmd) : Agent := s.agentAt c d.slot d.lead

/-- An `xfence` of one of its threads stands between a command and an earlier one of the same path that has not ended
(09 R218). -/
def State.cmdHeld (s : State) (c : Nat) (d : Cmd) : Bool :=
  let k := s.core c
  match Tab.get? k.teams d.slot with
  | none => false
  | some tm => tm.cmdFences.any fun f => d.mask.contains f.1 && f.2.1 == d.kind.path && decide (f.2.2 < d.id)
      && k.cmds.any fun e => e.wid == d.wid && e.mask.contains f.1 && e.kind.path == f.2.1 && decide (e.id < f.2.2)
          && e.fin.isNone && !e.rest.isEmpty

/-- How a piece of a command's transfer ends; `port`: it needs a 64-byte request that has not passed its port (17 R375). -/
inductive Xfer where
  | ok (bs : List Byte) (s : State)
  | fault (va : Nat) (s : State)
  | err (c : Cause) (s : State)
  | wait (s : State)
  | port (pa : Nat) (s : State)

/-- One translation for a command, with the watch points (16 R347; 20 R416). -/
def State.cmdAddr (s : State) (c ctx va n : Nat) (k : AKind) : Trans × Bool × State :=
  if (s.core c).watched ctx va n 3 then (.prot, true, s)
  else
    if 2 ^ 57 ≤ va then (.prot, false, s)
    else
      let (t, s) := s.translate c ctx va k
      (t, false, s)

/-- Reads a piece of a command's source that lies in one page; `paid`: its request has passed the port. -/
def State.cmdRead (s : State) (c : Nat) (d : Cmd) (ctx : Nat) (e : End) (off n : Nat) (paid : Bool) : Xfer :=
  match e with
  | .glob va =>
      if s.migrating ctx (va + off) then .wait s
      else
      match s.cmdAddr c ctx (va + off) n .load with
      | (_, true, s) => .err .watch s
      | (.ok pa, _, s) =>
          if !paid && s.meters pa then .port pa s
          else if s.poisoned pa n then .err .poison ((s.mesh c (.mem pa)).eroUnit c (.mem pa))
          else
            let (bs, s) := (s.mesh c (.mem pa)).readOn d.kind.path (some (d.wid, d.lead)) pa n
            .ok bs (s.winSeen pa n)
      | (.fault, _, s) => .fault (va + off) s
      | (.prot, _, s) => .err .prot s
      | (.poison, _, s) => .err .poison s
  | .scr r o =>
      if s.badTgt (.scr r (o + off)) n then .err .poison s else .ok (s.readTgt (.scr r (o + off)) n) s
  | .wst die o =>
      let (held, s) := s.wsHeld c (s.core c).now (.wst die 0)
      if held then .wait s
      else if s.badTgt (.wst die (o + off)) n then .err .poison (s.eroUnit c (.wst die (o + off)))
      else .ok (s.readTgt (.wst die (o + off)) n) s
  | .opb o => match s.team? c d.slot with
      | some tm => .ok (Memory.readN tm.opbuf (o + off) n) s
      | none => .wait s

/-- Writes a piece at a command's destination. -/
def State.cmdWrite (s : State) (c : Nat) (d : Cmd) (ctx : Nat) (e : End) (off : Nat) (bs : List Byte) (paid : Bool) : Xfer :=
  match e with
  | .glob va =>
      if s.migrating ctx (va + off) then .wait s
      else
      match s.cmdAddr c ctx (va + off) bs.length .store with
      | (_, true, s) => .err .watch s
      | (.ok pa, _, s) =>
          if !paid && s.meters pa then .port pa s
          else .ok [] ((s.mesh c (.mem pa)).writeOn d.kind.path (s.cmdAgent c d) pa bs)
      | (.fault, _, s) => .fault (va + off) s
      | (.prot, _, s) => .err .prot s
      | (.poison, _, s) => .err .poison s
  | .scr r o => .ok [] (s.writeTgt (.scr r (o + off)) bs)
  | .wst _ _ => .ok [] s
  | .opb o => .ok [] (s.modTeam c d.slot fun tm => { tm with opbuf := Memory.writeN tm.opbuf (o + off) bs })

/-- A command stops on a missing page and enters the fault queue with its progress (R229; 16 R350). -/
def State.cmdPark (s : State) (c : Nat) (d : Cmd) (va : Nat) : State :=
  match s.team? c d.slot with
  | none => s
  | some tm =>
      if s.faultsFull tm.ctx 1 then s
      else
        let (fid, s) := s.newFault tm.ctx tm.index
          { fid := 0, kind := 3, core := c, slot := d.slot, wid := d.wid, hg := d.hg, va := va, mem := d.mask, pc := d.pc,
            accs := [], uids := [], cmd := some d.id, reissue := false, cont := d.pc, accepted := 0, info := 0, pending := true }
        s.modCmd c d.id fun d => { d with fault := some fid }

/-- Takes the bytes lo to lo + n − 1 out of a range. -/
def cutRange (r : Nat × Nat) (lo n : Nat) : List (Nat × Nat) :=
  (if r.1 < lo then [(r.1, lo - r.1)] else []) ++
  (if lo + n < r.1 + r.2 then [(lo + n, r.1 + r.2 - lo - n)] else [])

/-- Bytes from an offset to the end of the 64 KiB page, for a side in global memory. -/
def End.room (e : End) (off : Nat) : Nat :=
  match e with
  | .glob va => 65536 - (va + off) % 65536
  | _ => 2 ^ 32

/-- A portion of what is left, freely chosen: a range, an offset and a length in whole 4-byte elements. -/
def State.portion (s : State) (rest : List (Nat × Nat)) (room : Nat → Nat) : Option ((Nat × Nat) × Nat × Nat) × State :=
  let (a, s) := s.draw
  let (b, s) := s.draw
  let (n, s) := s.draw
  match rest[a % rest.length]? with
  | none => (none, s)
  | some r =>
      let lo := r.1 + 4 * (b % max 1 (r.2 / 4))
      let most := min (r.1 + r.2 - lo) (room lo)
      (some (r, lo, 4 * (1 + n % max 1 (most / 4))), s)

/-- The command's remaining ranges after a portion. -/
def State.took (s : State) (c id lo n : Nat) : State :=
  s.modCmd c id fun d =>
    { d with rest := (d.rest.flatMap fun q => if q.1 ≤ lo && lo < q.1 + q.2 then cutRange q lo n else [q])
             asks := d.asks.filter fun a => a.2.1 != lo }

/-- What is left of a command's ranges beside the portions whose requests stand in ports. -/
def Cmd.unasked (d : Cmd) : List (Nat × Nat) :=
  d.asks.foldl (fun l a => l.flatMap fun q => if q.1 ≤ a.2.1 && a.2.1 < q.1 + q.2 then cutRange q a.2.1 a.2.2 else [q]) d.rest

/-- The next portion of a command, freely chosen: its offset and length, and whether its request has passed the port. -/
def State.nextPortion (s : State) (c : Nat) (d : Cmd) (room : Nat → Nat) : Option (Nat × Nat × Bool) × State :=
  let passed := d.asks.filter fun a => !s.inPort c a.1
  let (k, s) := s.draw
  match (passed.map fun a => some (a.2.1, a.2.2, true))[k % (passed.length + 1)]? with
  | some p => (p, s)
  | none =>
      let (p, s) := s.portion d.unasked room
      (p.map fun e => (e.2.1, e.2.2, false), s)

/-- The 64-byte request of a portion enters its port (17 R375). -/
def State.askPort (s : State) (c : Nat) (d : Cmd) (pa lo n : Nat) : State :=
  let (u, s) := s.newUid
  (s.enterPort c u pa 1).modCmd c d.id fun d => { d with asks := d.asks ++ [(u, lo, min n (64 - pa % 64))] }

/-- One portion of a copy (R225). Overlapping ranges of `cpyl` move as though the whole source had been
read first. -/
def State.copyPortion (s : State) (c : Nat) (d : Cmd) (ctx : Nat) (src dst : End) (len : Nat) : State :=
  let overlap := match src, dst with
    | .scr r a, .scr q b => r == q && decide (a < b + len) && decide (b < a + len)
    | _, _ => false
  let (p, s) := if overlap then (some (0, len, true), s)
    else s.nextPortion c d fun o => min (src.room o) (dst.room o)
  match p with
  | none => s
  | some (lo, n, paid) =>
      match s.cmdRead c d ctx src lo n paid with
      | .wait s => s
      | .port pa s => s.askPort c d pa lo n
      | .fault va s => s.cmdPark c d va
      | .err e s => s.cmdError c d.id e
      | .ok bs s =>
          match s.cmdWrite c d ctx dst lo bs paid with
          | .wait s => s
          | .port pa s => s.askPort c d pa lo n
          | .fault va s => s.cmdPark c d va
          | .err e s => s.cmdError c d.id e
          | .ok _ s => (s.took c d.id lo n).count c d n

/-- A command reads bytes of the context's tables for itself: a watch point may stop it (20 R416). -/
def State.cmdLook (s : State) (c ctx va n : Nat) : Except Cause Unit :=
  if (s.core c).watched ctx va n 3 then .error .watch else .ok ()

/-- What a gather reads as it starts (R226): P, E and the block count, or the cause of its failure. -/
def State.gatherGeo (s : State) (c ctx pd rq : Nat) (ix : Bool) : Except Cause (Nat × Nat × Nat) := do
  s.cmdLook c ctx pd 128
  s.cmdLook c ctx (s.rqbase ctx) 4
  s.cmdLook c ctx (recAddr (s.rqbase ctx) rq + 24) 4
  match s.pool ctx pd with
  | .error c => .error c
  | .ok none => .error .prot
  | .ok (some q) =>
      let e := if ix then q.eix else q.ekv
      let tab := s.rqbase ctx
      if e = 0 || tab = 0 then .error .prot
      else
        match s.vget ctx tab 4 with
        | .error c => .error c
        | .ok nrec =>
            if nrec ≤ rq then .error .prot
            else (s.recFld ctx tab rq 24 4).map fun n => (q.p, e, n)

/-- One participant's block of a gather or a prefetch: its page, pinned by a gather at its first
translation and in HBM; `wait` while Erg's recall has no frame (R226, R227, R325). -/
inductive Blk where
  | ok (page : Nat) (s : State)
  | wait (s : State)
  | err (c : Cause) (s : State)

def State.gatherBlk (s : State) (c : Nat) (d : Cmd) (ctx pd rq b j : Nat) (pin : Bool) : Blk :=
  match s.pool ctx pd with
  | .error e => .err e s
  | .ok none => .err .prot s
  | .ok (some q) =>
      let found : Except Cause (Nat × State) :=
        match (d.srcs.zip d.pins).find? fun e => e.1 == j with
        | some e => .ok (e.2, s)
        | none =>
            let entry := (s.recFld ctx (s.rqbase ctx) rq 32 8).toOption.getD 0 + 8 * b
            match (s.cmdLook c ctx entry 8).bind fun _ => s.blkPage ctx (s.rqbase ctx) rq b with
            | .error e => .error e
            | .ok (pg, s) =>
                if pin then
                  match s.modPg ctx q pg fun m => { m with pins := m.pins + 1 } with
                  | .error e => .error e
                  | .ok s => .ok (pg, s.modCmd c d.id fun d => { d with srcs := d.srcs ++ [j], pins := d.pins ++ [pg] })
                else .ok (pg, s)
      match found with
      | .error e => .err e s
      | .ok (pg, s) =>
          match s.getPg ctx q pg with
          | .error e => .err e s
          | .ok m =>
              if m.poison then .err .poison s
              else if m.tier = 0 then .ok pg s
              else .wait { s.modCmd c d.id (fun d => { d with erg := some pg }) with
                           agenda := .event (.pageRecall ctx pg) :: s.agenda }

/-- The status word of a gather that is still pending shows that it met `KVBOUND` (R226, R230). -/
def State.noteKvb (s : State) (c : Nat) (d : Cmd) : State :=
  s.modTeam c d.slot fun tm =>
    if tm.wid = d.wid then { tm with handles := Tab.mod tm.handles d.h.toNat fun h => { h with kvb := true } } else tm

/-- One portion of a gather: rows of one participant, or its zero block (R226). -/
def State.gatherPortion (s : State) (c : Nat) (d : Cmd) (ctx : Nat) (blocks : List Nat) (pd rq : Nat) (ix : Bool)
    (dst : TRef) (off : Nat) : State :=
  let pe := d.geo.1 * d.geo.2.1
  let (p, s) := s.nextPortion c d fun o => pe - o % pe
  match p with
  | none => s
  | some (lo, n, paid) =>
      let j := lo / pe
      let b := blocks.getD j 0
      let put (s : State) (n : Nat) (bs : List Byte) : State :=
        ((s.writeTgt (.scr dst (off + lo)) bs).took c d.id lo n).count c d n
      if d.geo.2.2 ≤ b then
        match s.faultReq ctx (s.rqbase ctx) rq 0x0A with
        | .error e => s.cmdError c d.id e
        | .ok s => put ((s.modCmd c d.id fun d => { d with kvb := true }).noteKvb c d) n (List.replicate n 0)
      else
        match s.gatherBlk c d ctx pd rq b j true with
        | .err e s => s.cmdError c d.id e
        | .wait s => s
        | .ok pg s =>
            match s.pool ctx pd with
            | .ok (some q) =>
                match s.getPg ctx q pg with
                | .error e => s.cmdError c d.id e
                | .ok m =>
                    -- a row's page of memory may be missing, and then parks the command
                    let va := q.row 0 m.frame 0 ix + lo % pe
                    let n := min n (65536 - va % 65536)
                    match s.cmdRead c d ctx (.glob va) 0 n paid with
                    | .wait s => s
                    | .port pa s => s.askPort c d pa lo n
                    | .fault va s => s.cmdPark c d va
                    | .err e s =>
                        let s := if e = .poison then (s.modPg ctx q pg fun m => { m with poison := true }).toOption.getD s else s
                        s.cmdError c d.id e
                    | .ok bs s => put s n bs
            | _ => s.cmdError c d.id .prot

/-- A command starts: its range waits are over, and a gather reads its descriptor and block count. -/
def State.cmdBegin (s : State) (c : Nat) (d : Cmd) (ctx : Nat) : State :=
  if !s.clear d.id || s.cmdHeld c d then s
  else
    let start (s : State) : State := s.modCmd c d.id fun d => { d with begun := true }
    match d.kind with
    | .gather bs pd rq ix dst off =>
        match s.gatherGeo c ctx pd rq ix with
        | .error e => s.cmdError c d.id e
        | .ok (p, e, n) =>
            let room := match s.team? dst.core dst.slot with
              | some tm => tm.loc
              | none => 0
            if room < off + bs.length * (p * e) then s.cmdError c d.id .prot
            else (start s).modCmd c d.id fun d =>
              { d with geo := (p, e, n), rest := (List.range bs.length).map fun j => (j * (p * e), p * e) }
    | .kvpf bs pd rq ix =>
        match s.gatherGeo c ctx pd rq ix with
        | .error e => s.cmdError c d.id e
        | .ok (p, e, n) => (start s).modCmd c d.id fun d =>
            { d with geo := (p, e, n), rest := (List.range bs.length).map fun j => (j * (p * e), p * e) }
    | _ => start s

/-- One block of a prefetch: resident, or beyond the block count, or recalled (R227). -/
def State.kvpfPortion (s : State) (c : Nat) (d : Cmd) (ctx : Nat) (blocks : List Nat) (pd rq : Nat) : State :=
  let pe := d.geo.1 * d.geo.2.1
  let (a, s) := s.draw
  match d.rest[a % max 1 d.rest.length]? with
  | none => s
  | some r =>
      let b := blocks.getD (r.1 / pe) 0
      if d.geo.2.2 ≤ b then (s.took c d.id r.1 r.2).count c d r.2
      else
        match s.gatherBlk c d ctx pd rq b (r.1 / pe) false with
        | .err e s => s.cmdError c d.id e
        | .wait s => s
        | .ok _ s => (s.took c d.id r.1 r.2).count c d r.2

/-- The sending side of a page by Flolvo (15 R335): whether it has ended, which it has not while the recall of the page
waits for a frame (15 R325), or the cause of its failure. The page is read before its endpoint is looked up (log 13). The
status is an `nt` write of the network engine (10 R236). -/
def State.sendPeer (s : State) (c ctx : Nat) (q : Pool) (page desc : Nat) : Except Cause Bool × State :=
  let erg := unitKey 4 (s.ergDie ctx) 0
  let s := s.exchange (coreUnit c) erg
  match (s.cmdLook c ctx desc 32).bind fun _ => s.vread ctx desc 32 with
  | .error e => (.error e, s)
  | .ok bs =>
      let put (s : State) (v : Nat) : Except Cause Bool × State :=
        match s.vwriteOn .nt .peer ctx (desc + 16) [BitVec.ofNat 8 v] with
        | .ok s => (.ok true, s)
        | .error e => (.error e, s)
      if fieldLe bs 6 2 != 0 || fieldLe bs 12 4 / 128 != 0 || fieldLe bs 17 15 != 0 then put s 1
      else
        match s.getPg ctx q page with
        | .error e => (.error e, s)
        | .ok m =>
            if m.poison then put s 4
            else
              match s.recall? ctx q page with
              | .abort s e => put s (if e = .poison then 4 else 5)
              | .noFrame s => (.ok false, s)
              | .ok s =>
                  match (s.getPg ctx q page).bind fun m =>
                      (s.cmdLook c ctx (q.at' m.tier m.frame) q.frame).bind fun _ => s.vread ctx (q.at' m.tier m.frame) q.frame with
                  | .error .watch => (.error .watch, s)
                  | .error e =>
                      let s := if e = .poison then (s.modPg ctx q page fun m => { m with poison := true }).toOption.getD s else s
                      put (s.ero 4 (s.ergDie ctx) 0 (if e = .poison then 4 else 12) ctx page) (if e = .poison then 4 else 5)
                  | .ok _ =>
                      if !s.host.peer (fieldLe bs 0 4) then put s 1
                      else
                        -- what the link and the peer answer: 0 to 3
                        let (v, s) := (s.exchange erg (unitKey 12 (s.ergDie ctx) 0)).draw
                        put s (v % 4)

/-- The one act of a `kvevict` (15 R335): a move to a lower tier where it is allowed. -/
def State.evictTo (s : State) (ctx : Nat) (q : Pool) (page tier : Nat) : State :=
  match s.getPg ctx q page, s.allPg ctx q with
  | .ok m, .ok l =>
      if m.held || m.pins != 0 || m.poison || m.refs = 0 || tier ≤ m.tier then s
      else match freeFrame q l tier [] with
        | none => s
        | some fr => match s.movePage ctx q page m tier fr with
            | .ok s => s
            | .abort s _ => s
  | _, _ => s

/-- The pool of a context's table (15 R330). -/
def State.tablePool (s : State) (ctx : Nat) : Except Cause Pool :=
  match s.vget ctx (s.rqbase ctx + 72) 8 with
  | .error e => .error e
  | .ok a => match s.pool ctx a with
      | .error e => .error e
      | .ok none => .error .prot
      | .ok (some q) => .ok q

/-- A place in a range of physical addresses, moved with the range. -/
def Tgt.shifted (g : Tgt) (src n dst : Nat) : Tgt :=
  match g with
  | .mem pa => if src ≤ pa && pa < src + n then .mem (dst + (pa - src)) else g
  | _ => g
def Pend.shifted (p : Pend) (src n dst : Nat) : Pend :=
  match p.src with
  | .load a g => { p with src := .load a (g.shifted src n dst) }
  | .tile thr til base st loc pc ps => { p with src := .tile thr til base st loc pc (ps.map fun q => (q.1, q.2.1.shifted src n dst, q.2.2)) }
  | _ => p
def SEntry.shifted (e : SEntry) (src n dst : Nat) : SEntry := { e with tgt := e.tgt.shifted src n dst }
/-- The lines that a cache holds of a page move with it; those of its new place are gone. -/
def shiftLines (l : Tab (List Byte)) (src n dst : Nat) : Tab (List Byte) :=
  let into (b x : Nat) : Bool := decide (b / 64 ≤ x) && decide (x < (b + n) / 64)
  (l.filter fun e => into src e.1).foldl (fun t e => Tab.set t (dst / 64 + (e.1 - src / 64)) e.2)
    (l.filter fun e => !into src e.1 && !into dst e.1)

/-- Accesses that a trap, a parked fault or an eviction keeps from being performed follow the page that they were
translated to (16 R353). -/
def State.follow (s : State) (src n dst : Nat) : State :=
  let core (k : Core) : Core :=
    { k with pends := k.pends.map (fun p => p.shifted src n dst), storeQ := k.storeQ.map (fun q => q.shifted src n dst)
             l1 := shiftLines k.l1 src n dst, roCache := shiftLines k.roCache src n dst }
  let saved (q : SavedTeam) : SavedTeam :=
    { q with pends := q.pends.map (fun p => p.shifted src n dst), stores := q.stores.map fun e => e.shifted src n dst }
  { s with cores := s.cores.map (fun e => (e.1, core e.2)), ctxs := s.ctxs.map fun e => (e.1, { e.2 with saved := e.2.saved.map saved }) }

/-- A migration (16 R353): the page of a context moves to a new physical address, its leaf follows. -/
def State.migrate (s : State) (dpa size leaf : Nat) : Except (Cause × Bool) State :=
  let e := BitVec.ofNat 64 (Memory.readLe s.mem leaf 8)
  let src := (e.extractLsb' 8 44).toNat * 256
  if s.poisoned src size then .error (.poison, true)
  else if !(s.backed dpa && s.backed (dpa + size - 1)) then .error (.prot, false)
  else
    let s := s.writePa dpa (s.readPa src size)
    let s := { s with late := s.late.map fun (e : Past) =>
      if src / 4 ≤ e.elem && e.elem < (src + size) / 4 then { e with elem := dpa / 4 + (e.elem - src / 4) } else e }
    .ok ((s.writePa leaf (leBytes 8 ((e.toNat - src) + dpa))).follow src size dpa)

/-- Performs every access in flight to a range of physical addresses (16 R353). -/
def State.performIn (s : State) (lo n : Nat) : State :=
  let hit (g : Tgt) (m : Nat) : Bool := match g with
    | .mem pa => decide (lo < pa + m) && decide (pa < lo + n)
    | _ => false
  s.cores.foldl (fun s e =>
    let s := (sortNat (((s.core e.1).outs.filter fun o => hit o.tgt o.size).map fun o => o.uid)).foldl (fun s u => s.performAcc e.1 u) s
    ((s.core e.1).pends.filter fun p => match p.src with
      | .tile _ _ _ _ _ _ ps => ps.any fun q => hit q.2.1 q.2.2
      | _ => false).foldl (fun s p => s.performTile e.1 p) s) s

/-- Forgets cached translations of a context that a test selects, in every TLB (16 R349). -/
def State.flushTlb (s : State) (f : TlbEntry → Bool) : State :=
  let keep (l : List TlbEntry) : List TlbEntry := l.filter fun t => !f t
  { s with cores := s.cores.map (fun e => (e.1, { e.2 with tlb := keep e.2.tlb })), ctlb := s.ctlb.map fun e => (e.1, keep e.2) }

/-- Bytes that a command has not delivered. Those of a gather or a prefetch that has not started are c·P·E, by what it
would have read; of one whose descriptor gives no size the number is not stated, and is a free value (R199, R226;
log 33). -/
def State.undelivered (s : State) (c : Nat) (d : Cmd) (ctx : Nat) : Nat × State :=
  let ask (bs : List Nat) (pd rq : Nat) (ix : Bool) : Nat × State :=
    if d.begun then (d.owed, s)
    else match s.gatherGeo c ctx pd rq ix with
      | .ok (p, e, _) => (bs.length * (p * e), s)
      | .error _ => s.draw
  match d.kind with
  | .gather bs pd rq ix _ _ => ask bs pd rq ix
  | .kvpf bs pd rq ix => ask bs pd rq ix
  | _ => (d.owed, s)

/-- The bytes that a stopped command has not delivered arrive at its object (R199). An arrival that finds a reserved bit
set is not applied: the handle ends failed with `PROT`, and the team halts (08 R195). -/
def State.stopArrival (s : State) (c : Nat) (d : Cmd) (tm : Team) : State :=
  let (n, s) := s.undelivered c d tm.ctx
  let s := s.modCmd c d.id fun d => { d with rest := [] }
  match d.obj with
  | none => s
  | some o =>
      if n = 0 then s
      else match s.bxUpdate o .pay n with
        | some s => s
        | none =>
            match d.fin with
            | some (3, _) => s
            | _ =>
                if tm.fin then s.modCmd c d.id fun d => { d with fin := some (3, Cause.prot.code) }
                else (s.modCmd c d.id fun d => { d with fin := none }).cmdError c d.id .prot

/-- COMMAND_PORTION_ARRIVAL (R225 to R227; 08 R196): a command starts, or a portion of it is delivered and
counted; what a stopped one has not delivered counts at once. A command that waits on a page does nothing. -/
def execCommandPortionArrival (core id : Nat) (s : State) : Host.Outcome State Fault Refusal :=
  match (s.core core).cmd? id with
  | none => .next s
  | some d =>
      match s.team? core d.slot with
      | none => .next s
      | some tm =>
          if d.fin.isSome then .next (if d.rest.isEmpty then s else s.stopArrival core d tm)
          else if d.err.isSome || d.fault.isSome || d.erg.isSome || d.rest.isEmpty || tm.wid != d.wid then .next s
          else if !d.begun then .next (s.cmdBegin core d tm.ctx)
          else
            let fini (s : State) : State := s.modCmd core id fun d => { d with rest := [], kind := .done }
            match d.kind with
            | .copy a b n _ => .next (s.copyPortion core d tm.ctx a b n)
            | .gather bs pd rq ix dst off => .next (s.gatherPortion core d tm.ctx bs pd rq ix dst off)
            | .kvpf bs pd rq _ => .next (s.kvpfPortion core d tm.ctx bs pd rq)
            | .evict page tier => match s.tablePool tm.ctx with
                | .ok q => .next (fini (s.evictTo tm.ctx q page tier))
                | .error _ => .next (fini s)
            | .peer page desc => match s.tablePool tm.ctx with
                | .ok q => match s.sendPeer core tm.ctx q page desc with
                    | (.ok true, s) => .next (fini s)
                    | (.ok false, s) => .next s
                    | (.error e, s) => .next (s.cmdError core id e)
                | .error e => .next (s.cmdError core id e)
            | .mig ctx va dpa size leaf =>
                let src := ((BitVec.ofNat 64 (Memory.readLe s.mem leaf 8)).extractLsb' 8 44).toNat * 256
                let s := s.performIn src size
                match s.migrate dpa size leaf with
                | .ok s => .next (fini (s.flushTlb fun t => t.ctx == ctx && t.va / size == va / size))
                | .error (c, psn) =>
                    let s := if psn then s.writePa leaf [Memory.read s.mem leaf ||| 0x40] else s
                    let s := s.flushTlb fun t => t.ctx == ctx && t.va / size == va / size
                    let s := if psn then s.ero 1 (core / 96) (core % 96) 4 ctx va else s
                    .next ((s.ero 1 (core / 96) (core % 96) 5 ctx va).cmdError core id c)
            | _ => .next s

/-- An access by its name is not performed: in flight, queued, or saved. It keeps its name wherever its team is restored
(16 R362). -/
def State.unperformed (s : State) (uid : Nat) : Bool :=
  s.cores.any (fun e => (e.2.pends.any fun p => p.uid == uid) || e.2.storeQ.any fun q => q.uid == uid)
    || s.ctxs.any fun x => x.2.saved.any fun q => (q.pends.any fun p => p.uid == uid) || q.stores.any fun e => e.uid == uid

/-- What a command still waits for before it retires (R248, R349; 15 R333). -/
def State.cmdWaits (s : State) (d : Cmd) : Bool :=
  match d.kind with
  | .kvinv l => l.any fun e => ((s.core e.1).cmd? e.2).isSome
  | .tlbinv l => l.any fun e => s.unperformed e.2
  | _ => false

/-- Unpins the pages of a gather (R226, R321). -/
def State.unpin (s : State) (ctx : Nat) (d : Cmd) : State :=
  match d.kind with
  | .gather _ pd _ _ _ _ =>
      match s.pool ctx pd with
      | .ok (some q) => d.pins.foldl (fun s pg =>
          (s.modPg ctx q pg fun m => { m with pins := m.pins - 1 }).toOption.getD s) s
      | _ => s
  | _ => s

/-- COMMAND_RETIRE (08 R199): everything is delivered and counted, or the command has been stopped; a
command of length 0 applies one arrival of 0 bytes; the entries go, then the handle leaves pending. -/
def execCommandRetire (core id : Nat) (s : State) : Host.Outcome State Fault Refusal :=
  match (s.core core).cmd? id with
  | none => .next s
  | some d =>
      if d.fin.isNone && (!d.rest.isEmpty || d.err.isSome || d.fault.isSome || s.cmdWaits d) then .next s
      else
        let zero := d.zeroLen && d.fin.isNone && d.obj.isSome
        let paid := match zero, d.obj with
          | true, some o => s.bxUpdate o .pay 0
          | _, _ => some s
        match paid with
        | none => .next ((s.modCmd core id fun d => { d with zeroLen := false }).cmdError core id .prot)
        | some s =>
            let (st, cause) := d.fin.getD (1, 0)
            let ctx := match s.team? core d.slot with
              | some tm => tm.ctx
              | none => 0
            let s := (s.unpin ctx d).unclaim id
            let s := s.modCore core fun k => { k with cmds := k.cmds.filter fun e => e.id != id }
            let s := s.modTeam core d.slot fun tm =>
              if tm.wid = d.wid then
                { tm with handles := Tab.set tm.handles d.h.toNat { st := st, kvb := d.kvb, cause := cause } }
              else tm
            match s.team? core d.slot with
            | some tm => .next (if tm.fin then s.reap tm.grid tm.cluster else s)
            | none => .next s

/-! ## Handle instructions (R230) -/

/-- The handle register an operand names, and its value for a home group. -/
def Iss.hval (w : Iss) (g : Nat) (a : Opd) : Nat × DWord :=
  match a with
  | .hnd n => (n.toNat, w.tm.readReg (.h g n.toNat))
  | _ => (0, 0)

/-- Home groups whose handle value the device did not produce for the team. -/
def Iss.badHandles (w : Iss) (a : Opd) : List Nat := w.hgs.filter fun g => (w.tm.handle (w.hval g a).2).isNone

/-- A handle instruction: the `HANDLE` check, then its effect. -/
def handleWord (i : Instr) (h : Hdr) (a : Opd) (f : Iss → State → Res) (s : State) : Host.Outcome State Fault Refusal :=
  runWord i h allFall (fun w s =>
    match w.badHandles a with
    | [] => f w s
    | bad => .trap .handle 0 (bad.flatMap w.of) []) s

/-- A register that a wait will write: it is pending until then. -/
def State.oweReg (s : State) (w : Iss) (uid g : Nat) (x : RegAt) : State :=
  let p : Pend := { uid := uid, ins := uid, slot := w.slot, hg := g, regs := [x], src := .wait, issuedAt := w.now,
                    missed := true, urgent := false, aside := false }
  s.modCore w.core fun k => { k with pends := k.pends ++ [p] }

/-- HWAIT (R230). -/
def execHwait (h : Hdr) (d : Option Opd) (a : Opd) (s : State) : Host.Outcome State Fault Refusal :=
  handleWord (.hwait h d a) h a (fun w s =>
    let state (g : Nat) : HState := (w.tm.handle (w.hval g a).2).getD { st := 1, kvb := false, cause := 0 }
    match w.hgs.filter fun g => (state g).st == 0 with
    | [] =>
        -- handles that have left pending: null, and the status word
        let s := s.writeRegs w.core w.slot (w.hgs.map fun g => (.h g (w.hval g a).1, 0))
        match d with
        | some o => .done (s.laterWrite w w.ts (w.hgs.flatMap fun g => w.tm.dest (w.lead g) o 1 (state g).word))
        | none => .done { s := s }
    | late =>
        -- the threads of a pending handle wait; the word has no effect yet for the others
        let one (p : State × List (Nat × WaitCond) × List (Nat × Nat)) (g : Nat) :
            State × List (Nat × WaitCond) × List (Nat × Nat) :=
          let (id, s) := p.1.newUid
          let dst := d.bind fun o => ((w.tm.dest (w.lead g) o 1 0).map fun e => e.1).head?
          let s := match dst with
            | some x => s.oweReg w id g x
            | none => s
          let v : Nat := match Tab.get? w.tm.hgs g with
            | some q => Tab.getD q.hver (w.hval g a).1 0
            | none => 0
          let rec' : HWait := { id := id, hg := g, reg := (w.hval g a).1, ver := v, h := (w.hval g a).2, uid := id, dst := dst, done := false }
          (s.modTeam w.core w.slot fun tm => { tm with hwaits := tm.hwaits ++ [rec'] },
           p.2.1 ++ (w.of g).map (fun t => (t, .hwait id)),
           p.2.2 ++ (if dst.isSome then (w.of g).map fun t => (t, id) else []))
        let (s, ts, owes) := late.foldl one (s, [], [])
        .done (s.waitAt w ts owes)) s

/-- HTEST (R230). -/
def execHtest (h : Hdr) (d a : Opd) (s : State) : Host.Outcome State Fault Refusal :=
  handleWord (.htest h d a) h a (fun w s =>
    .done (s.laterWrite w w.ts (w.hgs.flatMap fun g =>
      w.tm.dest (w.lead g) d 1 ((w.tm.handle (w.hval g a).2).map HState.word |>.getD 1)))) s

/-- HCANCEL (R230): a pending command is stopped, its fault leaves the queue; hA becomes null. -/
def execHcancel (h : Hdr) (a : Opd) (s : State) : Host.Outcome State Fault Refusal :=
  handleWord (.hcancel h a) h a (fun w s =>
    let s := w.hgs.foldl (fun s g =>
      let v := (w.hval g a).2
      match (s.core w.core).cmds.find? fun d => d.h == v && d.wid == w.tm.wid with
      | none => s
      | some d =>
          let s := s.modCtx w.tm.ctx fun x => { x with faults := x.faults.filter fun f => !(f.wid == d.wid && f.cmd == some d.id) }
          s.cmdEnd w.core d.id 2 0) s
    .done { s := s.writeRegs w.core w.slot (w.hgs.map fun g => (.h g (w.hval g a).1, 0)) }) s

/-- HMOV (R230): 64 bits, never `HANDLE`. -/
def execHmov (h : Hdr) (d a : Opd) (s : State) : Host.Outcome State Fault Refusal :=
  laterHg (.hmov h d a) h (fun w _ t => .ok (w.tm.dest t d 1 (w.tm.val t a 1))) s

/-! ## Operand-buffer reads (R231) -/

/-- The value of register k that a participant's lane reads. -/
def lobWord (buf : Tab Byte) (f : LobForm) (off n l k : Nat) : Nat :=
  let elem (b e : Nat) : Nat := Memory.readLe buf (off + (32 * e + l) * b) b
  match f with
  | .rows => Memory.readLe buf (off + 4 * (l * n + k)) 4
  | .tr8 => (List.range 4).foldl (fun v i => v + 2 ^ (8 * i) * elem 1 (4 * k + i)) 0
  | .tr16 => (List.range 2).foldl (fun v i => v + 2 ^ (16 * i) * elem 2 (2 * k + i)) 0
  | .tr32 => elem 4 k

/-- VLOB (R231). -/
def execVlob (h : Hdr) (f : LobForm) (n1 : BitVec 5) (d a : Opd) (s : State) : Host.Outcome State Fault Refusal :=
  runWord (.vlob h f n1 d a) h allFall (fun w s =>
    let n := n1.toNat + 1
    let off (t : Nat) : Nat := w.tm.n32 t a
    let mis := w.ts.filter fun t => off t % 4 != 0
    let out := w.ts.filter fun t => decide ((s.core w.core).slotBytes < off t + 128 * n)
    match mis, out with
    | [], [] =>
        let hit (t : Nat) : Bool := (s.core w.core).sbHit true w.slot (off t) (128 * n) false
        if w.ts.any hit then .hold fun t => if hit t then [.range w.core true w.slot (off t) (128 * n)] else []
        else .done (s.laterWrite w w.ts (w.ts.flatMap fun t =>
          let v := (List.range n).foldl (fun v k => v + 2 ^ (32 * k) * lobWord w.tm.opbuf f (off t) n (laneOf t) k) 0
          w.tm.dest t d n v))
    | [], bad => .trap .prot 0 bad (bad.map fun t => (t, off t))
    | bad, _ => .trap .misalign 0 bad (bad.map fun t => (t, off t))) s

/-! ## Erg's events (15 R323, R325) -/

/-- The descriptor of the pool that a command names. -/
def State.poolAt (s : State) (ctx : Nat) (d : Cmd) : Except Cause Nat :=
  match d.kind with
  | .gather _ pd _ _ _ _ => .ok pd
  | .kvpf _ pd _ _ => .ok pd
  | _ => s.vget ctx (s.rqbase ctx + 72) 8

/-- Commands of a context that wait on the recall of a page, with the pool that each names, as (core, command, pool). -/
def State.waitersOn (s : State) (ctx page : Nat) : List (Nat × Nat × Except Cause Nat) :=
  s.cores.flatMap fun e => (e.2.cmds.filter fun d => d.erg == some page
    && (match Tab.get? e.2.teams d.slot with
        | some tm => tm.ctx == ctx
        | none => false)).map fun d => (e.1, d.id, s.poolAt ctx d)

/-- The waiters on one recall: those that name one pool (R325). -/
def samePool (a b : Except Cause Nat) : Bool :=
  match a, b with
  | .ok x, .ok y => x == y
  | .error _, .error _ => true
  | _, _ => false

/-- A recall of a page of one pool: the page comes to HBM and the commands that wait on it go on; an aborted copy fails
them; with no frame they wait on. -/
def State.recallFor (s : State) (ctx page : Nat) (pd : Except Cause Nat) (ws : List (Nat × Nat)) : State :=
  let fail (s : State) (c : Cause) : State :=
    ws.foldl (fun s e => (s.modCmd e.1 e.2 fun d => { d with erg := none }).cmdError e.1 e.2 c) s
  match pd.bind fun a => s.pool ctx a with
  | .error c => fail s c
  | .ok none => fail s .prot
  | .ok (some q) =>
      match s.recall? ctx q page with
      | .ok s => ws.foldl (fun s e => s.modCmd e.1 e.2 fun d => { d with erg := none }) s
      | .noFrame s => s
      | .abort s c => fail s c

/-- PAGE_RECALL (R325): for each pool whose page of this number is waited for. -/
def State.recallAll (ctx page : Nat) : Nat → List (Nat × Nat × Except Cause Nat) → State → State
  | 0, _, s => s
  | _, [], s => s
  | f + 1, w :: ws, s =>
      let mine := (w :: ws).filter fun e => samePool e.2.2 w.2.2
      State.recallAll ctx page f (ws.filter fun e => !samePool e.2.2 w.2.2) (s.recallFor ctx page w.2.2 (mine.map fun e => (e.1, e.2.1)))

/-- PAGE_RECALL (R325). -/
def execPageRecall (ctx page : Nat) (s : State) : Host.Outcome State Fault Refusal :=
  let ws := s.waitersOn ctx page
  .next (State.recallAll ctx page ws.length ws s)

/-- PAGE_EVICTION (R323): Erg moves the first candidate out of HBM for a recall that waits for a frame of its pool. -/
def execPageEviction (ctx : Nat) (s : State) : Host.Outcome State Fault Refusal :=
  let needs := s.cores.flatMap fun e => (e.2.cmds.filter fun d => d.erg.isSome && (match Tab.get? e.2.teams d.slot with
    | some tm => tm.ctx == ctx
    | none => false)).map fun d => (d.erg.getD 0, s.poolAt ctx d)
  match needs with
  | [] => .next s
  | (page, pd) :: _ =>
      match pd.bind fun a => s.pool ctx a with
      | .error _ => .next s
      | .ok none => .next s
      | .ok (some q) =>
          match s.allPg ctx q with
          | .error _ => .next s
          | .ok l =>
              if (freeFrame q l 0 (s.resv ctx)).isSome then .next s
              else
                let r := State.evictOne ctx q (2 * q.pages + 1) (s.triedFor ctx q page) s
                .next (r.2.2.setTried ctx q page r.2.1)

end Sys2Proof.Machine
end

