-- ==== Sys2Proof/Machine/Kv.lean ====
section
/-! DEFINITION. Class 9: the KV and prefix instructions, Barchan's tree, and the request instructions (14
R308 to R314, R424; 15 R326 to R338). -/

namespace Sys2Proof.Machine

/-! ## Table checks (14 R308; 15 R330) -/

/-- The table of a context with its record count; `PROT` where none is served (R308). -/
def State.table (s : State) (ctx : Nat) : Except Cause (Nat × Nat) :=
  let tab := s.rqbase ctx
  if tab = 0 then .error .prot
  else
    match s.vget ctx (tab + 6) 1, s.vget ctx tab 4 with
    | .ok m, .ok n => if m = 0 ∨ m = 3 ∨ m = 5 then .error .prot else .ok (tab, n)
    | .error c, _ => .error c
    | _, .error c => .error c

/-- A write that a word of class 9 made for a thread: on `rq` the thread is its agent (10 R233, R236); one of Erg or
Barchan on `gk` comes before every later access of the thread, and its `rel` covers it (10 R247). -/
def Past.ofThread (a : Agent) (x : Nat × Nat) (e : Past) : Past :=
  match e.path with
  | .rq => { e with who := a }
  | .gk => { e with gone := x :: e.gone }
  | _ => e

/-- What a word has written for a thread since `s`. -/
def Iss.wrote (w : Iss) (s : State) (t : Nat) (u : State) : State :=
  let n := u.late.length - s.late.length
  { u with late := (u.late.take n).map (Past.ofThread (w.tm.agent w.core t) (w.tm.wid, t)) ++ u.late.drop n }

/-- A per-thread computation over the table, in ascending thread order; one failure and nothing is
written (R308, R424). -/
def eachThread (w : Iss) (ts : List Nat) (f : Nat → State → Except Cause (List (RegAt × DWord) × State)) (s : State) :
    Except (Cause × Nat) (List (RegAt × DWord) × State) :=
  (sortNat ts).foldlM (fun p t => match f t p.2 with
    | .error c => .error (c, t)
    | .ok (l, s) => .ok (p.1 ++ l, w.wrote p.2 t s)) ([], s)

/-- A word over the table for each thread, or for each home group by its lowest thread: a check of every
thread, then the actions. -/
def tableWord (i : Instr) (h : Hdr) (perHgrp : Bool)
    (chk : Iss → State → Nat → Except Cause Unit)
    (act : Iss → Nat → State → Except Cause (List (RegAt × DWord) × State)) (s : State) :
    Host.Outcome State Fault Refusal :=
  runWord i h allFall (fun w s =>
    let ts := if perHgrp then w.hgs.map w.lead else w.ts
    let bad := ts.filterMap fun t => match chk w s t with
      | .error c => some (t, c)
      | .ok _ => none
    let mask (l : List Nat) : List Nat := if perHgrp then l.flatMap fun t => w.of (hgOf t) else l
    match bad with
    | (_, c) :: _ => .trap c 0 (mask ((bad.filter fun b => b.2 == c).map fun b => b.1)) []
    | [] =>
        match eachThread w ts (act w) s with
        | .error (c, t) => .trap c 0 (mask [t]) []
        | .ok ([], s) => .done { s := s }
        | .ok (wr, s) => .done (s.laterWrite w w.ts wr)) s

/-- The check of a request index (R308). -/
def reqCheck (a : Opd) (w : Iss) (s : State) (t : Nat) : Except Cause Unit :=
  match s.table w.tm.ctx with
  | .error c => .error c
  | .ok (_, n) => if n ≤ w.tm.n32 t a then .error .prot else .ok ()

/-- The check of a table alone. -/
def tabCheck (w : Iss) (s : State) (_ : Nat) : Except Cause Unit := (s.table w.tm.ctx).map fun _ => ()

/-- The slots of the current step of the table that `RQBASE` names: a step that a bad replay ended keeps them (R301,
R308, R313). -/
def State.slots (s : State) (ctx : Nat) : List Slot :=
  match s.ctx? ctx with
  | some x => if x.mer.slotTab = x.rqbase.toNat then x.mer.slots else []
  | none => []
/-- The slot of the current step that a request has (R313). -/
def State.slotOf (s : State) (ctx r : Nat) : Option Slot := (s.slots ctx).find? fun e => e.req == r

/-! ## Request instructions (R309 to R314) -/

/-- Offset and bytes of a field (R299, R309). -/
def RqFld.at' : RqFld → Nat × Nat
  | .rid => (0, 4) | .state => (4, 1) | .prio => (5, 1) | .pos => (12, 4) | .plen => (8, 4) | .ngen => (16, 4)
  | .maxnew => (20, 4) | .nblk => (24, 4) | .slot => (28, 4) | .temp => (72, 4) | .minp => (76, 4) | .topk => (80, 4)
  | .last => (84, 4) | .seed => (64, 8) | .fcause => (104, 1) | .tenant => (60, 2) | .spos => (0, 0)

/-- RQLD (R309). -/
def execRqld (h : Hdr) (f : RqFld) (sc : Scope) (d a : Opd) (s : State) : Host.Outcome State Fault Refusal :=
  tableWord (.rqld h f sc d a) h false (reqCheck a) (fun w t s => do
    let (tab, _) ← s.table w.tm.ctx
    let r := w.tm.n32 t a
    let (o, n) := RqFld.at' f
    let v ← s.recFld w.tm.ctx tab r o n
    let slot ← s.recFld w.tm.ctx tab r 28 4
    let v := match f with
      | .spos => match s.slotOf w.tm.ctx r with
          | some e => if e.samp && slot != 0xFFFFFFFF then e.kvlen else 0xFFFFFFFF
          | none => 0xFFFFFFFF
      | .prio => v % 16
      | _ => v
    return (w.tm.dest t d (if n = 8 then 2 else 1) v, s)) s

/-- RQST (R309): only a record in state 2 or 3 is written. -/
def execRqst (h : Hdr) (f : RqFld) (sc : Scope) (a b : Opd) (s : State) : Host.Outcome State Fault Refusal :=
  let val (w : Iss) (t : Nat) : Nat := match f with
    | .seed => w.tm.n64 t b
    | _ => w.tm.n32 t b
  tableWord (.rqst h f sc a b) h false (fun w s t => do
      reqCheck a w s t
      match f with
      | .prio => if 15 < val w t then throw .prot else pure ()
      | _ => pure ())
    (fun w t s => do
      let (tab, nrec) ← s.table w.tm.ctx
      let r := w.tm.n32 t a
      let st ← s.recFld w.tm.ctx tab r 4 1
      if st = 2 ∨ st = 3 then
        let s ← s.setRec w.tm.ctx tab r (RqFld.at' f).1 (RqFld.at' f).2 (val w t)
        match f, s.tablePool w.tm.ctx with
        | .prio, .ok q => return ([], ← s.refreshReq w.tm.ctx q tab nrec r)
        | _, _ => return ([], s)
      else return ([], s)) s

/-- The emit of one thread (R310): its status and the state after it. -/
def State.emit (s : State) (ctx tab r b : Nat) : Except Cause (Nat × State) := do
  let st ← s.recFld ctx tab r 4 1
  let slot ← s.recFld ctx tab r 28 4
  let fl ← s.recFld ctx tab r 6 1
  let samp := match s.slotOf ctx r with
    | some e => e.samp
    | none => false
  if st = 5 then return (1, s)
  else if st = 4 then return (2, s)
  else if slot = 0xFFFFFFFF || !samp then return (3, s)
  else if fl % 2 = 1 then return (4, s)
  else
    let out ← s.recFld ctx tab r 48 8
    let n ← s.recFld ctx tab r 16 4
    let s ← s.vput ctx (out + 4 * n) 4 b
    let s ← s.setRec ctx tab r (192 + 4 * (n % 16)) 4 b
    let s ← s.setRec ctx tab r 84 4 b
    let s ← s.setRec ctx tab r 16 4 ((n + 1) % 2 ^ 32)
    let s ← s.setRec ctx tab r 6 1 (fl + 1)
    return (0, s)

/-- RQEMIT (R310). -/
def execRqemit (h : Hdr) (sc : Scope) (d a b : Opd) (s : State) : Host.Outcome State Fault Refusal :=
  tableWord (.rqemit h sc d a b) h false (reqCheck a) (fun w t s => do
    let (tab, _) ← s.table w.tm.ctx
    let (v, s) ← s.emit w.tm.ctx tab (w.tm.n32 t a) (w.tm.n32 t b)
    return (w.tm.dest t d 1 v, s)) s

/-- The hash of a stop sequence, oldest token first (R311). -/
def stopHash (ts : List Nat) : Nat := ts.foldl (fun h t => (Nat.xor h t * 0x01000193) % 2 ^ 32) 0x811C9DC5

/-- Little-endian words of a byte string. -/
def tokWords (bs : List Byte) (n : Nat) : List Nat := (List.range n).map fun i => fieldLe bs (4 * i) 4

/-- Whether stop sequence k of a record matches its last tokens (R311). -/
def State.stopSeq (s : State) (ctx tab r k n : Nat) : Except Cause Bool := do
  let e ← s.vread ctx (recAddr tab r + 128 + 16 * k) 16
  let len := fieldLe e 4 1 % 32
  if len = 0 || n < len then return false
  else
    let hist ← s.vread ctx (recAddr tab r + 192) 64
    let last := (List.range len).map fun i => fieldLe hist (4 * ((n - len + i) % 16)) 4
    if stopHash last != fieldLe e 0 4 then return false
    else
      let seq ← s.vread ctx (fieldLe e 8 8) (4 * len)
      return tokWords seq len == last

/-- The stop test of one thread (R311). -/
def State.stopTest (s : State) (ctx tab r : Nat) : Except Cause (Nat × State) := do
  let st ← s.recFld ctx tab r 4 1
  let fl ← s.recFld ctx tab r 6 1
  if st = 5 then return (8, s)
  else if st = 4 then return (7, s)
  else if fl % 2 = 0 then return (9, s)
  else if fl / 2 % 2 = 1 then return (10, s)
  else
    let n ← s.recFld ctx tab r 16 4
    let mx ← s.recFld ctx tab r 20 4
    let last ← s.recFld ctx tab r 84 4
    let ns ← s.recFld ctx tab r 96 4
    let set ← s.recFld ctx tab r 88 8
    let c ← if mx ≤ n then pure 1
      else do
        let bs ← s.vread ctx set (4 * ns)
        if (tokWords bs ns).contains last then pure 2
        else
          (List.range 4).foldlM (fun c k => do
            if c != 0 then return c
            else if ← s.stopSeq ctx tab r k n then return 3 + k
            else return 0) 0
    let s ← s.setRec ctx tab r 6 1 (fl + 2)
    if c = 0 then return (0, s)
    else
      let s ← s.setRec ctx tab r 4 1 4
      let s ← s.setRec ctx tab r 105 1 c
      return (c, s)

/-- RQSTOP (R311). -/
def execRqstop (h : Hdr) (sc : Scope) (d a : Opd) (s : State) : Host.Outcome State Fault Refusal :=
  tableWord (.rqstop h sc d a) h false (reqCheck a) (fun w t s => do
    let (tab, _) ← s.table w.tm.ctx
    let (v, s) ← s.stopTest w.tm.ctx tab (w.tm.n32 t a)
    return (w.tm.dest t d 1 v, s)) s

/-- RQFAIL (R312): a cause of 0 raises `OPBOUND`. -/
def execRqfail (h : Hdr) (sc : Scope) (a b : Opd) (s : State) : Host.Outcome State Fault Refusal :=
  tableWord (.rqfail h sc a b) h false (fun w s t => do
      reqCheck a w s t
      if w.tm.n32 t b % 256 = 0 then throw .opbound else pure ())
    (fun w t s => do
      let (tab, _) ← s.table w.tm.ctx
      let s ← s.faultReq w.tm.ctx tab (w.tm.n32 t a) (w.tm.n32 t b % 256)
      return ([], s)) s

/-- RQSLOT (R313). -/
def execRqslot (h : Hdr) (inv : Bool) (sc : Scope) (d a : Opd) (s : State) : Host.Outcome State Fault Refusal :=
  tableWord (.rqslot h inv sc d a) h false (if inv then reqCheck a else tabCheck) (fun w t s => do
    let (tab, _) ← s.table w.tm.ctx
    let v := w.tm.n32 t a
    if inv then
      let k ← s.recFld w.tm.ctx tab v 28 4
      return (w.tm.dest t d 1 k, s)
    else
      return (w.tm.dest t d 1 (((s.slots w.tm.ctx)[v]?).map Slot.req |>.getD 0xFFFFFFFF), s)) s

/-- BFDONE (R314): the home group's writes are performed, then its report counts where it names the
step. -/
def execBfdone (h : Hdr) (a : Opd) (s : State) : Host.Outcome State Fault Refusal :=
  runWord (.bfdone h a) h allFall (fun w s =>
    match tabCheck w s 0 with
    | .error c => .trap c 0 w.ts []
    | .ok _ =>
        match s.performFirst w fun y =>
            (y.lsOf w.slot (w.tm.launched.filter fun t => w.hgs.contains (hgOf t)) && !y.pure) || y.near with
        | .error r => r
        | .ok s =>
            .done { s := w.hgs.foldl (fun s g => s.modCtx w.tm.ctx fun x =>
              if x.mer.flying && x.mer.step % 2 ^ 32 == w.tm.n32 (w.lead g) a then
                { x with mer := { x.mer with reports := x.mer.reports + 1 } }
              else x) s }) s

/-! ## KV instructions (15 R330 to R335) -/

/-- The checks of R330 for a request index. -/
def kvReqCheck (a : Opd) (w : Iss) (s : State) (t : Nat) : Except Cause Unit := do
  reqCheck a w s t
  let _ ← s.tablePool w.tm.ctx
  return ()

/-- The checks of R330 for a page index. -/
def kvPageCheck (a : Opd) (w : Iss) (s : State) (t : Nat) : Except Cause Unit := do
  tabCheck w s t
  let q ← s.tablePool w.tm.ctx
  if q.pages ≤ w.tm.n32 t a then throw .prot else return ()

/-- A frame for the copy of a page for a request: the one reserved for it, else another reserved one, else a free one
(R322, R331). -/
def State.cowFrame (s : State) (ctx : Nat) (q : Pool) (r pg : Nat) : Option Nat × State :=
  let rs := match s.ctx? ctx with
    | some x => x.erg.resv
    | none => []
  match (rs.find? fun e => e.1 == r && e.2.1 == pg).or rs.head? with
  | some e => (some e.2.2, s.modCtx ctx fun x => { x with erg := { x.erg with resv := x.erg.resv.erase e } })
  | none => s.hbmFrame ctx q

/-- Copies the first rows of a page, both planes, to a frame; the other rows are zero (R331). -/
def State.copyRows (s : State) (ctx : Nat) (q : Pool) (m : PgMeta) (fr rows : Nat) : Except Cause State := do
  let a ← s.vread ctx (q.row m.tier m.frame 0 false) (rows * q.ekv)
  let b ← s.vread ctx (q.row m.tier m.frame 0 true) (rows * q.eix)
  let zero (n : Nat) : List Byte := List.replicate n 0
  let body := a ++ zero ((q.p - rows) * q.ekv) ++ b ++ zero ((q.p - rows) * q.eix)
  s.vwriteOn .gk .serve ctx (q.at' 0 fr) (body ++ zero (q.frame - body.length))

/-- Prepares one block of a `kvapp` (R331): the state, with a status where it stops. -/
def State.prepBlock (s : State) (ctx : Nat) (q : Pool) (tab nrec r bnd b : Nat) : Except Cause (Nat × State) := do
  let (pg, rf) ← s.blkEntry ctx tab r b
  let m ← s.getPg ctx q pg
  let done (s : State) (pg : Nat) : Except Cause (Nat × State) := do
    let fill := min q.p (bnd - b * q.p)
    let s ← s.setBlk ctx tab r b pg fill
    let s ← s.modPg ctx q pg fun m => { m with fill := max m.fill fill }
    return (0, (s.dropBlks ctx r b (b + 1)).modCtx ctx fun x =>
      { x with erg := { x.erg with prep := x.erg.prep ++ [(r, b, bnd, false)] } })
  if m.refs ≤ 1 then done s pg
  else
    let l ← s.allPg ctx q
    match lowestFree l with
    | none => return (5, s)
    | some n =>
    match s.cowFrame ctx q r pg with
    | (none, s) => return (5, s)
    | (some fr, s) =>
        match s.copyRows ctx q m fr rf with
        | .error .poison =>
            let s ← s.modPg ctx q pg fun m => { m with poison := true }
            let s := s.ero 4 (s.ergDie ctx) 0 4 ctx pg
            let s ← s.faultReq ctx tab r 5
            return (6, s)
        | .error c => throw c
        | .ok s =>
            let s ← s.putPg ctx q n { m with refs := 1, tier := 0, held := true, poison := false, fill := rf, frame := fr, pins := 0 }
            let s ← s.modPg ctx q pg fun m => { m with refs := m.refs - 1 }
            let (o, s) ← done s n
            let s ← s.refreshPg ctx q tab nrec [] pg
            return (o, ← s.refreshPg ctx q tab nrec [] n)

/-- The block is one of those that a `kvapp` of a request prepared. -/
def isPrepared (r : Nat) (blocks : List Nat) (e : Nat × Nat × Nat × Bool) : Bool := e.1 == r && blocks.contains e.2.1

/-- The blocks that a `kvapp` with status 0 prepared (R332). -/
def State.preparedBy (s : State) (ctx r : Nat) (blocks : List Nat) : State :=
  s.modCtx ctx fun x => { x with erg := { x.erg with
    prep := x.erg.prep.map fun e => (e.1, e.2.1, e.2.2.1, e.2.2.2 || isPrepared r blocks e) } }

/-- The effect and status of `kvapp` (R331). -/
def State.kvapp (s : State) (ctx r b : Nat) : Except Cause (Nat × State) := do
  let q ← s.tablePool ctx
  let (tab, nrec) ← s.table ctx
  let st ← s.recFld ctx tab r 4 1
  let slot ← s.recFld ctx tab r 28 4
  let pos ← s.recFld ctx tab r 12 4
  let kvlen := match s.slotOf ctx r with
    | some e => e.kvlen
    | none => 0
  let prep := match s.ctx? ctx with
    | some x => x.erg.prep
    | none => []
  let blocks := (List.range ((b - 1) / q.p + 1)).filter fun k => decide (pos / q.p ≤ k)
  if st = 4 ∨ st = 5 then return (1, s)
  else if slot = 0xFFFFFFFF then return (2, s)
  else if b ≤ pos || kvlen < b then return (3, s)
  else if blocks.all fun k => prep.any fun e => e.1 == r && e.2.1 == k && decide (b ≤ e.2.2.1) then return (4, s)
  else
    let (v, s) ← blocks.foldlM (fun p k => if p.1 != 0 then .ok p else p.2.prepBlock ctx q tab nrec r b k) (0, s)
    return (v, if v = 0 then s.preparedBy ctx r blocks else s)

/-- KVAPP (R331). -/
def execKvapp (h : Hdr) (sc : Scope) (d a b : Opd) (s : State) : Host.Outcome State Fault Refusal :=
  tableWord (.kvapp h sc d a b) h false (kvReqCheck a) (fun w t s => do
    let (v, s) ← s.kvapp w.tm.ctx (w.tm.n32 t a) (w.tm.n32 t b)
    return (w.tm.dest t d 1 v, s)) s

/-- KVMAP (R332). -/
def execKvmap (h : Hdr) (ix : Bool) (sc : Scope) (d a b : Opd) (s : State) : Host.Outcome State Fault Refusal :=
  tableWord (.kvmap h ix sc d a b) h false (kvReqCheck a) (fun w t s => do
    let ctx := w.tm.ctx
    let r := w.tm.n32 t a
    let k := w.tm.n32 t b
    let q ← s.tablePool ctx
    let (tab, _) ← s.table ctx
    let slot ← s.recFld ctx tab r 28 4
    let prepared := match s.ctx? ctx with
      | some x => x.erg.prep.any fun e => e.1 == r && e.2.1 == k && e.2.2.2
      | none => false
    if slot = 0xFFFFFFFF || (s.slotOf ctx r).isNone || !prepared then return (w.tm.dest t d 2 0, s)
    else
      let (pg, _) ← s.blkEntry ctx tab r k
      let m ← s.getPg ctx q pg
      return (w.tm.dest t d 2 (if m.held then q.row m.tier m.frame 0 ix else 0), s)) s

/-- Gathers of a context in flight that translated one of these blocks of a request (R333). -/
def State.gathersOf (s : State) (ctx r lo hi : Nat) : List (Nat × Nat) :=
  s.cores.flatMap fun e => (e.2.cmds.filter fun d => match d.kind with
    | .gather bs _ rq _ _ _ => rq == r && (match Tab.get? e.2.teams d.slot with
        | some tm => tm.ctx == ctx
        | none => false) && d.srcs.any fun j => decide (lo ≤ bs.getD j 0) && decide (bs.getD j 0 < hi)
    | _ => false).map fun d => (e.1, d.id)

/-- A word of class 9 that returns a handle for each home group: checks, the earlier writes performed, a
command slot, and the command; `f` gives the kind and what it does at once. -/
def kvCommand (i : Instr) (h : Hdr) (d : Opd) (chk : Iss → State → Nat → Except Cause Unit)
    (f : Iss → State → Nat → Except Cause (CmdKind × List (Nat × Nat) × State)) (s : State) :
    Host.Outcome State Fault Refusal :=
  runWord i h allFall (fun w s =>
    let bad := w.hgs.filterMap fun g => match chk w s (w.lead g) with
      | .error c => some (g, c)
      | .ok _ => none
    match bad with
    | (_, c) :: _ => .trap c 0 (((bad.filter fun b => b.2 == c).map fun b => b.1).flatMap w.of) []
    | [] =>
        if Config.cmdSlots < (s.core w.core).cmds.length + w.hgs.length then .hold fun _ => [.cmds w.hgs.length]
        else
          match s.performFirst w fun y => (y.lsOf w.slot w.ts && !y.pure) || y.near with
          | .error r => r
          | .ok s =>
              let r := w.hgs.foldlM (fun p g => match f w p.2 g with
                | .error c => (.error (c, g) : Except (Cause × Nat) (List (RegAt × DWord) × State))
                | .ok (k, rest, s) =>
                    let (hv, s) := s.order w g { kind := k, obj := none, rest := rest, claims := [], path := .gk }
                    let id := s.uid - 1
                    let s := s.modCmd w.core id fun d => { d with begun := true }
                    let s := if rest.isEmpty then match execCommandRetire w.core id s with
                        | .next s => s
                        | _ => s
                      else s
                    .ok (p.1 ++ w.tm.dest (w.lead g) d 1 hv.toNat, s)) (([] : List (RegAt × DWord)), s)
              match r with
              | .error (c, g) => .trap c 0 (w.of g) []
              | .ok (wr, s) => .done (s.laterWrite w w.ts wr)) s

/-- KVINV (R333). -/
def execKvinv (h : Hdr) (sc : Scope) (d a b x : Opd) (s : State) : Host.Outcome State Fault Refusal :=
  kvCommand (.kvinv h sc d a b x) h d (kvReqCheck a) (fun w s g => do
    let t := w.lead g
    let r := w.tm.n32 t a
    let lo := w.tm.n32 t b
    let (tab, _) ← s.table w.tm.ctx
    let nb ← s.recFld w.tm.ctx tab r 24 4
    let hi := min nb (lo + w.tm.n32 t x)
    return (.kvinv (s.gathersOf w.tm.ctx r lo hi), [], s.dropBlks w.tm.ctx r lo hi)) s

/-- KVREF (R334). -/
def execKvref (h : Hdr) (o : KvRefOp) (sc : Scope) (d a : Opd) (s : State) : Host.Outcome State Fault Refusal :=
  tableWord (.kvref h o sc d a) h false (kvPageCheck a) (fun w t s => do
    let q ← s.tablePool w.tm.ctx
    let pg := w.tm.n32 t a
    let m ← s.getPg w.tm.ctx q pg
    let s ← match o with
      | .rd => pure s
      | .inc => s.refPg w.tm.ctx q pg true
      | .dec => s.refPg w.tm.ctx q pg false
    return (w.tm.dest t d 1 m.refs, s)) s

/-- The checks of an eviction at its word: the page metadata, by which its frames are known, is read (R335; 14 R424). -/
def kvEvictCheck (a : Opd) (w : Iss) (s : State) (t : Nat) : Except Cause Unit := do
  kvPageCheck a w s t
  let _ ← s.allPg w.tm.ctx (← s.tablePool w.tm.ctx)

/-- KVEVICT_LP (R335). -/
def execKvevictLp (h : Hdr) (sc : Scope) (d a : Opd) (s : State) : Host.Outcome State Fault Refusal :=
  kvCommand (.kvevictLp h sc d a) h d (kvEvictCheck a) (fun w s g =>
    .ok (.evict (w.tm.n32 (w.lead g) a) 1, [(0, 1)], s)) s
/-- KVEVICT_CXL (R335). -/
def execKvevictCxl (h : Hdr) (sc : Scope) (d a : Opd) (s : State) : Host.Outcome State Fault Refusal :=
  kvCommand (.kvevictCxl h sc d a) h d (kvEvictCheck a) (fun w s g =>
    .ok (.evict (w.tm.n32 (w.lead g) a) 2, [(0, 1)], s)) s
/-- KVEVICT_PEER (R335). -/
def execKvevictPeer (h : Hdr) (sc : Scope) (d a b : Opd) (s : State) : Host.Outcome State Fault Refusal :=
  kvCommand (.kvevictPeer h sc d a b) h d (fun w s t => do
      if w.tm.n64 t b % 32 != 0 then throw .misalign
      if 2 ^ 57 ≤ w.tm.n64 t b then throw .prot
      kvEvictCheck a w s t)
    (fun w s g => .ok (.peer (w.tm.n32 (w.lead g) a) (w.tm.n64 (w.lead g) b), [(0, 1)], s)) s

/-! ## Barchan (R326 to R329, R337, R338) -/

/-- Leading tokens that a node shares with a sequence. -/
def sharedLen : List Nat → List Nat → Nat
  | a :: as, b :: bs => if a = b then 1 + sharedLen as bs else 0
  | _, _ => 0

/-- A child whose page a match may share (R327). -/
def State.rxUsable (s : State) (ctx : Nat) (q : Pool) (n : RxNode) : Except Cause Bool :=
  (s.getPg ctx q n.page).map fun m => m.refs != 0 && m.refs != 65535 && !m.poison

/-- The best child for a sequence: the most leading tokens, ties to the lowest index (R327). -/
def State.rxBest (s : State) (ctx : Nat) (q : Pool) (parent : Option Nat) (ts : List Nat) :
    Except Cause (Option (RxNode × Nat)) := do
  (← s.rx ctx q).foldlM (fun best n => do
    if n.parent != parent then return best
    else
      let ok ← s.rxUsable ctx q n
      let k := sharedLen (n.toks.take n.fill) ts
      if !ok || k = 0 then return best
      else match best with
        | none => return some (n, k)
        | some (b, kb) => if kb < k || (kb == k && decide (n.idx < b.idx)) then return some (n, k) else return some (b, kb)) none

/-- A match (R327): how many tokens, and the nodes it crossed with the tokens taken from each. `f` bounds
the depth. -/
def State.rxMatch (s : State) (ctx : Nat) (q : Pool) : Nat → Option Nat → List Nat → Except Cause (Nat × List (RxNode × Nat))
  | 0, _, _ => .ok (0, [])
  | f + 1, node, ts =>
      match ts with
      | [] => .ok (0, [])
      | _ => do
          match ← s.rxBest ctx q node ts with
          | none => return (0, [])
          | some (n, k) =>
              if k < q.p then return (k, [(n, k)])
              else
                let (m, l) ← State.rxMatch s ctx q f (some n.idx) (ts.drop k)
                return (k + m, (n, k) :: l)

/-- Replaces the oldest leaf off the path, or takes a free index (R329): the index, if there is one. -/
def State.rxRoom (s : State) (ctx : Nat) (q : Pool) (tab : Nat) (path : List Nat) : Except Cause (Option (Nat × State)) := do
  let ns ← s.rx ctx q
  match (List.range (min q.rxcap (ns.length + 1))).find? fun i => !(ns.any fun n => n.idx == i) with
  | some i => return some (i, s)
  | none =>
      let leaves := ns.filter fun n => !path.contains n.idx && !(ns.any fun k => k.parent == some n.idx)
      match leaves.foldl (fun b n => match b with
          | none => some n
          | some m => if n.last < m.last || (n.last == m.last && n.idx < m.idx) then some n else some m) none with
      | none => return none
      | some v =>
          let s ← s.modPg ctx q v.page fun m => { m with refs := m.refs - 1 }
          let s ← s.dropNode ctx q v.idx
          let nrec ← s.vget ctx tab 4
          return some (v.idx, ← s.refreshPg ctx q tab nrec [] v.page)

/-- Creates one node that references a page; none where the page's references are full or no index is
free (R329, R338). -/
def State.rxNew (s : State) (ctx : Nat) (q : Pool) (tab : Nat) (path : List Nat) (parent : Option Nat) (toks : List Nat)
    (page step : Nat) : Except Cause (Option (Nat × State)) := do
  let m ← s.getPg ctx q page
  if m.refs = 65535 then return none
  else
    match ← s.rxRoom ctx q tab path with
    | none => return none
    | some (i, s) =>
        let s ← s.modPg ctx q page fun m => { m with refs := m.refs + 1, lastuse := max m.lastuse step }
        let n : RxNode := { idx := i, toks := toks, fill := toks.length, page := page, parent := parent, last := step, form := 0 }
        return some (i, ← s.putNode ctx q n)

/-- Inserts blocks from a node on (R338): how many nodes it created. -/
def State.rxWalk (ctx : Nat) (q : Pool) (tab r step : Nat) : Nat → Nat → List Nat → Option Nat → List Nat → Bool →
    State → Except Cause (Nat × State)
  | 0, _, _, _, _, _, s => .ok (0, s)
  | f + 1, b, path, node, ts, fresh, s =>
      match ts with
      | [] => .ok (0, s)
      | _ => do
          let blk := ts.take q.p
          let kids := (← s.rx ctx q).filter fun n => n.parent == node
          let full := blk.length == q.p
          let old := if fresh then none else kids.find? fun n => n.fill == q.p && n.toks == blk
          match full, old with
          | true, some n => State.rxWalk ctx q tab r step f (b + 1) (n.idx :: path) (some n.idx) (ts.drop q.p) false s
          | _, _ =>
              if !full && (kids.any fun n => blk.length ≤ n.fill && n.toks.take blk.length == blk) then return (0, s)
              else
                let (pg, _) ← s.blkEntry ctx tab r b
                match ← s.rxNew ctx q tab path node blk pg step with
                | none => return (0, s)
                | some (i, s) =>
                    let (n, s) ← State.rxWalk ctx q tab r step f (b + 1) (i :: path) (some i) (ts.drop q.p) true s
                    return (n + 1, s)

/-- Inserts the first positions of a request (R329, R338). -/
def State.rxInsert (s : State) (ctx : Nat) (q : Pool) (tab r : Nat) (ts : List Nat) : Except Cause (Nat × State) := do
  let step ← s.vget ctx (tab + 24) 8
  State.rxWalk ctx q tab r (step % 2 ^ 32) (ts.length + 1) 0 [] none ts false s

/-- Reads of 32-bit words by a home group's lowest lane, as `ls` loads: pages that are missing park its
threads (R337, R338; 09 R206). The ranges are given as address and count. -/
def lsWords (w : Iss) (s : State) (rs : List (Nat × List (Nat × Nat)))
    (f : State → List (Nat × List Nat) → Res) : Res :=
  let pages (r : Nat × Nat) : List Nat := (List.range ((r.1 % 65536 + 4 * r.2 + 65535) / 65536)).map fun i =>
    if i = 0 then r.1 else (r.1 / 65536 + i) * 65536
  let reqs := rs.flatMap fun e => e.2.flatMap fun r =>
    (if r.2 = 0 then [] else pages r).map fun va => ({ t := w.lead e.1, va := va, park := w.of e.1 } : Req)
  recordWord w s .load 1 1 reqs fun s good =>
    let whole := rs.filter fun e => reqs.all fun r => hgOf r.t != e.1 || good.any fun g => g.1 == r
    match s.performFirst w fun y => w.ahead s false y || (y.lsOf w.slot w.ts && !y.pure && whole.any fun e =>
        e.1 == hgOf y.thr && e.2.any fun r => decide (y.va < r.1 + 4 * r.2) && decide (r.1 < y.va + y.size)) with
    | .error r => r
    | .ok s =>
        let vals := whole.map fun e => (e.1, e.2.foldl (fun (a : Except Cause (List Nat)) r => do
          let l ← a
          let bs ← s.vread w.tm.ctx r.1 (4 * r.2)
          return l ++ tokWords bs r.2) (.ok []))
        let bad := vals.filterMap fun v => match v.2 with
          | .error c => some (v.1, c)
          | .ok _ => none
        match bad with
        | (_, c) :: _ => .trapIn s c (bad.flatMap fun b => w.of b.1) []
        | [] => f s (vals.filterMap fun v => match v.2 with
            | .ok l => some (v.1, l)
            | .error _ => none)

/-- RXLOOK (R337): no last-match step changes. -/
def execRxlook (h : Hdr) (sc : Scope) (d a b : Opd) (s : State) : Host.Outcome State Fault Refusal :=
  runWord (.rxlook h sc d a b) h allFall (fun w s =>
    let adr (g : Nat) : Nat := w.tm.n64 (w.lead g) a
    let mis := w.hgs.filter fun g => adr g % 4 != 0
    let bad := w.hgs.filter fun g => decide (2 ^ 57 ≤ adr g)
    match mis, bad, s.table w.tm.ctx, s.tablePool w.tm.ctx with
    | g :: gs, _, _, _ => .trap .misalign 0 ((g :: gs).flatMap w.of) []
    | [], g :: gs, _, _ => .trap .prot 0 ((g :: gs).flatMap w.of) []
    | [], [], .error c, _ => .trap c 0 w.ts []
    | [], [], _, .error c => .trap c 0 w.ts []
    | [], [], .ok _, .ok q =>
        lsWords w s (w.hgs.map fun g => (g, [(adr g, w.tm.n32 (w.lead g) b)])) fun s vs =>
          let rs := vs.map fun v => (v.1, s.rxMatch w.tm.ctx q (v.2.length + 1) none v.2)
          match rs.filterMap fun r => match r.2 with
            | .error c => some (r.1, c)
            | .ok _ => none with
          | (g, c) :: _ => .trapIn s c (w.of g) []
          | [] => .done (s.laterWrite w (vs.flatMap fun v => w.of v.1) (rs.flatMap fun r => match r.2 with
              | .ok m => w.tm.dest (w.lead r.1) d 1 m.1
              | .error _ => []))) s

/-- Where the first n positions of a request's tokens lie (R338). -/
def State.tokenRanges (s : State) (ctx tab r n : Nat) : Except Cause (List (Nat × Nat)) := do
  let pr ← s.recFld ctx tab r 40 8
  let out ← s.recFld ctx tab r 48 8
  let plen ← s.recFld ctx tab r 8 4
  return [(pr, min n plen), (out, n - plen)]

/-- RXINS (R338). -/
def execRxins (h : Hdr) (sc : Scope) (d a b : Opd) (s : State) : Host.Outcome State Fault Refusal :=
  runWord (.rxins h sc d a b) h allFall (fun w s =>
    let ctx := w.tm.ctx
    let bad := w.hgs.filterMap fun g => match kvReqCheck a w s (w.lead g) with
      | .error c => some (g, c)
      | .ok _ => none
    match bad, s.table ctx, s.tablePool ctx with
    | (_, c) :: _, _, _ => .trap c 0 (((bad.filter fun b => b.2 == c).map fun b => b.1).flatMap w.of) []
    | [], .error c, _ => .trap c 0 w.ts []
    | [], _, .error c => .trap c 0 w.ts []
    | [], .ok (tab, _), .ok q =>
        let rs := w.hgs.map fun g => (g, do
          let pos ← s.recFld ctx tab (w.tm.n32 (w.lead g) a) 12 4
          s.tokenRanges ctx tab (w.tm.n32 (w.lead g) a) (min (w.tm.n32 (w.lead g) b) pos))
        match rs.filterMap fun r => match r.2 with
          | .error c => some (r.1, c)
          | .ok _ => none with
        | (g, c) :: _ => .trap c 0 (w.of g) []
        | [] =>
            lsWords w s (rs.filterMap fun r => match r.2 with
                | .ok l => some (r.1, l)
                | .error _ => none) fun s vs =>
              match vs.foldlM (fun p v => match p.2.rxInsert ctx q tab (w.tm.n32 (w.lead v.1) a) v.2 with
                  | .error c => (.error (c, v.1) : Except (Cause × Nat) (List (RegAt × DWord) × State))
                  | .ok (n, s) => .ok (p.1 ++ w.tm.dest (w.lead v.1) d 1 n, w.wrote p.2 (w.lead v.1) s)) (([] : List (RegAt × DWord)), s) with
              | .error (c, g) => .trapIn s c (w.of g) []
              | .ok (wr, s) => .done (s.laterWrite w (vs.flatMap fun v => w.of v.1) wr)) s

end Sys2Proof.Machine
end

