-- ==== Sys2Proof/Machine/Launch.lean ====
section
/-! DEFINITION. Launch records, acceptance and placement of grids, replays of graph images, the launch
instructions, the command ring, and the events of the launch distributor (06 R139 to R142; 13 R282 to
R296, R425; 17 R364, R368, R374). -/

namespace Sys2Proof.Machine

/-! ## The launch record (R282, R284) -/

/-- Cluster shape of a record: columns and rows, 1 × 1 where there is none. -/
def recShape (r : List Byte) : Nat × Nat :=
  if fieldLe r 17 1 = 0 then (1, 1) else (fieldLe r 17 1, fieldLe r 18 1)
def recHasCluster (r : List Byte) : Bool := fieldLe r 17 1 != 0
/-- The `CORES` flag (R142). -/
def recCores (r : List Byte) : Bool := fieldLe r 24 2 % 2 == 1

/-- `BADREC` (R284). -/
def recBad (r : List Byte) : Bool :=
  let f := fieldLe r
  !(f 0 8 < 2 ^ 57 && f 0 8 % 4 == 0 && f 8 4 != 0 && 1 ≤ f 12 1 && f 12 1 ≤ 32 && 1 ≤ f 13 1 && f 13 1 ≤ 32
    && 16 ≤ f 14 2 && f 14 2 ≤ 1536 && f 14 2 % 16 == 0 && f 16 1 ≤ 64 && f 16 1 % 8 == 0
    && (f 17 1 == 0) == (f 18 1 == 0) && f 19 1 == 0 && f 20 4 ≤ 1572864 && f 24 2 < 8 && f 26 2 == 0
    && f 32 8 < 2 ^ 57 && (f 24 2 / 4 == 1 || f 40 8 == 0) && f 48 8 % 8 == 0 && f 56 8 == 0)

/-- `BADSHAPE` (R284; 06 R140). -/
def recShapeBad (r : List Byte) : Bool :=
  let (c, w) := recShape r
  !(c ≤ 6 && w ≤ 4 && c * w ≤ 12 && fieldLe r 8 4 % (c * w) == 0)

/-! ## What fits where (06 R141, R142; 01 R10; 08 R183) -/

/-- Scratchpad units of a core's banks in force. -/
def Core.units (k : Core) : Nat :=
  Config.bankBytes * ((List.range 32).filter fun i => (k.bankRole.extractLsb' (2 * i) 2) == 0#2).length / 1024

/-- Scratchpad units of a team. -/
def unitsOf (loc : Nat) : Nat := (loc + 1023) / 1024

/-- How many more teams of a record fit on a core that holds `teams` (R10): a finished team's registers are released, and
its thread slots once its commands have retired, though a cluster keeps its scratchpad (07 R163; 08 R185); an empty core applies the roles
last written before it places a team (R26). -/
def Core.roomFor (k : Core) (teams : Tab Team) (r : List Byte) : Nat :=
  let f := fieldLe r
  let sum (g : Team → Nat) : Nat := (teams.map fun e => g e.2).foldl (· + ·) 0
  let regs := Config.fileRegs - sum fun t => if t.fin then 0 else 32 * t.hgroups * t.regs
  let thr := Config.threadSlots - sum fun t => if t.fin && !k.hasCmd t.wid then 0 else 32 * t.hgroups
  let un := ({ k with bankRole := if teams.isEmpty then k.bankWr else k.bankRole }).units - sum fun t => unitsOf t.loc
  let byUnit := if unitsOf (f 20 4) = 0 then Config.teamSlots else un / unitsOf (f 20 4)
  min (min (regs / (32 * f 12 1 * f 14 2)) (thr / (32 * f 12 1))) (min (Config.teamSlots - teams.length) byUnit)

/-- The cores assigned to a context, ascending (R294). -/
def Ctx.coreList (x : Ctx) : List Nat := (List.range 192).filter fun c => x.cores.getLsbD c

/-- A core serves a context now: assigned, in force, and running. -/
def State.serves (s : State) (ctx c : Nat) : Bool :=
  match s.ctx? ctx with
  | some x => x.cores.getLsbD c && (s.core c).ctx == some ctx && x.cst == 1
  | none => false

/-- The rectangle of a shape at a base core, in rank order, if it lies inside one quadrant (06 R140). -/
def rectAt (shape : Nat × Nat) (base : Nat) : Option (List Nat) :=
  let cs := (List.range (shape.1 * shape.2)).map fun q => base + q % shape.1 + 12 * (q / shape.1)
  if cs.all fun c => c / 96 == base / 96 && quadOf c == quadOf base && c < 192
      && base % 12 ≤ c % 12 then some cs else none

/-- Rectangles of a shape over the cores of a context. -/
def Ctx.rects (x : Ctx) (shape : Nat × Nat) : List (List Nat) :=
  x.coreList.filterMap fun b => match rectAt shape b with
    | some cs => if cs.all fun c => x.cores.getLsbD c then some cs else none
    | none => none

/-- The most rectangles that capacities allow at once, with one way to choose them. -/
def packMax : List (List Nat) → Tab Nat → List (List Nat)
  | [], _ => []
  | r :: rs, caps =>
      let most := r.foldl (fun m c => min m (Tab.getD caps c 0)) (Config.teamSlots)
      (List.range (most + 1)).foldl (fun best n =>
        let caps := r.foldl (fun k c => Tab.set k c (Tab.getD k c 0 - n)) caps
        let cand := List.replicate n r ++ packMax rs caps
        if best.length < cand.length then cand else best) []

/-- A pending `BANKROLE` or `CTXID` value applies on a core that holds no team: banks whose role changes
are cleared, the L1 is invalidated (R26; 08 R181); engine and sorter start a new context reset (05 R114,
R136; 11 R255). -/
def Core.settle (k : Core) : Core :=
  if k.teams.isEmpty then
    let new := decide (k.ctx ≠ some k.ctxidReg.toNat)
    { k with
      eng := if new then Engine.reset else k.eng
      srt := if new then Sorter.reset else k.srt
      l1 := if k.bankRole = k.bankWr then k.l1 else []
      bankRole := k.bankWr
      ctx := some k.ctxidReg.toNat }
  else k

/-- No `WSLOAD` of a context that runs, or that is being saved, waits for a die (R296). -/
def State.wsFree (s : State) (die : Nat) : Bool :=
  !(s.ctxs.any fun e => (e.2.cst == 1 || e.2.cst == 2) && (match e.2.ring.ws with
    | some (_, _, _, _, d) => d == die
    | none => false))

/-- How many teams of a record a core can take now for a context: none where the values in force, or those that apply as
the next team is placed, give the core to another context (01 R25, R26), a `WSLOAD` waits for its die (R296), or the die
is halted. -/
def State.roomOn (s : State) (ctx c : Nat) (r : List Byte) : Nat :=
  let k := (s.core c).settle
  if k.ctx == some ctx && s.wsFree (c / 96) && (s.die (c / 96)).halted == 0 then k.roomFor k.teams r else 0

/-- Every place that teams of a record could take at once now: one list of cores for each team, or for
each cluster. -/
def State.places (s : State) (ctx : Nat) (x : Ctx) (r : List Byte) : List (List Nat) :=
  if recHasCluster r then packMax (x.rects (recShape r)) (x.coreList.map fun c => (c, s.roomOn ctx c r))
  else x.coreList.flatMap fun c => List.replicate (s.roomOn ctx c r) [c]

/-- `NOFIT` (R284, R294). -/
def State.noFit (s : State) (x : Ctx) (r : List Byte) : Bool :=
  let room (c : Nat) : Nat := (s.core c).roomFor [] r
  if recHasCluster r then !((x.rects (recShape r)).any fun cs => cs.all fun c => 0 < room c)
  else !(x.coreList.any fun c => 0 < room c)

/-- `NOCORES` (R142, R294). -/
def State.noCores (s : State) (ctx : Nat) (x : Ctx) (r : List Byte) (lvl : Nat) : Bool :=
  let n := fieldLe r 8 4
  let sh := recShape r
  if lvl = 1 ∧ !recHasCluster r then
    let l := x.coreList
    !((List.range l.length).all fun i =>
      (n + l.length - 1 - i) / l.length ≤ s.roomOn ctx (l.getD i 0) r)
  else decide ((s.places ctx x r).length < n / (sh.1 * sh.2))

/-- The status of a launch (R284), the checks in their order. -/
def State.launchStatus (s : State) (ctx : Nat) (r : List Byte) (lvl : Nat) : Nat :=
  match s.ctx? ctx with
  | none => 1
  | some x =>
      if recBad r then 1
      else if recShapeBad r then 2
      else if s.noFit x r then 3
      else if recCores r && s.noCores ctx x r lvl then 4
      else 0

/-! ## Placing teams (06 R138 to R142; 01 R8, R26) -/

/-- A thread as placed (R8). Pipe lane 0 stands for that of a thread that has not issued, which R177 leaves open (log 38). -/
def Thread.fresh (pc : PC) (now : Nat) : Thread :=
  { pc := pc, regs := [], preds := 1, st := .binned now, notBefore := 0, posts := [], lane := 0 }

/-- A team as placed (R8, R21, R138, R139). -/
def Team.fresh (wid ctx grid index cluster rank lvl ordinal slotw now : Nat) (r : List Byte) (addr : DWord) : Team :=
  let f := fieldLe r
  let n := 32 * (f 12 1 - 1) + f 13 1
  { wid := wid, ctx := ctx, grid := grid, index := index, cluster := cluster, rank := rank, hgroups := f 12 1,
    lastn := f 13 1, regs := f 14 2, sregs := f 16 1, loc := f 20 4, atrap := (f 24 2).testBit 1, flags := f 24 2,
    psize := f 28 4, param := BitVec.ofNat 64 (f 32 8), recAddr := addr, slotw := BitVec.ofNat 32 slotw, detlvl := lvl,
    ordinal := ordinal, threads := (List.range n).map fun t => (t, Thread.fresh (BitVec.ofNat 57 (f 0 8)) now),
    hgs := (List.range (f 12 1)).map fun g => (g, { scl := [], idx := [], hnd := [], hver := [] }),
    scratch := [], opbuf := [], bars := [], colls := [], handles := [], hwaits := [], trap := none, held := [],
    fin := false, killed := false, taken := [], frozen := false, rpoison := [], units := [], noL1 := [], noRo := [], cmdFences := [] }

/-- The slot word of a team (R283). -/
def State.slotWord (s : State) (g : Grid) (t : Nat) : Nat × State :=
  if (fieldLe g.record 24 2).testBit 2 then
    match s.vget g.ctx (fieldLe g.record 40 8 + 4 * t) 4 with
    | .ok v => (v, s)
    | .error _ => (0xFFFFFFFF, s.ero 6 g.die 0 12 g.ctx (fieldLe g.record 40 8 + 4 * t))
  else (0xFFFFFFFF, s)

/-- The lowest free team slot of a core. -/
def Core.freeSlot (k : Core) : Option Nat := (List.range Config.teamSlots).find? fun i => (Tab.get? k.teams i).isNone

/-- The units of a core's scratchpad space that the allocation map gives no team, ascending (08 R183). -/
def Core.freeUnits (k : Core) : List Nat := (List.range k.units).filter fun u => !k.teams.any fun e => e.2.units.contains u

/-- Puts a team into a slot of a core: the map gives it the lowest free units (log 29), and what the slot's scratchpad,
the caches of `ls` and `ro` reads and the marks of uncorrectable bytes held is gone (08 R183; 10 R246; 20 R407). -/
def Core.seat (k : Core) (slot : Nat) (tm : Team) : Core :=
  { k with teams := Tab.set k.teams slot { tm with units := k.freeUnits.take (unitsOf tm.loc)
                                                   noL1 := k.l1.map fun e => e.1
                                                   noRo := k.roCache.map fun e => e.1 }
           spoison := k.spoison.filter fun e => e.1 != slot }

/-- Places team t of a grid on a core: its first instruction acquires (10 R246). -/
def State.placeTeam (s : State) (gid : Nat) (g : Grid) (t c : Nat) : State :=
  let s := s.modCore c Core.settle
  match (s.core c).freeSlot with
  | none => s
  | some slot =>
      let sz := (recShape g.record).1 * (recShape g.record).2
      let (sw, s) := s.slotWord g t
      let wid := s.wid
      let s := { s with wid := s.wid + 1 }
      let tm := Team.fresh wid g.ctx gid t (t / sz) (t % sz) g.detlvl g.ordinal sw (s.core c).now g.record g.recAddr
      (s.message (distUnit g.die) (coreUnit c)).modCore c fun k => k.seat slot tm

/-- Places the teams of one cluster (or one team) on the cores given. -/
def State.placeAt (s : State) (gid first : Nat) (cs : List Nat) : State :=
  match Tab.get? s.grids gid with
  | none => s
  | some g =>
      let ts := (List.range cs.length).map fun i => first + i
      let s := (ts.zip cs).foldl (fun s e => s.placeTeam gid g e.1 e.2) s
      s.modGrid gid fun g => { g with unplaced := g.unplaced.filter (fun t => !ts.contains t), placed := sortNat (ts ++ g.placed) }

/-! ## Acceptance (R284, R291, R294; 17 R364, R366) -/

/-- Takes `n` of a list's entries, each by a free choice among those left. -/
def State.choose {α : Type} : Nat → List α → State → List α × State
  | 0, _, s => ([], s)
  | n + 1, l, s =>
      let (v, s) := s.draw
      let i := v % max 1 l.length
      match l[i]? with
      | none => ([], s)
      | some a =>
          let (r, s) := State.choose n (l.eraseIdx i) s
          (a :: r, s)

/-- The distributor takes a grid that has passed its checks: its ordinal, its teams to place; a `CORES`
grid is placed whole, at levels 0, 2 and 3 on places freely chosen among those there are (R142; log 1). -/
def State.takeGrid (s : State) (ctx die lvl : Nat) (r : List Byte) (addr : Nat) (node packet : Option (Nat × Nat)) :
    Nat × State :=
  match s.ctx? ctx with
  | none => (0, s)
  | some x =>
      let (gid, s) := s.newUid
      let ord := x.jrn.grids
      let s := s.modCtx ctx fun x => { x with jrn := { x.jrn with grids := x.jrn.grids + 1 } }
      let n := fieldLe r 8 4
      let g : Grid := { ctx := ctx, die := die, record := r, recAddr := BitVec.ofNat 64 addr, detlvl := lvl, ordinal := ord,
                        unplaced := List.range n, placed := [], finished := [], bars := [], node := node, packet := packet,
                        complete := false }
      let s := { s with grids := Tab.set s.grids gid g }
      if !recCores r then (gid, s)
      else
        let sz := (recShape r).1 * (recShape r).2
        let l := x.coreList
        let (ps, s) := if lvl = 1 then
            (if recHasCluster r then (s.places ctx x r).take (n / sz) else (List.range n).map fun t => [l.getD (t % l.length) 0], s)
          else State.choose (n / sz) (s.places ctx x r) s
        (gid, ((List.range ps.length).zip ps).foldl (fun s e => s.placeAt gid (e.1 * sz) e.2) s)

/-- The arrival of a launch or a kick (17 R366, R370). -/
def distArrival (kind src thr grid team : Nat) (own : Option Nat) : Arrival :=
  { kind := kind, src := src, thr := thr, grid := grid, team := team, own := own, site := 0, val := 0 }

/-- How a submission to the distributor ends: refused with a code, held for its turn, or accepted. -/
inductive Submit where
  | refused (code : Nat) (s : State)
  | held (s : State)
  | ok (gid : Nat) (s : State)

/-- A launch reaches the distributor: the checks, a device-side launch's full queue the last of them (`full`), then the
journal's turn, then acceptance. -/
def State.submit (s : State) (ctx die lvl : Nat) (r : List Byte) (addr : Nat) (a : Arrival)
    (node packet : Option (Nat × Nat)) (full : Bool) : Submit :=
  match s.launchStatus ctx r lvl with
  | 0 =>
      if full then .refused 5 s
      else match s.turn ctx a with
      | .wait => .held s
      | .none => .held (s.mismatch ctx)
      | .now e =>
          let (g, s) := (s.consume ctx a e).takeGrid ctx die lvl r addr node packet
          .ok g s
      | .free =>
          let s := s.record ctx a
          let (g, s) := s.takeGrid ctx die lvl r addr node packet
          .ok g s
  | c => .refused c s

/-! ## The launch instructions (R290 to R293) -/

/-- A context is saved, its queue entries with it (16 R362). -/
def State.away (s : State) (ctx : Nat) : Bool :=
  match s.ctx? ctx with
  | some x => x.cst == 3
  | none => false

/-- Launches in a die's queue: those of kernels and of `LAUNCH` packets that still have teams to place (R291, R296). -/
def State.queued (s : State) (die : Nat) : Nat :=
  ((s.die die).launchQ.filter fun g => match Tab.get? s.grids g with
    | some x => !x.unplaced.isEmpty && !s.away x.ctx
    | none => false).length

/-- The launch queue of a die is full (R291). -/
def State.queueFull (s : State) (die : Nat) : Bool := decide (256 ≤ s.queued die)

/-- An accepted launch enters its die's queue. -/
def State.enqueue (s : State) (die gid : Nat) : State := s.modDie die fun d => { d with launchQ := d.launchQ ++ [gid] }

/-- One `launch` by a home group's lane: the status, or a hold for the journal. -/
def State.launchOne (s : State) (w : Iss) (g : Nat) (r : List Byte) (addr : Nat) (dst : Option RegAt) : Option Nat × State :=
  let a := distArrival 5 0 (w.lead g) w.tm.ordinal w.tm.index none
  let s := s.exchange (coreUnit w.core) (distUnit w.die)
  match s.submit w.tm.ctx w.die w.tm.detlvl r addr a none none (s.queueFull w.die) with
  | .refused c s => (some c, s)
  | .ok gid s => (some 0, s.enqueue w.die gid)
  | .held s =>
      let (u, s) := s.newUid
      let s := match dst with
        | some x => s.modCore w.core fun k => { k with pends := k.pends ++
            [({ uid := u, ins := u, slot := w.slot, hg := g, regs := [x], src := .wait, issuedAt := w.now, missed := true,
                urgent := false, aside := false } : Pend)] }
        | none => s
      (none, s.modCtx w.tm.ctx fun x => { x with heldL := x.heldL ++
        [{ core := w.core, slot := w.slot, wid := w.tm.wid, uid := u, dst := dst, bytes := r, addr := addr, lvl := w.tm.detlvl, arr := a }] })

/-- The release of a `launch`: what `ls` writes replaced is gone for every read (10 R246; log 35). -/
def State.seeLs (s : State) : State :=
  if s.late.isEmpty then s else { s with late := s.late.filter fun e => e.path != .ls }

/-- LAUNCH (R291). -/
def execLaunch (h : Hdr) (d a : Opd) (s : State) : Host.Outcome State Fault Refusal :=
  runWord (.launch h d a) h allFall (fun w s =>
    recordWord w s .load 64 64 (w.hgReqs fun t => w.tm.n64 t a) fun s good =>
      match s.performFirst w fun y => y.lsOf w.slot (good.map fun e => e.1.t) || y.near with
      | .error r => r
      | .ok s =>
          let one (p : List (RegAt × DWord) × List (Nat × Nat) × State) (e : Req × Nat) :=
            let g := hgOf e.1.t
            let dst := ((w.tm.dest e.1.t d 1 0).map fun x => x.1).head?
            let (v, s) := p.2.2.launchOne w g (Memory.readN s.mem e.2 64) e.1.va dst
            match v with
            | some v => (p.1 ++ w.tm.dest e.1.t d 1 v, p.2.1, s)
            | none => (p.1, p.2.1 ++ (w.of g).map (fun t => (t, s.uid - 1)), s)
          let (wr, owes, s) := good.foldl one (([] : List (RegAt × DWord)), ([] : List (Nat × Nat)), s.seeLs)
          let done := good.filter fun e => !(owes.any fun o => hgOf o.1 == hgOf e.1.t)
          let r := s.laterWrite w (done.flatMap fun e => e.1.park) wr
          .done { r with owes := r.owes ++ owes }) s

/-- FETCHW (R292): the grid's highest unplaced team, or none. -/
def execFetchw (h : Hdr) (a : Opd) (s : State) : Host.Outcome State Fault Refusal :=
  runWord (.fetchw h a) h allFall (fun w s =>
    let rs := w.hgReqs fun t => w.tm.n32 t a
    match checkReqs rs 16 (fun a => decide (a + 16 ≤ w.tm.loc)) with
    | some (c, m, as) => .trap c 0 m as
    | none =>
        if (s.core w.core).sb.length = Config.sbEntries || rs.any fun r => (s.core w.core).sbHit false w.slot r.va 16 false
        then .hold fun t => .entries w.core 1 :: (rs.filter fun r => r.park.contains t).map fun r => .range w.core false w.slot r.va 16
        else
          .done { s := rs.foldl (fun s r =>
            let pick := match Tab.get? s.grids w.tm.grid with
              | some g => if recCores g.record || recHasCluster g.record then none else g.unplaced.getLast?
              | none => none
            let s := match pick with
              | some t =>
                  let s := s.modGrid w.tm.grid fun g => { g with unplaced := g.unplaced.filter fun u => u != t }
                  s.modTeam w.core w.slot fun tm => { tm with taken := tm.taken ++ [t] }
              | none => s
            s.writeTgt (.scr w.tref r.va) (leBytes 4 (pick.getD 0xFFFFFFFF) ++ leBytes 12 1)) s }) s

/-- RESQ (R293). -/
def execResq (h : Hdr) (sel : ResSel) (d : Opd) (s : State) : Host.Outcome State Fault Refusal :=
  laterHg (.resq h sel d) h (fun w _ t => .ok (w.tm.dest t d 1 (match sel with
    | .param => w.tm.param.toNat
    | .psize => w.tm.psize
    | .flags => w.tm.flags
    | .recAddr => w.tm.recAddr.toNat))) s

/-! ## Placement and completion events -/

/-- The first team of the cluster (or the team) that may be placed on these cores now: any at levels 0, 2
and 3, by a free choice; the next in order at level 1 (R294). -/
def State.nextTeam (s : State) (x : Ctx) (g : Grid) (cs : List Nat) : Option Nat × State :=
  let sz := (recShape g.record).1 * (recShape g.record).2
  let firsts := g.unplaced.filter fun t => t % sz == 0
  if g.detlvl = 1 then
    if recHasCluster g.record then (firsts.head?, s)
    else
      let l := x.coreList
      ((g.unplaced.find? fun t => some (l.getD (t % l.length) 192) == cs.head?), s)
  else
    let (n, s) := s.draw
    (firsts[n % max 1 firsts.length]?, s)

/-- TEAM_PLACEMENT (06 R140, R141; R294): a team, or the teams of a cluster, take the cores given. -/
def execTeamPlacement (grid : Nat) (cores : List Nat) (s : State) : Host.Outcome State Fault Refusal :=
  match Tab.get? s.grids grid with
  | none => .next s
  | some g =>
      match s.ctx? g.ctx, cores with
      | some x, c :: _ =>
          let s := cores.foldl (fun s c => s.modCore c Core.settle) s
          let ok := rectAt (recShape g.record) c == some cores && cores.all fun c =>
            s.serves g.ctx c && decide (0 < s.roomOn g.ctx c g.record)
          if !ok then .next s
          else match s.nextTeam x g cores with
            | (some t, s) => .next (s.placeAt grid t cores)
            | (none, s) => .next s
      | _, _ => .next s

/-- The controllers of the lines that refuse a write record it (19 R406). -/
def State.discarded (s : State) (ctx va n : Nat) : State :=
  match s.pieces ctx .store (n / 65536 + 2) va n with
  | .ok ps => (ps.filter fun p => s.refuses p.1 p.2).foldl (fun s p => s.dropped p.1) s
  | .error _ => s

/-- A write of the distributor on its own account: not performed where it fails, and recorded (R425). -/
def State.distWrite (s : State) (ctx die va : Nat) (bs : List Byte) : State :=
  match s.vwrite ctx va bs with
  | .ok s => s
  | .error _ => (s.discarded ctx va bs.length).ero 6 die 0 12 ctx va

/-- A packet finishes; the device then reads the context entry (16 R339). -/
def State.finishPkt (s : State) (ctx num : Nat) : State :=
  let s := s.modCtx ctx fun x => { x with ring := { x.ring with open_ := x.ring.open_.filter fun n => n != num } }
  { s with agenda := s.agenda ++ [.event (.contextTablePoll ctx)] }

/-! ## Replays (R286 to R289) -/

/-- `rdone` of a table: the address kept, or the field itself where it holds 0 (log 16). -/
def Replay.doneAt (r : Replay) : Nat := if r.rdone = 0 then r.table + 16 else r.rdone

def State.modReplay (s : State) (id : Nat) (f : Replay → Replay) : State := { s with replays := Tab.mod s.replays id f }

/-- A replay ends with a value in `rdone` (R289). -/
def State.endReplay (s : State) (id : Nat) (r : Replay) (index code : Nat) : State :=
  let s := s.distWrite r.ctx r.die r.doneAt (leBytes 8 (index * 2 ^ 32 + code))
  let s := match r.packet with
    | some n => s.finishPkt r.ctx n
    | none => s
  s.modReplay id fun r => { r with ended := true }

/-- Nodes reachable from a set, growing `f` times. -/
def reach (edges : List (Nat × Nat)) : Nat → List Nat → List Nat
  | 0, l => l
  | f + 1, l => reach edges f (sortNat (l ++ (edges.filter fun e => l.contains e.1).map fun e => e.2))

/-- The edges contain a cycle: some node reaches itself. -/
def cyclic (n : Nat) (edges : List (Nat × Nat)) : Bool :=
  (List.range n).any fun i => (reach edges n ((edges.filter fun e => e.1 == i).map fun e => e.2)).contains i

/-- Sets node i's `nstat` in memory and in the replay. -/
def State.setStat (s : State) (id : Nat) (r : Replay) (i v : Nat) : State :=
  let s := s.distWrite r.ctx r.die (r.image + r.nodeoff + 128 * i + 68) (leBytes 1 v)
  s.modReplay id fun r => { r with stat := r.stat.set i v }

/-- Launches node i (R284, R289): accepted, refused with every node it reaches skipped, or held. -/
def State.launchNode (s : State) (id i : Nat) : State :=
  match Tab.get? s.replays id with
  | none => s
  | some r =>
      let addr := r.image + r.nodeoff + 128 * i
      let lvl := match s.ctx? r.ctx with
        | some x => x.detlvl.toNat
        | none => 0
      let res := match s.vread r.ctx addr 64 with
        | .ok bs => s.submit r.ctx r.die lvl bs addr (distArrival 5 3 0 r.ord i none) (some (id, i)) none false
        | .error _ => .refused 1 (s.ero 6 r.die 0 12 r.ctx addr)
      match res with
      | .held s => s
      | .ok _ s => s.setStat id r i 1
      | .refused c s =>
          let s := s.setStat id r i 3
          let s := s.modReplay id fun r => { r with ref := r.ref.or (some (i, c)) }
          let skip := (reach r.edges r.stat.length ((r.edges.filter fun e => e.1 == i).map fun e => e.2))
          skip.foldl (fun s j => s.setStat id r j 4) s

/-- Launches every node that is ready, and ends the replay when none is launched and unfinished (R289). -/
def State.advanceReplay (s : State) (id : Nat) : State :=
  let ready (r : Replay) : List Nat := (List.range r.stat.length).filter fun i =>
    r.stat.getD i 0 == 0 && r.pending.getD i 0 == 0
  match Tab.get? s.replays id with
  | none => s
  | some r =>
      let s := (ready r).foldl (fun s i => match Tab.get? s.replays id with
        | some r => if r.stat.getD i 0 = 0 then s.launchNode id i else s
        | none => s) s
      match Tab.get? s.replays id with
      | none => s
      | some r =>
          if r.ended || r.stat.any fun v => v == 0 || v == 1 then s
          else s.endReplay id r ((r.ref.map fun e => e.1).getD 0xFFFFFFFF) ((r.ref.map fun e => e.2).getD 0)

/-- A graph image that passes R287: the node array's offset, the nodes' `npred`, and the edges with the
sites. -/
def State.readImage (s : State) (ctx image : Nat) :
    Except Cause (Option (Nat × List Nat × List (Nat × Nat) × List (Nat × Nat))) := do
  let h ← s.vread ctx image 64
  let f := fieldLe h
  let (nn, ne, ns) := (f 8 4, f 12 4, f 16 4)
  let (no, eo, so, size) := (f 24 8, f 32 8, f 40 8, f 48 8)
  let hdr := f 0 4 == 0x48505247 && f 4 2 == 1 && f 6 2 == 0 && f 20 4 == 0 && f 56 8 == 0
    && 1 ≤ nn && nn ≤ 4096 && ne ≤ 16384 && ns ≤ 16384 && no % 64 == 0 && eo % 8 == 0 && so % 16 == 0
    && no + 128 * nn ≤ size && eo + 8 * ne ≤ size && so + 16 * ns ≤ size
  if !hdr then return none
  else
    let nb ← s.vread ctx (image + no) (128 * nn)
    let eb ← s.vread ctx (image + eo) (8 * ne)
    let sb ← s.vread ctx (image + so) (16 * ns)
    let edges := (List.range ne).map fun i => (fieldLe eb (8 * i) 4, fieldLe eb (8 * i + 4) 4)
    let npred := (List.range nn).map fun i => fieldLe nb (128 * i + 64) 4
    let sites := (List.range ns).map fun i => (fieldLe sb (16 * i) 8, fieldLe sb (16 * i + 8) 1)
    let ok := (List.range nn).all (fun i => fieldLe nb (128 * i + 69) 59 == 0
        && npred.getD i 0 == (edges.filter fun e => e.2 == i).length)
      && edges.all (fun e => e.1 < nn && e.2 < nn) && !cyclic nn edges
      && (List.range ns).all fun i => fieldLe sb (16 * i + 9) 3 == 0
        && (sites.getD i (0, 1)).1 % (sites.getD i (0, 1)).2 == 0 && (sites.getD i (0, 1)).1 + (sites.getD i (0, 1)).2 ≤ size
    return if ok then some (no, npred, edges, sites) else none

/-- The entries of a patch table: offset, width, value; none where an entry is invalid (R288). An entry is
valid where its offset and width are a site's, whatever the width (log 40). -/
def State.readPatches (s : State) (r : Replay) (sites : List (Nat × Nat)) : Except Cause (Option (List (Nat × Nat × Nat))) := do
  let bs ← s.vread r.ctx (r.table + 32) (16 * r.nent)
  let es := (List.range r.nent).map fun i => (fieldLe bs (16 * i) 4, fieldLe bs (16 * i + 4) 1, fieldLe bs (16 * i + 8) 8)
  let ok := (List.range r.nent).all (fun i => fieldLe bs (16 * i + 5) 3 == 0) && es.all fun e => sites.contains (e.1, e.2.1)
  return if ok then some es else none

/-- A replay begins (R289). A patch write that fails is dropped with an event, and the replay goes on (log 40). -/
def State.beginReplay (s : State) (id : Nat) (r : Replay) : State :=
  let s := s.modReplay id fun r => { r with begun := true }
  if r.badHdr then s.endReplay id r 0xFFFFFFFE 7
  else
    match s.readImage r.ctx r.image with
    | .error _ => (s.ero 6 r.die 0 12 r.ctx r.image).endReplay id r 0xFFFFFFFE 6
    | .ok none => s.endReplay id r 0xFFFFFFFE 6
    | .ok (some (no, npred, edges, sites)) =>
        match s.readPatches r sites with
        | .error _ => (s.ero 6 r.die 0 12 r.ctx r.table).endReplay id r 0xFFFFFFFE 7
        | .ok none => s.endReplay id r 0xFFFFFFFE 7
        | .ok (some es) =>
            let s := es.foldl (fun s e => s.distWrite r.ctx r.die (r.image + e.1) (leBytes e.2.1 (e.2.2 % 2 ^ (8 * e.2.1)))) s
            let s := s.modReplay id fun r =>
              { r with nodeoff := no, edges := edges, pending := npred, stat := List.replicate npred.length 0 }
            let r := { r with nodeoff := no }
            let s := (List.range npred.length).foldl (fun s i =>
              s.distWrite r.ctx r.die (r.image + no + 128 * i + 68) (leBytes 1 0)) s
            s.advanceReplay id

/-- REPLAY_BEGIN (R289): a kick's replay begins once earlier replays of its image are over; a replay that
has begun launches the nodes that are ready. -/
def execReplayBegin (replay : Nat) (s : State) : Host.Outcome State Fault Refusal :=
  match Tab.get? s.replays replay with
  | none => .next s
  | some r =>
      let running := match s.ctx? r.ctx with
        | some x => x.cst == 1
        | none => false
      let earlier := s.replays.any fun e => decide (e.1 < replay) && !e.2.ended && e.2.image == r.image && e.2.ctx == r.ctx
      if r.ended || !running then .next s
      else if r.begun then .next (s.advanceReplay replay)
      else if earlier then .next s
      else .next (s.beginReplay replay r)

/-- GRID_COMPLETION (R285): every team has finished and is gone; `done` is written, then the grid's node
or packet is told. -/
def execGridCompletion (grid : Nat) (s : State) : Host.Outcome State Fault Refusal :=
  match Tab.get? s.grids grid with
  | none => .next s
  | some g =>
      let resident := s.cores.any fun e => e.2.teams.any fun t => t.2.grid == grid
      let savedT := match s.ctx? g.ctx with
        | some x => x.saved.any fun t => t.team.grid == grid
        | none => false
      if !g.unplaced.isEmpty || resident || savedT || g.finished.length < fieldLe g.record 8 4 then .next s
      else
        let a := fieldLe g.record 48 8
        let s := if a = 0 && g.node.isNone then s else s.seeWork (Agent.ofGrids [grid])
        let s := if a = 0 then s else s.distWrite g.ctx g.die a (leBytes 8 1)
        let s := { s with grids := Tab.erase s.grids grid }
        let s := s.modDie g.die fun d => { d with launchQ := d.launchQ.filter fun q => q != grid }
        let s := match g.packet with
          | some (c, n) => s.finishPkt c n
          | none => s
        match g.node with
        | none => .next s
        | some (id, i) =>
            match Tab.get? s.replays id with
            | none => .next s
            | some r =>
                let s := s.setStat id r i 2
                let out := (r.edges.filter fun e => e.1 == i).map fun e => e.2
                let s := s.modReplay id fun r => { r with pending := out.foldl (fun p j => p.set j (p.getD j 0 - 1)) r.pending }
                .next (s.advanceReplay id)

/-! ## Kicks (R288, R289) -/

/-- Kicks that stand in a die's queue. -/
def State.kickQ (s : State) (die : Nat) : Nat :=
  (s.replays.filter fun e => e.2.die == die && !e.2.begun && !s.away e.2.ctx).length

/-- A kick enters the queue: the table's header is read and kept (R289). -/
def State.takeKick (s : State) (ctx die table : Nat) (packet : Option Nat) : State :=
  match s.ctx? ctx with
  | none => s
  | some x =>
      let ord := x.jrn.kicks
      let s := s.modCtx ctx fun x => { x with jrn := { x.jrn with kicks := x.jrn.kicks + 1 } }
      match s.vread ctx table 32 with
      | .error _ =>
          let s := s.ero 6 die 0 12 ctx table
          match packet with
          | some n => s.finishPkt ctx n
          | none => s
      | .ok h =>
          let (id, s) := s.newUid
          let r : Replay :=
              { ctx := ctx, die := die, table := table, image := fieldLe h 0 8, nent := fieldLe h 8 4, rdone := fieldLe h 16 8,
                badHdr := fieldLe h 12 4 != 0 || fieldLe h 24 8 != 0, ord := ord, packet := packet, begun := false,
                ended := false, nodeoff := 0, edges := [], pending := [], stat := [], ref := none }
          { s with replays := Tab.set s.replays id r }

/-- A kick reaches its queue in its journal turn: none while it is held (17 R372). -/
def State.kick (s : State) (ctx die table : Nat) (a : Arrival) (packet : Option Nat) : Option State × State :=
  match s.turn ctx a with
  | .wait => (none, s)
  | .none => (none, s.mismatch ctx)
  | .now e => let s := (s.consume ctx a e).takeKick ctx die table packet
              (some s, s)
  | .free => let s := (s.record ctx a).takeKick ctx die table packet
             (some s, s)

/-- A held launch ends: its result is written. -/
def State.heldDone (s : State) (ctx : Nat) (q : HeldSub) (v : Nat) : State :=
  let s := s.modCtx ctx fun x => { x with heldL := x.heldL.filter fun p => p.uid != q.uid }
  match (s.core q.core).pend? q.uid, q.dst with
  | some p, some r => s.writeBack q.core p [(r, BitVec.ofNat 64 v)]
  | _, _ => s

/-- Launches and kicks held for their journal turn are tried again (17 R372). -/
def State.retryHeld (s : State) (ctx : Nat) : State :=
  match s.ctx? ctx with
  | none => s
  | some x =>
      let s := x.heldL.foldl (fun s q =>
        let die := q.core / 96
        match s.submit ctx die q.lvl q.bytes q.addr q.arr none none (s.queueFull die) with
        | .held s => s
        | .refused c s => s.heldDone ctx q c
        | .ok gid s => (s.enqueue die gid).heldDone ctx q 0) s
      x.heldK.foldl (fun s q =>
        if 64 ≤ s.kickQ (q.core / 96) then s
        else match s.kick ctx (q.core / 96) q.addr q.arr none with
          | (some s, _) => s.modCtx ctx fun x => { x with heldK := x.heldK.filter fun p => p.uid != q.uid }
          | (none, s) => s) s

end Sys2Proof.Machine
end

