-- ==== Sys2Proof/Machine/Meridian.lean ====
section
/-! DEFINITION. Meridian: serving a request table, the phases of a step, and its events (14 R297 to R307,
R424; 15 R320, R322, R328, R329; 17 R366, R372). -/

namespace Sys2Proof.Machine

/-- An access of the serving path: a failure stops Meridian in the state reached (R424). -/
def got {α : Type} (s : State) (e : Except Cause α) : Except State α :=
  match e with
  | .ok a => .ok a
  | .error _ => .error s

/-- A context's Meridian state. -/
def State.mer (s : State) (ctx : Nat) : Mer :=
  match s.ctx? ctx with
  | some x => x.mer
  | none => Mer.reset
def State.modMer (s : State) (ctx : Nat) (f : Mer → Mer) : State := s.modCtx ctx fun x => { x with mer := f x.mer }
def State.modErg (s : State) (ctx : Nat) (f : Erg → Erg) : State := s.modCtx ctx fun x => { x with erg := f x.erg }

/-- The event of a failed access of Meridian, after `mstat` 5 where it can be written (R424). -/
def State.serveErr (s : State) (ctx die tab : Nat) : State := ((s.vput ctx (tab + 6) 1 5).toOption.getD s).ero 3 die 0 2 ctx tab

/-- Meridian stops serving with an `mstat`; after a bad replay every record keeps its slot (R301). -/
def State.stopServing (s : State) (ctx mstat : Nat) : State :=
  let m := s.mer ctx
  let s := match s.vput ctx (m.tab + 6) 1 mstat with
    | .ok s => s
    | .error _ => s.serveErr ctx m.die m.tab
  s.modMer ctx fun m =>
    if mstat = 4 then { Mer.reset with die := m.die, next := m.next, step := m.step, slotTab := m.slotTab, slots := m.slots }
    else { Mer.reset with die := m.die, next := m.next }

/-- Reads the header at a table and starts serving it where it is valid and enabled (R298). -/
def State.startServing (s : State) (ctx tab : Nat) : State :=
  let s := s.modMer ctx fun m => { Mer.reset with die := m.die }
  match s.vread ctx tab 256 with
  | .error _ => s.serveErr ctx 0 tab
  | .ok h =>
      let die := fieldLe h 5 1 % 2
      let put (v : Nat) (k : State → State) : State := match s.vput ctx (tab + 6) 1 v with
        | .ok s => k s
        | .error _ => s.serveErr ctx die tab
      match hdrValid h, s.pool ctx (fieldLe h 72 8) with
      | true, .ok (some _) =>
          if fieldLe h 4 1 = 1 then put 1 fun s => s.modMer ctx fun _ => { Mer.reset with tab := tab, die := die }
          else put 0 fun s => s
      | true, .error _ => s.serveErr ctx die tab
      | _, _ => put 3 fun s => s

/-- Serving has stopped: the header of a table that `RQBASE` named meanwhile is read (R298). -/
def State.serveNext (s : State) (ctx : Nat) : State :=
  match (s.mer ctx).next with
  | some t => s.startServing ctx t
  | none => s

/-- An access failure: `mstat` 5 and an event (R424). -/
def State.serveFail (s : State) (ctx : Nat) : State :=
  let m := s.mer ctx
  ((s.serveErr ctx m.die m.tab).modMer ctx fun m => { Mer.reset with die := m.die, next := m.next }).serveNext ctx

/-- A write of `RQBASE` (R298). -/
def State.writeRqbase (s : State) (ctx v : Nat) : State :=
  let s := s.modCtx ctx fun x => { x with rqbase := BitVec.ofNat 64 v }
  let m := s.mer ctx
  if m.tab = 0 then (if v = 0 then s else s.startServing ctx v)
  else if v = m.tab then s
  else
    let next := if v = 0 then none else some v
    let s := s.modMer ctx fun m => { m with stop := true, next := next }
    if m.flying || m.ended || m.begun then s else (s.stopServing ctx 0).serveNext ctx

/-! ## Pages of a request (15 R320 to R322, R328) -/

/-- Fields of a record written as one update: all or none (R300, R424). -/
def State.setRecs (s : State) (ctx tab r : Nat) (l : List (Nat × Nat × Nat)) : Except Cause State :=
  l.foldlM (fun s e => s.setRec ctx tab r e.1 e.2.1 e.2.2) s

/-- Erg drops a request's pages (R303), and the frames reserved for it. -/
def State.dropPages (s : State) (ctx : Nat) (q : Pool) (tab nrec : Nat) (adm : List Nat) (r : Nat) : Except State State := do
  let ps ← got s (s.pagesOf ctx tab r)
  let s ← got s (s.setRec ctx tab r 24 4 0)
  let s ← ps.foldlM (fun s p => got s (s.refPg ctx q p false)) s
  let s ← ps.foldlM (fun s p => got s (s.refreshPg ctx q tab nrec adm p)) s
  return s.modErg ctx fun e => { e with cache := e.cache.filter (fun k => k.1 != r), resv := e.resv.filter fun k => k.1 != r }

/-- How preparing a request for a step ends (R304, R322, R325). -/
inductive Prep where
  | ok (s : State)
  | no (s : State)
  | fault (s : State) (cause : Nat)

/-- Allocates pages until the request has n blocks (R322). -/
def State.growTo (ctx : Nat) (q : Pool) (tab r n : Nat) (prio : Nat × Nat) : Nat → State → Except State (Bool × State)
  | 0, s => .ok (true, s)
  | f + 1, s => do
      let k ← got s (s.recFld ctx tab r 24 4)
      if n ≤ k then return (true, s)
      else
        match s.allocPage ctx q with
        | (none, s) => return (false, s)
        | (some pg, s) =>
            let s ← got s (s.setBlk ctx tab r k pg 0)
            let s ← got s (s.modPg ctx q pg fun m => { m with prio := prio.1, lastuse := prio.2 })
            let s ← got s (s.setRec ctx tab r 24 4 (k + 1))
            State.growTo ctx q tab r n prio f s

/-- Erg prepares a request that holds positions pos to kvlen − 1 (R322). -/
def State.ergPrepare (s : State) (ctx : Nat) (q : Pool) (tab r pos kvlen : Nat) : Except State Prep := do
  let n := (kvlen + q.p - 1) / q.p
  let prio ← got s (s.recFld ctx tab r 5 1)
  let lu ← got s (s.recFld ctx tab r 100 4)
  let (ok, s) ← State.growTo ctx q tab r n (prio % 16, lu) n s
  if !ok then return .no s
  else
    ((List.range n).filter fun b => decide (pos / q.p ≤ b)).foldlM (fun (p : Prep) b => do
      match p with
      | .ok s =>
          let (pg, _) ← got s (s.blkEntry ctx tab r b)
          match s.recall? ctx q pg with
          | .noFrame s => return .no s
          | .abort s c => return .fault s (if c = .poison then 5 else 4)
          | .ok s =>
              let s ← got s (s.modPg ctx q pg fun m => { m with held := true })
              let m ← got s (s.getPg ctx q pg)
              let kept := match s.ctx? ctx with
                | some x => x.erg.resv.any fun e => e.1 == r && e.2.1 == pg
                | none => false
              if 1 < m.refs && b == pos / q.p && pos % q.p != 0 && !kept then
                match s.hbmFrame ctx q with
                | (some fr, s) => return .ok (s.modErg ctx fun e => { e with resv := e.resv ++ [(r, pg, fr)] })
                | (none, s) => return .no s
              else return .ok s
      | p => return p) (.ok s)

/-! ## Phases of a step (R303) -/

/-- Close, for one slot of step `step`: one update of the record, then Barchan's insertion of a whole prompt (15 R329). -/
def State.closeSlot (ctx : Nat) (q : Pool) (tab nrec step : Nat) (s : State) (e : Slot) : Except State State := do
  let r := e.req
  let st ← got s (s.recFld ctx tab r 4 1)
  let plen ← got s (s.recFld ctx tab r 8 4)
  let fl ← got s (s.recFld ctx tab r 6 1)
  let n ← got s (s.recFld ctx tab r 16 4)
  let mx ← got s (s.recFld ctx tab r 20 4)
  let runs := st == 2 || st == 3
  let whole := st == 2 && e.kvlen == plen
  let silent := runs && e.samp && fl % 2 == 0
  let upd :=
    if silent then [(4, 1, 5), (104, 1, 0), (108, 4, step % 2 ^ 32)]
    else if runs && decide (mx ≤ n) then [(4, 1, 4), (105, 1, 1)]
    else if whole then [(4, 1, 3)]
    else []
  let s ← got s (s.setRecs ctx tab r ([(12, 4, e.kvlen), (100, 4, step % 2 ^ 32), (28, 4, 0xFFFFFFFF), (6, 1, 0)] ++ upd))
  let s ← if whole && q.rxauto then do
      let rs ← got s (s.tokenRanges ctx tab r plen)
      let ts ← rs.foldlM (fun l r => do
        let bs ← got s (s.vread ctx r.1 (4 * r.2))
        return l ++ tokWords bs r.2) []
      let (_, s) ← got s (s.rxInsert ctx q tab r ts)
      pure s
    else pure s
  got s (s.refreshReq ctx q tab nrec r)

/-- Close: every slot, then `held`, reservations and preparations are over (R303, R322). -/
def State.close (s : State) (ctx : Nat) (q : Pool) (tab : Nat) : Except State State := do
  let m := s.mer ctx
  let nrec ← got s (s.vget ctx tab 4)
  let s ← m.slots.foldlM (State.closeSlot ctx q tab nrec m.step) s
  let l ← got s (s.allPg ctx q)
  let s ← (l.filter fun e => e.2.held).foldlM (fun s e => got s (s.modPg ctx q e.1 fun m => { m with held := false })) s
  let s := s.modErg ctx fun e => { e with resv := [], prep := [] }
  return s.modMer ctx fun m => { m with slots := [], flying := false, ended := false }

/-- The completion ring has a free entry (R303). -/
def State.cplRoom (s : State) (ctx tab : Nat) : Except State Bool := do
  let sz ← got s (s.vget ctx (tab + 112) 4)
  let hd ← got s (s.vget ctx (tab + 116) 4)
  let tl ← got s (s.vget ctx (tab + 120) 4)
  return decide ((tl + 2 ^ 32 - hd) % 2 ^ 32 < sz)

/-- Writes a completion entry, then `cpltl`; the record's final contents stand before it (R306). -/
def State.complete (s : State) (ctx tab r status step : Nat) : Except State State := do
  let sz ← got s (s.vget ctx (tab + 112) 4)
  let tl ← got s (s.vget ctx (tab + 120) 4)
  let base ← got s (s.vget ctx (tab + 104) 8)
  let sc ← got s (s.recFld ctx tab r 105 1)
  let fc ← got s (s.recFld ctx tab r 104 1)
  let ng ← got s (s.recFld ctx tab r 16 4)
  let c := if status = 0 then sc else if status = 1 then fc else 0
  let e := leBytes 4 r ++ leBytes 1 status ++ leBytes 1 c ++ leBytes 2 0 ++ leBytes 4 ng ++ leBytes 4 (step % 2 ^ 32)
  let s ← got s (s.vwrite ctx (base + 16 * (tl % max 1 sz)) e)
  got s (s.vput ctx (tab + 120) 4 ((tl + 1) % 2 ^ 32))

/-- Retires one request with a status (R303): its pages, its record, then the entry (R306). -/
def State.retire1 (ctx : Nat) (q : Pool) (tab nrec step : Nat) (s : State) (r status : Nat) : Except State State := do
  let s ← s.dropPages ctx q tab nrec [] r
  let s ← got s (s.setRecs ctx tab r [(28, 4, 0xFFFFFFFF), (4, 1, 6)])
  let s ← s.complete ctx tab r status step
  return s.modMer ctx fun m => { m with pend := m.pend.filter fun p => p != r }

/-- Retires a list of requests until the ring is full, a cancelled one with its note in the journal: those that are
left. -/
def State.retireAll (ctx : Nat) (q : Pool) (tab nrec step : Nat) (note : State → Nat → State) :
    List (Nat × Nat) → State → Except State (List Nat × State)
  | [], s => .ok ([], s)
  | (r, st) :: l, s => do
      if ← s.cplRoom ctx tab then
        let s ← State.retire1 ctx q tab nrec step s r st
        State.retireAll ctx q tab nrec step note l (if st = 2 then note s r else s)
      else return (r :: l.map (fun e => e.1), s)

/-- Requests whose record meets a test of its state and `cancel`. -/
def State.scan (s : State) (ctx tab nrec : Nat) (f : Nat → Nat → Bool) : Except State (List Nat) :=
  (List.range nrec).foldlM (fun l r => do
    let st ← got s (s.recFld ctx tab r 4 1)
    let cn ← got s (s.recFld ctx tab r 7 1)
    return if f st (cn % 2) then l ++ [r] else l) []

/-- The arrival of kind 3 or 4 of a step (17 R366, R370). -/
def merArrival (kind step tab val : Nat) : Arrival :=
  { kind := kind, src := 0, thr := 0, grid := 0, team := 0, own := some (step % 2 ^ 32), site := tab, val := val }

/-- The journaled events of a kind at a step, in order, with their values (17 R372). -/
def State.journaled (s : State) (ctx kind step tab : Nat) : List (Nat × Nat) :=
  match s.ctx? ctx with
  | none => []
  | some x => match s.window ctx x.jrn with
      | none => []
      | some w => ((w.filter fun e => sameSite e.2 ((merArrival kind step tab 0).bytes step)).takeWhile
          fun e => sameEvent e.2 ((merArrival kind step tab 0).bytes (step % 2 ^ 32))).map fun e => (e.1, fieldLe e.2 24 4)

/-- Retire (R303): states 5, then 4, then cancelled ones, and the requests that a full ring left; none where a journaled
cancel is awaited. -/
def State.retirePhase (s : State) (ctx : Nat) (q : Pool) (tab nrec step : Nat) : Except State (Option (List Nat × State)) := do
  let f5 ← s.scan ctx tab nrec fun st _ => st == 5
  let f4 ← s.scan ctx tab nrec fun st _ => st == 4
  let pend := (s.mer ctx).pend
  let cs ← s.scan ctx tab nrec fun st c => c == 1 && (st == 1 || st == 2 || st == 3)
  let cs ← cs.foldlM (fun l r => do
    let st ← got s (s.recFld ctx tab r 4 1)
    return if st == 1 && !pend.contains r then l else l ++ [r]) ([] : List Nat)
  let forced := s.journaled ctx 4 step tab
  let replay := s.replaying ctx
  if replay && !(forced.all fun e => cs.contains e.2) then return none
  else
    let cs := if replay then forced.map fun e => e.2 else cs
    let note (s : State) (r : Nat) : State :=
      let a := merArrival 4 step tab r
      match replay, forced.find? fun e => e.2 == r with
      | true, some e => s.consume ctx a e.1
      | _, _ => s.record ctx a
    return some (← State.retireAll ctx q tab nrec step note
      (f5.map (fun r => (r, 1)) ++ f4.map (fun r => (r, 0)) ++ cs.map fun r => (r, 2)) s)

/-- A QUEUED record that obeys R299. -/
def recOk (b : List Byte) : Bool :=
  let f := fieldLe b
  let adr (o : Nat) : Bool := f o 8 < 2 ^ 57
  f 4 1 == 1 && f 5 1 < 16 && f 6 1 < 4 && f 7 1 < 2 && 1 ≤ f 8 4 && f 8 4 ≤ 2 ^ 31 && 1 ≤ f 20 4 && f 20 4 ≤ f 56 4
    && f 62 2 == 0 && f 96 4 ≤ 4096 && f 106 2 == 0 && f 116 12 == 0 && [32, 40, 48, 88].all adr
    && (List.range 4).all fun k => f (132 + 16 * k) 4 % 64 ≤ 16 && f (132 + 16 * k) 4 / 64 == 0 && f (136 + 16 * k) 8 < 2 ^ 57

/-- Inserts a request into the pending list: descending `prio`, then arrival (R302). -/
def State.addPending (s : State) (ctx tab r : Nat) : Except State State := do
  let pr ← got s (s.recFld ctx tab r 5 1)
  let ps ← (s.mer ctx).pend.foldlM (fun l p => do
    let v ← got s (s.recFld ctx tab p 5 1)
    return l ++ [(p, v % 16)]) []
  let l := (ps.takeWhile fun e => pr % 16 ≤ e.2).map (fun e => e.1) ++ r :: (ps.dropWhile fun e => pr % 16 ≤ e.2).map (fun e => e.1)
  return s.modMer ctx fun m => { m with pend := l }

/-- Collect (R302): entries up to the `admtl` value given. -/
def State.collectTo (ctx : Nat) (q : Pool) (tab nrec step tl : Nat) : Nat → State → Except State State
  | 0, s => .ok s
  | f + 1, s => do
      let hd ← got s (s.vget ctx (tab + 92) 4)
      if hd = tl || 65536 ≤ (s.mer ctx).pend.length then return s
      else
        let sz ← got s (s.vget ctx (tab + 88) 4)
        let base ← got s (s.vget ctx (tab + 80) 8)
        let r ← got s (s.vget ctx (base + 4 * (hd % max 1 sz)) 4)
        let step1 (s : State) : Except State State := do
          let s ← got s (s.vput ctx (tab + 92) 4 ((hd + 1) % 2 ^ 32))
          State.collectTo ctx q tab nrec step tl f s
        if nrec ≤ r then
          let nb ← got s (s.vget ctx (tab + 124) 4)
          let s ← got s (s.vput ctx (tab + 124) 4 ((nb + 1) % 2 ^ 32))
          step1 s
        else
          let b ← got s (s.vread ctx (recAddr tab r) 256)
          let end1 (st : Nat) : Except State State := do
            if ← s.cplRoom ctx tab then
              let s ← got s (s.setRec ctx tab r 4 1 6)
              let s ← s.complete ctx tab r st step
              step1 s
            else return s
          if !recOk b then end1 3
          else if fieldLe b 7 1 = 1 then end1 2
          else do
            let s ← s.addPending ctx tab r
            step1 s

/-- What form has put together: slots, tokens of the budget used. -/
structure Batch where
  slots : List Slot
  used : Nat
  admitted : List Nat

/-- The header's step parameters: token budget, slots, chunk. -/
def State.budget (s : State) (ctx tab : Nat) : Except State (Nat × Nat × Nat) := do
  let a ← got s (s.vget ctx (tab + 8) 4)
  let b ← got s (s.vget ctx (tab + 12) 4)
  let c ← got s (s.vget ctx (tab + 16) 4)
  return (a, b, c)

/-- Adds a request to the batch if Erg can give it its blocks (R304): whether it was, and whether it
faulted. -/
def State.include (s : State) (ctx : Nat) (q : Pool) (tab step : Nat) (lim : Nat × Nat × Nat) (bt : Batch) (r : Nat)
    (decode : Bool) : Except State (Option Bool × Batch × State) := do
  let pos ← got s (s.recFld ctx tab r 12 4)
  let plen ← got s (s.recFld ctx tab r 8 4)
  let left := lim.1 - bt.used
  let qlen := if decode then min 1 left else min (min (plen - pos) lim.2.2) left
  if lim.2.1 ≤ bt.slots.length || qlen = 0 then return (none, bt, s)
  else
    match ← s.ergPrepare ctx q tab r pos (pos + qlen) with
    | .no s => return (some false, bt, s)
    | .fault s c =>
        -- a pending request is admitted for this purpose only (R325)
        let st ← got s (s.recFld ctx tab r 4 1)
        let s ← got s (s.setRecs ctx tab r ([(4, 1, 5), (104, 1, c), (108, 4, step % 2 ^ 32)]
          ++ if st = 1 then [(112, 4, step % 2 ^ 32)] else []))
        return (some true, bt, s)
    | .ok s =>
        let e : Slot := { req := r, qstart := bt.used, qlen := qlen, kvlen := pos + qlen, samp := decode || pos + qlen == plen }
        return (some true, { bt with slots := bt.slots ++ [e], used := bt.used + qlen }, s)

/-- Running requests of a state in the order of R304. -/
def State.running (s : State) (ctx tab nrec st : Nat) : Except State (List Nat) := do
  let rs ← s.scan ctx tab nrec fun a _ => a == st
  let ks ← rs.foldlM (fun l r => do
    let p ← got s (s.recFld ctx tab r 5 1)
    let a ← got s (s.recFld ctx tab r 112 4)
    return l ++ [(r, p % 16, a)]) []
  let before (x y : Nat × Nat × Nat) : Bool := y.2.1 < x.2.1 || (x.2.1 == y.2.1 && (x.2.2 < y.2.2 || (x.2.2 == y.2.2 && x.1 < y.1)))
  return (ks.foldl (fun l k => (l.takeWhile fun e => before e k) ++ k :: (l.dropWhile fun e => before e k)) []).map fun e => e.1

/-- Barchan's match of a request that Meridian would take: `pos`, and the shared blocks mapped (R328). -/
def State.admitMatch (s : State) (ctx : Nat) (q : Pool) (tab r step : Nat) : Except State State := do
  let plen ← got s (s.recFld ctx tab r 8 4)
  let pr ← got s (s.recFld ctx tab r 40 8)
  let bs ← got s (s.vread ctx pr (4 * plen))
  let (m, path) ← got s (s.rxMatch ctx q (plen + 1) none (tokWords bs plen))
  let pos := min m (plen - 1)
  let n := (pos + q.p - 1) / q.p
  let s ← got s (s.setRecs ctx tab r [(12, 4, pos), (24, 4, n)])
  let s ← ((List.range n).zip path).foldlM (fun s e => do
    let s ← got s (s.setBlk ctx tab r e.1 e.2.1.page (min q.p (pos - e.1 * q.p)))
    let s ← got s (s.refPg ctx q e.2.1.page true)
    let pr ← got s (s.recFld ctx tab r 5 1)
    let s ← got s (s.modPg ctx q e.2.1.page fun m => { m with prio := max m.prio (pr % 16), lastuse := max m.lastuse step })
    got s (s.putNode ctx q { e.2.1 with last := step })) s
  -- the sync record covers the request's block table (R320)
  let mx ← got s (s.recFld ctx tab r 20 4)
  let bt ← got s (s.recFld ctx tab r 32 8)
  let rec' := leBytes 8 1 ++ leBytes 8 0 ++ leBytes 8 bt ++ leBytes 4 (8 * ((plen + mx + q.p - 1) / q.p)) ++ leBytes 36 0
  got s (s.vwrite ctx (q.syncb + 64 * r) rec')

/-- Undoes the mapping of a request that could not be admitted. -/
def State.unadmit (s : State) (ctx : Nat) (q : Pool) (tab nrec : Nat) (adm : List Nat) (r : Nat) : Except State State := do
  let s ← s.dropPages ctx q tab nrec adm r
  got s (s.setRec ctx tab r 12 4 0)

/-- Admission of pending requests, in list order (R304). -/
def State.admitPending (ctx : Nat) (q : Pool) (tab nrec step : Nat) (lim : Nat × Nat × Nat) :
    List Nat → Batch → State → Except State (Batch × State)
  | [], b, s => .ok (b, s)
  | r :: rs, b, s => do
      if lim.2.1 ≤ b.slots.length || lim.1 ≤ b.used then return (b, s)
      else
        let s ← s.admitMatch ctx q tab r step
        let drop (s : State) : State := s.modMer ctx fun m => { m with pend := m.pend.filter fun p => p != r }
        match ← s.include ctx q tab step lim b r false with
        | (some true, b', s) =>
            if b'.slots.length = b.slots.length then State.admitPending ctx q tab nrec step lim rs b (drop s)
            else State.admitPending ctx q tab nrec step lim rs { b' with admitted := b'.admitted ++ [r] } (drop s)
        | (_, _, s) => do
            let s ← s.unadmit ctx q tab nrec b.admitted r
            return (b, s)

/-- Form (R304), without the requests that the retire phase has left for a later one (R303). -/
def State.form (s : State) (ctx : Nat) (q : Pool) (tab nrec step : Nat) (left : List Nat) : Except State (Batch × State) := do
  let lim ← s.budget ctx tab
  let ds ← (s.running ctx tab nrec 3).map fun l => l.filter fun r => !left.contains r
  let ps ← (s.running ctx tab nrec 2).map fun l => l.filter fun r => !left.contains r
  let run (dec : Bool) (l : List Nat) (b : Batch) (s : State) : Except State (Batch × State) :=
    l.foldlM (fun (p : Batch × State) r => do
      let (_, b, s) ← p.2.include ctx q tab step lim p.1 r dec
      return (b, s)) (b, s)
  let (b, s) ← run true ds { slots := [], used := 0, admitted := [] } s
  let (b, s) ← run false ps b s
  State.admitPending ctx q tab nrec step lim ((s.mer ctx).pend.filter fun r => !left.contains r) b s

/-- Write (R303, R305): shape records, tokens, slot map, patch table, and the included records. -/
def State.writeStep (s : State) (ctx tab step : Nat) (b : Batch) : Except State State := do
  let h ← got s (s.vread ctx tab 256)
  let f := fieldLe h
  let shape (e : Slot) : List Byte := leBytes 4 e.req ++ leBytes 4 e.qstart ++ leBytes 4 e.qlen
    ++ leBytes 4 (e.kvlen % 2 ^ 31 + (if e.samp then 2 ^ 31 else 0))
  let s ← got s (s.vwrite ctx (f 48 8) (b.slots.flatMap shape))
  let toks ← b.slots.foldlM (fun l e => do
    let st ← got s (s.recFld ctx tab e.req 4 1)
    if st = 3 then
      let v ← got s (s.recFld ctx tab e.req 84 4)
      return l ++ leBytes 4 v
    else
      let pr ← got s (s.recFld ctx tab e.req 40 8)
      let bs ← got s (s.vread ctx (pr + 4 * (e.kvlen - e.qlen)) (4 * e.qlen))
      return l ++ bs) ([] : List Byte)
  let s ← got s (s.vwrite ctx (f 64 8) toks)
  let n := b.slots.length
  let s ← got s (s.vwrite ctx (f 56 8) ((List.range (f 12 4)).flatMap fun t => leBytes 4 (if t < n then t else 0xFFFFFFFF)))
  let vals := [n, b.used, step % 2 ^ 32, (b.slots.filter fun e => e.samp).length]
  let ents := (List.range 4).filterMap fun i =>
    if f (128 + 4 * i) 4 = 0 then none else some (leBytes 4 (f (128 + 4 * i) 4) ++ leBytes 1 4 ++ leBytes 3 0 ++ leBytes 8 (vals.getD i 0))
  let s ← got s (s.vwrite ctx (f 40 8) (leBytes 8 (f 32 8) ++ leBytes 4 ents.length ++ leBytes 20 0 ++ ents.flatten))
  ((List.range n).zip b.slots).foldlM (fun s e => got s (s.setRecs ctx tab e.2.req
    ((28, 4, e.1) :: if b.admitted.contains e.2.req then [(4, 1, 2), (112, 4, step % 2 ^ 32)] else []))) s

/-- Kick (R303): `rdone` is 0 by the write of the table's header, then `step`, `mstat` and the kick, which is held where a
`GKICK` write would be (R289). -/
def State.kickStep (s : State) (ctx tab step : Nat) (b : Batch) : Except State State := do
  let pt ← got s (s.vget ctx (tab + 40) 8)
  let s ← got s (s.vput ctx (tab + 24) 8 step)
  let s ← got s (s.vput ctx (tab + 6) 1 1)
  let s := s.modMer ctx fun m =>
    { m with slotTab := tab, slots := b.slots, step := step, flying := true, begun := false, idle := false, reports := 0, rdone := pt + 16 }
  let a := distArrival 6 2 0 0 0 (some (step % 2 ^ 32))
  let s := s.seeWork fun a => a == .serve
  let die := (s.mer ctx).die
  match if 64 ≤ s.kickQ die then (none, s) else s.kick ctx die pt a none with
  | (some s, _) => return s
  | (none, s) =>
      let (u, s) := s.newUid
      return s.modCtx ctx fun x => { x with heldK := x.heldK ++
        [{ core := 96 * x.mer.die, slot := 16, wid := 0, uid := u, dst := none, bytes := [], addr := pt, lvl := 0, arr := a }] }

/-- The journal window reaches the last event supplied (17 R372). -/
def State.windowEnds (s : State) (ctx : Nat) : Bool :=
  match s.ctx? ctx with
  | some x => decide (x.jrn.cnt ≤ x.jrn.pos + 65536)
  | none => true

/-- Retire, collect and form for step number `step`, then write and kick, or idle (R303). One event of
kind 3 is journaled for a step, when it is formed: the `admtl` of that run of its phases (17 R366; log 13). -/
def State.stepPhases (s : State) (ctx tab step : Nat) : Except State State := do
  let h ← got s (s.vread ctx tab 256)
  let s := s.modMer ctx fun m => { m with cgroups := fieldLe h 20 4 }
  let nrec := fieldLe h 0 4
  let pool ← got s (s.pool ctx (fieldLe h 72 8))
  match pool with
  | none => return (s.stopServing ctx 3).serveNext ctx
  | some q =>
      -- collect's `admtl`: as read, or as journaled (17 R372)
      let forced := (s.journaled ctx 3 step tab).head?
      let tl := match s.replaying ctx, forced with
        | true, some e => e.2
        | _, _ => fieldLe h 96 4
      if s.replaying ctx && ((forced.isNone && !s.windowEnds ctx) || 2 ^ 31 ≤ (fieldLe h 96 4 + 2 ^ 32 - tl) % 2 ^ 32) then
        return s.modMer ctx fun m => { m with begun := m.begun || !m.idle }
      else
        match ← s.retirePhase ctx q tab nrec step with
        | none => return s.modMer ctx fun m => { m with begun := true }
        | some (left, s) =>
            let s ← State.collectTo ctx q tab nrec step tl (2 ^ 20) s
            let (b, s) ← s.form ctx q tab nrec step left
            if b.slots.isEmpty then
              let s ← got s (s.vput ctx (tab + 6) 1 2)
              return s.modMer ctx fun m => { m with idle := true, begun := false }
            else if s.replaying ctx && forced.isNone then return s.mismatch ctx
            else
              let s := match s.replaying ctx, forced with
                | true, some e => s.consume ctx (merArrival 3 step tab tl) e.1
                | _, _ => s.record ctx (merArrival 3 step tab tl)
              let s ← s.writeStep ctx tab step b
              s.kickStep ctx tab step b

/-- A context's Meridian acts: serving, its context running (R298). -/
def State.merServes (s : State) (ctx : Nat) : Bool :=
  match s.ctx? ctx with
  | some x => x.mer.tab != 0 && x.cst == 1 && (s.die x.mer.die).halted == 0
  | none => false
/-- It may begin the phases of a step, or go on with them: no `SETDET` holds a step that has not begun (17 R374). -/
def State.merReady (s : State) (ctx : Nat) : Bool :=
  s.merServes ctx && (match s.ctx? ctx with
    | some x => x.ring.setdet.isNone || x.mer.begun
    | none => false)

/-- Runs phases; an access failure stops serving (R424). -/
def State.serve (ctx : Nat) (r : Except State State) : State :=
  match r with
  | .ok s => s
  | .error s => s.serveFail ctx

/-- Stops serving after a step (R298): the next table's header is read where one was named. -/
def State.endServing (s : State) (ctx : Nat) : State :=
  (s.stopServing ctx 0).serveNext ctx

/-- The step in flight has ended: its replay wrote `rdone` and the control group reported (R301): the
code, if so. -/
def State.stepOver (s : State) (ctx : Nat) : Except State (Option Nat) := do
  let m := s.mer ctx
  let v ← got s (s.vget ctx m.rdone 8)
  return if v != 0 && decide (m.cgroups ≤ m.reports) then some (v % 256) else if v != 0 && v % 256 != 0 then some (v % 256) else none

/-- The next step's phases, after the close of a step that has ended; serving stops where it was asked to. -/
def State.nextStep (s : State) (ctx : Nat) : Except State State := do
  let m := s.mer ctx
  let h ← got s (s.vread ctx m.tab 256)
  let pool ← got s (s.pool ctx (fieldLe h 72 8))
  let go (s : State) : Except State State :=
    if !m.begun && (m.stop || fieldLe h 4 1 % 2 == 0) then .ok (s.endServing ctx)
    else s.stepPhases ctx m.tab (m.step + 1)
  if !m.ended then go s
  else
    match pool with
    | some q => do
        let s ← s.close ctx q m.tab
        go s
    | none => return (s.stopServing ctx 3).serveNext ctx

/-- MERIDIAN_STEP (R301, R303): the step in flight ends, and the next one's phases run, or wait while a `SETDET` holds
Meridian. -/
def execMeridianStep (ctx : Nat) (s : State) : Host.Outcome State Fault Refusal :=
  let m := s.mer ctx
  if !s.merServes ctx || m.idle then .next s
  else .next (State.serve ctx (do
    let code ← if m.flying then s.stepOver ctx else pure (some 0)
    match code with
    | none => return s
    | some 0 =>
        let s := if m.flying then s.modMer ctx fun m => { m with flying := false, ended := true } else s
        if s.merReady ctx then s.nextStep ctx else return s
    | some _ => return (s.stopServing ctx 4).serveNext ctx))

/-- MERIDIAN_IDLE_POLL (R303): phases retire to form repeat. -/
def execMeridianIdlePoll (ctx : Nat) (s : State) : Host.Outcome State Fault Refusal :=
  let m := s.mer ctx
  if !s.merReady ctx || !m.idle then .next s
  else .next (State.serve ctx (do
    let h ← got s (s.vread ctx m.tab 256)
    if !m.begun && (m.stop || fieldLe h 4 1 % 2 == 0) then return s.endServing ctx
    else s.stepPhases ctx m.tab (m.step + 1)))

end Sys2Proof.Machine
end

