-- ==== Sys2Proof/Machine/PairWord.lean ====
section
/-! DEFINITION. Class 11: the pair word and its half-operations (02 R33 to R36). -/

namespace Sys2Proof.Machine

/-- Latency of a half-operation, as its full form's (02 R39). -/
def Hop.lat : Hop → Nat
  | .mul => 6
  | .fadd | .fsub | .fmul | .ffma | .fmin | .fmax | .faddz | .fmulz | .ffmaz => 5
  | _ => 4

/-- The result of a half-operation on 32-bit patterns, with its addend, and whether it is invalid under
R68 (R34). -/
def Hop.result (o : Hop) (a b d : Nat) : Nat × Bool :=
  match o with
  | .add => (iadd .i32 false a b, false)
  | .sub => (isub .i32 false a b, false)
  | .mul => (imul .i32 false a b, false)
  | .mini => (imin .i32 a b, false)
  | .maxi => (imax .i32 a b, false)
  | .minn => (imin .n32 a b, false)
  | .maxn => (imax .n32 a b, false)
  | .and => (a &&& b, false)
  | .or => (a ||| b, false)
  | .xor => (a ^^^ b, false)
  | .not => (inot .n32 a, false)
  | .shl => (ishl .n32 a b, false)
  | .shr => (ishr .n32 a b, false)
  | .sra => (isra .i32 a b, false)
  | .rot => (irot .n32 a b, false)
  | .mov => (a, false)
  | .abs => (iabs .i32 false a, false)
  | .neg => (ineg .i32 false a, false)
  | .popc => (popBits 32 a, false)
  | .clz => (clzBits 32 a, false)
  | .ctz => (ctzBits 32 a, false)
  | .brev => (revBits 32 a, false)
  | .fadd => fadd .f32 .rne false a b
  | .fsub => fsub .f32 .rne false a b
  | .fmul => fmul .f32 .rne false a b
  | .ffma => ffma .f32 .rne false a b d
  | .fmin => (fminmax .f32 false a b, false)
  | .fmax => (fminmax .f32 true a b, false)
  | .faddz => fadd .f32 .rtz false a b
  | .fmulz => fmul .f32 .rtz false a b
  | .ffmaz => ffma .f32 .rtz false a b d

/-- The writes of a half, every source read before either write (R36). -/
def Iss.halfWrites (w : Iss) (h : Half) : Except (Cause × List Nat) (List (RegAt × DWord)) :=
  perThread { w with ts := w.half h } fun t =>
    let r (n : BitVec 10) : Nat := (w.tm.readReg (.v t n.toNat)).toNat
    let v := Hop.result h.hop (r h.a) (r h.b) (r h.d)
    arith w.tm.atrap v.2 [(.v t h.d.toNat, BitVec.ofNat 64 v.1)]

/-- PAIR_WORD (R36): one instruction for faults. Its post, where only one half's guard is true for a thread, falls
with the longer of both halves' latencies (log 24). -/
def execPairWord (stall : BitVec 4) (yld : Bool) (post : BitVec 2) (p q : Half) (s : State) :
    Host.Outcome State Fault Refusal :=
  let hd : Hdr := { g := { neg := false, p := 0 }, ht := { stall := stall, yld := yld, post := post, need := 0, fwd := false } }
  runWord (.pairWord stall yld post p q) hd allFall (fun w s =>
    match w.halfWrites p, w.halfWrites q with
    | .error (c, bad), .error (_, bad') => .trap c 0 (bad ++ bad') []
    | .error (c, bad), .ok _ => .trap c 0 bad []
    | .ok _, .error (c, bad) => .trap c 0 bad []
    | .ok x, .ok y =>
        let s := (s.fixedWrite w (Hop.lat p.hop) 0 x).s
        let s := (s.fixedWrite w (Hop.lat q.hop) 0 y).s
        .done (s.fixedWrite w (max (Hop.lat p.hop) (Hop.lat q.hop)) post.toNat [])) s

end Sys2Proof.Machine
end

