-- ==== Sys2Proof/Machine/Matrix.lean ====
section
/-! DEFINITION. Class 8: ownership of the matrix engine, tile configuration, products, tile moves, and the
engine's grant (05 R115 to R136). -/

namespace Sys2Proof.Machine

/-! ## Ownership (R115 to R118, R136) -/

/-- The entry of a home group among the engine's waiters, one whose handover drain is to go on apart. -/
def Engine.waiter (e : Engine) (slot g : Nat) : Option EWait :=
  e.waiters.find? fun x => x.slot == slot && x.hg == g && !(x.reload.any fun r => r.drained)

/-- What a restored home group that waits for the engine reloads (R116, R136). -/
def Engine.returning (e : Engine) (slot g : Nat) : Option Reload :=
  e.waiters.findSome? fun x => if x.slot == slot && x.hg == g then x.reload else none

/-- A restored owner that has not been granted the engine again (R136). -/
def Engine.reloading (e : Engine) (slot g : Nat) : Bool :=
  match e.waiter slot g with
  | some x => x.reload.isSome
  | none => false

/-- Appends a waiter: to the queue while it has fewer than 16, else outside it (R115). -/
def Engine.enqueue (e : Engine) (x : EWait) : Engine := e.line (e.waiters ++ [x])

/-- `macq` of one home group: the engine, and whether it waits (R115). -/
def Engine.acquire (e : Engine) (slot g : Nat) : Engine × Bool :=
  if e.owner = some (slot, g) then (e, false)
  else if e.owner.isNone && !e.drain && e.queue.isEmpty then ({ e with owner := some (slot, g) }, false)
  else match e.waiter slot g with
    | some _ => (e, true)
    | none => (e.enqueue { slot := slot, hg := g, k := 0, reload := none }, true)

/-- MACQ (R115). Where a home group waits, the word stays the next word of every member (R151): one that has the
engine completes when it issues it again. Home groups of one issue group come to the engine in ascending order: R115 gives none
(log 37). -/
def execMacq (h : Hdr) (s : State) : Host.Outcome State Fault Refusal :=
  runWord (.macq h) h allFall (fun w s =>
    let (s, late) := w.hgs.foldl (fun p g =>
      let (e, wait) := ((p.1.core w.core).eng).acquire w.slot g
      (p.1.modCore w.core fun k => { k with eng := e }, if wait then p.2 ++ w.of g else p.2)) (s, ([] : List Nat))
    if late.isEmpty then .done { s := s } else .done (s.waitAt w (late.map fun t => (t, .macq)) [])) s

/-- True-guard threads of home groups that do not own the engine (R118). -/
def Iss.notOwner (w : Iss) (k : Core) : List Nat := w.ts.filter fun t => k.eng.owner != some (w.slot, hgOf t)

/-- The ownership check of class 8 (R118, R125): a restored owner waits for the reload before anything of the word is
tested (R136); then `MXOWN`, or the home group. -/
def ownerWord (i : Instr) (h : Hdr) (f : Iss → State → Nat → Res) (s : State) : Host.Outcome State Fault Refusal :=
  match s.iss h.g with
  | none => .fault .noIssuer
  | some w =>
      let back (k : Core) : Bool := !w.ts.isEmpty && w.ts.all fun t => k.eng.owner != some (w.slot, hgOf t) && k.eng.reloading w.slot (hgOf t)
      if back (s.core w.core) then .next (s.conclude w h.ht (.done (s.waitBefore w w.ts .engine)))
      else runWord i h allFall (fun w s =>
        match w.notOwner (s.core w.core) with
        | [] => f w s (w.hgs.headD 0)
        | bad => .trap .mxown 0 bad []) s

/-- MREL (R116): ownership ends, the handover drain begins. -/
def execMrel (h : Hdr) (s : State) : Host.Outcome State Fault Refusal :=
  ownerWord (.mrel h) h (fun w s _ => .done { s := s.modCore w.core fun k => { k with eng := k.eng.release } }) s

/-- An outstanding result is an `mld` of the engine's present or last owner. -/
def Core.ofMld (k : Core) (p : Pend) : Bool :=
  match p.src with
  | .tile _ _ _ _ _ _ _ => (k.eng.returning p.slot p.hg).isNone
  | _ => false

/-- An `mld` of the engine's present or last owner has not written its tile: it is in flight, parked, or set aside by a
trap (R116). -/
def Core.loading (k : Core) : Bool := k.pends.any k.ofMld

/-- The tile an operand names. -/
def Opd.tile (o : Opd) : Nat := match o with
  | .til n => n.val
  | _ => 0

/-- A word of the accumulator store lies in a tile. -/
def TileCfg.inTile (c : TileCfg) (t n : Nat) : Bool := t * c.m * c.n ≤ n && n < (t + 1) * c.m * c.n

/-- Some word of the accumulator store that `f` selects holds data that cannot be corrected (20 R407). -/
def Engine.badAt (e : Engine) (f : Nat → Bool) : Bool := e.tpoison.any f

/-- Words of the accumulator store that are written are correct again (20 R407). -/
def State.goodTiles (s : State) (c : Nat) (f : Nat → Bool) : State :=
  s.modCore c fun k => { k with eng := { k.eng with tpoison := k.eng.tpoison.filter fun n => !f n } }

/-- Threads of the word one of whose registers listed holds data that cannot be corrected (20 R407). -/
def Iss.badIn (w : Iss) (rs : Nat → List RegAt) : List Nat :=
  if w.tm.rpoison.isEmpty then [] else w.ts.filter fun t => (rs t).any fun r => w.tm.rpoison.contains r

/-- The scalar and index registers that a word of class 8 reads. -/
def Iss.badScalars (w : Iss) (i : Instr) : List Nat :=
  w.badIn fun t => i.uses.flatMap fun u => match u.o.form with
    | some .s | some .x => touches u w.tm t
    | _ => []

/-- Registers of a fragment at `base` that a thread supplies: for each stripe whose row the fragment has, `rk`
registers (R122). -/
def fragRegs (base rk : Nat) (row : Nat → Bool) (n t : Nat) : List RegAt :=
  (List.range (stripes n)).flatMap fun s =>
    if 32 * s + laneOf t < n && row (32 * s + laneOf t) then (List.range rk).map fun k => .v t (base + s * rk + k) else []

/-- A word that acts on the configuration and the tiles: it runs behind every earlier one (R125). -/
def tileWord (i : Instr) (h : Hdr) (f : Iss → State → Nat → TileCfg → Res) (s : State) :
    Host.Outcome State Fault Refusal :=
  ownerWord i h (fun w s g =>
    let k := s.core w.core
    match k.eng.conf with
    | none => .trap .tcfgbad 0 w.ts []
    | some c =>
        if k.loading then .hold fun _ => [.engine]
        else match w.badScalars i with
          | [] => f w s g c
          | bad => .trap .poison 0 bad []) s

/-- The last faults of a word: data that cannot be corrected in the registers or in the words of the accumulator store
that it reads (R125; 20 R407). -/
def State.readsBad (s : State) (w : Iss) (rs : Nat → List RegAt) (tile : Nat → Bool) : Option Res :=
  match w.badIn rs, (s.core w.core).eng.badAt tile with
  | [], false => none
  | [], true => some (.trap .poison 0 w.ts [])
  | bad, _ => some (.trap .poison 0 bad [])

/-- A scalar, index or immediate operand of the home group, as `.n32`. -/
def Iss.sval (w : Iss) (g : Nat) (a : Opd) : Nat := w.tm.n32 (w.lead g) a

/-- Uncorrectable bytes of the team's scratchpad that a word reads (20 R407). -/
def State.scrBad (s : State) (w : Iss) (off n : Nat) : Bool := n != 0 && s.badTgt (.scr w.tref off) n

/-- Every true-guard thread as one failing access. -/
def Iss.asReqs (w : Iss) (va : Nat) : List Req := w.ts.map fun t => { t := t, va := va, park := [t] }

/-- The ends of a word of the engine that writes no register: its post falls when it is done. -/
def State.engineDone (s : State) (w : Iss) : Res := .done (s.laterWrite w w.ts [])

def State.setTiles (s : State) (c : Nat) (t : Tab Word) : State :=
  s.modCore c fun k => { k with eng := { k.eng with tiles := t } }

/-- TCFG (R121). -/
def execTcfg (h : Hdr) (a : Opd) (s : State) : Host.Outcome State Fault Refusal :=
  ownerWord (.tcfg h a) h (fun w s g =>
    let off := w.sval g a
    let k := s.core w.core
    if !(w.badScalars (.tcfg h a)).isEmpty then .trap .poison 0 (w.badScalars (.tcfg h a)) []
    else if off % 64 != 0 then .trap .misalign 0 w.ts (w.ts.map fun t => (t, off))
    else if w.tm.loc < off + 64 then .trap .prot 0 w.ts (w.ts.map fun t => (t, off))
    else if k.loading || k.sb.length == Config.sbEntries || k.sbHit false w.slot off 64 false then
      .hold fun _ => [.engine, .entries w.core 1, .range w.core false w.slot off 64]
    else if s.scrBad w off 64 then s.accessTrap w .poison (w.asReqs off)
    else
      let blk := s.readTgt (.scr w.tref off) 64
      match TileCfg.ofBytes blk with
      | none => .trap .tcfgbad 0 w.ts []
      | some _ => (s.modCore w.core fun k => { k with eng := { k.eng with cfg := some blk, tiles := [], tpoison := [] } }).engineDone w) s

/-! ## Elements (R122 to R124; 03 R60, R61) -/

/-- The value of an element's bits. -/
def OpFmt.elem (f : OpFmt) (n : Nat) : FVal :=
  match f with
  | .fl t => FType.decode t n
  | _ => .zero false
/-- The integer value of an element's bits. -/
def OpFmt.ielem (f : OpFmt) (n : Nat) : Int := sext f.w n

/-- The bits of element k of a row or column in a fragment: 0 from a lane that does not supply it. -/
def Iss.fragBits (w : Iss) (g base : Nat) (f : OpFmt) (row k : Nat) : Nat :=
  let t := 32 * g + row % 32
  if w.ts.contains t then elemOf (w.tm.vecAt t (base + row / 32 * f.rk) f.rk) f.w k else 0

/-- Byte `chunk` of a scale register: `0x7F` from a lane that does not supply it (R123, R124). -/
def Iss.scaleByte (w : Iss) (g reg row chunk : Nat) : Nat :=
  let t := 32 * g + row % 32
  if w.ts.contains t then (w.tm.readReg (.v t (reg + row / 32))).toNat / 2 ^ (8 * chunk) % 256 else 0x7F

/-- The effective index of a vector operand for a home group. -/
def Iss.base (w : Iss) (g : Nat) (o : Opd) : Nat := o.eff (w.tm.xs g)

/-- One chunk-exact step of an element (R127; 03 R73, R74). -/
def chunkStep (c : TileCfg) (acc : Nat) (as bs : List Nat) (sa sb : FVal) : Nat :=
  if c.accInt then
    let sum := ((as.zip bs).map fun e => c.a.ielem e.1 * c.b.ielem e.2).foldl (· + ·) 0
    intBits 32 ((acc : Int) + sum)
  else
    let ps := (as.zip bs).map fun e => FVal.mul (FVal.mul (c.a.elem e.1) sa) (FVal.mul (c.b.elem e.2) sb)
    roundRne (FVal.sum .rne (FType.decode .f32 acc :: ps)) .f32

/-- One element after all chunks: `sc` gives the scale registers of A and B, if scales apply. -/
def Iss.element (w : Iss) (g : Nat) (c : TileCfg) (a b : Nat) (sc : Option (Nat × Nat)) (acc i j : Nat) : Nat :=
  (List.range (c.a.k / 32)).foldl (fun acc ch =>
    let ks := (List.range 32).map fun n => 32 * ch + n
    let (sa, sb) := match sc with
      | some (ra, rb) => (e8m0 (w.scaleByte g ra i ch), e8m0 (w.scaleByte g rb j ch))
      | none => (e8m0 0x7F, e8m0 0x7F)
    chunkStep c acc (ks.map fun k => w.fragBits g a c.a i k) (ks.map fun k => w.fragBits g b c.b j k) sa sb) acc

/-- The word of the accumulator store that holds an element. -/
def TileCfg.at' (c : TileCfg) (t i j : Nat) : Nat := (t * c.m + i) * c.n + j
def Engine.elem (e : Engine) (c : TileCfg) (t i j : Nat) : Nat := (Tab.getD e.tiles (c.at' t i j) 0).toNat

/-- Accumulates one K step into rows lo to hi − 1 of a tile. -/
def State.accumulate (s : State) (w : Iss) (g : Nat) (c : TileCfg) (t lo hi a b : Nat) (sc : Option (Nat × Nat)) : State :=
  let e := (s.core w.core).eng
  let ij := (List.range (hi - lo)).flatMap fun i => (List.range c.n).map fun j => (lo + i, j)
  let new := ij.foldl (fun tl p =>
    Tab.put (0 : Word) tl (c.at' t p.1 p.2) (BitVec.ofNat 32 (w.element g c a b sc (e.elem c t p.1 p.2) p.1 p.2))) e.tiles
  s.setTiles w.core new

/-- Registers of the two fragments of a product (R122), and of its scale fragment at a base (R123). -/
def TileCfg.abRegs (c : TileCfg) (a b : Nat) (t : Nat) : List RegAt :=
  fragRegs a c.a.rk (fun _ => true) c.m t ++ fragRegs b c.b.rk (fun _ => true) c.n t
def TileCfg.scRegs (c : TileCfg) (r : Nat) (t : Nat) : List RegAt :=
  fragRegs r 1 (fun _ => true) c.m t ++ fragRegs (r + c.sa) 1 (fun _ => true) c.n t

/-- MMA (R127). -/
def execMma (h : Hdr) (d a b : Opd) (s : State) : Host.Outcome State Fault Refusal :=
  tileWord (.mma h d a b) h (fun w s g c =>
    match s.readsBad w (c.abRegs (w.base g a) (w.base g b)) (c.inTile (Opd.tile d)) with
    | some r => r
    | none => (s.accumulate w g c (Opd.tile d) 0 c.m (w.base g a) (w.base g b) none).engineDone w) s
/-- MMAS (R127): needs block scales. -/
def execMmas (h : Hdr) (d a b x : Opd) (s : State) : Host.Outcome State Fault Refusal :=
  tileWord (.mmas h d a b x) h (fun w s g c =>
    if !c.scmode then .trap .tcfgbad 0 w.ts []
    else
      let r := w.base g x
      match s.readsBad w (fun t => c.abRegs (w.base g a) (w.base g b) t ++ c.scRegs r t) (c.inTile (Opd.tile d)) with
      | some r => r
      | none => (s.accumulate w g c (Opd.tile d) 0 c.m (w.base g a) (w.base g b) (some (r, r + c.sa))).engineDone w) s

/-- The groups of `mmag`: group, first row and end, for counts in order (R128). -/
def groupRows (m : Nat) : List Nat → Nat → Nat → List (Nat × Nat × Nat)
  | [], _, _ => []
  | n :: ns, g, start => (g, min start m, min (start + n) m) :: groupRows m ns (g + 1) (start + n)

/-- Registers that the groups of `mmag` read: the rows of A that some group covers, and for a group with rows its B
fragment; with `.sc` their scales (R128). -/
def TileCfg.groupRegs (c : TileCfg) (gs : List (Nat × Nat × Nat)) (a b : Nat) (sc : Option Nat) (t : Nat) : List RegAt :=
  let live := gs.filter fun r => decide (r.2.1 < r.2.2)
  let row (i : Nat) : Bool := live.any fun r => decide (r.2.1 ≤ i) && decide (i < r.2.2)
  fragRegs a c.a.rk row c.m t
    ++ live.flatMap (fun r => fragRegs (b + r.1 * c.fb) c.b.rk (fun _ => true) c.n t)
    ++ (match sc with
        | some x => fragRegs x 1 row c.m t ++ live.flatMap fun r => fragRegs (x + c.sa + r.1 * c.sb) 1 (fun _ => true) c.n t
        | none => [])

/-- MMAG (R128). -/
def execMmag (h : Hdr) (d a b : Opd) (x : Option Opd) (s : State) : Host.Outcome State Fault Refusal :=
  tileWord (.mmag h d a b x) h (fun w s g c =>
    let n := 4 * c.groups
    if c.groups = 0 || (x.isSome && !c.scmode) then .trap .tcfgbad 0 w.ts []
    else if w.tm.loc < c.gtoff + n then .trap .prot 0 w.ts (w.ts.map fun t => (t, c.gtoff))
    else if (s.core w.core).sb.length == Config.sbEntries || (s.core w.core).sbHit false w.slot c.gtoff n false then
      .hold fun _ => [.entries w.core 1, .range w.core false w.slot c.gtoff n]
    else if s.scrBad w c.gtoff n then s.accessTrap w .poison (w.asReqs c.gtoff)
    else
      let bs := s.readTgt (.scr w.tref c.gtoff) n
      let gs := groupRows c.m ((List.range c.groups).map fun i => fieldLe bs (4 * i) 4) 0 0
      let covered (n : Nat) : Bool := gs.any fun r => decide (c.at' (Opd.tile d) r.2.1 0 ≤ n) && decide (n < c.at' (Opd.tile d) r.2.2 0)
      match s.readsBad w (c.groupRegs gs (w.base g a) (w.base g b) (x.map fun o => w.base g o)) covered with
      | some r => r
      | none =>
          let s := gs.foldl (fun s r =>
            let sc := x.map fun o => (w.base g o, w.base g o + c.sa + r.1 * c.sb)
            s.accumulate w g c (Opd.tile d) r.2.1 r.2.2 (w.base g a) (w.base g b + r.1 * c.fb) sc) s
          s.engineDone w) s

/-! ## Tiles and registers (R129, R130) -/

/-- MZERO (R129): one tile, or every tile. -/
def execMzero (h : Hdr) (d : Option Opd) (s : State) : Host.Outcome State Fault Refusal :=
  tileWord (.mzero h d) h (fun w s _ c =>
    let keep (e : Nat × Word) : Bool := match d with
      | some o => !(decide (c.at' (Opd.tile o) 0 0 ≤ e.1) && decide (e.1 < c.at' (Opd.tile o + 1) 0 0))
      | none => false
    let s := s.setTiles w.core ((s.core w.core).eng.tiles.filter keep)
    let hit (n : Nat) : Bool := match d with
      | some o => c.inTile (Opd.tile o) n
      | none => true
    (s.goodTiles w.core hit).engineDone w) s

/-- The rows of `mrd` and `mwr`: `OPBOUND`, or row0 (R130). -/
def Iss.row0 (w : Iss) (g : Nat) (c : TileCfg) (cols : ColCnt) (col : Nat) (b : Opd) : Option Nat :=
  let r := IType.val .i32 (w.sval g b)
  if r < 0 || (c.m : Int) ≤ r || c.n < col + cols.n then none else some r.toNat

/-- MRD (R130). -/
def execMrd (h : Hdr) (cols : ColCnt) (col : BitVec 8) (d a b : Opd) (s : State) : Host.Outcome State Fault Refusal :=
  tileWord (.mrd h cols col d a b) h (fun w s g c =>
    match w.row0 g c cols col.toNat b with
    | none => .trap .opbound 0 w.ts []
    | some r0 =>
        let e := (s.core w.core).eng
        let val (t : Nat) : Nat := packNat 32 ((List.range cols.n).map fun k =>
          if r0 + laneOf t < c.m then e.elem c (Opd.tile a) (r0 + laneOf t) (col.toNat + k) else 0)
        let read (n : Nat) : Bool := w.ts.any fun t => decide (r0 + laneOf t < c.m)
          && decide (c.at' (Opd.tile a) (r0 + laneOf t) col.toNat ≤ n)
          && decide (n < c.at' (Opd.tile a) (r0 + laneOf t) col.toNat + cols.n)
        match s.readsBad w (fun _ => []) read with
        | some r => r
        | none => .done (s.laterWrite w w.ts (w.ts.flatMap fun t => w.tm.dest t d cols.n (val t)))) s

/-- MWR (R130). -/
def execMwr (h : Hdr) (cols : ColCnt) (col : BitVec 8) (d a b : Opd) (s : State) : Host.Outcome State Fault Refusal :=
  tileWord (.mwr h cols col d a b) h (fun w s g c =>
    match w.row0 g c cols col.toNat b with
    | none => .trap .opbound 0 w.ts []
    | some r0 =>
        let tiles := (sortNat w.ts).foldl (fun tl t =>
          if r0 + laneOf t < c.m then
            (List.range cols.n).foldl (fun tl k => Tab.put (0 : Word) tl (c.at' (Opd.tile d) (r0 + laneOf t) (col.toNat + k))
              (BitVec.ofNat 32 (w.tm.val t a cols.n / 2 ^ (32 * k) % 2 ^ 32))) tl
          else tl) (s.core w.core).eng.tiles
        let hit (n : Nat) : Bool := w.ts.any fun t => decide (r0 + laneOf t < c.m)
          && decide (c.at' (Opd.tile d) (r0 + laneOf t) col.toNat ≤ n)
          && decide (n < c.at' (Opd.tile d) (r0 + laneOf t) col.toNat + cols.n)
        let src (t : Nat) : List RegAt := if r0 + laneOf t < c.m then a.regs (w.tm.xs g) t cols.n false else []
        match s.readsBad w src fun _ => false with
        | some r => r
        | none => ((s.setTiles w.core tiles).goodTiles w.core hit).engineDone w) s

/-! ## Tiles and memory (R131 to R134) -/

/-- A row cut at 64 KiB pages: offset within the row, address, bytes. -/
def rowPieces (va n : Nat) : List (Nat × Nat × Nat) :=
  let m := 65536 - va % 65536
  if n ≤ m then [(0, va, n)] else [(0, va, m), (m, va + m, n - m)]

/-- The address checks of R131 over M rows of n bytes. -/
def rowChecks (w : Iss) (loc : Bool) (a st m n : Nat) : Option (Cause × List Nat × Tab Nat) :=
  let bad : List Nat := (List.range m).filter fun i =>
    if loc then decide (w.tm.loc < a + i * st + n) else decide (2 ^ 57 < a + i * st + n)
  if a % 4 != 0 || st % 4 != 0 then some (.misalign, w.ts, w.ts.map fun t => (t, a))
  else match bad with
    | i :: _ => some (.prot, w.ts, w.ts.map fun t => (t, a + i * st))
    | [] => none

/-- What holds an access of the `mx` path: an `xfence`, a recorded range of the scratchpad that a local row overlaps, a
scoreboard with fewer free entries than the access takes, or a page of memory that a row lies in and that migrates (08
R192, R193; 09 R218; 16 R353). -/
def State.mxHolds (s : State) (w : Iss) (g need : Nat) (loc far : List (Nat × Nat)) : List HoldOn :=
  let k := s.core w.core
  (if w.tm.xfenced g .mx then [.xfence g .mx] else [])
    ++ (if Config.sbEntries < k.sb.length + need then [.entries w.core need] else [])
    ++ (loc.filter fun r => k.sbHit false w.slot r.1 r.2 false).map (fun r => .range w.core false w.slot r.1 r.2)
    ++ (((far.flatMap fun r => [r.1, r.1 + r.2 - 1]).filter fun a => s.migrating w.tm.ctx a).map fun a => .page w.tm.ctx a)

/-- Records the bounding range of local rows for an access of the `mx` path, by its name (R131; 08 R192). -/
def State.claimRows (s : State) (w : Iss) (cmd : Nat) (rows : List (Nat × Nat)) (wr : Bool) : State :=
  match rows with
  | [] => s
  | r :: rs =>
      let lo := rs.foldl (fun m x => min m x.1) r.1
      let hi := rs.foldl (fun m x => max m (x.1 + x.2)) (r.1 + r.2)
      s.modCore w.core fun k => { k with sb := k.sb ++ [k.sbEntry false w.slot lo hi wr cmd] }

/-- Translates the pieces of rows, each page once. -/
def State.rowPlaces (s : State) (w : Iss) (k : AKind) (ps : List (Nat × Nat × Nat)) :
    List ((Nat × Nat × Nat) × Found) × State :=
  let (fs, s) := State.lookupAll s w.core w.tm.ctx k 4 (ps.map fun p => { t := w.ts.headD 0, va := p.2.1, park := w.ts }) []
  (ps.zip (fs.map fun f => f.2), s)

/-- The first piece that fails, with its cause; a watch point anywhere in a piece fails it (20 R416). -/
def State.rowBad (s : State) (w : Iss) (k : AKind) (fs : List ((Nat × Nat × Nat) × Found)) : Option (Cause × Nat) :=
  fs.findSome? fun f =>
    if (s.core w.core).watched w.tm.ctx f.1.2.1 f.1.2.2 k.watchBit then some (.watch, f.1.2.1)
    else match f.2 with
      | .bad c => some (c, f.1.2.1)
      | _ => none

/-- Parks every true-guard thread of the owner on one missing page (R132, R133; 16 R350). -/
def State.parkOwner (s : State) (w : Iss) (g kind va : Nat) (uids : List (Nat × Nat)) : Nat × State :=
  let (fid, s) := s.newFault w.tm.ctx w.tm.index
    { fid := 0, kind := kind, core := w.core, slot := w.slot, wid := w.tm.wid, hg := g, va := va, mem := sortNat w.ts,
      pc := w.pc, accs := [], uids := uids, cmd := none, reissue := false, cont := w.next, accepted := 0, info := 0,
      pending := true }
  (fid, s.setState w.core w.slot w.ts (.parked fid))

/-- The places of an `mld` whose pages are all present: word of the accumulator store, place, bytes. -/
def TileCfg.places (c : TileCfg) (t a st : Nat) (at' : Nat → Tgt) : List (Nat × Tgt × Nat) :=
  (List.range c.m).flatMap fun i => (rowPieces (a + i * st) (4 * c.n)).map fun p => (c.at' t i 0 + p.1 / 4, at' p.2.1, p.2.2)

/-- MLD (R131, R132): the reads are performed later, all at one moment; a local one stands in the scoreboard until
then. -/
def execMld (h : Hdr) (loc : Bool) (ch : CHint) (d a b : Opd) (s : State) : Host.Outcome State Fault Refusal :=
  tileWord (.mld h loc ch d a b) h (fun w s g c =>
    let va := w.tm.n64 (w.lead g) a
    let st := w.sval g b
    let t := Opd.tile d
    match rowChecks w loc va st c.m (4 * c.n) with
    | some (cause, m, as) => .trap cause 0 m as
    | none =>
        let rows := (List.range c.m).map fun i => (va + i * st, 4 * c.n)
        let on := s.mxHolds w g (if loc then 1 else 0) (if loc then rows else []) (if loc then [] else rows)
        if !on.isEmpty then .hold fun _ => on
        else
          let (u, s) := s.newUid
          let mk (ps : List (Nat × Tgt × Nat)) : Pend :=
            { uid := u, ins := u, slot := w.slot, hg := g, regs := [], src := .tile w.ts t va st loc w.pc ps, issuedAt := w.now,
              missed := !loc, urgent := false, aside := false }
          let push (s : State) (ps : List (Nat × Tgt × Nat)) : State :=
            (ps.foldl (fun s p => s.portTgt w.core u p.2.1 p.2.2) s).modCore w.core fun k => { k with pends := k.pends ++ [mk ps] }
          let owes := w.ts.map fun x => (x, u)
          if loc then
            .done { s := push (s.claimRows w u rows false) (c.places t va st fun p => .scr w.tref p), owes := owes }
          else
            let ps := (List.range c.m).flatMap fun i => rowPieces (va + i * st) (4 * c.n)
            let (fs, s) := s.rowPlaces w .load ps
            match s.rowBad w .load fs with
            | some (cause, x) => s.accessTrap w cause (w.asReqs x)
            | none =>
                match fs.find? fun f => f.2 == .fault with
                | some f =>
                    if s.faultsFull w.tm.ctx 1 then .hold fun _ => [.faults 1]
                    else
                      let s := push s []
                      let (_, s) := s.parkOwner w g 0 f.1.2.1 owes
                      .done { s := s, owes := owes, jump := w.ts.map (fun x => (x, w.pc)) }
                | none =>
                    let pa (x : Nat) : Tgt := .mem (match fs.find? fun f => f.1.2.1 == x with
                      | some (_, .ok p) => p
                      | _ => 0)
                    .done { s := push s (c.places t va st pa), owes := owes }) s

/-- Scale or bias j of the epilogue: FP32 at an offset of the scratchpad. -/
def Iss.epiVal (w : Iss) (s : State) (off : Nat) : FVal := FType.decode .f32 (leNat (s.readTgt (.scr w.tref off) 4))

/-- The value of element (i, j) after scale, bias and activation (R134). -/
def Iss.epilogue (w : Iss) (s : State) (c : TileCfg) (col j bits : Nat) : FVal :=
  let v := if c.accInt then FVal.ofInt (sext 32 bits) else FType.decode .f32 bits
  let act := c.epi / 4 % 4
  let f32 (x : FVal) : FVal := FType.decode .f32 (roundRne x .f32)
  let v :=
    if c.epi % 4 != 0 then
      let sc := if c.epi.testBit 0 then w.epiVal s (c.scoff + 4 * (col + j)) else FVal.ofInt 1
      let bi := if c.epi.testBit 1 then w.epiVal s (c.bioff + 4 * (col + j)) else FVal.zero false
      f32 (FVal.sum .rne [FVal.mul v sc, bi])
    else if 2 ≤ act then f32 v
    else v
  let trans (fn : TransFn) : FVal := FType.decode .f32 (transFn fn .f32 .rne false false (roundRne v .f32) 0).1
  match act with
  | 0 => v
  | 1 => if v.isNaN then .nan else if !v.isZero && !v.sign then v else FVal.zero false
  | 2 => trans .gelu
  | _ => trans .silu

/-- The element bits of a row and its scale bytes (R134; 03 R69, R71). -/
def Iss.outRow (w : Iss) (s : State) (c : TileCfg) (t col i : Nat) : List Nat × List Nat :=
  let e := (s.core w.core).eng
  let vs := (List.range c.n).map fun j => w.epilogue s c col j (e.elem c t i j)
  match c.out with
  | .fl f =>
      if c.epi.testBit 5 then
        let bs := (List.range (c.n / 32)).map fun b => mxQuant ((vs.drop (32 * b)).take 32) f
        (bs.flatMap fun b => b.2, bs.map fun b => b.1)
      else (vs.map fun v => roundFloat v f c.rnd (c.epi.testBit 4), [])
  | .int ty => (vs.map fun v => intBits ty.w (f2i v ty c.rnd).1, [])

/-- Bytes of a packed run of elements (03 R60). -/
def packBytes (wd : Nat) (es : List Nat) : List Byte := leBytes (wd * es.length / 8) (packNat wd es)

/-- MST (R131, R133, R134): the tile is captured, its stores stand in the store queue. -/
def execMst (h : Hdr) (loc : Bool) (ch : CHint) (raw : Bool) (d a b x : Opd) (s : State) : Host.Outcome State Fault Refusal :=
  tileWord (.mst h loc ch raw d a b x) h (fun w s g c =>
    let va := w.tm.n64 (w.lead g) d
    let st := w.sval g b
    let col := w.sval g x
    let t := Opd.tile a
    let wd := if raw then 32 else c.out.w
    let n := wd * c.n / 8
    let reads : List Nat := if raw then [] else
      (if c.epi.testBit 0 then [c.scoff + 4 * col] else []) ++ (if c.epi.testBit 1 then [c.bioff + 4 * col] else [])
    let mx := !raw && c.epi.testBit 5
    let scales := if mx then [(c.mxsoff, c.m * (c.n / 32))] else []
    let rows := (List.range c.m).map fun i => (va + i * st, n)
    match rowChecks w loc va st c.m n with
    | some (cause, m, as) => .trap cause 0 m as
    | none =>
        match (reads.map fun o => (o, 4 * c.n)) ++ scales |>.filter fun r => decide (w.tm.loc < r.1 + r.2) with
        | r :: _ => .trap .prot 0 w.ts (w.ts.map fun y => (y, r.1))
        | [] =>
            let local' := (if loc then rows else []) ++ scales
            let on := s.mxHolds w g ((if loc then 1 else 0) + scales.length) local' (if loc then [] else rows) ++ (reads.filter fun o => (s.core w.core).sbHit false w.slot o (4 * c.n) false).map
              fun o => HoldOn.range w.core false w.slot o (4 * c.n)
            if !on.isEmpty then .hold fun _ => on
            else
              let e := (s.core w.core).eng
              let out (i : Nat) : List Nat × List Nat :=
                if raw then ((List.range c.n).map fun j => e.elem c t i j, []) else w.outRow s c t col i
              let data := (List.range c.m).map fun i => (i, out i)
              let bytes (r : Nat × List Nat × List Nat) : List Byte := packBytes wd r.2.1
              -- each piece with its address, its bytes and, in the scratchpad, its place
              let near (va : Nat) (bs : List Byte) : (Nat × List Byte) × Option Nat := ((va, bs), some va)
              let scaled := if mx then data.map fun r => near (c.mxsoff + r.1 * (c.n / 32)) (r.2.2.map fun v => BitVec.ofNat 8 v) else []
              let pieces := data.flatMap fun r => (rowPieces (va + r.1 * st) n).map fun p => (p, (bytes r).drop p.1 |>.take p.2.2)
              let (fs, s) := if loc then ([], s) else s.rowPlaces w .store (pieces.map fun p => p.1)
              match s.rowBad w .store fs with
              | some (cause, y) => s.accessTrap w cause (w.asReqs y)
              | none =>
                  if reads.any fun o => s.scrBad w o (4 * c.n) then s.accessTrap w .poison (w.asReqs (reads.headD 0))
                  else match s.readsBad w (fun _ => []) (c.inTile t) with
                  | some r => r
                  | none =>
                      let missing := fs.find? fun f => f.2 == .fault
                      if missing.isSome && s.faultsFull w.tm.ctx 1 then .hold fun _ => [.faults 1]
                      else
                        let (ins, s) := s.newUid
                        let (fid, s) := match missing with
                          | some f =>
                              let (fid, s) := s.parkOwner w g 4 f.1.2.1 []
                              (some fid, s)
                          | none => (none, s)
                        let place (f : Found) : Tgt := match f with
                          | .ok p => .mem p
                          | _ => .mem (2 ^ 64)
                        let qs : List ((Nat × List Byte) × Tgt × Bool) :=
                          scaled.map (fun q => (q.1, .scr w.tref q.1.1, false))
                          ++ (if loc then data.map fun r => ((va + r.1 * st, bytes r), .scr w.tref (va + r.1 * st), false)
                              else (pieces.zip fs).map fun q => ((q.1.1.2.1, q.1.2), place q.2.2, q.2.2 == .fault))
                        let (us, s) := State.newUids s qs.length
                        let es := (qs.zip us).map fun q =>
                          ({ uid := q.2, ins := ins, slot := w.slot, wid := w.tm.wid, thr := w.lead g, hg := g, path := .mx, va := q.1.1.1,
                             tgt := q.1.2.1, data := q.1.1.2, pc := w.pc, mem := w.ts, parked := if q.1.2.2 then fid else none,
                             sc := .sys, near := false, seen := false, again := false, aside := false } : SEntry)
                        let s := es.foldl (fun s e => if e.parked.isSome then s else s.portTgt w.core e.uid e.tgt e.data.length) s
                        let s := (s.claimRows w ins (if loc then rows else []) true).claimRows w ins scales true
                        let s := s.modCore w.core fun k => { k with storeQ := k.storeQ ++ es }
                        let r := s.laterWrite w w.ts []
                        if missing.isSome then .done { r with jump := w.ts.map fun y => (y, w.pc) } else .done r) s

/-! ## The grant (R116, R136) -/

/-- Releases threads of a team whose wait a test selects: they are filed at their word, or past it; where
the team is halted their prior state becomes Binned (16 R355). -/
def State.wake (s : State) (c slot : Nat) (sel : Nat → TState → Bool) (past : Bool) : State :=
  let now := (s.core c).now
  let pcOf (pc : PC) : PC := if past then BitVec.ofNat 57 (pc.toNat + 12) else pc
  s.modTeam c slot fun tm =>
    let th := tm.threads.map fun e =>
      if sel e.1 e.2.st then (e.1, { e.2 with st := .binned (now + 1), pc := pcOf e.2.pc }) else e
    let pr (p : Prior) : Prior := if sel p.thr p.st then { p with st := .binned (now + 1), pc := pcOf p.pc } else p
    { tm with threads := th, trap := tm.trap.map fun tr => { tr with prior := tr.prior.map pr } }

/-- ENGINE_GRANT (R116, R136): the handover drain ends and the head of the queue becomes owner; a restored
owner reloads its configuration and tiles, and one that had given up the engine goes on with its drain. -/
def execEngineGrant (core : Nat) (s : State) : Host.Outcome State Fault Refusal :=
  let k := s.core core
  if k.eng.owner.isSome || k.loading then .next s
  else
    match k.eng.queue with
    | [] => .next (s.modCore core fun k => { k with eng := { k.eng with drain := false } })
    | x :: q =>
        let frozen := match s.team? core x.slot with
          | some tm => tm.frozen
          | none => false
        if frozen then .next s
        else
          let over' := x.reload.any fun r => r.drained
          let e : Engine := { k.eng.line (q ++ k.eng.outside) with owner := if over' then none else some (x.slot, x.hg), drain := over' }
          let e : Engine := match x.reload with
            | some r => { e with cfg := r.cfg, tiles := r.tiles, tpoison := r.tpoison }
            | none => e
          let s := s.modCore core fun k => { k with eng := e }
          if over' then .next s
          else
          let s := s.wake core x.slot (fun t st => hgOf t == x.hg && st == .waiting .macq) true
          .next (s.wake core x.slot (fun t st => hgOf t == x.hg && st == .waiting .engine) false)

end Sys2Proof.Machine
end

