-- ==== Sys2Proof/Machine/Select.lean ====
section
/-! DEFINITION. Class 9, ops 0x00 to 0x06: the top-k sorter, the hardware work queues, and the
last-arriver election (11 R255 to R269; 17 R366, R372). -/

namespace Sys2Proof.Machine

/-! ## The sorter (R255 to R262) -/

/-- A pair precedes another in rank order (R256). Of two pairs of one index whose scores are equal, +0 and −0, the one
with the lower score bits comes first, so that the outcome does not hang on the order of the pushes (R257; log 31). -/
def rankBefore (a b : Word × Word) : Bool :=
  let c := FVal.cmp (FType.decode .f32 a.1.toNat) (FType.decode .f32 b.1.toNat)
  0 < c || (c == 0 && (decide (a.2.toNat < b.2.toNat) || (a.2 == b.2 && decide (a.1.toNat < b.1.toNat))))

/-- Places a pair behind every pair that it does not precede. -/
def rankInsert (x : Word × Word) : List (Word × Word) → List (Word × Word)
  | [] => [x]
  | y :: t => if rankBefore x y then x :: y :: t else y :: rankInsert x t

/-- One pair (R256). -/
def Sorter.push (q : Sorter) (x : Word × Word) : Sorter :=
  let nan := (FType.decode .f32 x.1.toNat).isNaN
  if 2 ^ 24 ≤ q.pushed then { q with ovf := true, nanx := q.nanx || nan }
  else if nan then { q with nanx := true }
  else { q with kept := (rankInsert x q.kept).take q.k, pushed := q.pushed + 1 }

/-- The entry of a home group among the sorter's waiters. -/
def Sorter.waiter (q : Sorter) (slot g : Nat) : Option EWait :=
  q.waiters.find? fun x => x.slot == slot && x.hg == g
/-- A restored owner that has not been granted the sorter again (R262). -/
def Sorter.reloading (q : Sorter) (slot g : Nat) : Bool :=
  match q.waiter slot g with
  | some x => x.reload.isSome
  | none => false

/-- A session starts (R259). -/
def Sorter.start (q : Sorter) (slot g k : Nat) : Sorter :=
  { q.endSession with owner := some (slot, g), k := k }

/-- `tkbeg` of one home group: the sorter, and whether it waits (R259). -/
def Sorter.acquire (q : Sorter) (slot g k : Nat) : Sorter × Bool :=
  if q.owner = some (slot, g) then (q.start slot g k, false)
  else if q.owner.isNone && q.queue.isEmpty then (q.start slot g k, false)
  else match q.waiter slot g with
    | some _ => (q, true)
    | none =>
        let x : EWait := { slot := slot, hg := g, k := k, reload := none }
        (q.line (q.waiters ++ [x]), true)

/-- The sorter is granted to the head of its queue (R259, R262); a frozen team is not granted. -/
def State.sorterGrant (s : State) (c : Nat) : State :=
  let q := (s.core c).srt
  match q.owner, q.queue with
  | none, x :: rest =>
      let frozen := match s.team? c x.slot with
        | some tm => tm.frozen
        | none => false
      if frozen then s
      else
        let q : Sorter := (q.start x.slot x.hg x.k).line (rest ++ q.outside)
        let q : Sorter := match x.reload with
          | some r => { q with kept := r.kept, pushed := r.pushed, ovf := r.ovf, nanx := r.nanx }
          | none => q
        let s := s.modCore c fun k => { k with srt := q }
        let s := s.wake c x.slot (fun t st => hgOf t == x.hg && st == .waiting .tkbeg) true
        s.wake c x.slot (fun t st => hgOf t == x.hg && st == .waiting .sorter) false
  | _, _ => s

/-- TKBEG (R259). -/
def execTkbeg (h : Hdr) (a : Opd) (s : State) : Host.Outcome State Fault Refusal :=
  runWord (.tkbeg h a) h allFall (fun w s =>
    let bad := w.hgs.filter fun g => !(1 ≤ w.sval g a && w.sval g a ≤ 2048)
    let back := w.hgs.filter fun g => (s.core w.core).srt.reloading w.slot g
    if !bad.isEmpty then .trap .opbound 0 (bad.flatMap w.of) []
    else if !back.isEmpty then .done (s.waitBefore w (back.flatMap w.of) .sorter)
    else
      let (s, late) := w.hgs.foldl (fun p g =>
        let (q, wait) := ((p.1.core w.core).srt).acquire w.slot g (w.sval g a)
        (p.1.modCore w.core fun k => { k with srt := q }, if wait then p.2 ++ w.of g else p.2)) (s, ([] : List Nat))
      if late.isEmpty then .done { s := s } else .done (s.waitAt w (late.map fun t => (t, .tkbeg)) [])) s

/-- A word of the session's owner: `PROT`, or the wait of a restored owner, or its home group (R260 to
R262). -/
def sorterWord (i : Instr) (h : Hdr) (f : Iss → State → Nat → Res) (s : State) : Host.Outcome State Fault Refusal :=
  runWord i h allFall (fun w s =>
    let q := (s.core w.core).srt
    match w.ts.filter fun t => q.owner != some (w.slot, hgOf t) with
    | [] => f w s (w.hgs.headD 0)
    | bad =>
        if w.ts.all fun t => q.reloading w.slot (hgOf t) then .done (s.waitBefore w w.ts .sorter)
        else .trap .prot 0 bad []) s

/-- TKPUSH (R260). -/
def execTkpush (h : Hdr) (a b : Opd) (s : State) : Host.Outcome State Fault Refusal :=
  sorterWord (.tkpush h a b) h (fun w s _ =>
    let q := (s.core w.core).srt
    if 128 < q.fill + w.ts.length then .hold fun _ => [.pairs w.ts.length]
    else
      let q := (sortNat w.ts).foldl (fun q t =>
        q.push (BitVec.ofNat 32 (w.tm.n32 t a), BitVec.ofNat 32 (w.tm.n32 t b))) q
      .done { s := s.modCore w.core fun k => { k with srt := { q with fill := q.fill + w.ts.length } } }) s

/-- Ascending index, pairs of one index as they stand. -/
def idxInsert (x : Word × Word) : List (Word × Word) → List (Word × Word)
  | [] => [x]
  | y :: t => if x.2.toNat < y.2.toNat then x :: y :: t else y :: idxInsert x t

/-- The status word (R261). -/
def Sorter.status (q : Sorter) : Nat :=
  q.kept.length + (if q.ovf then 2 ^ 12 else 0) + (if q.nanx then 2 ^ 13 else 0) + 2 ^ 32 * q.pushed

/-- TKEND (R261): the list is written as it issues, after what a fence or a pending `lacnt` puts before it (R269). -/
def execTkend (h : Hdr) (byidx : Bool) (d a : Opd) (s : State) : Host.Outcome State Fault Refusal :=
  sorterWord (.tkend h byidx d a) h (fun w s g =>
    let q := (s.core w.core).srt
    let off := w.sval g a
    if off % 8 != 0 then .trap .misalign 0 w.ts (w.ts.map fun t => (t, off))
    else if w.tm.loc < off + 8 * q.k then .trap .prot 0 w.ts (w.ts.map fun t => (t, off))
    else if (s.core w.core).sbHit false w.slot off (8 * q.kept.length) false then
      .hold fun _ => [.range w.core false w.slot off (8 * q.kept.length)]
    else match s.performFirst w (w.ahead s true) with
    | .error r => r
    | .ok s =>
      let ord := if byidx then q.kept.foldl (fun l x => idxInsert x l) [] else q.kept
      let s := s.writeTgt (.scr w.tref off) (ord.flatMap fun x => leBytes 4 x.2.toNat ++ leBytes 4 x.1.toNat)
      let s := (s.modCore w.core fun k => { k with srt := { k.srt.endSession with fill := q.fill } }).sorterGrant w.core
      .done (s.laterWrite w w.ts (w.tm.dest (w.lead g) d 1 q.status))) s

/-! ## Work queues (R263 to R268) -/

/-- A queue that has never been assigned. -/
def WorkQ.reset : WorkQ := { ctx := none, items := [], waiters := [] }
/-- The queue an operand names. -/
def State.wq (s : State) (v : Nat) : WorkQ := Tab.getD (s.die (v / 64 % 2)).wqs (v % 64) WorkQ.reset
def State.modWq (s : State) (v : Nat) (f : WorkQ → WorkQ) : State :=
  s.modDie (v / 64 % 2) fun d => { d with wqs := Tab.set d.wqs (v % 64) (f (Tab.getD d.wqs (v % 64) WorkQ.reset)) }
/-- The operand is well formed and names a queue assigned to the context (R263). -/
def State.wqOk (s : State) (ctx v : Nat) : Bool := v < 128 && (s.wq v).ctx == some ctx

/-- The arrival of a popping thread (17 R366, R370). -/
def Team.popArrival (tm : Team) (t v : Nat) : Arrival :=
  { kind := 2, src := 0, thr := t, grid := tm.ordinal, team := tm.index, own := none, site := v, val := 0 }

/-- Gives a waiting thread its item, by the name of its wait; the wait ends as its condition is tested. -/
def State.giveItem (s : State) (r : TRef) (t uid : Nat) (item : List Byte) : State :=
  let f (st : TState) : TState := match st with
    | .waiting (.wq q u vp dst none sc) => if u = uid then .waiting (.wq q u vp dst (some item) sc) else st
    | st => st
  s.modTeam r.core r.slot fun tm =>
    let tm := tm.modThread t fun th => { th with st := f th.st }
    { tm with trap := tm.trap.map fun tr => { tr with prior := tr.prior.map fun p =>
        if p.thr = t then { p with st := f p.st } else p } }

/-- One push: the first waiter receives the item, or it is appended while fewer than 1,024 are held
(R265, R266). -/
def State.wqPut (s : State) (v : Nat) (item : List Byte) : Bool × State :=
  let q := s.wq v
  match q.waiters with
  | (r, t, u) :: ws =>
      let s := s.modWq v fun q => { q with waiters := ws }
      let s := match s.team? r.core r.slot with
        | some tm => s.record tm.ctx (tm.popArrival t v)
        | none => s
      (true, s.giveItem r t u item)
  | [] =>
      if q.items.length < Config.wqItems then (true, s.modWq v fun q => { q with items := q.items ++ [item] })
      else (false, s)

/-- WQPUSH (R265, R268). -/
def execWqpush (h : Hdr) (sc : Scope) (d a b : Opd) (s : State) : Host.Outcome State Fault Refusal :=
  runWord (.wqpush h sc d a b) h allFall (fun w s =>
    let bad := w.ts.filter fun t => !s.wqOk w.tm.ctx (w.tm.n32 t a)
    if !bad.isEmpty then .trap .prot 0 bad []
    else
      match s.performFirst w fun y => (y.lsOf w.slot w.ts && !y.pure) || w.ahead s true y with
      | .error r => r
      | .ok s =>
          let (wr, s) := (sortNat w.ts).foldl (fun p t =>
            let (ok, s) := p.2.wqPut (w.tm.n32 t a) (leBytes 16 (w.tm.val t b 4))
            (p.1 ++ w.tm.dest t d 1 (if ok then 1 else 0), s)) (([] : List (RegAt × DWord)), s)
          .done (s.laterWrite w w.ts wr)) s

/-- What one pop comes to. -/
inductive Pop where
  | item (bs : List Byte)
  | empty
  | wait
  | turn (a : Arrival)

/-- The thread waits, for an item or for its turn. -/
def Pop.waits : Pop → Bool
  | .wait => true
  | .turn _ => true
  | _ => false
/-- The item of a pop. -/
def Pop.bytes : Pop → Option (List Byte)
  | .item bs => some bs
  | _ => none

/-- One pop of a thread: at level 3 in its turn (R266; 17 R372). -/
def State.pop (s : State) (tm : Team) (t v : Nat) (nb : Bool) : Pop × State :=
  let a := tm.popArrival t v
  let q := s.wq v
  match s.turn tm.ctx a with
  | .free => match q.items with
      | x :: xs => (.item x, (s.modWq v fun q => { q with items := xs }).record tm.ctx a)
      | [] => (if nb then .empty else .wait, s)
  | .now e => match q.items with
      | x :: xs => (.item x, (s.modWq v fun q => { q with items := xs }).consume tm.ctx a e)
      | [] => (.turn a, s)
  | .wait => (.turn a, s)
  | .none => (if nb then .empty else .turn a, s)

/-- The writes of a pop: the four registers, and the validity predicate. -/
def popWrites (dst : List RegAt) (vp : Option RegAt) (item : Option (List Byte)) : List (RegAt × DWord) :=
  dst.zip (words 4 (leNat (item.getD []))) ++ match vp with
    | some r => [(r, if item.isSome then 1 else 0)]
    | none => []

/-- WQPOP (R266, R268); accesses that a fence of the thread or a pending `lacnt` puts before it come first (R269). -/
def execWqpop (h : Hdr) (nb : Bool) (sc : Scope) (d a : Opd) (v : Option Opd) (s : State) :
    Host.Outcome State Fault Refusal :=
  runWord (.wqpop h nb sc d a v) h allFall (fun w s =>
    let bad := w.ts.filter fun t => !s.wqOk w.tm.ctx (w.tm.n32 t a)
    if !bad.isEmpty then .trap .prot 0 bad []
    else match s.performFirst w (w.ahead s false) with
    | .error r => r
    | .ok s =>
      let vp : Option Nat := match v with
        | some (.prd p) => if p.val = 0 then none else some p.val
        | _ => none
      let vr (t : Nat) : Option RegAt := vp.map fun p => RegAt.p t p
      let pops (s : State) : List (Nat × Pop) × State := (sortNat w.ts).foldl (fun p t =>
        let (r, s) := p.2.pop w.tm t (w.tm.n32 t a) nb
        (p.1 ++ [(t, r)], s)) (([] : List (Nat × Pop)), s)
      let late := (pops s).1.filter fun r => r.2.waits
      if late.isEmpty then
        -- the acquire comes before the items are taken, so that a trap of an earlier access takes none
        let took := (pops s).1.filterMap fun r => match r.2 with
          | .item _ => some r.1
          | _ => none
        match if took.isEmpty then .ok s else s.fenceWord w took sc with
        | .error r => r
        | .ok s =>
            let (rs, s) := pops s
            .done (s.laterWrite w w.ts (rs.flatMap fun r => popWrites (w.dst r.1 d 4) (vr r.1) r.2.bytes))
      else
        -- threads with no item, or not in their turn, wait; the word has no effect yet for the others
        let one (p : State × List (Nat × WaitCond) × List (Nat × Nat)) (e : Nat × Pop) :
            State × List (Nat × WaitCond) × List (Nat × Nat) :=
          match e.2 with
          | .turn a =>
              let s := match p.1.turn w.tm.ctx a with
                | .none => p.1.mismatch w.tm.ctx
                | _ => p.1
              (s, p.2.1 ++ [(e.1, .journal a)], p.2.2)
          | _ =>
              let (u, s) := p.1.newUid
              let pd : Pend := { uid := u, ins := u, slot := w.slot, hg := hgOf e.1, regs := w.dst e.1 d 4 ++ (vr e.1).toList,
                                 src := .wait, issuedAt := w.now, missed := true, urgent := false, aside := false }
              let s := s.modCore w.core fun k => { k with pends := k.pends ++ [pd] }
              let s := s.modWq (w.tm.n32 e.1 a) fun q => { q with waiters := q.waiters ++ [(w.tref, e.1, u)] }
              (s, p.2.1 ++ [(e.1, .wq (w.tm.n32 e.1 a) u vp (w.dst e.1 d 4) none sc)], p.2.2 ++ [(e.1, u)])
        let (s, ts, owes) := late.foldl one (s, [], [])
        .done (s.waitAt w ts owes)) s

/-- WQLEN (R267): the number of items as `wqlen` issues. -/
def execWqlen (h : Hdr) (d a : Opd) (s : State) : Host.Outcome State Fault Refusal :=
  runWord (.wqlen h d a) h allFall (fun w s =>
    let bad := w.hgs.filter fun g => !s.wqOk w.tm.ctx (w.sval g a)
    if !bad.isEmpty then .trap .prot 0 (bad.flatMap w.of) []
    else .done (s.laterWrite w w.ts (w.hgs.flatMap fun g => w.tm.dest (w.lead g) d 1 (s.wq (w.sval g a)).items.length))) s

/-! ## Last-arriver election (R269) -/

/-- LACNT (R269). -/
def execLacnt (h : Hdr) (sc : Scope) (d a b x : Opd) (s : State) : Host.Outcome State Fault Refusal :=
  runWord (.lacnt h sc d a b x) h allFall (fun w s =>
    let bad := w.hgs.filter fun g => w.sval g b == 0
    let rs := w.hgReqs fun t => w.tm.n64 t a
    if !bad.isEmpty then .trap .opbound 0 (bad.flatMap w.of) []
    else match checkReqs rs 4 (fun a => decide (a < 2 ^ 57)) with
      | some (c, m, as) => .trap c 0 m as
      | none =>
          match s.performFirst w fun y => (y.lsOf w.slot w.ts && !y.pure) || y.near with
          | .error r => r
          | .ok s =>
              globalAccess w s .atomic 4 rs fun r =>
                w.access r .ls 4 sc .dflt (.elect (w.sval (hgOf r.t) b) (w.dst r.t d 1) (r.park.flatMap fun t => w.dst t x 1))) s

end Sys2Proof.Machine
end

