-- ==== Sys2Proof/Machine/System.lean ====
section
/-! DEFINITION. Class 10: control registers, the handler's instructions, the resolution of page faults,
`tlbinv` and `idle`, and the writing of fault-ring entries (01 R24 to R26; 16 R341 to R358; 17 R365,
R376). -/

namespace Sys2Proof.Machine

/-! ## Control registers (01 R24, R25; 16 R343) -/

/-- The controllers of a die, as keys of `stks` (19 R399). -/
def dieStks (die : Nat) : List Nat := [4 * die, 4 * die + 1, 4 * die + 2, 4 * die + 3, 8 + die]

/-- Registers that an unprivileged context may read (R24). -/
def csrOpen (n : Nat) : Bool := n == 0 || n == 1 || n == 6

/-- The value of a control register (R343). -/
def State.csr (s : State) (w : Iss) (n : Nat) : DWord :=
  let k := s.core w.core
  let d := s.die w.die
  let x (f : Ctx → DWord) : DWord := match s.ctx? w.tm.ctx with
    | some x => f x
    | none => 0
  match n with
  | 0 => k.ctxidReg
  | 1 => x fun x => x.detlvl
  | 2 => x fun x => x.trapvec
  | 3 => k.bankWr
  | 4 => x fun x => x.rqbase
  | 5 => d.gkick
  | 6 => d.wswin
  | 7 => d.sharetab
  | _ => d.retrain

/-- CSRRD (R24, R343). -/
def execCsrrd (h : Hdr) (num : BitVec 12) (d : Opd) (s : State) : Host.Outcome State Fault Refusal :=
  runWord (.csrrd h num d) h allFall (fun w s =>
    if 8 < num.toNat then .trap .ill 0 w.ts []
    else if !w.priv && !csrOpen num.toNat then .trap .prot 0 w.ts []
    else .done (s.laterWrite w w.ts (w.hgs.flatMap fun g => w.tm.dest (w.lead g) d 1 (s.csr w num.toNat).toNat))) s

/-- The share table that a `SHARETAB` value names; none where R376 refuses it. -/
def State.shareTable (s : State) (v : Nat) : Option (List (Nat × Nat)) :=
  let n := v % 128
  let tab := v / 2 ^ 8 % 2 ^ 44 * 256
  let es := (List.range n).map fun i => leNat (s.readPa (tab + 8 * i) 8)
  let l := es.map fun e => (e % 65536, e / 65536 % 4096)
  if 64 < n || v / 128 % 2 == 1 || v / 2 ^ 52 != 0 then none
  else if es.any fun e => e / 2 ^ 28 != 0 then none
  else if l.any fun e => e.2 < 1 || 2048 < e.2 then none
  else if (dedup (l.map fun e => e.1)).length != n then none
  else if 2048 < (l.map fun e => e.2).foldl (· + ·) 0 then none
  else some l

/-- The value may be written to the register (R24, R25, R289; 17 R365, R376; 19 R399). -/
def State.csrOk (s : State) (w : Iss) (n v : Nat) : Bool :=
  match n with
  | 0 => v < 2 ^ 16
  | 1 => v < 2 && (s.csr w 1).toNat < 2
  | 2 => v % 4 == 0 && v < 2 ^ 57
  | 3 => !((List.range 32).any fun i => v / 4 ^ i % 4 == 3)
  | 4 => v % 256 == 0 && v < 2 ^ 57
  | 5 => v % 64 == 0 && v < 2 ^ 57
  | 7 => (s.shareTable v).isSome
  | 8 => v < 2 ^ 32 && (v == 0 || 1000 ≤ v)
  | _ => true

/-- A `csrwr` of `GKICK` by a home group's lane: the kick enters the queue or is held for its journal turn. -/
def State.gkick (s : State) (w : Iss) (g v : Nat) : State :=
  let s := (s.exchange (coreUnit w.core) (distUnit w.die)).modDie w.die fun d => { d with gkick := BitVec.ofNat 64 v }
  match s.kick w.tm.ctx w.die v (distArrival 6 0 (w.lead g) w.tm.ordinal w.tm.index none) none with
  | (some s, _) => s
  | (none, s) =>
      let (u, s) := s.newUid
      let q : HeldSub := { core := w.core, slot := w.slot, wid := w.tm.wid, uid := u, dst := none, bytes := [], addr := v,
                           lvl := 0, arr := distArrival 6 0 (w.lead g) w.tm.ordinal w.tm.index none }
      s.modCtx w.tm.ctx fun x => { x with heldK := x.heldK ++ [q] }

/-- Every port of a die takes a share table at its next interval (17 R376). -/
def State.setShare (s : State) (die v : Nat) : State :=
  let l := (s.shareTable v).getD []
  let s := s.modDie die fun d => { d with sharetab := BitVec.ofNat 64 v }
  { s with ports := (List.range 96).foldl (fun t i =>
      Tab.set t (96 * die + i) { Tab.getD t (96 * die + i) Port.reset with next := some l }) s.ports }

/-- The retraining interval of a die is written; its controllers count from now (19 R399). -/
def State.setRetrain (s : State) (die v : Nat) : State :=
  let s := s.modDie die fun d => { d with retrain := BitVec.ofNat 64 v }
  { s with stks := (dieStks die).foldl (fun t k =>
      Tab.set t k (let q := Tab.getD t k Stk.reset
                   { q with rtFrom := q.now, retry := [] })) s.stks }

/-- Writes a control register (R343). -/
def State.writeCsr (s : State) (w : Iss) (g n v : Nat) : State :=
  let b := BitVec.ofNat 64 v
  match n with
  | 0 => s.modCore w.core fun k => { k with ctxidReg := b }
  | 1 => s.modCtx w.tm.ctx fun x => { x with detlvl := b }
  | 2 => s.modCtx w.tm.ctx fun x => { x with trapvec := b }
  | 3 => s.modCore w.core fun k => { k with bankWr := b }
  | 4 => s.writeRqbase w.tm.ctx v
  | 5 => s.gkick w g v
  | 7 => s.setShare w.die v
  | 8 => s.setRetrain w.die v
  | _ => s

/-- CSRWR (R24, R343). -/
def execCsrwr (h : Hdr) (num : BitVec 12) (a : Opd) (s : State) : Host.Outcome State Fault Refusal :=
  runWord (.csrwr h num a) h allFall (fun w s =>
    let n := num.toNat
    let v (g : Nat) : Nat := w.tm.n64 (w.lead g) a
    let bad := w.hgs.filter fun g => !s.csrOk w n (v g)
    let gone := w.hgs.filter fun g => n == 7 && v g % 128 ≤ 64 && v g % 128 != 0
      && s.poisoned (v g / 2 ^ 8 % 2 ^ 44 * 256) (8 * (v g % 128))
    if 8 < n then .trap .ill 0 w.ts []
    else if !w.priv then .trap .prot 0 w.ts []
    else if !gone.isEmpty then .trap .poison 0 (gone.flatMap w.of) []
    else if !bad.isEmpty then .trap .ill 0 (bad.flatMap w.of) []
    else if n == 5 && 64 < s.kickQ w.die + w.hgs.length then .hold fun _ => [.kicks w.die w.hgs.length]
    else
      match if n == 5 then s.performFirst w (fun y => (y.lsOf w.slot w.ts && !y.pure) || y.near) else .ok s with
      | .error r => r
      | .ok s => .done { s := w.hgs.foldl (fun s g => s.writeCsr w g n (v g)) s }) s

/-! ## The handler's instructions (16 R356, R358) -/

/-- Entry fault of `trd` and `tret`: threads that are not handler threads. -/
def Iss.outsiders (w : Iss) : List Nat := w.ts.filter fun t => !w.tm.isHandler t

/-- A trap's mask as seen by `trd`. -/
def Trap.maskWord (tr : Trap) (n : Nat) : Nat := listToMask ((tr.req.mask.filter fun t => t / 32 == n).map fun t => t % 32)

/-- Code of a prior state (R356). -/
def TState.trdCode : TState → Nat
  | .binned _ => 0
  | .active _ => 1
  | .waiting (.collect _) => 5
  | .waiting _ => 2
  | .parked _ => 3
  | .rejoin _ => 4
  | .halted => 0
  | .exited => 6

/-- The value of a `trd` field for a handler thread; `fv` stands for the PC of a thread never launched, of
which nothing is recorded. -/
def Trap.field (tr : Trap) (f : TrdFld) (t a fv : Nat) : Nat :=
  let me := tr.prior.find? fun p => p.thr == t
  let of := tr.prior.find? fun p => p.thr == a
  let pcOf : Nat := match of with
    | some p => p.rpc.toNat
    | none => fv % 2 ^ 57
  match f with
  | .cause => tr.req.cause.code + 256 * (tr.req.code % 8192)
  | .pclo => tr.req.point.toNat % 2 ^ 32
  | .pchi => tr.req.point.toNat / 2 ^ 32
  | .mask => tr.maskWord a
  | .addrlo => Tab.getD tr.req.addrs a 0 % 2 ^ 32
  | .addrhi => Tab.getD tr.req.addrs a 0 / 2 ^ 32 % 2 ^ 32
  | .tstate => match of with
      | some p => p.rst.trdCode + 256 * p.skid
      | none => 7
  | .tpclo => pcOf % 2 ^ 32
  | .tpchi => pcOf / 2 ^ 32
  | .cyc => tr.cyc % 2 ^ 32
  | .sv => ((me.map fun (p : Prior) => p.win.getD (a % 16) 0).getD 0).toNat
  | .sp => (me.map fun (p : Prior) => p.preds.toNat % 256 / 2 * 2).getD 0
  | .sx => tr.winx.getD (a % 4) 0

/-- Selectors beyond the team (R356). -/
def TrdFld.beyond (f : TrdFld) (hgroups a : Nat) : Bool :=
  match f with
  | .mask => hgroups ≤ a
  | .addrlo | .addrhi | .tstate | .tpclo | .tpchi => 32 * hgroups ≤ a
  | _ => false

/-- TRD (R356). -/
def execTrd (h : Hdr) (f : TrdFld) (d a : Opd) (s : State) : Host.Outcome State Fault Refusal :=
  runWord (.trd h f d a) h allFall (fun w s =>
    match w.outsiders, w.tm.trap with
    | [], some tr =>
        let bad := w.ts.filter fun t => TrdFld.beyond f w.tm.hgroups (w.tm.n32 t a)
        if !bad.isEmpty then .trap .opbound 0 bad []
        else
          let (fv, s) := s.draw
          .done (s.laterWrite w w.ts (w.ts.flatMap fun t => w.tm.dest t d 1 (tr.field f t (w.tm.n32 t a) fv)))
    | bad, _ => .trap .ill 0 bad []) s

/-! ## Replays and cancels of page faults (16 R350 to R352, R357) -/

/-- A handler thread holds the fault. -/
def Team.handlerHolds (tm : Team) (fid : Nat) : Bool :=
  (match tm.trap with
   | some tr => tr.halted
   | none => false) && tm.threads.any fun e => e.2.st == .parked fid

/-- A trap for a parked sub-group, raised at once or held (R352, R357); one of a handler thread is
nested. -/
def State.parkedTrap (s : State) (f : PFault) (cause : Cause) : State :=
  let r : TrapReq := { cause := cause, code := 0, point := f.pc, mask := sortNat f.mem,
                       addrs := f.mem.map (fun t => (t, ((f.accs.find? fun a => a.thr == t).map fun a => a.va).getD f.va)),
                       kind := .parked f, hg := f.hg }
  match s.team? f.core f.slot with
  | none => s
  | some tm =>
      let nested := tm.handlerHolds f.fid
      let s := s.unpark f f.pc
      if nested then s.fatal f.core f.slot r true else s.raise f.core f.slot r f.mem

/-- A replay that finds its page still missing: a new fault, its threads parked on it. -/
def State.faultAgain (s : State) (ctx : Nat) (f : PFault) (va : Nat) : State :=
  match s.team? f.core f.slot with
  | none => s
  | some tm =>
      let (fid, s) := s.newFault ctx tm.index { f with va := va, pending := true, accepted := 0 }
      let s := s.modCore f.core fun k =>
        { k with storeQ := k.storeQ.map fun e => if e.parked = some f.fid && e.wid = f.wid then { e with parked := some fid } else e }
      s.modTeam f.core f.slot fun tm => tm.moveParked f.fid (.parked fid) f.pc

/-- A replay is under way: the threads stay Parked until its accesses, by name, are performed (R352). -/
def State.replayed (s : State) (ctx : Nat) (f : PFault) (uids : List (Nat × Nat)) : State :=
  (s.modCtx ctx fun x => { x with faults := x.faults ++ [{ f with uids := uids, pending := false, accepted := 3 }] }).endReplays f.core

/-- A parked access is in flight again under its name (10 R249, R251). -/
def State.sendAgain (s : State) (f : PFault) (a : Access) (pa : Nat) : State :=
  let g := Tgt.mem pa
  let uid := ((f.uids.find? fun u => u.1 == a.thr).map fun u => u.2).getD 0
  let s := s.portTgt f.core uid g a.size
  match a.act with
  | .store data => s.modCore f.core fun k => { k with storeQ := k.storeQ ++
      [{ uid := uid, ins := f.info, slot := f.slot, wid := f.wid, thr := a.thr, hg := f.hg, path := a.path, va := a.va, tgt := g,
         data := data, pc := a.pc, mem := f.mem, parked := none, sc := a.sc, near := false, seen := false, again := false, aside := false }] }
  | _ => s.modCore f.core fun k =>
      if (k.pend? uid).isSome then { k with pends := k.pends.map fun p => if p.uid = uid then { p with src := .load a g } else p }
      else { k with pends := k.pends ++
        [{ uid := uid, ins := f.info, slot := f.slot, hg := f.hg, regs := [], src := .load a g, issuedAt := k.now, missed := true,
           urgent := false, aside := false }] }

/-- Replays the accesses of a sub-group. -/
def State.replayAccs (s : State) (ctx : Nat) (f : PFault) : State :=
  let k : AKind := match f.kind with
    | 0 => .load
    | 1 => .store
    | _ => .atomic
  let size := (f.accs.map fun a => a.size).headD 1
  let (fs, s) := State.lookupAll s f.core ctx k size (f.accs.map fun a => { t := a.thr, va := a.va, park := [a.thr] }) []
  match foundBad fs with
  | some (c, _) => s.parkedTrap f c
  | none =>
      match fs.find? fun e => e.2 == .fault with
      | some e => s.faultAgain ctx f e.1.va
      | none =>
          let ps := (f.accs.zip fs).filterMap fun e => match e.2.2 with
            | .ok pa => some (e.1, pa)
            | _ => none
          let isSt (a : Access) : Bool := match a.act with
            | .store _ => true
            | _ => false
          if ps.any fun e => !isSt e.1 && s.badTgt (.mem e.2) size then s.parkedTrap f .poison
          else if s.replaying ctx && f.accs.any fun a => a.act.journaled then
            -- at level 3 the word issues again for its threads, and waits for its turn there
            (s.abandon f.core f.slot (f.uids.map fun u => u.2)).unpark f f.pc
          else
            let s := ps.foldl (fun s e => s.sendAgain f e.1 e.2) s
            (f.uids.foldl (fun s u => s.performAcc f.core u.2) s).replayed ctx f f.uids

/-- Replays the stores of an `mst` (05 R133). -/
def State.replayStores (s : State) (ctx : Nat) (f : PFault) : State :=
  let es := (s.core f.core).storeQ.filter fun e => e.parked == some f.fid && e.wid == f.wid
  let (fs, s) := State.lookupAll s f.core ctx .store 4 (es.map fun e => { t := e.thr, va := e.va, park := f.mem }) []
  match foundBad fs with
  | some (c, _) => s.parkedTrap f c
  | none =>
      match fs.find? fun e => e.2 == .fault with
      | some e => s.faultAgain ctx f e.1.va
      | none =>
          let place (e : SEntry) : SEntry := match (es.zip fs).find? fun x => x.1.uid == e.uid with
            | some (_, _, .ok pa) => { e with tgt := .mem pa, parked := none }
            | _ => e
          let s := s.modCore f.core fun k => { k with storeQ := k.storeQ.map place }
          let s := es.foldl (fun s e => s.portTgt f.core e.uid (place e).tgt e.data.length) s
          s.replayed ctx f (es.map fun e => (e.thr, e.uid))

/-- The tile configuration of an owner, or of a restored one that waits for its reload. -/
def Core.confOf (k : Core) (slot hg : Nat) : Option TileCfg :=
  if k.eng.owner = some (slot, hg) then k.eng.conf
  else match k.eng.returning slot hg with
    | some r => r.cfg.bind TileCfg.ofBytes
    | none => k.eng.conf

/-- Replays the reads of an `mld` (05 R132). -/
def State.replayTile (s : State) (ctx : Nat) (f : PFault) (p : Pend) : State :=
  match p.src, (s.core f.core).confOf f.slot f.hg with
  | .tile thr til base st _ _ _, some c =>
      let ps := (List.range c.m).flatMap fun i => rowPieces (base + i * st) (4 * c.n)
      let (fs, s) := State.lookupAll s f.core ctx .load 4 (ps.map fun q => { t := thr.headD 0, va := q.2.1, park := thr }) []
      match foundBad fs with
      | some (cause, _) => s.parkedTrap f cause
      | none =>
          match fs.find? fun e => e.2 == .fault with
          | some e => s.faultAgain ctx f e.1.va
          | none =>
              let pa (x : Nat) : Tgt := .mem (match fs.find? fun e => e.1.va == x with
                | some (_, .ok a) => a
                | _ => 0)
              let pl := c.places til base st pa
              if pl.any fun q => s.badTgt q.2.1 q.2.2 then s.parkedTrap f .poison
              else
                let put (q : Pend) : Pend := match q.src with
                  | .tile thr til base st loc pc _ => if q.uid = p.uid then { q with src := .tile thr til base st loc pc pl } else q
                  | _ => q
                let s := s.modCore f.core fun k => { k with pends := k.pends.map put }
                let s := pl.foldl (fun s q => s.portTgt f.core p.uid q.2.1 q.2.2) s
                (s.performTile f.core (put p)).replayed ctx f [(thr.headD 0, p.uid)]
  | _, _ => s.unpark f f.cont

/-- A word that issues again, or a fetch: its page is looked up first, so that its threads stay Parked where the page is
still missing, and a failure is a replay trap (R352). -/
def State.reissueFault (s : State) (ctx : Nat) (f : PFault) : State :=
  let k : AKind := match f.kind with
    | 0 => .load
    | 1 => .store
    | 2 => .atomic
    | _ => .fetch
  let (fs, s) := State.lookupAll s f.core ctx k 1 [{ t := f.mem.headD 0, va := f.va, park := f.mem }] []
  match fs with
  | (_, .fault) :: _ => s.faultAgain ctx f f.va
  | (_, .bad c) :: _ => s.parkedTrap f c
  | (_, .ok pa) :: _ => if f.kind = 5 && s.poisoned pa 1 then s.parkedTrap f .poison else s.unpark f f.pc
  | [] => s

/-- Replays a fault's parked accesses (R352). -/
def State.replayFault (s : State) (ctx : Nat) (f : PFault) : State :=
  match f.cmd with
  | some id => s.modCmd f.core id fun d => { d with fault := none }
  | none =>
      if f.reissue then s.reissueFault ctx f
      else if f.kind = 4 then s.replayStores ctx f
      else match f.uids.findSome? fun u => (s.core f.core).pends.find? fun p => p.uid == u.2 && (match p.src with
          | .tile _ _ _ _ _ _ _ => true
          | _ => false) with
        | some p => s.replayTile ctx f p
        | none => s.replayAccs ctx f

/-- Cancels a fault: `FATALPAGE` (R352). -/
def State.cancelFault (s : State) (f : PFault) : State :=
  match f.cmd with
  | some id => (s.modCmd f.core id fun d => { d with fault := none }).cmdError f.core id .fatalpage
  | none =>
      let s := s.dropParked f.core f.fid f.wid
      s.parkedTrap { f with reissue := f.reissue || f.kind == 4 } .fatalpage

/-- The effect of an accepted fault. -/
def State.applyFault (s : State) (ctx : Nat) (f : PFault) (rep : Bool) : State :=
  if rep then s.replayFault ctx f else s.cancelFault f

/-- The replay that `tret` performs for the threads of a `FATALPAGE` or a replay trap (R357). -/
def State.resumeParked (ctx : Nat) (s : State) (f : PFault) : State :=
  let mem := match s.team? f.core f.slot with
    | some tm => f.mem.filter fun t => !tm.exited t
    | none => []
  (s.setState f.core f.slot mem (.parked f.fid)).replayFault ctx f

/-- Accepts a fault, or gives the status that refuses it (R352). For an evicted or frozen team the effect
waits for the restore. -/
def State.accept (s : State) (ctx fid : Nat) (rep : Bool) : Nat × State :=
  match s.ctx? ctx with
  | none => (2, s)
  | some x =>
      if x.cst = 0 || x.cst = 4 then (2, s)
      else
        match x.faults.find? fun f => f.fid == fid && f.pending with
        | none => (1, s)
        | some f =>
            let away := x.saved.any (fun t => t.team.wid == f.wid)
              || (match s.team? f.core f.slot with
                  | some tm => tm.frozen && tm.wid == f.wid
                  | none => false)
            if away then
              (0, s.modCtx ctx fun x => { x with faults := x.faults.map fun g =>
                if g.fid = fid then { g with pending := false, accepted := if rep then 1 else 2 } else g })
            else
              let s := s.modCtx ctx fun x => { x with faults := x.faults.filter fun g => g.fid != fid }
              (0, s.applyFault ctx f rep)

/-- A word of a privileged context, once for each home group, with a status (R341, R352). -/
def faultWord (i : Instr) (h : Hdr) (d a b : Opd) (rep : Bool) (s : State) : Host.Outcome State Fault Refusal :=
  runWord i h allFall (fun w s =>
    if !w.priv then .trap .prot 0 w.ts []
    else
      let (wr, s) := w.hgs.foldl (fun p g =>
        let (v, s) := State.accept p.2 (w.tm.n32 (w.lead g) a) (w.tm.n32 (w.lead g) b) rep
        (p.1 ++ w.tm.dest (w.lead g) d 1 v, s)) (([] : List (RegAt × DWord)), s)
      .done (s.laterWrite w w.ts wr)) s

/-- FLTREP (R352). -/
def execFltrep (h : Hdr) (d a b : Opd) (s : State) : Host.Outcome State Fault Refusal :=
  faultWord (.fltrep h d a b) h d a b true s
/-- FLTCANCEL (R352). -/
def execFltcancel (h : Hdr) (d a b : Opd) (s : State) : Host.Outcome State Fault Refusal :=
  faultWord (.fltcancel h d a b) h d a b false s

/-- Loads and atomics of a handler that cannot be performed yet: they wait in a port (17 R375), or their target's scoreboard
holds them (08 R193). -/
def State.handlerLeft (s : State) (c slot : Nat) : List Nat :=
  match (s.team? c slot).bind fun tm => tm.trap with
  | none => []
  | some tr => (((s.completeIssued c slot).core c).outs.filter fun y =>
      y.slot == slot && !y.isSt && !y.stuck && decide (tr.uid0 ≤ y.uid)).map fun y => y.uid

/-- The end of a handler: what it has issued is written and performed, which holds the word until it can be (04 R113), then
the team returns (R358); the word counts as issued. -/
def tretWord (i : Instr) (h : Hdr) (left : Iss → State → List Nat) (f : Iss → State → State) (s : State) : Host.Outcome State Fault Refusal :=
  runWord i h allFall (fun w s =>
    match w.outsiders with
    | [] =>
        if !(left w s).isEmpty then .hold fun _ => [.accs (left w s)]
        else
        let s := f w s
        let s := s.modCore w.core fun k => { k with issued := k.issued ++ [(w.gid, w.pc, w.share)] }
        .done { s := s, stay := w.mem }
    | bad => .trap .ill 0 bad []) s

/-- TRET (R358). -/
def execTret (h : Hdr) (s : State) : Host.Outcome State Fault Refusal :=
  tretWord (.tret h) h (fun w s => s.handlerLeft w.core w.slot) (fun w s =>
    (s.completeIssued w.core w.slot).endTrap w.core w.slot false (State.resumeParked w.tm.ctx)) s
/-- TRET_SKIP (R358). -/
def execTretSkip (h : Hdr) (s : State) : Host.Outcome State Fault Refusal :=
  tretWord (.tretSkip h) h (fun w s => s.handlerLeft w.core w.slot) (fun w s =>
    (s.completeIssued w.core w.slot).endTrap w.core w.slot true (State.resumeParked w.tm.ctx)) s
/-- TRET_KILL (R358, R363). -/
def execTretKill (h : Hdr) (s : State) : Host.Outcome State Fault Refusal :=
  tretWord (.tretKill h) h (fun _ _ => []) (fun w s => s.killTeam w.core w.slot) s

/-! ## tlbinv (16 R349, R353) -/

/-- Accesses in flight of a context whose translation is discarded, those that a trap has set aside and those that were saved
among them, as (core, name): those of a page, or all of them. -/
def State.translated (s : State) (ctx : Nat) (hit : Nat → Bool) : List (Nat × Nat) :=
  let pend (conf : Pend → Option TileCfg) (p : Pend) : Bool := match p.src with
    | .load a (.mem _) => hit a.va
    | .tile _ _ b st loc _ (_ :: _) => !loc && (match conf p with
        | some c => (List.range c.m).any fun i => (rowPieces (b + i * st) (4 * c.n)).any fun q => hit q.2.1
        | none => hit b)
    | _ => false
  let store (q : SEntry) : Bool := match q.tgt with
    | .mem _ => q.parked.isNone && hit q.va
    | _ => false
  (s.cores.flatMap fun e =>
    let mine (slot : Nat) : Bool := match Tab.get? e.2.teams slot with
      | some tm => tm.ctx == ctx
      | none => false
    ((e.2.pends.filter fun p => mine p.slot && pend (fun p => e.2.confOf p.slot p.hg) p).map fun p => (e.1, p.uid))
      ++ (e.2.storeQ.filter fun q => mine q.slot && store q).map fun q => (e.1, q.uid))
    ++ (match s.ctx? ctx with
        | some x => x.saved.flatMap fun q => ((q.pends.filter (pend fun _ => q.eng.bind Engine.conf)).map (fun p => p.uid)
            ++ (q.stores.filter store).map (fun e => e.uid)).map fun u => (q.core, u)
        | none => [])

/-- A command of a home group that only waits: its handle, and the state with it. -/
def State.orderKind (s : State) (w : Iss) (g : Nat) (k : CmdKind) (rest : List (Nat × Nat)) : DWord × State :=
  s.order w g { kind := k, obj := none, rest := rest, claims := [], path := .ls }

/-- `tlbinv.va` and `tlbinv.ctx` (R349): `sel` gives for a home group the translations and accesses meant. -/
def tlbinvWord (i : Instr) (h : Hdr) (d a : Opd) (sel : Iss → Nat → (TlbEntry → Bool) × (State → Nat → Nat → Bool)) (s : State) :
    Host.Outcome State Fault Refusal :=
  runWord i h allFall (fun w s =>
    if !w.priv then .trap .prot 0 w.ts []
    else if Config.cmdSlots < (s.core w.core).cmds.length + w.hgs.length then .hold fun _ => [.cmds w.hgs.length]
    else
      match s.performFirst w fun y => (y.lsOf w.slot w.ts && !y.pure) || y.near with
      | .error r => r
      | .ok s =>
          let (wr, s) := w.hgs.foldl (fun p g =>
            let s := p.2
            let ctx := w.tm.n32 (w.lead g) a
            let (ent, acc) := sel w g
            let after := s.translated ctx (acc s ctx)
            let s := s.flushTlb fun t => t.ctx == ctx && ent t
            let (hv, s) := s.orderKind w g (.tlbinv after) []
            (p.1 ++ w.tm.dest (w.lead g) d 1 hv.toNat, s)) (([] : List (RegAt × DWord)), s)
          .done (s.laterWrite w w.ts wr)) s

/-- Some TLB holds a 2 MiB translation of the page of an address. -/
def State.bigPage (s : State) (ctx va : Nat) : Bool :=
  let big (l : List TlbEntry) : Bool := l.any fun t => t.ctx == ctx && t.size != 65536 && t.va ≤ va && va < t.va + t.size
  (s.cores.any fun e => big e.2.tlb) || s.ctlb.any fun e => big e.2

/-- TLBINV_VA (R349): the page of the address, of either size. -/
def execTlbinvVa (h : Hdr) (d a b : Opd) (s : State) : Host.Outcome State Fault Refusal :=
  tlbinvWord (.tlbinvVa h d a b) h d a (fun w g =>
    let va := w.tm.n64 (w.lead g) b
    (fun t => decide (t.va ≤ va) && decide (va < t.va + t.size),
     fun s ctx x => x / 65536 == va / 65536 || (s.bigPage ctx va && x / 2097152 == va / 2097152))) s
/-- TLBINV_CTX (R349). -/
def execTlbinvCtx (h : Hdr) (d a : Opd) (s : State) : Host.Outcome State Fault Refusal :=
  tlbinvWord (.tlbinvCtx h d a) h d a (fun _ _ => (fun _ => true, fun _ _ _ => true)) s

/-- The migration a descriptor asks for: none where R353 ends it failed at once. -/
def State.migOf (s : State) (ctx : Nat) (bs : List Byte) : Option (CmdKind × Nat) :=
  let va := fieldLe bs 0 8
  let dpa := fieldLe bs 8 8
  match s.ctx? ctx with
  | none => none
  | some x =>
      match s.walk va 4 x.root with
      | .leaf l =>
          if fieldLe bs 16 16 != 0 || 2 ^ 57 ≤ va || va % l.size != 0 || dpa % l.size != 0 then none
          else some (.mig ctx va dpa l.size l.at', l.size)
      | _ => none

/-- TLBINV_MIG (R353): the descriptor is read as an `ls` load; the page moves later. A missing leaf or a reserved bit ends
the handle failed, and nothing else changes. -/
def execTlbinvMig (h : Hdr) (d a b : Opd) (s : State) : Host.Outcome State Fault Refusal :=
  runWord (.tlbinvMig h d a b) h allFall (fun w s =>
    if !w.priv then .trap .prot 0 w.ts []
    else if Config.cmdSlots < (s.core w.core).cmds.length + w.hgs.length then .hold fun _ => [.cmds w.hgs.length]
    else
      match s.performFirst w fun y => (y.lsOf w.slot w.ts && !y.pure) || y.near with
      | .error r => r
      | .ok s =>
          recordWord w s .load 32 32 (w.hgReqs fun t => w.tm.n64 t b) fun s good =>
            let (wr, s) := good.foldl (fun p e =>
              let g := hgOf e.1.t
              let ctx := w.tm.n32 e.1.t a
              match State.migOf p.2 ctx (p.2.readPa e.2 32) with
              | some (k, n) =>
                  let s := p.2.flushTlb fun t => t.ctx == ctx && (match k with
                    | .mig _ va _ size _ => t.va / size == va / size
                    | _ => false)
                  let (hv, s) := s.orderKind w g k [(0, n)]
                  (p.1 ++ w.tm.dest e.1.t d 1 hv.toNat, s)
              | none =>
                  let id := p.2.uid
                  let (hv, s) := p.2.orderKind w g .done [(0, 1)]
                  (p.1 ++ w.tm.dest e.1.t d 1 hv.toNat, s.cmdEnd w.core id 3 Cause.prot.code)) (([] : List (RegAt × DWord)), s)
            .done (s.laterWrite w (good.flatMap fun e => e.1.park) wr)) s

/-! ## idle (16 R344) and the fault ring (16 R351) -/

/-- IDLE (R344). -/
def execIdle (h : Hdr) (a : Opd) (s : State) : Host.Outcome State Fault Refusal :=
  runWord (.idle h a) h allFall (fun w s =>
    let late := w.ts.filter fun t => w.tm.n32 t a != 0
    if late.isEmpty then .done { s := s }
    else .done (s.waitAt w (late.map fun t => (t, .idle (w.tm.n32 t a) false)) [])) s

/-- An entry written ends the `idle` waits of privileged contexts, those of frozen and saved teams too, which go on at
their restore (R362). -/
def State.wakeIdle (s : State) : State :=
  let up (st : TState) : TState := match st with
    | .waiting (.idle n _) => .waiting (.idle n true)
    | st => st
  let team (tm : Team) : Team :=
    { tm with threads := tm.threads.map (fun th => (th.1, { th.2 with st := up th.2.st }))
              trap := tm.trap.map fun tr => { tr with prior := tr.prior.map fun p => { p with st := up p.st } } }
  let priv (c : Nat) : Bool := match s.ctx? c with
    | some x => x.priv
    | none => false
  let one (t : Nat × Team) : Nat × Team := if priv t.2.ctx then (t.1, team t.2) else t
  let ctx (x : Ctx) : Ctx := if x.priv then { x with saved := x.saved.map fun q => { q with team := team q.team } } else x
  { s with cores := s.cores.map (fun e => (e.1, { e.2 with teams := e.2.teams.map one })), ctxs := s.ctxs.map fun e => (e.1, ctx e.2) }

/-- FAULT_RING_ENTRY_WRITE (R351): the oldest entry not yet written goes to the ring, then the tail; with
the ring full the count of held faults is written. A header with a reserved byte set, of which R351 says nothing and
which 00 R6 lets nobody ignore, takes no entry, as a full ring does (log 23). -/
def execFaultRingEntryWrite (ctx : Nat) (s : State) : Host.Outcome State Fault Refusal :=
  match s.ctx? ctx with
  | none => .next s
  | some x =>
      match x.ringQ with
      | [] => .next s
      | e :: rest =>
          let head := leNat (s.readPa (x.fqbase + 4) 4)
          let used := if leNat (s.readPa (x.fqbase + 12) 52) = 0 then (x.ringTail + 2 ^ 32 - head) % 2 ^ 32 else x.fqsz
          if x.cst != 1 && x.cst != 2 then .next s
          else if x.fqsz ≤ used then .next (s.writePa (x.fqbase + 8) (leBytes 4 x.ringQ.length))
          else
            let s := s.writePa (x.fqbase + 64 + 32 * (x.ringTail % x.fqsz)) e
            let tail := (x.ringTail + 1) % 2 ^ 32
            let s := s.writePa x.fqbase (leBytes 4 tail)
            let s := s.writePa (x.fqbase + 8) (leBytes 4 (if x.fqsz ≤ used + 1 then rest.length else 0))
            .next (s.modCtx ctx fun x => { x with ringQ := rest, ringTail := tail }).wakeIdle

end Sys2Proof.Machine
end

