-- ==== Sys2Proof/Machine/Packets.lean ====
section
/-! DEFINITION. The packets of the command rings (13 R295, R296, R425; 17 R368, R374; 16 R339). -/

namespace Sys2Proof.Machine

/-- No core of a running context lies on a halted die (20 R408). -/
def State.alive (s : State) (x : Ctx) : Bool := x.cst == 1 && x.coreList.all fun c => (s.die (c / 96)).halted == 0

/-- The next packet of a context's ring, its number and bytes: none while the ring is empty, stopped, or behind
a `WAIT`, a `SETDET` or a `WSLOAD` (R295, R296). -/
def State.headPkt (s : State) (ctx : Nat) : Option (Nat × List Byte) :=
  match s.ctx? ctx with
  | none => none
  | some x =>
      let r := x.ring
      if !s.alive x || r.rd == r.wr || r.stopped.isSome || r.wait.isSome || r.setdet.isSome || r.ws.isSome then none
      else some (r.rd, s.readPa (x.cqbase + 64 * (r.rd % x.cqsz)) 64)

/-- A `SETDET`, a `WSLOAD` and a `SIGNAL` behave as if `wait` were set (R296). -/
def pktWaits (b : List Byte) : Bool := fieldLe b 1 1 == 1 || fieldLe b 0 1 == 3 || fieldLe b 0 1 == 4 || fieldLe b 0 1 == 5

/-- Every `rsv` bit of a packet is zero, its type is assigned, and a `WSLOAD` is permitted (R296, R368). Bits
[7:1] of byte 1, the bytes that no row lists, and a `WSLOAD` or `SETDET` whose values have no meaning are refused so too (log 40). -/
def pktOk (b : List Byte) (priv : Bool) : Bool :=
  let f := fieldLe b
  let z (o n : Nat) : Bool := f o n == 0
  f 1 1 < 2 && z 2 6 && (match f 0 1 with
    | 1 => f 8 8 % 64 == 0 && f 8 8 < 2 ^ 57 && f 16 1 < 2 && z 17 47
    | 2 => f 24 1 < 2 && z 25 39
    | 3 => priv && f 24 1 < 2 && z 25 39 && f 16 4 % 64 == 0 && f 20 4 % 64 == 0 && f 16 4 + f 20 4 ≤ Config.weightBytes
    | 4 => f 8 1 < 4 && z 9 7 && z 24 40
    | 5 => z 24 40
    | 6 => z 24 40
    | _ => false)

/-- The queue stops at a packet and reports its index (R296). -/
def State.stopPkt (s : State) (ctx n : Nat) : State :=
  (s.modCtx ctx fun x => { x with ring := { x.ring with stopped := some n } }).ero 6 0 0 12 ctx n

/-- A packet starts: the device writes `cqrd` (16 R339). -/
def State.startPkt (s : State) (ctx n : Nat) : State :=
  let rd := (n + 1) % 2 ^ 32
  let s := s.modCtx ctx fun x => { x with ring := { x.ring with rd := rd, open_ := x.ring.open_ ++ [n] } }
  s.writePa (s.ctxEntry ctx + 104) (leBytes 4 rd)

/-- The head packet where it is of a type and may start now: an invalid one stops the queue. -/
def packet (ctx type : Nat) (f : State → Nat → List Byte → State) (s : State) : Host.Outcome State Fault Refusal :=
  match s.headPkt ctx, s.ctx? ctx with
  | some (n, b), some x =>
      if fieldLe b 0 1 != type then .next s
      else if !pktOk b x.priv then .next (s.stopPkt ctx n)
      else if pktWaits b && !x.ring.open_.isEmpty then .next s
      else .next (f s n b)
  | _, _ => .next s

/-- KICK (R289, R296): a `GKICK` write on the packet's die. -/
def execKick (ctx : Nat) (s : State) : Host.Outcome State Fault Refusal :=
  packet ctx 1 (fun s n b =>
    let die := fieldLe b 16 1
    let a := distArrival 6 1 0 0 0 (some n)
    if 64 ≤ s.kickQ die || (s.die die).halted != 0 then s
    else match (s.startPkt ctx n).kick ctx die (fieldLe b 8 8) a (some n) with
      | (some s, _) => s
      | (none, _) => (s.kick ctx die (fieldLe b 8 8) a (some n)).2) s

/-- LAUNCH (R284, R296): the status byte is written when the launch is decided. The launch enters the named die's queue,
and starts only once that has a place: `QFULL` is for a device-side launch (log 34). The record is
read where the packet says, aligned or not (log 40). -/
def execLaunchPacket (ctx : Nat) (s : State) : Host.Outcome State Fault Refusal :=
  packet ctx 2 (fun s n b =>
    let die := fieldLe b 24 1
    let lvl := match s.ctx? ctx with
      | some x => x.detlvl.toNat
      | none => 0
    let addr := fieldLe b 8 8
    let status (s : State) (v : Nat) : State := s.distWrite ctx die (fieldLe b 16 8) (leBytes 1 v)
    if (s.die die).halted != 0 || s.queueFull die then s
    else match s.vread ctx addr 64 with
      | .error _ => ((status ((s.startPkt ctx n).ero 6 die 0 12 ctx addr) 1)).finishPkt ctx n
      | .ok r =>
          match s.submit ctx die lvl r addr (distArrival 5 1 0 0 0 (some n)) none (some (ctx, n)) false with
          | .held s => s
          | .refused c s => (status (s.startPkt ctx n) c).finishPkt ctx n
          | .ok gid s => (status (s.startPkt ctx n) 0).enqueue die gid) s

/-- No kernel of any context runs on a die. -/
def State.dieIdle (s : State) (die : Nat) : Bool := s.cores.all fun e => e.1 / 96 != die || e.2.teams.isEmpty

/-- WSLOAD (R296): waits until no kernel runs on the die, then starts and loads the weight store. -/
def execWsload (ctx : Nat) (s : State) : Host.Outcome State Fault Refusal :=
  match s.ctx? ctx with
  | none => .next s
  | some x =>
      match x.ring.ws with
      | some (n, src, off, len, die) =>
          if !s.alive x || !s.dieIdle die || (s.die die).halted != 0 then .next s
          else
            let clear (s : State) : State := s.modCtx ctx fun x => { x with ring := { x.ring with ws := none } }
            match s.vread ctx src len with
            | .error _ => .next ((clear s).stopPkt ctx n)
            | .ok bs =>
                let s := ((clear s).startPkt ctx n).modDie die fun d =>
                  { d with weights := Memory.writeN d.weights off bs
                           wpoison := d.wpoison.filter fun l => !(off ≤ l && l < off + len) }
                .next (s.finishPkt ctx n)
      | none =>
          packet ctx 3 (fun s n b =>
            s.modCtx ctx fun x => { x with ring :=
              { x.ring with ws := some (n, fieldLe b 8 8, fieldLe b 16 4, fieldLe b 20 4, fieldLe b 24 1) } }) s

/-- A journal descriptor that obeys R369, for a level. -/
def jrnOk (d : List Byte) (addr lvl : Nat) : Bool :=
  let f := fieldLe d
  addr % 64 == 0 && f 0 8 % 64 == 0 && f 0 8 < 2 ^ 57 && f 8 4 != 0 && (lvl != 3 || f 12 4 ≤ f 8 4) && f 22 42 == 0

/-- The checks of R368: the new journal, or a refusal. -/
def State.newJournal (s : State) (ctx lvl addr : Nat) : Option Jrn :=
  if lvl < 2 then (if addr = 0 then some { Jrn.reset with lvl := lvl } else none)
  else if addr = 0 then none
  else match s.vread ctx addr 64 with
    | .error _ => none
    | .ok d =>
        if jrnOk d addr lvl then
          some { Jrn.reset with desc := addr, lvl := lvl, base := fieldLe d 0 8, cap := fieldLe d 8 4,
                                cnt := if lvl = 3 then fieldLe d 12 4 else 0 }
        else none

/-- Closes a segment: what is left of its count or position is written, then `jstat` (R374); a failed access leaves 4
there (R371). -/
def State.closeJournal (s : State) (ctx : Nat) (j : Jrn) : State :=
  if j.lvl < 2 then s
  else
    let last := if j.lvl = 2 then s.vput ctx (j.desc + 12) 4 j.cnt else s.vput ctx (j.desc + 16) 4 j.pos
    match last with
    | .error _ => s.jrnStat ctx 4
    | .ok s => if j.stat = 2 ∨ j.stat = 4 then s else s.jrnStat ctx 1

/-- Opens a segment at a level (R374); a failed access sets `jstat` 4 (R371). -/
def State.openJournal (s : State) (ctx : Nat) (j : Jrn) : State :=
  let s := s.modCtx ctx fun x => { x with detlvl := BitVec.ofNat 64 j.lvl, jrn := j }
  if j.lvl < 2 then s
  else
    let first : Except Cause State := do
      let s ← s.vput ctx (j.desc + 21) 1 j.lvl
      let s ← s.vput ctx (j.desc + (if j.lvl = 2 then 12 else 16)) 4 0
      s.vput ctx (j.desc + 20) 1 0
    match first with
    | .ok s => s
    | .error _ => s.jrnStat ctx 4

/-- SETDET (R374): starts behind every earlier packet, holds Meridian, waits for steps and grids in flight,
closes the segment and opens the next. -/
def execSetdet (ctx : Nat) (s : State) : Host.Outcome State Fault Refusal :=
  match s.ctx? ctx with
  | none => .next s
  | some x =>
      match x.ring.setdet with
      | some (n, j) =>
          if !s.alive x || x.mer.flying || x.mer.begun || s.grids.any fun g => g.2.ctx == ctx then .next s
          else if x.jrn.lvl = 3 ∧ x.jrn.pos < x.jrn.cnt then .next (s.mismatch ctx)
          else
            let s := s.closeJournal ctx x.jrn
            let s := s.modCtx ctx fun x => { x with ring := { x.ring with setdet := none } }
            .next ((s.openJournal ctx j).finishPkt ctx n)
      | none =>
          packet ctx 4 (fun s n b =>
            match s.newJournal ctx (fieldLe b 8 1) (fieldLe b 16 8) with
            | none => s.stopPkt ctx n
            | some j => (s.startPkt ctx n).modCtx ctx fun x => { x with ring := { x.ring with setdet := some (n, j) } }) s

/-- SIGNAL (R296, R425). -/
def execSignal (ctx : Nat) (s : State) : Host.Outcome State Fault Refusal :=
  packet ctx 5 (fun s n b =>
    match s.vwrite ctx (fieldLe b 8 8) ((b.drop 16).take 8) with
    | .ok s => (s.startPkt ctx n).finishPkt ctx n
    | .error _ => (s.discarded ctx (fieldLe b 8 8) 8).stopPkt ctx n) s

/-- WAIT (R296, R425): later packets start once the word is at least the value. -/
def execWait (ctx : Nat) (s : State) : Host.Outcome State Fault Refusal :=
  match s.ctx? ctx with
  | none => .next s
  | some x =>
      match x.ring.wait with
      | some (n, addr, v) =>
          if !s.alive x then .next s
          else match s.vget ctx addr 8 with
            | .error _ => .next ((s.modCtx ctx fun x => { x with ring := { x.ring with wait := none } }).stopPkt ctx n)
            | .ok now =>
                if now < v then .next s
                else .next ((s.modCtx ctx fun x => { x with ring := { x.ring with wait := none } }).finishPkt ctx n)
      | none =>
          packet ctx 6 (fun s n b =>
            (s.startPkt ctx n).modCtx ctx fun x => { x with ring := { x.ring with wait := some (n, fieldLe b 8 8, fieldLe b 16 8) } }) s

end Sys2Proof.Machine
end

