-- ==== Sys2Proof/Machine/Context.lean ====
section
/-! DEFINITION. Contexts: the requests of a context entry, running, evicting, saving, restoring and killing
a context, and journal mismatches (16 R339, R340, R360 to R363; 17 R373; 19 R403; 08 R200; 05 R136; 11
R262). -/

namespace Sys2Proof.Machine

/-! ## The context entry (16 R339) -/

/-- The 128 bytes of an entry. -/
def State.entryBytes (s : State) (c : Nat) : List Byte := s.readPa (s.ctxEntry c) 128

/-- A power of two from 1 to 65,536. -/
def pow2ok (n : Nat) : Bool := (List.range 17).any fun i => n == 2 ^ i

/-- An entry whose `rsv` bits are zero and whose fields are in range. -/
def entryOk (b : List Byte) : Bool :=
  let f := fieldLe b
  let pa (o m : Nat) : Bool := f o 8 % m == 0 && f o 8 < 2 ^ 52
  f 0 1 % 2 == 1 && f 0 1 < 4 && f 4 4 == 0 && pa 8 4096 && pa 16 64 && pow2ok (f 24 4) && f 28 4 == 0 && pa 32 4096
    && pa 88 64 && pow2ok (f 96 4) && f 108 20 == 0

/-- `cst` as the device holds it. -/
def State.cst (s : State) (c : Nat) : Nat := match s.ctx? c with
  | some x => x.cst
  | none => 0

/-- Sets `cst`. -/
def State.setCst (s : State) (c v : Nat) : State := (s.modCtx c fun x => { x with cst := v }).putCtx c 2 v
/-- The device takes a request. -/
def State.takeReq (s : State) (c : Nat) : State := s.putCtx c 1 0
/-- The request in an entry. -/
def State.req (s : State) (c : Nat) : Nat := leNat (s.readPa (s.ctxEntry c + 1) 1)

/-- The device reads `req` and `cqwr` (R339): a request that has an effect is acted on next, any other is
cleared (R340). -/
def State.poll (s : State) (c : Nat) : State :=
  if 65536 ≤ c then s
  else
    let wr := leNat (s.readPa (s.ctxEntry c + 100) 4)
    let s := s.modCtx c fun x => { x with ring := { x.ring with wr := wr } }
    let next (i : Instr) : State := { s with agenda := .event i :: s.agenda }
    let cst := s.cst c
    match s.req c with
    | 0 => s
    | 1 => if cst = 1 then s.takeReq c else next (.contextRun c)
    | 2 => if cst = 1 then next (.contextEvict c) else s.takeReq c
    | 3 => if cst = 1 ∨ cst = 2 ∨ cst = 3 then next (.contextKill c) else s.takeReq c
    | _ => s.takeReq c

/-- CONTEXT_TABLE_POLL (R339): a packet that can never be performed stops the queue. -/
def execContextTablePoll (ctx : Nat) (s : State) : Host.Outcome State Fault Refusal :=
  let s := s.poll ctx
  match s.headPkt ctx, s.ctx? ctx with
  | some (n, b), some x => .next (if pktOk b x.priv then s else s.stopPkt ctx n)
  | _, _ => .next s

/-! ## Running (16 R340) -/

/-- A context that starts: its registers at their reset values, its ring served from `cqrd`. -/
def ctxOf (b : List Byte) : Ctx :=
  let f := fieldLe b
  { priv := (f 0 1).testBit 1, cst := 1, root := f 8 8, fqbase := f 16 8, fqsz := f 24 4, svbase := f 32 8, svsize := f 40 8,
    cores := BitVec.ofNat 192 (f 48 24), wqmask := BitVec.ofNat 128 (f 72 16), cqbase := f 88 8, cqsz := f 96 4, trapvec := 0,
    detlvl := 0, rqbase := 0, nextFid := 0, faults := [], ringQ := [], ringTail := 0, ring := Ring.reset (f 104 4) (f 100 4),
    mer := Mer.reset, erg := Erg.reset, rx := [], jrn := Jrn.reset, saved := [], heldL := [], heldK := [], runHeld := false,
    save := none, savedQ := [] }

/-- The work queues of a mask. -/
def wqsOf (m : BitVec 128) : List Nat := (List.range 128).filter fun i => m.getLsbD i

/-- Each core assigned takes the context once it holds no team (01 R26). -/
def State.claimCores (s : State) (c : Nat) (cores : List Nat) : State :=
  cores.foldl (fun s k => s.modCore k fun q => Core.settle { q with ctxidReg := BitVec.ofNat 64 c }) s

/-- A first run: the checks, then the context starts; an engine or a sorter that an earlier context of the same id used
is at its reset values (05 R114, R136). -/
def State.startCtx (s : State) (c : Nat) : State :=
  let b := s.entryBytes c
  let x := ctxOf b
  let clash := s.ctxs.any fun e => e.1 != c && (e.2.cst == 1 || e.2.cst == 2) && (e.2.cores &&& x.cores) != 0
  if !entryOk b then s.putCtx c 3 3
  else if clash then s.putCtx c 3 1
  else
    let s := { s with ctxs := Tab.set s.ctxs c x }
    let s := (wqsOf x.wqmask).foldl (fun s v => s.modWq v fun _ => { ctx := some c, items := [], waiters := [] }) s
    let fresh (k : Core) : Core := if k.ctx = some c then { k with eng := .reset, srt := .reset } else k
    let s := x.coreList.foldl (fun s k => s.modCore k fresh) s
    (s.claimCores c x.coreList).putCtx c 2 1

/-! ## Evicting (16 R360 to R362) -/

/-- A `.held` wait is on a load or an atomic that the L1 has reported missed: the first row of R151. -/
def Core.heldOnLoad (k : Core) (slot : Nat) (th : Thread) (needs : List (Nat × Nat)) (regs : List RegAt) : Bool :=
  k.pends.any fun p => p.slot == slot && p.missed && (match p.src with
    | .load _ _ => true
    | _ => false) && ((p.regs.any fun r => regs.contains r)
      || th.posts.any fun o => o.uid == p.uid && needs.any fun n => n.1 == o.ctr)

/-- A thread is in a state at which its team may be evicted (R360): exited, parked, Waiting at a blocking
point, or At rejoin or in a collector whose other threads are. -/
def Core.atBlock (k : Core) (slot : Nat) (tm : Team) : Nat → Nat → Bool
  | 0, _ => false
  | f + 1, t =>
    match Tab.get? tm.threads t with
    | none => true
    | some th =>
        match th.st with
        | .exited | .parked _ => true
        | .halted => true
        | .binned _ | .active _ => false
        | .rejoin m => (tm.live (hgOf t)).all fun u =>
            !m.getLsbD (laneOf u) || (match Tab.get? tm.threads u with
              | some o => (match o.st with
                  | .rejoin _ => true
                  | _ => false) || Core.atBlock k slot tm f u
              | none => true)
        | .waiting c =>
            match c with
            | .held needs regs => k.heldOnLoad slot th needs regs
            | .heldOn _ => false
            | .bxwait _ _ _ loc => !loc
            | .collect pc =>
                let mem := ((tm.colls.find? fun q => q.hg == hgOf t && q.pc == pc).map fun q => q.mem.map fun m => m.1).getD []
                let out := (tm.live (hgOf t)).filter fun u => !mem.contains u && ((Tab.get? tm.threads u).map fun o => o.pc) == some pc
                !out.isEmpty && out.all fun u => Core.atBlock k slot tm f u
            | _ => true

/-- A team is evictable (R360); a team that is halting is not yet. -/
def Core.evictable (k : Core) (slot : Nat) (tm : Team) : Bool :=
  (match tm.trap with
   | some tr => tr.halted
   | none => true) && tm.launched.all fun t => k.atBlock slot tm 4 t

/-- Teams of a context by core and slot. -/
def State.ctxTeams (s : State) (c : Nat) : List (Nat × Nat × Team) :=
  s.cores.flatMap fun e => (e.2.teams.filter fun t => t.2.ctx == c).map fun t => (e.1, t.1, t.2)

/-- Freezes the teams of a context that have become evictable. -/
def State.freeze (s : State) (c : Nat) : State :=
  (s.ctxTeams c).foldl (fun s e =>
    if !e.2.2.fin && (s.core e.1).evictable e.2.1 e.2.2 then s.modTeam e.1 e.2.1 fun tm => { tm with frozen := true } else s) s

/-- The inverse of an odd number modulo 2^32: each step doubles the bits that are right. -/
def oddInverse (a : Word) : Word := (List.range 5).foldl (fun x _ => x * (2 - a * x)) a

/-- Lane l of each value holds b + l × d mod 2^32 for one b and one d (R361): of the lanes' distances from the first, the
one with the fewest factors of 2 fixes what d can be. -/
def affineLanes (vs : List (Nat × Word)) : Bool :=
  match vs with
  | [] => true
  | (l0, v0) :: rest =>
      let k := rest.foldl (fun m e => (List.range 5).foldl (fun m j => if (e.1 - l0) % 2 ^ (j + 1) = 2 ^ j then min m j else m) m) 5
      match rest.find? fun e => (e.1 - l0) % 2 ^ (k + 1) == 2 ^ k with
      | none => true
      | some (l, v) =>
          let d := BitVec.ofNat 32 ((v - v0).toNat / 2 ^ k) * oddInverse (BitVec.ofNat 32 ((l - l0) / 2 ^ k))
          (v - v0).toNat % 2 ^ k == 0 && rest.all fun e => e.2 - v0 == BitVec.ofNat 32 (e.1 - l0) * d

/-- Bytes of a 32-bit vector register of a home group in the save image, from the home lanes considered with their
values (R361). -/
def saveBytes (vs : List (Nat × Word)) : Nat :=
  let narrow (n : Nat) : Bool := vs.all (fun x => x.2 == (x.2.setWidth n).setWidth 32) || vs.all fun x => x.2 == (x.2.setWidth n).signExtend 32
  if vs.all fun x => some x.2 == vs.head?.map fun y => y.2 then 4
  else if affineLanes vs then 8
  else if narrow 8 then 32
  else if narrow 16 then 64
  else 128

/-- Bytes of a team in the save image: registers as R361 compresses them, the rest in full. -/
def SavedTeam.bytes (q : SavedTeam) : Nat :=
  let tm := q.team
  let live (g : Nat) : List (Nat × Thread) := tm.threads.filter fun e => hgOf e.1 == g && !(e.2.st == .exited)
  let hg (g : Nat) : Nat :=
    ((List.range tm.regs).map fun n => saveBytes ((live g).map fun e => (laneOf e.1, Tab.getD e.2.regs n 0))).foldl (· + ·) 0
      + 8 * tm.sregs + 6 * 32 + 8 + 128
  ((List.range tm.hgroups).map hg).foldl (· + ·) 0 + tm.loc + (if q.eng.isSome then Config.accBytes else 0)
    + (match q.srt with
       | some r => 8 * r.kept.length
       | none => 0) + (q.stores.map fun e => e.data.length).foldl (· + ·) 0 + 4096

/-- The team in a slot, or the team of a context that an eviction has just taken from it. -/
def State.widAt (s : State) (ctx c slot : Nat) : Nat :=
  match s.team? c slot, s.ctx? ctx with
  | some tm, _ => tm.wid
  | none, some x => ((x.saved.find? fun q => q.core == c && q.slot == slot).map fun q => q.team.wid).getD 0
  | none, none => 0

/-- The scoreboard entries of commands, each with the team whose bytes it covers. -/
def State.sbOf (s : State) (ctx : Nat) (ids : List Nat) : List (Nat × SbEntry) :=
  s.cores.flatMap fun e => (e.2.sb.filter fun b => ids.contains b.cmd).map fun b => (s.widAt ctx e.1 b.slot, b)

/-- A team as its save image holds it: every pending counter is zero (04 R113). -/
def Team.imaged (tm : Team) : Team :=
  { tm with threads := tm.threads.map fun e => (e.1, { e.2 with posts := [] }) }

/-- A team leaves its core for the save area: results in flight are written first; the engine and the sorter
are released (R362; 05 R136; 11 R262). -/
def State.saveTeam (s : State) (c slot : Nat) : State :=
  let s := s.completeIssued c slot
  match s.team? c slot with
  | none => s
  | some tm =>
      let k := s.core c
      let own (o : Option (Nat × Nat)) : Bool := match o with
        | some (sl, _) => sl == slot
        | none => false
      let mineW (l : List EWait) : Option EWait := l.find? fun w => w.slot == slot && w.reload.isSome
      -- an `mld` that a handover drain waits for is saved with the tiles it will write (05 R116; log 14)
      let drained := k.pends.find? fun p => p.slot == slot && k.eng.owner.isNone && k.eng.drain && k.ofMld p
      let eng : Option Engine :=
        if own k.eng.owner then some k.eng
        else match drained with
          | some p => some { k.eng with owner := some (slot, p.hg), drain := true }
          | none => (mineW (k.eng.queue ++ k.eng.outside)).bind fun w => w.reload.map fun r =>
              { Engine.reset with owner := some (slot, w.hg), drain := r.drained, cfg := r.cfg, tiles := r.tiles, tpoison := r.tpoison }
      let srt : Option Sorter :=
        if own k.srt.owner then some k.srt
        else (mineW (k.srt.queue ++ k.srt.outside)).bind fun w => w.reload.map fun r =>
          { Sorter.reset with owner := some (slot, w.hg), k := w.k, kept := r.kept, pushed := r.pushed, ovf := r.ovf, nanx := r.nanx }
      let names := (k.cmds.filter fun d => d.wid == tm.wid).map (fun d => d.id) ++ k.tileClaims slot tm
      let q : SavedTeam :=
        { core := c, slot := slot, team := tm.imaged, pends := k.pends.filter (fun p => p.slot == slot),
          stores := k.storeQ.filter (fun e => e.wid == tm.wid), cmds := (k.cmds.filter fun d => d.wid == tm.wid).map fun d => { d with asks := [] },
          sb := s.sbOf tm.ctx names,
          fences := (k.fences.filter fun f => f.1 == slot).map (fun f => f.2),
          spoison := (k.spoison.filter fun p => p.1 == slot).map (fun p => p.2), eng := eng, srt := srt }
      let s := s.modCore c fun k =>
        let k := k.leaveTeam slot
        { k with teams := Tab.erase k.teams slot, pends := k.pends.filter (fun p => p.slot != slot),
                 storeQ := k.storeQ.filter (fun e => e.wid != tm.wid), cmds := k.cmds.filter (fun d => d.wid != tm.wid),
                 ready := k.ready.filter (fun r => r.1 != slot), fences := k.fences.filter (fun f => f.1 != slot)
                 spoison := k.spoison.filter (fun p => p.1 != slot) }
      let s := s.leavePorts c (((k.cmds.filter fun d => d.wid == tm.wid).flatMap fun d => d.asks.map fun a => a.1)
        ++ q.pends.map (fun p => p.uid) ++ q.stores.map fun e => e.uid)
      let s := names.foldl (fun s u => s.unclaim u) s
      s.modCtx tm.ctx fun x => { x with saved := x.saved ++ [q] }

/-- The bound of R361 on the save area. -/
def Ctx.saveBound (x : Ctx) : Nat := 16 * 2 ^ 20 + 5824 * 1024 * x.coreList.length

/-- CONTEXT_EVICT (R340, R360): the save area is checked; evictable teams freeze. -/
def execContextEvict (ctx : Nat) (s : State) : Host.Outcome State Fault Refusal :=
  match s.ctx? ctx with
  | none => .next s
  | some x =>
      if x.cst != 1 || s.req ctx != 2 then .next s
      else if x.svsize < x.saveBound then .next ((s.takeReq ctx).putCtx ctx 3 2)
      else .next (((s.takeReq ctx).setCst ctx 2).freeze ctx)

/-- A read or an atomic of a team, or an `mld`, that has neither returned its data nor parked (09 R206). -/
def Core.readLeft (k : Core) (slot : Nat) : Bool :=
  (k.outs.any fun y => y.slot == slot && !y.isSt && !y.stuck)
    || k.pends.any fun p => p.slot == slot && !p.aside && k.mayLoad p && (match p.src with
      | .tile _ _ _ _ _ _ ps => !ps.isEmpty
      | _ => false)

/-- Every team of a context is frozen or finished, its reads have returned or parked (09 R206), and what is left of its
commands is stopped (08 R200). -/
def State.evictReady (s : State) (c : Nat) : Bool :=
  (s.ctxTeams c).all fun e => (e.2.2.fin || e.2.2.frozen) && !(s.core e.1).readLeft e.2.1
    && (s.core e.1).cmds.all fun d => d.wid != e.2.2.wid || d.fault.isSome || d.erg.isSome

/-- EVICTION_COMPLETE (R360, R362): the teams and the work queues are saved; their image is written in
segments (19 R403), and once they are all performed the context is saved. -/
def execEvictionComplete (ctx : Nat) (s : State) : Host.Outcome State Fault Refusal :=
  match s.ctx? ctx with
  | none => .next s
  | some x =>
      if x.cst != 2 then .next s
      else
        match x.save with
        | none =>
            let s := s.freeze ctx
            if !s.evictReady ctx then .next s
            else
              let s := (s.ctxTeams ctx).foldl (fun s e => s.saveTeam e.1 e.2.1) s
              let qs := (wqsOf x.wqmask).filterMap fun v => if (s.wq v).ctx == some ctx then some (v, s.wq v) else none
              let s := qs.foldl (fun s q => s.modWq q.1 fun _ => { ctx := none, items := [], waiters := [] }) s
              let n := match s.ctx? ctx with
                | some x => (x.saved.map SavedTeam.bytes).foldl (· + ·) 0 / 4096 + 1
                | none => 1
              .next (s.modCtx ctx fun x => { x with save := some (n, []), savedQ := qs })
        | some (0, _) =>
            if s.stks.any fun e => e.2.segs.any fun g => g.1 == ctx then .next s
            else
              let s := (s.setCst ctx 3).ero 6 0 0 7 ctx 0
              .next (if x.runHeld then { s with agenda := s.agenda ++ [.event (.contextRun ctx)] } else s)
        | some _ => .next s

/-! ## Segments of a deadline save (19 R401 to R403) -/

/-- Bytes that a stack performs in a tenth of a microsecond at a rate: 8.0, 6.4, 4.8 or 3.2 TB/s (00 R1; R400). -/
def stackRate (r : Nat) : Nat := 800000 - 160000 * r

/-- The bound of a segment, in tenths of a microsecond (R403). -/
def Stk.bound (k : Stk) : Nat := max 10 (((k.segs.length + 1) * 4096 + stackRate k.rate - 1) / stackRate k.rate)

/-- A stack admits a segment now (R403). -/
def Stk.admits (k : Stk) : Bool :=
  match k.running, k.pend with
  | some _, _ => false
  | none, some (_, lim) => k.now + k.bound ≤ lim
  | none, none => true

/-- Time passes at a controller: a pending change starts at its limit, or as soon as no segment is left, so no
time passes beyond that moment before it does (R402). -/
def Stk.tick (k : Stk) (d : Nat) : Stk :=
  let t := match k.running, k.pend with
    | none, some (_, lim) => if k.segs.isEmpty then k.now else min (k.now + d) (max k.now lim)
    | _, _ => k.now + d
  { k with now := t }

/-- A controller (0 to 7 the stacks, 8 and 9 the LP tier). -/
def State.stk (s : State) (k : Nat) : Stk := Tab.getD s.stks k Stk.reset
def State.modStk (s : State) (k : Nat) (f : Stk → Stk) : State := { s with stks := Tab.set s.stks k (f (s.stk k)) }
/-- A free time passes at a controller. -/
def State.tickStk (s : State) (k : Nat) : State :=
  let (d, s) := s.draw
  s.modStk k fun q => q.tick d

/-- The lowest free frame of a save area that a test selects, among `n` from frame `i`. -/
def freeFrameOf (used : List Nat) (f : Nat → Bool) : Nat → Nat → Option Nat
  | 0, _ => none
  | n + 1, i => if f i && !used.contains i then some i else freeFrameOf used f n (i + 1)

/-- Frames of a context's save that are taken. -/
def State.usedSave (s : State) (c : Nat) (x : Ctx) : List Nat :=
  ((x.save.map fun e => e.2.map fun g => g.1).getD []) ++ s.stks.flatMap fun e => (e.2.segs.filter fun g => g.1 == c).map fun g => g.2.1

end Sys2Proof.Machine
end

