-- ==== Sys2Proof/Machine/CoreEvents.lean ====
section
/-! DEFINITION. The scheduler's own events: draws, bins that age, groups that dissolve or rotate, waits that
end, urgency marks, teams that halt, and the end of a core's cycle (06 R144 to R155; 08 R197; 09 R220, R230,
R266; 16 R355). -/

namespace Sys2Proof.Machine

/-- BANKROLE_APPLY (01 R26): a written `BANKROLE` or `CTXID` comes into force on a core with no team. -/
def execBankroleApply (core : Nat) (s : State) : Host.Outcome State Fault Refusal := .next (s.modCore core Core.settle)

/-- ISSUE_GROUP_DRAW (R147, R148): at the start of a cycle. -/
def execIssueGroupDraw (core : Nat) (s : State) : Host.Outcome State Fault Refusal :=
  match (s.core core).drawable with
  | some b => if (s.core core).issued.isEmpty then .next (s.drawGroup core b) else .next s
  | none => .next s

/-- Bins whose age has reached 16 cycles and that are not flagged aged (R147). -/
def Core.agingBins (k : Core) : List Bin :=
  k.bins.filter fun b => b.old k.now && !k.aged.contains (b.slot, BitVec.ofNat 57 b.pc)

/-- BIN_AGED (R147). -/
def execBinAged (core slot : Nat) (pc : PC) (s : State) : Host.Outcome State Fault Refusal :=
  if (s.core core).agingBins.any fun b => b.slot == slot && b.pc == pc.toNat then
    .next (s.modCore core fun k => { k with aged := k.aged ++ [(slot, pc)] })
  else .next s

/-- LONG_LATENCY_DISSOLVE (R151): the threads with a long-latency dependence wait, the others are filed, also before a
word of which 12 R274 or R281 forces the bits of one issue (log 39). -/
def execLongLatencyDissolve (core gid : Nat) (s : State) : Host.Outcome State Fault Refusal :=
  match (s.core core).groups.find? fun g => g.gid == gid with
  | none => .next s
  | some g =>
      match s.held? core g with
      | none => .next s
      | some h =>
          if !s.mustDissolve core g then .next s
          else
            let old := match g.heldAt with
              | some a => decide (a + 8 ≤ (s.core core).now)
              | none => false
            let wait := h.long.filter fun e => old || h.quick.contains e.1
            let s := wait.foldl (fun s e => s.setState core g.slot [e.1] (.waiting (.held e.2.1 e.2.2))) s
            .next (s.dissolve core gid)

/-- The rotation of a group is due (R153): it has spent 4,096 cycles in the active set, has issued in this
cycle, and some bin is eligible: at the end of the cycle, of the bins as they stood at its start (log 26). -/
def Core.rotates (k : Core) (g : Group) : Bool :=
  g.drawn + 4096 ≤ k.now && (k.issued.any fun e => e.1 == g.gid) && k.bins.any fun b => k.eligible b

/-- ROTATION (R153). -/
def execRotation (core gid : Nat) (s : State) : Host.Outcome State Fault Refusal :=
  match (s.core core).groups.find? fun g => g.gid == gid with
  | some g => if (s.core core).rotates g then .next (s.dissolve core gid) else .next s
  | none => .next s

/-! ## Waits that end (R151) -/

/-- Releases one thread from a wait: filed at its word, or past it. -/
def State.release (s : State) (c slot t : Nat) (st : TState) (past : Bool) : State :=
  s.wake c slot (fun u x => u == t && x == st) past

/-- The posts a wait of a thread stands on; those of a thread that a halt stopped are zero (04 R113). -/
def Team.postsOf (tm : Team) (t : Nat) (st : TState) : List Post :=
  match Tab.get? tm.threads t with
  | none => []
  | some th => if th.st == st then th.posts else []

/-- What holds a word in the fourth row of R151 still does. -/
def State.holds (s : State) (c : Nat) (tm : Team) (h : HoldOn) : Bool :=
  match h with
  | .range d opb slot off n => (s.core d).sbHit opb slot off n false
  | .entries d n => decide (Config.sbEntries < (s.core d).sb.length + n)
  | .faults n => s.faultsFull tm.ctx n
  | .cmds n => decide (Config.cmdSlots < (s.core c).cmds.length + n)
  | .engine => (s.core c).loading
  | .pairs n => decide (128 < (s.core c).srt.fill + n)
  | .kicks die n => decide (64 < s.kickQ die + n)
  | .accs us => ((s.core c).outs.any fun y => us.contains y.uid) || (s.core c).pends.any fun p => us.contains p.uid
  | .xfence g p => tm.xfenced g p
  | .page ctx va => s.migrating ctx va
  | .port pa => !s.portFree c pa

/-- An `hwait` whose handle has left pending: its status is written and hA is null, once; then its threads
go on one by one (09 R230). -/
def State.endHwait (s : State) (c slot : Nat) (tm : Team) (t id : Nat) (st : TState) : Option State :=
  match tm.hwaits.find? fun w => w.id == id with
  | none => some (s.release c slot t st true)
  | some w =>
      match tm.handle w.h with
      | none => none
      | some hs =>
          if hs.st = 0 then none
          else
            let s := if w.done then s else
              let s := match (s.core c).pend? w.uid, w.dst with
                | some p, some r => s.writeBack c p [(r, BitVec.ofNat 64 hs.word)]
                | _, _ => s
              s.modTeam c slot fun tm =>
                let same := match Tab.get? tm.hgs w.hg with
                  | some q => Tab.getD q.hver w.reg 0 == w.ver
                  | none => false
                let tm := if same then tm.writeReg (.h w.hg w.reg) 0 else tm
                { tm with hwaits := tm.hwaits.map fun x => if x.id = id then { x with done := true } else x }
            let s := s.release c slot t st true
            let left (tm : Team) : Bool := (tm.threads.any fun e => e.2.st == st) || (match tm.trap with
              | some tr => tr.prior.any fun p => p.st == st
              | none => false)
            some (s.modTeam c slot fun tm =>
              if left tm then tm else { tm with hwaits := tm.hwaits.filter fun x => x.id != id })

/-- The `fence.ar` that ends a wait: none while an `ls` load or atomic of the thread cannot be performed. -/
def State.fenceWake (s : State) (c slot t : Nat) (sc : Scope) : Option State :=
  let s := s.fenceAr c slot [t] sc
  if (s.core c).outs.any fun y => y.lsOf slot [t] && !y.isSt && !y.stuck then none else some s

/-- Ends the wait of a thread whose condition is met: none where it is not, or where another event ends it. -/
def State.endWait (s : State) (c slot : Nat) (tm : Team) (t : Nat) (st : TState) : Option State :=
  match st with
  | .waiting w =>
      match w with
      | .heldOn on => if on.all fun h => !s.holds c tm h then some (s.release c slot t st false) else none
      | .held needs regs =>
          let ps := tm.postsOf t st
          let ok := needs.all (fun n => (ps.filter fun p => p.ctr == n.1).length ≤ n.2)
            && regs.all fun r => !((s.core c).pends.any fun p => p.slot == slot && p.regs.contains r)
          if ok then some (s.release c slot t st false) else none
      | .hwait id => s.endHwait c slot tm t id st
      | .bxwait o r sc _ =>
          -- a completed round whose object a recorded range holds is read as the word is tried again (08 R193)
          if !s.roundOver o r then none
          else if s.objHeld o then some (s.release c slot t st false)
          else (s.fenceWake c slot t sc).map fun s => s.release c slot t st true
      | .bar _ _ _ _ => none
      | .barFirst cl id phase _ _ => if (s.barrier tm cl id).phase = phase then none else some (s.release c slot t st false)
      | .wq _ u vp dst item sc =>
          match item with
          | none => none
          | some bs =>
              let vr := vp.map fun p => RegAt.p t p
              let s := match (s.core c).pend? u with
                | some p => s.writeBack c p (popWrites dst vr (some bs))
                | none => s
              (s.fenceWake c slot t sc).map fun s => s.release c slot t st true
      | .macq => none
      | .tkbeg | .sorter =>
          if (s.core c).srt.owner.isNone && !(s.core c).srt.queue.isEmpty then some (s.sorterGrant c) else none
      | .engine => none
      | .idle n woken =>
          let priv := match s.ctx? tm.ctx with
            | some x => x.priv
            | none => false
          if n == 0 || (priv && woken) then some (s.release c slot t st true) else none
      | .collect _ => none
      | .xfence us sc ca cb =>
          if ((s.core c).outs.any fun e => us.contains e.uid) || (s.core c).pends.any fun p => us.contains p.uid then none
          else
            let s := s.xfenceDone c slot [t] sc ca cb
            if cb == .ls && ((s.core c).outs.any fun y => y.lsOf slot [t] && !y.isSt && !y.stuck) then none
            else some (s.release c slot t st true)
      | .journal a =>
          match s.turn tm.ctx a with
          | .wait => none
          -- a pop is tried again as its word: a `wqpop.nb` then receives nothing, and only a `wqpop` is an arrival (R372)
          | .none => some (if a.kind = 2 then s.wake c slot (fun _ x => x == st) false else s.mismatch tm.ctx)
          | _ =>
              if a.kind = 2 ∧ (s.wq a.site).items.isEmpty then none
              else some (s.wake c slot (fun _ x => x == st) false)
  | _ => none

/-- A thread's wait as it stands, or as a halt found it, ends if its condition is met (R144, R151; 16 R355). -/
def State.tryWake (s : State) (c slot t : Nat) : Option State :=
  match s.team? c slot with
  | none => none
  | some tm =>
      if tm.frozen then none
      else
        let live := (Tab.get? tm.threads t).map fun th => th.st
        let prior := tm.trap.bind fun tr => if tr.halted then (tr.prior.find? fun p => p.thr == t).map fun p => p.st else none
        match live.bind fun st => s.endWait c slot tm t st with
        | some s => some s
        | none => prior.bind fun st => s.endWait c slot tm t st

/-- WAIT_CONDITION_MET (R144, R151). -/
def execWaitConditionMet (core slot thr : Nat) (s : State) : Host.Outcome State Fault Refusal :=
  .next ((s.tryWake core slot thr).getD s)

/-! ## Urgency marks (R155) -/

/-- The read that a core marks in a cycle: none unless nothing issues, no bin holds a thread, and a Waiting thread
waits on a read that has left the core and is not marked. A bin that a draw of the cycle has emptied held threads. -/
def Core.urgentRead (k : Core) : Option Pend :=
  let th := k.teams.flatMap fun e => e.2.threads.map fun t => (e.1, t.1, t.2)
  let idle := k.issued.isEmpty && !k.drawn && !(th.any fun e => match e.2.2.st with
    | .binned _ => true
    | _ => false)
  let left (p : Pend) : Bool := match p.src with
    | .load _ _ => p.missed
    | .tile _ _ _ _ loc _ ps => !loc && !ps.isEmpty
    | _ => false
  let waits (p : Pend) : Bool := th.any fun e => e.1 == p.slot && (match e.2.2.st with
    | .waiting (.held needs regs) => (p.regs.any fun r => regs.contains r)
        || e.2.2.posts.any fun o => o.uid == p.uid && needs.any fun n => n.1 == o.ctr
    | .waiting (.heldOn on) => k.ofMld p && on.contains .engine
    | _ => false)
  let cand := k.pends.filter fun p => !p.urgent && left p && waits p
  if !idle then none
  else cand.foldl (fun b p => match b with
    | some q => if p.issuedAt < q.issuedAt then some p else some q
    | none => some p) none

/-- URGENCY_MARK (R155): the read, and its request where it waits in a port. The issue slots of the cycle are over, so
that it is known that nothing has issued in it, and its transitions have not taken effect yet. -/
def execUrgencyMark (core : Nat) (s : State) : Host.Outcome State Fault Refusal :=
  match if s.agenda.contains (.close core) then (s.core core).urgentRead else none with
  | none => .next s
  | some p =>
      let s := s.modCore core fun k => { k with pends := k.pends.map fun q => if q.uid = p.uid then { q with urgent := true } else q }
      let port (q : Port) : Port := { q with wait := q.wait.map fun r => if r.uid = p.uid ∧ r.core = core then { r with urg := true } else r }
      .next { s with ports := s.ports.map fun e => (e.1, port e.2) }

/-- TEAM_HALT (16 R355, R356): the skid is over, and the trap is taken; a frozen team stays as it is (16 R360). -/
def execTeamHalt (core slot : Nat) (s : State) : Host.Outcome State Fault Refusal :=
  match s.team? core slot with
  | some tm => if tm.skidOver (s.core core).now && !tm.frozen then .next (s.takeTrap core slot) else .next s
  | none => .next s

/-! ## The end of a cycle -/

/-- Home groups and PCs at which threads of a team stand At rejoin. -/
def Team.rejoins (tm : Team) : List (Nat × PC) :=
  tm.threads.foldl (fun l e => match e.2.st with
    | .rejoin _ => if l.contains (hgOf e.1, e.2.pc) then l else l ++ [(hgOf e.1, e.2.pc)]
    | _ => l) []

/-- Threads whose wait, as it stands or as a halt found it, ends now. -/
def State.dueWaits (s : State) (c slot : Nat) (tm : Team) : List Instr :=
  tm.launched.filterMap fun t => if (s.tryWake c slot t).isSome then some (.waitConditionMet c slot t) else none

/-- What R144 to R166 and R220 let happen at the end of a core's cycle. -/
def State.dueEvents (s : State) (c : Nat) : List Instr :=
  let k := s.core c
  let team (e : Nat × Team) : List Instr :=
    (e.2.rejoins.filterMap fun r => if e.2.mayRelease r.1 (e.2.atRejoin r.1 r.2) then some (.rejoinRelease c e.1 r.1 r.2) else none)
    ++ (e.2.colls.filterMap fun q => if e.2.mayFire q then some (.collectorFire c e.1 q.hg q.pc) else none)
    ++ (e.2.bars.filterMap fun b => if b.2.arrived.isEmpty then none else some (.barrierRelease false c e.1 b.1))
    ++ (match Tab.get? s.grids e.2.grid with
        | some g => g.bars.filterMap fun b =>
            if b.1 / 4 = e.2.cluster ∧ !b.2.arrived.isEmpty then some (.barrierRelease true e.2.grid e.2.cluster (b.1 % 4)) else none
        | none => [])
    ++ s.dueWaits c e.1 e.2
  (k.groups.filterMap fun g => if s.mustDissolve c g then some (.longLatencyDissolve c g.gid) else none)
  ++ (k.groups.filterMap fun g => if k.rotates g then some (.rotation c g.gid) else none)
  ++ k.teams.flatMap team
  ++ (if k.eng.owner.isNone && (k.eng.drain || !k.eng.queue.isEmpty) then [.engineGrant c] else [])
  ++ (k.teams.filterMap fun e => if e.2.skidOver k.now && !e.2.frozen then some (.teamHalt c e.1) else none)
  ++ (if k.teams.isEmpty then [.bankroleApply c] else [])

/-- Closes a core's cycle: what takes effect at its end does, what the cycle has shown is noted, held arrivals are tried again, teams that an
eviction waits for freeze, and what is due follows before the cycle number advances. -/
def State.closeCycle (s : State) (c : Nat) : State :=
  let s := (((((s.endExits c).endGroups c).noteMisses c).noteHolds c).noteLocalWaits c).endReplays c
  let s := match (s.core c).ctx with
    | some x =>
        let s := s.retryHeld x
        if s.cst x = 2 then s.freeze x else s
    | none => s
  { s with agenda := (s.dueEvents c).map Act.event ++ Act.tick c :: s.agenda }

/-- The acts of one cycle of a core: bins that age, a draw, two issue slots, each of which a younger group may share, a
mark where nothing has issued, and the end of the cycle (R147, R149, R154, R155). -/
def State.openCycle (s : State) (c : Nat) : State :=
  if (s.die (c / 96)).halted != 0 then s
  else { s with agenda := ((s.core c).agingBins.map fun b => .event (.binAged c b.slot (BitVec.ofNat 57 b.pc)))
                    ++ [.event (.issueGroupDraw c), .issue c, .share c, .issue c, .share c]
                    ++ (if (s.core c).teams.isEmpty then [] else [.event (.urgencyMark c)]) ++ .close c :: s.agenda }

end Sys2Proof.Machine
end

