-- ==== Sys2Proof/Machine/Restore.lean ====
section
/-! DEFINITION. Restoring and killing a context, and journal mismatches (16 R340, R362, R363; 17 R373; 08 R185,
R200; 05 R136; 11 R262; 13 R294). -/

namespace Sys2Proof.Machine

/-! ## Where restored teams stand -/

/-- Teams by name, each with its new core and slot. -/
abbrev Remap := List (Nat × Nat × Nat)

def TRef.moved (r : TRef) (m : Remap) : TRef :=
  match m.find? fun e => e.1 == r.wid with
  | some (_, c, sl) => { r with core := c, slot := sl }
  | none => r

def Tgt.moved (g : Tgt) (m : Remap) : Tgt :=
  match g with
  | .scr r off => .scr (r.moved m) off
  | g => g

def End.moved (e : End) (m : Remap) : End :=
  match e with
  | .scr r off => .scr (r.moved m) off
  | e => e

/-- An outstanding result in its team's new place (10 R251). -/
def Pend.moved (p : Pend) (m : Remap) : Pend :=
  match p.src with
  | .load a g => { p with src := .load a (g.moved m) }
  | .tile thr til base st loc pc ps => { p with src := .tile thr til base st loc pc (ps.map fun q => (q.1, q.2.1.moved m, q.2.2)) }
  | _ => p
/-- A fault follows its team. -/
def PFault.moved (f : PFault) (m : Remap) : PFault :=
  match m.find? fun e => e.1 == f.wid with
  | some (_, c, sl) => { f with core := c, slot := sl }
  | none => f
def TrapReq.moved (r : TrapReq) (m : Remap) : TrapReq :=
  match r.kind with
  | .parked f => { r with kind := .parked (f.moved m) }
  | _ => r

/-- A resumable command in its team's new place. -/
def Cmd.moved (d : Cmd) (m : Remap) : Cmd :=
  let kind := match d.kind with
    | .copy a b n sc => .copy (a.moved m) (b.moved m) n sc
    | .gather bs pd rq ix dst off => .gather bs pd rq ix (dst.moved m) off
    | k => k
  { d with slot := ((m.find? fun e => e.1 == d.wid).map fun e => e.2.2).getD d.slot, kind := kind,
           obj := d.obj.map fun o => o.moved m }

/-- What a hold stands on, with the places that teams had moved to their new ones. -/
def HoldOn.moved (h : HoldOn) (pl : Nat × Nat → Nat × Nat) : HoldOn :=
  match h with
  | .range c opb sl off n => .range (pl (c, sl)).1 opb (pl (c, sl)).2 off n
  | .entries c n => .entries (pl (c, 16)).1 n
  | h => h

/-- A restored thread's state: waiters of the engine and the sorter issue afresh (05 R136; 11 R262). -/
def TState.resumed (st : TState) (m : Remap) (pl : Nat × Nat → Nat × Nat) (now : Nat) : TState :=
  match st with
  | .binned _ => .binned now
  | .waiting .macq => .binned now
  | .waiting .tkbeg => .binned now
  | .waiting (.heldOn on) => .waiting (.heldOn (on.map fun h => h.moved pl))
  | .waiting (.bxwait o r sc loc) => .waiting (.bxwait (o.moved m) r sc loc)
  | st => st

/-- A restored team. A trap raised while the team was frozen is taken before any of its threads issues. -/
def Team.resumed (tm : Team) (m : Remap) (pl : Nat × Nat → Nat × Nat) (now : Nat) : Team :=
  let th (e : Nat × Thread) : Nat × Thread := (e.1, { e.2 with st := e.2.st.resumed m pl now, notBefore := 0 })
  let pr (p : Prior) : Prior := { p with st := p.st.resumed m pl now, notBefore := 0 }
  { tm with threads := tm.threads.map th
            trap := tm.trap.map (fun tr => { tr with req := tr.req.moved m, prior := tr.prior.map pr
                                                     stopped := if tr.halted then tr.stopped else tm.launched }),
            held := tm.held.map (fun r => r.moved m), frozen := false }

/-- The places that a saved team, or the cluster it belongs to, may take (R294; 08 R185). -/
def State.restoreSites (s : State) (x : Ctx) (g : Grid) (index : Nat) : List (List Nat) :=
  let room (c : Nat) : Bool := 0 < s.roomOn g.ctx c g.record
  let l := x.coreList
  let all := if g.detlvl = 1 ∧ !recHasCluster g.record then [[l.getD (index % l.length) 192]] else x.rects (recShape g.record)
  all.filter fun cs => cs.all room

/-- Saved teams that are placed together: the teams of a cluster in rank order, any other team alone. -/
def savedGroups (grids : Tab Grid) : List SavedTeam → List (List SavedTeam)
  | [] => []
  | q :: qs =>
      let gs := savedGroups grids qs
      let cl := match Tab.get? grids q.team.grid with
        | some g => recHasCluster g.record
        | none => false
      let same (l : List SavedTeam) : Bool := cl && l.any fun r => r.team.grid == q.team.grid && r.team.cluster == q.team.cluster
      if gs.any same then gs.map fun l => if same l then q :: l else l else [q] :: gs

/-- Puts one saved team on a core: its new slot. -/
def State.putSaved (s : State) (q : SavedTeam) (c : Nat) : Option (Nat × State) :=
  let s := s.modCore c Core.settle
  let slot := if (s.team? c q.slot).isNone then some q.slot else (s.core c).freeSlot
  slot.map fun sl => (sl, s.modCore c fun k => k.seat sl q.team)

/-- Places every group of saved teams, each at a site freely chosen among those it fits; none where one does
not fit now. -/
def State.placeSaved (x : Ctx) : List (List SavedTeam) → Remap × State → Option (Remap × State)
  | [], r => some r
  | grp :: rest, (m, s) =>
      match grp with
      | [] => State.placeSaved x rest (m, s)
      | q :: _ =>
          let (n, s) := s.draw
          let sites := match Tab.get? s.grids q.team.grid with
            | some g => s.restoreSites x g q.team.index
            | none => [[q.core]]
          match sites[n % max 1 sites.length]? with
          | none => none
          | some cs =>
              let put (r : Option (Remap × State)) (e : SavedTeam) : Option (Remap × State) := r.bind fun p =>
                (p.2.putSaved e (cs.getD e.team.rank 192)).map fun o => ((e.team.wid, cs.getD e.team.rank 192, o.1) :: p.1, o.2)
              match grp.foldl put (some (m, s)) with
              | some r => State.placeSaved x rest r
              | none => none

/-- What one restored team brings to its core beside itself. -/
def State.resumeTeam (s : State) (q : SavedTeam) (m : Remap) (pl : Nat × Nat → Nat × Nat) (c slot : Nat) : State :=
  let now := (s.core c).now
  let s := s.modTeam c slot fun tm => tm.resumed m pl (now + 1)
  let pend (p : Pend) : Pend := { p.moved m with slot := slot, issuedAt := now }
  let store (e : SEntry) : SEntry := { e with slot := slot, tgt := e.tgt.moved m, again := e.parked.isNone }
  let s := s.modCore c fun k =>
    { k with pends := k.pends ++ q.pends.map pend, storeQ := k.storeQ ++ q.stores.map store, cmds := k.cmds ++ q.cmds.map (fun d => d.moved m)
             fences := k.fences ++ q.fences.map (fun f => (slot, f)), spoison := k.spoison ++ q.spoison.map fun o => (slot, o) }
  -- a read that the trap keeps aside, and a store, stand before their ports again (17 R375)
  let s := q.stores.foldl (fun s e => if e.parked.isSome then s else s.portTgt c e.uid (e.tgt.moved m) e.data.length) s
  let s := q.sb.foldl (fun s b => match m.find? fun e => e.1 == b.1 with
    | some (_, d, sl) => s.modCore d fun k => { k with sb := k.sb ++ [k.sbEntry b.2.opb sl b.2.lo b.2.hi b.2.wr b.2.cmd] }
    | none => s) s
  let s := match q.eng with
    | some e => match e.owner with
        | some (_, hg) =>
            let r : Reload := { cfg := e.cfg, tiles := e.tiles, tpoison := e.tpoison, kept := [], pushed := 0, ovf := false, nanx := false, drained := e.drain }
            s.modCore c fun k =>
              let p := inLine (.cons { slot := slot, hg := hg, k := 0, reload := some r } (k.eng.queue ++ k.eng.outside))
              { k with eng := { k.eng with queue := p.1, outside := p.2 } }
        | none => s
    | none => s
  match q.srt with
  | some t => match t.owner with
      | some (_, hg) =>
          let r : Reload := { cfg := none, tiles := [], tpoison := [], kept := t.kept, pushed := t.pushed, ovf := t.ovf, nanx := t.nanx, drained := false }
          s.modCore c fun k =>
            let p := inLine (.cons { slot := slot, hg := hg, k := t.k, reload := some r } (k.srt.queue ++ k.srt.outside))
            { k with srt := { k.srt with queue := p.1, outside := p.2 } }
      | none => s
  | none => s

/-- The context's own records follow its teams. -/
def Ctx.moved (x : Ctx) (m : Remap) : Ctx :=
  let place (wid : Nat) (f : Nat × Nat) : Nat × Nat := ((m.find? fun e => e.1 == wid).map fun e => e.2).getD f
  let sub (q : HeldSub) : HeldSub := if q.slot = 16 then q else { q with core := (place q.wid (q.core, q.slot)).1, slot := (place q.wid (q.core, q.slot)).2 }
  { x with faults := x.faults.map (fun f => f.moved m), heldL := x.heldL.map sub, heldK := x.heldK.map sub, saved := [], save := none, savedQ := [],
           runHeld := false }

/-- The save area still holds the image that the device wrote (R361). -/
def State.imageOk (s : State) (x : Ctx) : Bool :=
  match x.save with
  | some (_, fs) => fs.all fun f => s.readPa (x.svbase + 4096 * f.1) 4096 == f.2 && !s.poisoned (x.svbase + 4096 * f.1) 4096
  | none => true

/-- A core of a context is held by another one that runs (R340). -/
def State.coreClash (s : State) (c : Nat) (x : Ctx) : Bool :=
  s.ctxs.any fun e => e.1 != c && (e.2.cst == 1 || e.2.cst == 2) && (e.2.cores &&& x.cores) != 0

/-- Restores a context (R362); a wait whose condition has been met meanwhile ends at once (06 R144): none while some team does not fit, or a core is another running context's, with which it
shares the core only by turns (R340). -/
def State.restoreCtx (s : State) (c : Nat) (x : Ctx) : Option State :=
  if s.coreClash c x then none
  else
  let s := s.claimCores c x.coreList
  match State.placeSaved x (savedGroups s.grids x.saved) ([], s) with
  | none => none
  | some (m, s) =>
      let s := x.savedQ.foldl (fun s q => s.modWq q.1 fun _ =>
        { q.2 with ctx := some c, waiters := q.2.waiters.map fun w => (w.1.moved m, w.2) }) s
      -- from a saved team's place, or from its core, to the new one
      let pl (o : Nat × Nat) : Nat × Nat :=
        match x.saved.find? fun q => q.core == o.1 && (o.2 == 16 || q.slot == o.2) with
        | some q => ((m.find? fun e => e.1 == q.team.wid).map fun e => e.2).getD o
        | none => o
      let s := x.saved.foldl (fun s q => match m.find? fun e => e.1 == q.team.wid with
        | some (_, d, sl) => s.resumeTeam q m pl d sl
        | none => s) s
      let s := s.modCtx c fun x => x.moved m
      let due : List PFault := match s.ctx? c with
        | some x => x.faults.filter fun f => f.accepted == 1 || f.accepted == 2
        | none => []
      let s := s.modCtx c fun x => { x with faults := x.faults.filter fun f => f.accepted == 0 || f.accepted == 3 }
      let s := due.foldl (fun s f => s.applyFault c f (f.accepted == 1)) s
      let s := (s.setCst c 1).ero 6 0 0 8 c 0
      let met := (s.ctxTeams c).flatMap fun e => s.dueWaits e.1 e.2.1 e.2.2
      some { s with agenda := met.map Act.event ++ s.agenda }

/-! ## Killing (16 R363) -/

/-- Kills a context: its teams, unplaced teams, replays, ring and tables; memory stays. -/
def State.killCtx (s : State) (c : Nat) : State :=
  let s := (s.ctxTeams c).foldl (fun s e => if e.2.2.fin then s else s.killTeam e.1 e.2.1) s
  let s := { s with grids := s.grids.filter (fun g => g.2.ctx != c), replays := s.replays.filter (fun r => r.2.ctx != c) }
  let s : State := match s.ctx? c with
    | some x => (wqsOf x.wqmask).foldl (fun s v =>
        if (s.wq v).ctx = some c then s.modWq v fun _ => { ctx := none, items := [], waiters := [] } else s) s
    | none => s
  let cut (k : Stk) : Stk := { k with segs := k.segs.filter fun g => g.1 != c }
  let s := { s with stks := s.stks.map fun (e : Nat × Stk) => (e.1, cut e.2) }
  let s := s.modCtx c fun x =>
    { x with cst := 4, faults := [], ringQ := [], ring := Ring.reset x.ring.rd x.ring.wr, mer := Mer.reset, erg := Erg.reset, rx := [],
             saved := [], heldL := [], heldK := [], runHeld := false, save := none, savedQ := [] }
  (s.putCtx c 2 4).ero 6 0 0 15 c 0

/-- CONTEXT_KILL (R340, R363). -/
def execContextKill (ctx : Nat) (s : State) : Host.Outcome State Fault Refusal :=
  let cst := s.cst ctx
  if s.req ctx != 3 || cst == 0 || 4 ≤ cst then .next s else .next ((s.takeReq ctx).killCtx ctx)

/-- CONTEXT_RUN (R340): a first run, a run held until an eviction completes, or a restore. -/
def execContextRun (ctx : Nat) (s : State) : Host.Outcome State Fault Refusal :=
  let asked := s.req ctx == 1
  match s.ctx? ctx with
  | none => if asked && ctx < 65536 then .next ((s.takeReq ctx).startCtx ctx) else .next s
  | some x =>
      if !(asked || x.runHeld) then .next s
      else
        let s := if asked then s.takeReq ctx else s
        match x.cst with
        | 2 => .next (s.modCtx ctx fun x => { x with runHeld := true })
        | 3 =>
            if !s.imageOk x then .next ((s.killCtx ctx).putCtx ctx 3 3)
            else match s.restoreCtx ctx x with
              | some s => .next s
              | none => .next (s.modCtx ctx fun x => { x with runHeld := true })
        | 0 => .next (s.startCtx ctx)
        | 4 => .next (s.startCtx ctx)
        | _ => .next s

/-! ## Journal mismatches (17 R373) -/

/-- The agent of an event can no longer arrive. -/
def State.agentGone (s : State) (c : Nat) (x : Ctx) (b : List Byte) : Bool :=
  let kind := fieldLe b 0 1
  let src := fieldLe b 1 1
  let ord := fieldLe b 4 4
  let grid := (s.grids.find? fun g => g.2.ctx == c && g.2.ordinal == ord).map fun g => g.2
  let kernel := kind == 1 || kind == 2 || ((kind == 5 || kind == 6) && src == 0)
  let res := s.ctxTeams c ++ x.saved.map fun q => (q.core, q.slot, q.team)
  if kernel then
    match grid with
    | none => ord < x.jrn.grids
    | some g =>
        g.finished.contains (fieldLe b 8 4)
          || ((kind == 1 || kind == 2) && res.any fun e => e.2.2.ordinal == ord && e.2.2.index == fieldLe b 8 4
                && e.2.2.exited (fieldLe b 2 2) && fieldLe b 2 2 < 32 * (e.2.2.hgroups - 1) + e.2.2.lastn)
  else if src == 3 then ord < x.jrn.kicks && !(s.replays.any fun r => r.2.ctx == c && r.2.ord == ord && !r.2.ended)
  else false

/-- A barrier whose threads have all arrived. -/
def State.barReady (s : State) (cl : Bool) (a b id : Nat) : Bool :=
  match s.barSet cl a b with
  | [] => false
  | (c, sl, t) :: ts =>
      let br := s.barrier t cl id
      !br.arrived.isEmpty && ((c, sl, t) :: ts).all fun e => e.2.2.fin || e.2.2.threads.all fun th => barDone br e.2.2 th.1 th.2

/-- A team that can still bring an arrival though it is evictable: it is frozen or parked on a fault, its time
runs, a read of it is in flight, or one of its waits has just ended (R373, last paragraph; log 13). -/
def State.movable (s : State) (c slot : Nat) (tm : Team) : Bool :=
  let k := s.core c
  tm.frozen || (tm.threads.any fun e => match e.2.st with
      | .parked _ | .waiting (.idle _ _) => true
      | _ => false)
    || (k.pends.any fun p => p.slot == slot && (match p.src with
      | .load _ _ | .tile .. => true
      | _ => false))
    || (k.outs.any fun a => a.slot == slot)
    || !(s.dueWaits c slot tm).isEmpty || (tm.colls.any fun q => tm.mayFire q) || (tm.rejoins.any fun r => tm.mayRelease r.1 (tm.atRejoin r.1 r.2))
    || ((List.range 16).any fun b => s.barReady false c slot b) || ((List.range 4).any fun b => s.barReady true tm.grid tm.cluster b)
    || (k.eng.owner.isNone && !k.eng.queue.isEmpty)

/-- Nothing of the context can go on, and the event names one of its own teams' threads (R373, case 3). -/
def State.stuckOn (s : State) (c : Nat) (x : Ctx) (b : List Byte) : Bool :=
  let kind := fieldLe b 0 1
  let kernel := kind == 1 || kind == 2 || ((kind == 5 || kind == 6) && fieldLe b 1 1 == 0)
  kernel && fieldLe b 4 4 < x.jrn.grids && x.cst == 1
    && (s.ctxTeams c).all (fun e => e.2.2.fin || ((s.core e.1).evictable e.2.1 e.2.2 && !s.movable e.1 e.2.1 e.2.2))
    && !(s.grids.any fun g => g.2.ctx == c && !g.2.unplaced.isEmpty) && !(s.replays.any fun r => r.2.ctx == c && !r.2.ended)
    && !x.mer.flying && !x.mer.begun && !(s.cores.any fun e => e.2.cmds.any fun d => (match Tab.get? e.2.teams d.slot with
      | some tm => tm.ctx == c
      | none => false))

/-- A mismatch of R373 stands. -/
def State.mismatched (s : State) (c : Nat) (x : Ctx) : Bool :=
  x.jrn.lvl == 3 && (x.jrn.mis || (match s.window c x.jrn with
    | none => true
    | some w =>
        (w.any fun e => fieldLe e.2 0 1 < 1 || 6 < fieldLe e.2 0 1 || fieldLe e.2 28 4 != 0)
          || (match w.find? fun e => e.1 == x.jrn.pos with
              | some e => s.agentGone c x e.2 || s.stuckOn c x e.2
              | none => false)))

/-- JOURNAL_MISMATCH (R373). -/
def execJournalMismatch (ctx : Nat) (s : State) : Host.Outcome State Fault Refusal :=
  match s.ctx? ctx with
  | none => .next s
  | some x =>
      if !(x.cst == 1 || x.cst == 2) || !s.mismatched ctx x then .next s
      else
        let put (s : State) (o n v : Nat) : State := (s.vput ctx (x.jrn.desc + o) n v).toOption.getD s
        let s := put (put s 20 1 3) 16 4 x.jrn.pos
        let s := s.modCtx ctx fun x => { x with jrn := { x.jrn with stat := 3, mis := false } }
        .next (((s.killCtx ctx).putCtx ctx 3 5).ero 6 0 0 10 ctx 0)

end Sys2Proof.Machine
end

