-- ==== Sys2Proof/Machine/Stacks.lean ====
section
/-! DEFINITION. Network ports, stack base dies and LP controllers: metering, link packets, priority, refresh,
retraining, the data rate, patrol scrubbing and repair (17 R375 to R379; 19 R394 to R404, R406; 20 R417). -/

namespace Sys2Proof.Machine

/-! ## Ports (17 R375 to R378) -/

/-- Buckets in table order with their refills, the rest bucket last (R377). -/
def Port.rest? (p : Port) : Nat := 2048 - (p.share.map fun e => e.2).foldl (· + ·) 0

/-- Refills one bucket: its tokens, and what overflows (R377). -/
def refillBucket (tok refill : Nat) : Nat × Nat := (min (tok + refill) (2 * refill), tok + refill - 2 * refill)

/-- The end of an interval: an accepted table is applied, or the buckets are refilled (R376, R377). -/
def Port.interval (p : Port) : Port :=
  match p.next with
  | some [] => { p with share := [], tok := [], rest := 0, spill := 0, next := none, wait := [] }
  | some l =>
      let q : Port := { p with share := l, tok := l.map fun e => e.2, rest := 0, spill := 0, next := none }
      { q with rest := q.rest? }
  | none =>
      let bs := (p.share.zip p.tok).map fun e => refillBucket e.2 e.1.2
      let r := refillBucket p.rest p.rest?
      let over' := (bs.map fun b => b.2).foldl (· + ·) 0 + r.2
      { p with tok := bs.map (fun b => b.1), rest := r.1, spill := min (p.spill + over') 2048 }

/-- PORT_INTERVAL_REFILL (R377). -/
def execPortIntervalRefill (port : Nat) (s : State) : Host.Outcome State Fault Refusal :=
  if 96 * Config.dies ≤ port then .next s
  else .next { s with ports := Tab.set s.ports port (Tab.getD s.ports port Port.reset).interval }

/-- Passes up to n of the requests, in the order given (R378). -/
def Port.pass (p : Port) : Nat → List PReq → Port
  | _, [] => p
  | n, r :: rs =>
      match n, p.spend r.ctx with
      | 0, _ => { p with wait := p.wait ++ r :: rs }
      | m + 1, some q => Port.pass q m rs
      | m + 1, none => Port.pass { p with wait := p.wait ++ [r] } (m + 1) rs

/-- Back in order of arrival. -/
def reorder (was now : List PReq) : List PReq := was.filter fun r => now.contains r

/-- PORT_ARBITRATE (R378): urgent before unmarked, older first, up to two. A request whose access is gone
leaves the port. -/
def execPortArbitrate (port : Nat) (s : State) : Host.Outcome State Fault Refusal :=
  let p := Tab.getD s.ports port Port.reset
  let here (r : PReq) : Bool := (s.core r.core).pends.any (fun x => x.uid == r.uid) || (s.core r.core).storeQ.any (fun x => x.uid == r.uid)
    || (s.core r.core).cmds.any fun d => d.asks.any fun a => a.1 == r.uid
  let w := p.wait.filter here
  let q := Port.pass { p with wait := [] } 2 (w.filter (fun r => r.urg) ++ w.filter fun r => !r.urg)
  if p.wait.isEmpty then .next s
  else .next { s with ports := Tab.set s.ports port { q with wait := reorder w q.wait } }

/-! ## Controllers -/

/-- Erropex unit, die and instance of a controller (20 R410). -/
def stkUnit (k : Nat) : Nat × Nat × Nat := if k < 8 then (7, k / 4, k) else (8, k - 8, 0)
def State.eroStk (s : State) (k etype detail : Nat) : State :=
  s.ero (stkUnit k).1 (stkUnit k).2.1 (stkUnit k).2.2 etype 0xFFFF detail

/-- Address of a line of a controller: by R393 for a stack; an LP line is numbered by its place in the tier
(log 20). -/
def lineAt (k line : Nat) : Nat := if k < 8 then lineAddr k line else 0x10000000000 + 64 * line

/-- A line that the controller holds. -/
def lineOk (k line : Nat) : Bool :=
  if k < 8 then line < 2 ^ 30 else k < 10 && line < 2 ^ 34 && lpDie (lineAt k line) == k - 8

/-- The bank of a line of a controller, with its channel as the low part: PA[11:7] for a stack (R393), a channel of its own
for an LP line (log 20). -/
def bankAt (k line : Nat) : Nat :=
  Config.channels * Config.bankOf line + (if k < 8 then chanOf (lineAddr k line) else Config.lpChannel line % Config.channels)
/-- The channel of a bank. -/
def bankChan (bank : Nat) : Nat := bank % Config.channels
/-- The die of a controller. -/
def stkDie (k : Nat) : Nat := if k < 8 then k / 4 else k - 8

/-! ## The packet link (19 R394 to R396) -/

/-- A packet carries the line as its slice holds it: the bytes that its mask names stand in memory. -/
def State.asHeld (s : State) (k line : Nat) (mask : BitVec 64) (data : List Byte) : Bool :=
  let now := Memory.readN s.mem (lineAt k line) 64
  !s.poisoned (lineAt k line) 64 && (List.range 64).all fun i => !mask.getLsbD i || data.getD i 0 == now.getD i 0

/-- A request arrives on the link, unless its tag is in use: then it waits on the compute die (R394). -/
def State.linkSend (s : State) (k : Nat) (r : LReq) : State :=
  let q := s.stk k
  if 1024 ≤ r.tag || !lineOk k r.line || q.queue.any fun x => x.tag == r.tag then s
  else
    let s := s.tickStk k
    let s := s.message (unitOf (lineAt k r.line)) (unitKey (stkUnit k).1 (stkUnit k).2.1 (stkUnit k).2.2)
    s.modStk k fun q => { q with queue := q.queue ++ [r], replies := Tab.erase q.replies r.tag }

/-- A packet of 64 payload bytes. -/
def linePad (bs : List Byte) : List Byte := (bs ++ List.replicate 64 0).take 64

/-- LINK_READ (R394). -/
def execLinkRead (stk tag line : Nat) (urg brst : Bool) (s : State) : Host.Outcome State Fault Refusal :=
  .next (s.linkSend stk { tag := tag, op := 0, line := line, urg := urg, brst := brst, waited := false, mask := 0, data := [], atom := none,
                          acc := none, back := false })

/-- LINK_WRITE (R394). -/
def execLinkWrite (stk tag line : Nat) (brst : Bool) (data : List Byte) (s : State) : Host.Outcome State Fault Refusal :=
  .next (s.linkSend stk { tag := tag, op := 1, line := line, urg := false, brst := brst, waited := false, mask := 0,
                          data := linePad data, atom := none, acc := none, back := s.asHeld stk line (.allOnes 64) (linePad data) })

/-- LINK_MASKED_WRITE (R394). -/
def execLinkMaskedWrite (stk tag line : Nat) (brst : Bool) (mask : BitVec 64) (data : List Byte) (s : State) :
    Host.Outcome State Fault Refusal :=
  .next (s.linkSend stk { tag := tag, op := 2, line := line, urg := false, brst := brst, waited := false, mask := mask,
                          data := linePad data, atom := none, acc := none, back := s.asHeld stk line mask (linePad data) })

/-- The type of a link atomic (R394; 09 R211); none for a pair the compute die never sends. -/
def linkTy (o : AtomOp) (kind : BitVec 2) (w64 : Bool) (off : Nat) : Option AtomTy :=
  let n := if w64 then 8 else 4
  match (AtomTy.ofCodes (if w64 then 3 else 2) kind).toOption with
  | some t =>
      let fit := match t with
        | .i32 | .i64 => o.code.toNat < 8
        | .n32 | .n64 => true
        | _ => o.code.toNat < 3
      if fit && off % n == 0 then some t else none
  | none => none

/-- The atomic in flight of a core that a home slice may forward as such a packet (R395): nothing comes before it, and none
stands for it on the link. -/
def State.forwarded (s : State) (k line : Nat) (o : AtomOp) (t : AtomTy) (off opnd new : Nat) : Option (Nat × Nat) :=
  (s.cores.flatMap fun e => (e.2.pends.filter fun p => match p.src with
    | .load { act := .atom o' t' _ b d _, .. } (.mem pa) =>
        o' == o && t' == t && pa == lineAt k line + off && b == opnd % 2 ^ t.w && (o != .cas || d == new % 2 ^ t.w)
          && !p.aside && !s.inPort e.1 p.uid && (match e.2.outs.find? fun y => y.uid == p.uid with
            | some y => (e.2.before y).isEmpty
            | none => false)
          && !(s.stks.any fun q => q.2.queue.any fun r => r.acc == some (e.1, p.uid))
    | _ => false).map fun p => (e.1, p.uid)).head?

/-- LINK_ATOMIC (R394): a packet that no compute die sends is discarded with an event. -/
def execLinkAtomic (stk tag line : Nat) (o : AtomOp) (kind : BitVec 2) (w64 : Bool) (off : BitVec 6) (opnd new : BitVec 64)
    (s : State) : Host.Outcome State Fault Refusal :=
  match linkTy o kind w64 off.toNat with
  | none => .next (s.eroStk stk 12 line)
  | some t => .next (s.linkSend stk
      { tag := tag, op := 3, line := line, urg := false, brst := false, waited := false, mask := 0, data := [],
        atom := some (o, kind, w64, off, opnd, new), acc := s.forwarded stk line o t off.toNat opnd.toNat new.toNat, back := false })

/-- A read in flight of a line that a core has marked urgent (06 R155). -/
def State.urgentLine (s : State) (k line : Nat) : Bool :=
  s.cores.any fun e => e.2.pends.any fun p => p.urgent && (match p.src with
    | .load a (.mem pa) => decide (pa / 64 ≤ lineAt k line / 64) && decide (lineAt k line / 64 ≤ (pa + a.size - 1) / 64)
    | .tile _ _ _ _ _ _ ps => ps.any fun q => match q.2.1 with
        | .mem pa => decide (pa / 64 ≤ lineAt k line / 64) && decide (lineAt k line / 64 ≤ (pa + q.2.2 - 1) / 64)
        | _ => false
    | _ => false)

/-- URGENCY_NOTICE (R394, R396): the request stands for a read that a core has marked (06 R155); ignored once the read has
replied. It reaches the LP controllers too (R404). -/
def execUrgencyNotice (stk tag : Nat) (s : State) : Host.Outcome State Fault Refusal :=
  let mark (r : LReq) : LReq := if r.tag = tag ∧ r.op = 0 ∧ s.urgentLine stk r.line then { r with urg := true } else r
  if 10 ≤ stk || (s.stk stk).queue.all fun r => mark r == r then .next s
  else .next (s.modStk stk fun q => { q with queue := q.queue.map mark })

/-- REQUEST_WAITED_2US (R396). -/
def execRequestWaited2us (stk tag : Nat) (s : State) : Host.Outcome State Fault Refusal :=
  let mark (r : LReq) : LReq := if r.tag = tag then { r with waited := true } else r
  if 10 ≤ stk || (s.stk stk).queue.all fun r => mark r == r then .next s
  else .next (s.modStk stk fun q => { q with queue := q.queue.map mark })

/-- A request's own class (R396). -/
def LReq.own (r : LReq) : Nat := if (r.op == 0 && r.urg) || r.waited then 2 else 4
/-- Its class with the reads held behind it on its line (R396). -/
def Stk.cls (k : Stk) (r : LReq) : Nat :=
  let later := (k.queue.dropWhile fun x => x.tag != r.tag).drop 1
  (later.filter fun x => x.line == r.line && x.op == 0).foldl (fun c x => min c x.own) r.own
/-- No earlier request to its line is waiting (R395). -/
def Stk.heads (k : Stk) (r : LReq) : Bool := !((k.queue.takeWhile fun x => x.tag != r.tag).any fun x => x.line == r.line)
/-- Requests of a bank that could go next. -/
def Stk.ofBank (q : Stk) (k b : Nat) : List LReq := q.queue.filter fun x => bankAt k x.line == b && q.heads x

/-- The banks in which a frame of a save area on a stack has its lines (R403). -/
def Ctx.frameBanks (x : Ctx) (k fr : Nat) : List Nat :=
  (List.range 64).map fun i => bankAt k (lineOf (x.svbase + 4096 * fr + 64 * i))
/-- Banks in which an admitted segment of a save has a line (R396, R403). -/
def State.segBanks (s : State) (k : Nat) : List Nat :=
  (s.stk k).segs.flatMap fun g => match s.ctx? g.1 with
    | some x => x.frameBanks k g.2.1
    | none => []

/-- A pending change starts now (R402). -/
def Stk.changeDue (q : Stk) : Bool :=
  match q.running, q.pend with
  | none, some (_, lim) => q.segs.isEmpty || decide (lim ≤ q.now)
  | _, _ => false
/-- The retraining interval has expired, and no retraining has begun for it (R399). -/
def State.retrainDue (s : State) (k : Nat) : Bool :=
  let us := (s.die (stkDie k)).retrain.toNat
  us != 0 && (s.stk k).training.isNone && decide ((s.stk k).rtFrom + 10 * us ≤ (s.stk k).now)
/-- Class 1 of R396 stands before every request of a bank: a change of the data rate, periodic recalibration of its channel,
or a forced refresh. -/
def State.firstClass (s : State) (k b : Nat) : Bool :=
  let q := s.stk k
  q.running.isSome || q.changeDue || s.retrainDue k || q.training == some (bankChan b) || q.forced.contains b

/-- How a bank may grant a read, or a request, now (R396): as the oldest of the first class that is not empty, or as a
younger one of that class that hits the open row, after fewer than 16 such grants in a row. -/
def State.grant (s : State) (k : Nat) (r : LReq) : Option Nat :=
  let q := s.stk k
  let b := bankAt k r.line
  let row := Config.rowOf r.line
  let c := q.cls r
  let rivals := q.ofBank k b
  if s.firstClass k b || !q.heads r || rivals.any (fun x => q.cls x < c) then none
  else if c = 4 ∧ (s.segBanks k).contains b then none
  else
    let first := match rivals.find? fun x => q.cls x == c with
      | some x => x.tag == r.tag
      | none => true
    match Tab.get? q.rows b with
    | some (open', n) => if first then some 0 else if open' = row ∧ n < 16 then some (n + 1) else none
    | none => if first then some 0 else none

/-- A forwarded atomic is performed for its access, unless that is gone (R395). -/
def State.doForwarded (s : State) (c uid : Nat) : State :=
  if ((s.core c).pend? uid).isSome then s.performAcc c uid else s

/-- Performs a request at the base die: the status and the data of its reply (R394, R395, R406). A read may
be of a corrected line, as a free choice. A line as its slice holds it, which may hold newer data by now, changes nothing
(log 20). -/
def State.linkDo (s : State) (k : Nat) (r : LReq) : (Nat × List Byte) × State :=
  let a := lineAt k r.line
  let bad := s.poisoned a 64
  match r.op with
  | 0 =>
      if bad then
        let (v, s) := s.draw
        ((2, leBytes 64 v), s)
      else
        let (fix, s) := s.drawBool
        let bs := Memory.readN s.mem a 64
        if fix then ((1, bs), s.eroStk k 1 a) else ((0, bs), s)
  | 1 => ((0, []), if r.back then s else s.writePa a r.data)
  | 2 =>
      if bad then ((2, []), s.eroStk k 12 a)
      else
        let old := Memory.readN s.mem a 64
        let new := (List.range 64).map fun i => if r.mask.getLsbD i then r.data.getD i 0 else old.getD i 0
        ((0, []), if r.back then s else s.writePa a new)
  | _ =>
      match r.atom with
      | none => ((0, []), s)
      | some (o, kind, w64, off, opnd, new) =>
          let n := if w64 then 8 else 4
          match linkTy o kind w64 off.toNat with
          | none => ((0, []), s)
          | some t =>
              let old := Memory.readLe s.mem (a + off.toNat) n
              match r.acc with
              | some x => ((if bad then 2 else 0, if bad then [] else leBytes 8 old), s.doForwarded x.1 x.2)
              | none =>
              if bad then ((2, []), s)
              else
                let v := atomNew o t old (opnd.toNat % 2 ^ (8 * n)) (new.toNat % 2 ^ (8 * n))
                ((0, leBytes 8 old), s.writePa (a + off.toNat) (leBytes n v))

/-- Reads in flight of a line, by core and name. -/
def State.readers (s : State) (pa : Nat) : List (Nat × Nat) :=
  s.cores.flatMap fun e => (e.2.pends.filter fun p => !p.aside && (match p.src with
    | .load a (.mem x) => decide (x / 64 ≤ pa / 64) && decide (pa / 64 ≤ (x + a.size - 1) / 64)
    | _ => false)).map fun p => (e.1, p.uid)

/-- LINK_REPLY (R394 to R396): the request of a tag is performed where its bank may grant it, and replies. Status 2 makes the
accesses that wait on a read of the line trap. -/
def execLinkReply (stk tag : Nat) (s : State) : Host.Outcome State Fault Refusal :=
  match (s.stk stk).queue.find? fun r => r.tag == tag with
  | none => .next s
  | some r =>
      match s.grant stk r with
      | none => .next s
      | some n =>
          let s := s.tickStk stk
          let (rep, s) := s.linkDo stk r
          let s := if rep.1 = 2 ∧ r.op = 0 then (s.readers (lineAt stk r.line)).foldl (fun s e => s.performAcc e.1 e.2) s else s
          let s := s.message (unitKey (stkUnit stk).1 (stkUnit stk).2.1 (stkUnit stk).2.2) (unitOf (lineAt stk r.line))
          .next (s.modStk stk fun q =>
            { q with queue := q.queue.filter (fun x => x.tag != tag), replies := Tab.set q.replies tag rep,
                     rows := Tab.set q.rows (bankAt stk r.line) (Config.rowOf r.line, n) })

/-! ## Refresh and retraining (19 R397 to R399) -/

/-- A recalibration of a channel ends: one that fails is recorded and leaves so many retries (R399). -/
def State.recal (s : State) (k ch left : Nat) (failed : Bool) : State :=
  if failed then
    (s.modStk k fun q => { q with err := q.err ||| 1, tfail := q.tfail + 1, retry := Tab.put 0 q.retry ch left }).eroStk k 6 ch
  else s.modStk k fun q => { q with retry := Tab.put 0 q.retry ch 0 }

/-- A channel is refreshed: a failed recalibration is tried again at each of its next three refreshes (R399). Whether it
fails again is a free choice. -/
def State.retryChan (s : State) (k ch : Nat) : State :=
  let n := Tab.getD (s.stk k).retry ch 0
  if n = 0 then s
  else
    let (bad, s) := s.drawBool
    s.recal k ch (n - 1) bad

/-- A bank is refreshed: its row closes (R398). -/
def State.refresh (s : State) (k bank : Nat) : State :=
  (s.modStk k fun q => { q with rows := Tab.erase q.rows bank }).retryChan k (bankChan bank)

/-- Every bank of a channel is refreshed; what was forced is done with it. -/
def Stk.allBanks (q : Stk) (ch : Nat) : Stk :=
  { q with rows := q.rows.filter (fun e => bankChan e.1 != ch), forced := q.forced.filter fun b => bankChan b != ch }

/-- A bank's count of postponed refreshes changes. -/
def Stk.addPost (k : Stk) (bank : Nat) (d : Int) : Stk :=
  { k with post := Tab.put (0 : Int) k.post bank (Tab.getD k.post bank 0 + d) }

/-- A due refresh is put off: it counts, or is forced where the count would pass +8 (R397). -/
def Stk.postpone (q : Stk) (bank : Nat) : Stk :=
  if Tab.getD q.post bank 0 < 8 then q.addPost bank 1 else { q with forced := q.forced ++ [bank] }

/-- An all-bank refresh of the bank's channel that has not stood for a due refresh of the bank yet (R399). -/
def Stk.covered (q : Stk) (bank : Nat) : Bool :=
  decide (Tab.getD q.seenAll bank 0 < Tab.getD q.allRef (bankChan bank) 0)

/-- REFRESH_DUE (R397): the due refresh is performed; or one that was pulled in, or an all-bank refresh of a retraining
(R399), stands for it; or, with requests waiting or no command issued to the bank, it is postponed, or forced where the
count would pass +8; an idle bank may pull one in early. Which happens is a free choice. -/
def execRefreshDue (stk bank : Nat) (s : State) : Host.Outcome State Fault Refusal :=
  if 10 ≤ stk then .next s
  else
    let s := s.tickStk stk
    let q := s.stk stk
    let c := Tab.getD q.post bank 0
    let busy := (q.queue.any fun r => bankAt stk r.line == bank) || (s.segBanks stk).contains bank
    let shut := q.running.isSome || q.training == some (bankChan bank)
    let (now, s) := s.drawBool
    let (more, s) := s.drawBool
    if q.forced.contains bank then .next s
    else if q.covered bank then
      .next (s.modStk stk fun q => { q with seenAll := Tab.put 0 q.seenAll bank (Tab.getD q.seenAll bank 0 + 1) })
    else if c < 0 ∧ !now then .next (s.modStk stk fun q => q.addPost bank 1)
    else if shut ∨ (busy ∧ !now) then .next (s.modStk stk fun q => q.postpone bank)
    else
      let s := s.refresh stk bank
      if more ∧ !busy ∧ -8 < c then .next ((s.refresh stk bank).modStk stk fun q => q.addPost bank (-1)) else .next s

/-- FORCED_REFRESH (R398): not while a change of the data rate runs, which refreshes every bank (R402). -/
def execForcedRefresh (stk bank : Nat) (s : State) : Host.Outcome State Fault Refusal :=
  if !(s.stk stk).forced.contains bank || (s.stk stk).running.isSome then .next s
  else
    let s := (s.tickStk stk).modStk stk fun q => { q with forced := q.forced.filter fun b => b != bank }
    .next (s.refresh stk bank)

/-- RETRAIN_INTERVAL_EXPIRY (R399): counted by the controller's own clock from the last expiry or the last
write of `RETRAIN`; then the channels are retrained one at a time, each with an all-bank refresh that counts as its due
one. The first such event begins at channel 0, and each later one ends a channel's recalibration. -/
def execRetrainIntervalExpiry (stk : Nat) (failed : Bool) (s : State) : Host.Outcome State Fault Refusal :=
  let us := (s.die (stkDie stk)).retrain.toNat
  let q := s.stk stk
  let due := q.rtFrom + 10 * us
  if 10 ≤ stk || q.running.isSome then .next s
  else match q.training with
    | some ch =>
        let s := s.modStk stk fun q => { q.allBanks ch with
          allRef := Tab.put 0 q.allRef ch (Tab.getD q.allRef ch 0 + 1)
          training := if ch + 1 < Config.channels then some (ch + 1) else none }
        .next (s.recal stk ch 3 failed)
    | none =>
        let q := q.tick (due - q.now)
        if us == 0 || q.now < due then .next s
        else .next (s.modStk stk fun _ => { q with rtFrom := due, retry := [], training := some 0 })

/-! ## The data rate (19 R400 to R402) -/

/-- Four refresh intervals, in tenths of a microsecond (R401). -/
def rateLimit : Nat := 156

/-- A value written to `STKRATE` (R401). -/
def Stk.setRate (k : Stk) (v : Nat) : Stk :=
  let k := { k with reg := BitVec.ofNat 64 v }
  match k.running, k.pend with
  | some _, _ => { k with nextReq := some v }
  | none, some (_, lim) => if v = k.rate then { k with pend := none } else { k with pend := some (v, lim) }
  | none, none => if v = k.rate then k else { k with pend := some (v, k.now + rateLimit) }

/-- A change is over: a request written meanwhile becomes a new one (R401, R402). -/
def Stk.endChange (k : Stk) : Stk :=
  let r := k.nextReq
  let k := { k with running := none, nextReq := none, rows := [] }
  match r with
  | some v => k.setRate v
  | none => k

/-- DATA_RATE_CHANGE (R402): a pending change starts once no admitted segment is unperformed or at its limit, and every bank
is refreshed; a running one ends, at the new rate or, where the recalibration failed, at the previous one. -/
def execDataRateChange (stk : Nat) (failed : Bool) (s : State) : Host.Outcome State Fault Refusal :=
  let q := s.stk stk
  match q.running, q.pend with
  | some r, _ =>
      if failed then
        .next ((s.modStk stk fun q => { q with err := q.err ||| 1, tfail := q.tfail + 1 : Stk }.endChange).eroStk stk 6 r)
      else .next (s.modStk stk fun q => ({ q with rate := r } : Stk).endChange)
  | none, some (r, lim) =>
      let q := q.tick (lim - q.now)
      let late := !q.segs.isEmpty
      let s := s.modStk stk fun _ => { q with pend := none, running := some r, rows := [], forced := [],
                                              err := if late then q.err ||| 2 else q.err }
      .next ((List.range Config.channels).foldl (fun s ch => s.retryChan stk ch) s)
  | none, none => .next s

/-! ## Segments of a deadline save (19 R403) -/

/-- A free frame of the save area on a stack, and one in no stack at all, for which R403 gives no rule of admission
(log 20). -/
def State.saveFrame (s : State) (c : Nat) (x : Ctx) (k : Nat) : Option Nat :=
  freeFrameOf (s.usedSave c x) (fun i => inHbm (x.svbase + 4096 * i) && stackOf (x.svbase + 4096 * i) == k) (x.svsize / 4096) 0
def State.offFrame (s : State) (c : Nat) (x : Ctx) : Option Nat :=
  freeFrameOf (s.usedSave c x) (fun i => !inHbm (x.svbase + 4096 * i)) (x.svsize / 4096) 0

/-- A segment is performed in a frame. -/
def State.putSeg (s : State) (ctx : Nat) (x : Ctx) (left fr : Nat) (done : List (Nat × List Byte)) (bs : List Byte) : State :=
  (s.writePa (x.svbase + 4096 * fr) bs).modCtx ctx fun x => { x with save := some (left, done ++ [(fr, bs)]) }

/-- Admits one segment: bound for a stack, on it or on the lowest one that admits it; or, for a frame in no stack,
performs it. -/
def State.admitSeg (s : State) (ctx : Nat) (x : Ctx) (stack left : Nat) (done : List (Nat × List Byte)) : State :=
  let fits (k : Nat) : Bool := (s.stk k).admits && (s.saveFrame ctx x k).isSome
  let go := if fits stack then some stack else (List.range 8).find? fits
  match left with
  | 0 => s
  | n + 1 =>
      let (v, s) := s.draw
      if 8 ≤ stack then
        match s.offFrame ctx x with
        | some fr => s.putSeg ctx x n fr done (leBytes 4096 v)
        | none => s
      else match go.bind fun k => (s.saveFrame ctx x k).map fun fr => (k, fr) with
        | some (k, fr) =>
            (s.modStk k fun q => { q with segs := q.segs ++ [(ctx, fr, leBytes 4096 v)] }).modCtx ctx fun x => { x with save := some (n, done) }
        | none => s

/-- Nothing of a higher class stands before a segment in the banks that it writes (R396). -/
def State.segReady (s : State) (k : Nat) (x : Ctx) (fr : Nat) : Bool :=
  (x.frameBanks k fr).all fun b => !s.firstClass k b && ((s.stk k).ofBank k b).all fun r => decide (3 < (s.stk k).cls r)

/-- DEADLINE_SAVE_SEGMENT (R403): a segment bound for a stack is admitted there, or on the lowest stack that
admits it, or waits; an admitted segment is performed in its class. Which happens first is a free choice. -/
def execDeadlineSaveSegment (ctx stack : Nat) (s : State) : Host.Outcome State Fault Refusal :=
  match s.ctx? ctx with
  | none => .next s
  | some x =>
      match x.save with
      | none => .next s
      | some (left, done) =>
          let s := s.tickStk stack
          let (go, s) := s.drawBool
          match (s.stk stack).segs with
          | (c, fr, bs) :: rest =>
              if c = ctx ∧ (go ∨ left = 0) ∧ s.segReady stack x fr then
                .next ((s.modStk stack fun q => { q with segs := rest }).putSeg ctx x left fr done bs)
              else .next (s.admitSeg ctx x stack left done)
          | [] => .next (s.admitSeg ctx x stack left done)

/-! ## Patrol scrubbing and repair (19 R406; 20 R417) -/

/-- A scrub read, a request of class 4 (R396, R406). -/
def LReq.scrub (line : Nat) : LReq :=
  { tag := 1024, op := 0, line := line, urg := false, brst := false, waited := false, mask := 0, data := [], atom := none, acc := none,
    back := false }

/-- PATROL_SCRUB (R406): where the bank may grant it, the line is read: a corrected line is written back unless a later write has come; an uncorrectable one
enters the poison map. -/
def execPatrolScrub (stk line : Nat) (res : BitVec 2) (s : State) : Host.Outcome State Fault Refusal :=
  let a := lineAt stk line
  if !lineOk stk line then .next s
  else match s.grant stk (LReq.scrub line) with
  | none => .next s
  | some n =>
    let s := s.modStk stk fun q => { q with patrol := line + 1, rows := Tab.set q.rows (bankAt stk line) (Config.rowOf line, n) }
    if s.poisoned a 64 then .next s
    else if res = 1 then .next (s.eroStk stk 1 a)
    else if res = 2 then .next ({ s with poison := insertNat a s.poison }.eroStk stk 4 a)
    else .next s

/-- POST_PACKAGE_REPAIR (R417): a poisoned line of a stack that no context uses reads as zero and leaves the
poison map; the repair map and the record take it. -/
def execPostPackageRepair (stk line : Nat) (s : State) : Host.Outcome State Fault Refusal :=
  let a := lineAddr stk line
  let used := s.ctxs.any fun e => e.2.cst == 1 || e.2.cst == 2
  if 8 ≤ stk || 2 ^ 30 ≤ line || used || !s.poisoned a 64 then .next s
  else
    let s := s.writePa a (List.replicate 64 0)
    let note (h : HostWin) : HostWin := { h with repairs := h.repairs ++ [leBytes 4 stk ++ leBytes 4 line] }
    .next ({ s with host := note s.host }.eroStk stk 1 a)

end Sys2Proof.Machine
end

