-- ==== Sys2Proof/Machine/Reliability.lean ====
section
/-! DEFINITION. Faults and repairs, halts and resets, the host register window, readback, firmware,
attestation, attachment, power, and pages received from a peer (08 R191; 15 R336; 16 R339; 19 R400, R401,
R405; 20 R407 to R423). -/

namespace Sys2Proof.Machine

/-! ## Halts and resets (20 R408, R412) -/

/-- A die halts and its record freezes. -/
def State.haltDie (s : State) (die cause : Nat) : State :=
  s.modDie die fun d => { d with halted := cause, ero := { d.ero with frozen := true } }

/-- The unit whose control logic miscompares: a core's scheduler, Meridian, Erg, Barchan or the distributor (R407, R410),
which one as a free choice. -/
def State.miscompared (s : State) : (Nat × Nat) × State :=
  let (v, s) := s.draw
  (match v % 5 with
   | 0 => (1, v / 5 % 96)
   | 1 => (3, 0)
   | 2 => (4, 0)
   | 3 => (5, 0)
   | _ => (6, 0), s)

/-- DIE_HALT (R408): a control miscompare or the thermal trip, the last event of the record. -/
def execDieHalt (die : Nat) (thermal : Bool) (s : State) : Host.Outcome State Fault Refusal :=
  if Config.dies ≤ die || (s.die die).halted != 0 then .next s
  else
    let (u, s) := s.miscompared
    let s := if thermal then s.ero 14 die 0 13 0xFFFF 0 else s.ero u.1 die u.2 3 0xFFFF 0
    .next (s.haltDie die (if thermal then 2 else 1))

/-- A die in warm reset: its record and its weight store stay (R408, R409). -/
def Die.warm (d : Die) : Die :=
  { Die.reset with ero := d.ero, weights := d.weights, wpoison := d.wpoison, halted := 4 }

/-- A warm reset ends: a set `halt` bit halts the die again, and freezes its record (R408, R409, R412). -/
def State.endWarm (s : State) (die : Nat) : State :=
  if s.host.errctl.getLsbD die then s.haltDie die 3 else s.modDie die fun d => { d with halted := 0 }

/-- WARM_RESET (R408): no context with a core on the die goes on; cores, ports and the intervals of the
controllers start again. The die stays in reset, which `DIESTAT` shows, until the next such event ends it (log 21). -/
def execWarmReset (die : Nat) (s : State) : Host.Outcome State Fault Refusal :=
  if Config.dies ≤ die then .next s
  else if (s.die die).halted = 4 then .next (s.endWarm die)
  else
    let hit := s.ctxs.filter fun e => (e.2.cst == 1 || e.2.cst == 2) && e.2.coreList.any fun c => c / 96 == die
    let s := hit.foldl (fun s e => s.killCtx e.1) s
    let s := { s with cores := s.cores.filter (fun e => e.1 / 96 != die), ctlb := s.ctlb.filter (fun e => e.1 / 4 != die),
                      ports := s.ports.filter (fun e => e.1 / 96 != die) }
    let s := (dieStks die).foldl (fun s k => s.modStk k fun q => { q with rtFrom := q.now, retry := [], training := none }) s
    .next (s.modDie die Die.warm)

/-- COLD_RESET (R412, R417; 01 R22, R25): memory, attached devices, repairs and spared lanes stay (log 21). -/
def execColdReset (s : State) : Host.Outcome State Fault Refusal :=
  let host : HostWin := { HostWin.reset with repairs := s.host.repairs, spares := s.host.spares }
  .next { State.reset with mem := s.mem, poison := s.poison, cxl := s.cxl, host := host, picks := s.picks, free := s.free,
                           uid := s.uid, wid := s.wid, hseq := s.hseq }

/-! ## Faults (20 R407; 19 R405; 08 R191) -/

/-- Where a patrol read of SRAM lands: the address names a store of the core (0 local store, 1 accumulator
store, 2 a register) or a line of the L2 slice (3) in its low two bits (log 19). -/
def State.sramPoison (s : State) (c addr : Nat) : State :=
  let a := addr / 4
  match addr % 4 with
  | 0 =>
      let e := (a / 2 ^ 22 % 16, a % 2 ^ 22 / 4 * 4)
      if (s.team? c e.1).isSome then s.modCore c fun k => if k.spoison.contains e then k else { k with spoison := e :: k.spoison } else s
  | 1 =>
      let n := a % (Config.accBytes / 4)
      let bad (e : Engine) : Engine := if e.tpoison.contains n then e else { e with tpoison := n :: e.tpoison }
      s.modCore c fun k => { k with eng := bad k.eng }
  | 2 =>
      let slot := a % 16
      let o := a / 16 % 1024
      let n := a / 2 ^ 14 % 256
      let r : RegAt := match a / 2 ^ 22 % 5 with
        | 0 => .v o n
        | 1 => .p o n
        | 2 => .s o n
        | 3 => .x o n
        | _ => .h o n
      s.modTeam c slot fun tm => if tm.rpoison.contains r then tm else { tm with rpoison := r :: tm.rpoison }
  | _ => { s with poison := insertNat (64 * a) s.poison }

/-- The patrol of a unit reaches such a place: a store of one of its cores, or a line of HBM or of the LP tier whose home is
the slice (19 R393). -/
def patrolled (die unit addr : Nat) : Bool :=
  if addr % 4 = 3 then
    let pa := 64 * (addr / 4)
    (inHbm pa || inLp pa) && homeDie pa == die && sliceOf pa == unit
  else unit < 96

/-- SRAM_PATROL (R407): a single-bit error is corrected, an uncorrectable one is met by the next read. -/
def execSramPatrol (die unit : Nat) (addr : Nat) (res : BitVec 2) (s : State) : Host.Outcome State Fault Refusal :=
  if Config.dies ≤ die || !patrolled die unit addr then .next s
  else
    let u := if addr % 4 = 3 then 2 else 1
    if res = 1 then .next (s.ero u die unit 1 0xFFFF (addr / 4))
    else if res = 2 then .next ((s.ero u die unit 2 0xFFFF (addr / 4)).sramPoison (96 * die + unit) addr)
    else .next s

/-- A check of a core's arithmetic finds a fault before write-back (R407): the word is issued again, and where the check
fails once more, as a free choice, the word traps. -/
def State.datapath (s : State) (c : Nat) : State :=
  let (again, s) := s.drawBool
  let s := s.ero 1 (c / 96) (c % 96) (if again then 2 else 1) ((s.core c).ctx.getD 0xFFFF) 0
  if again then s.modCore c fun k => { k with check := true } else s

/-- WEIGHT_STORE_REFRESH_WINDOW (R191, R407): a window begins, once every period. -/
def execWeightStoreRefreshWindow (die : Nat) (s : State) : Host.Outcome State Fault Refusal :=
  if Config.dies ≤ die then .next s else .next (s.wsEnter die)

/-- WEIGHT_STORE_WINDOW_END (R191). -/
def execWeightStoreWindowEnd (die : Nat) (s : State) : Host.Outcome State Fault Refusal :=
  if Config.dies ≤ die then .next s else .next (s.wsLeave die)

/-- A command has an end in memory that a test of physical addresses selects. -/
def State.cmdMeets (s : State) (ctx : Nat) (d : Cmd) (f : Nat → Bool) : Bool :=
  let at' (e : End) (k : AKind) (n : Nat) : Bool := match e with
    | .glob va => match s.pieces ctx k (n / 65536 + 2) va n with
        | .ok ps => ps.any fun p => f p.1
        | .error _ => false
    | _ => false
  d.begun && d.fin.isNone && d.err.isNone && (match d.kind with
    | .copy a b n _ => at' a .load n || at' b .store n
    | .mig _ _ dpa _ _ => f dpa
    | _ => false)

/-- An access of a core, or a command, that no unit has performed. -/
inductive Flight where
  | read (p : Pend)
  | store (e : SEntry)
  | cmd (d : Cmd)

/-- What a core has in flight at physical addresses that a test selects. -/
def State.flights (s : State) (c : Nat) (f : Nat → Bool) : List Flight :=
  let k := s.core c
  let there (g : Tgt) : Bool := match g with
    | .mem pa => f pa
    | _ => false
  (k.pends.filter fun p => !p.aside && (match p.src with
    | .load _ g => there g
    | .tile _ _ _ _ _ _ ps => ps.any fun q => there q.2.1
    | _ => false)).map Flight.read
  ++ (k.storeQ.filter fun e => !e.aside && e.parked.isNone && there e.tgt).map Flight.store
  ++ (k.cmds.filter fun d => s.cmdMeets (k.ctx.getD 65536) d f).map Flight.cmd

/-- A store whose device does not answer traps its threads, and stays unperformed. -/
def State.storeTrap (s : State) (c : Nat) (e : SEntry) : State :=
  let thr := if e.mem.isEmpty then [e.thr] else sortNat e.mem
  (s.setAside c [e.uid] true).raiseFor c e.slot e.uid
    { cause := .poison, code := 0, point := e.pc, mask := thr, addrs := thr.foldl (fun t x => Tab.set t x e.va) [],
      kind := .checkpoint [e.uid], hg := e.hg } thr

/-- An access ends in `POISON` (09 R206, R229): what its home group issued before it is performed first, and while some of
that is left it is not the oldest one, and waits (10 R250). `note` records the unit's event. -/
def State.failFlight (s : State) (c : Nat) (x : Flight) (note : State → State) : State :=
  let first (slot hg uid ins : Nat) (go : State → State) : State :=
    let mark := s.trapMark c slot
    let older := (s.core c).outs.filter fun y => y.slot == slot && hgOf y.thr == hg && decide (y.uid < uid) && y.ins != ins
    let t := (sortNat (older.map fun y => y.uid)).foldl (fun t u => t.performAcc c u) s
    if t.trapMark c slot != mark || (t.core c).olderLeft slot hg uid ins then t
    else go ((note t).ero 1 (c / 96) (c % 96) 2 ((t.core c).ctx.getD 0xFFFF) uid)
  match x with
  | .read p => first p.slot p.hg p.uid p.ins fun t => match p.src with
      | .tile thr _ base _ _ pc _ => t.tileTrap c p thr base pc
      | _ => t.readTrap c p.slot .poison [p]
  | .store e => first e.slot e.hg e.uid e.ins fun t => t.storeTrap c e
  | .cmd d => (note s).cmdError c d.id .poison

/-- CXL_TIMEOUT (19 R405): the k-th access of a core in flight to a CXL device ends in `POISON`: no response came within 2
ms, or, as a free choice, the device answered with poison. -/
def execCxlTimeout (core k : Nat) (s : State) : Host.Outcome State Fault Refusal :=
  match (s.flights core inCxl)[k]? with
  | none => .next s
  | some x =>
      let (port, s) := s.draw
      let (dev, s) := s.drawBool
      .next (s.failFlight core x fun s => s.ero 11 0 (port % 2) (if dev then 2 else 14) ((s.core core).ctx.getD 0xFFFF) k)

/-- An access of a core of a die that a link fails (R407): which one is a free choice. -/
def State.failAccess (s : State) (die : Nat) : State :=
  let (c, s) := s.draw
  let (j, s) := s.draw
  let core := 96 * die + c % 96
  let l := s.flights core fun _ => true
  match l[j % max 1 l.length]? with
  | some x => s.failFlight core x id
  | none => s

/-- LINK_CRC_FAILURE (R407, R417): a retry corrects it; after 16 the lane is spared; with no spare left an access
fails. -/
def execLinkCrcFailure (die unit : Nat) (tries : Nat) (s : State) : Host.Outcome State Fault Refusal :=
  let used := Tab.getD s.host.spares (unitKey 10 die unit) 0
  if Config.dies ≤ die || 512 ≤ unit then .next s
  else if tries < 16 then .next (s.ero 10 die unit 1 0xFFFF tries)
  else if used < 2 then
    let h : HostWin := { s.host with spares := Tab.set s.host.spares (unitKey 10 die unit) (used + 1)
                                     repairs := s.host.repairs ++ [leBytes 1 die ++ leBytes 2 unit] }
    .next ({ s with host := h }.ero 10 die unit 11 0xFFFF used)
  else .next ((s.ero 10 die unit 2 0xFFFF tries).failAccess die)

/-! ## Power and heat (20 R422, R423) -/

/-- POWER_THERMAL_STEP (R422): a step of 100 MHz. -/
def execPowerThermalStep (die : Nat) (up : Bool) (s : State) : Host.Outcome State Fault Refusal :=
  let mhz := (s.die die).mhz
  let to' := if up then mhz + 100 else mhz - 100
  if Config.dies ≤ die || to' == 0 || 2500 < to' then .next s
  else .next ((s.modDie die fun d => { d with mhz := to' }).ero 14 die 0 13 0xFFFF to')

/-! ## Readback (20 R413, R414, R416) -/

/-- A watch point with word j of its 32 bytes written (R416). -/
def Watch.put (w : Watch) (j : Nat) (v : DWord) : Watch :=
  match j with
  | 0 => { w with base := v.toNat % 2 ^ 57 }
  | 1 => { w with len := v.toNat % 2 ^ 32, kinds := v.extractLsb' 32 5, ctx := v.toNat / 2 ^ 48 }
  | _ => w

/-- A pending counter with a value written over it: results that it counts drop out, or some that never end come in. -/
def Thread.setCounter (th : Thread) (ctr n : Nat) : Thread :=
  let mine := th.posts.filter fun p => p.ctr == ctr
  { th with posts := (th.posts.filter fun p => p.ctr != ctr) ++ mine.take n
      ++ List.replicate (n - mine.length) { ctr := ctr, uid := 0, done := false } }

/-- The i-th thread of a core's teams takes the three counters of a word of space 4 (R414). -/
def setCounters (i v : Nat) : Tab Team → Tab Team
  | [] => []
  | e :: es =>
      let n := e.2.threads.length
      if n ≤ i then e :: setCounters (i - n) v es
      else (e.1, { e.2 with threads := e.2.threads.mapIdx fun j t =>
        if j = i then (t.1, ((t.2.setCounter 1 (v % 64)).setCounter 2 (v / 64 % 64)).setCounter 3 (v / 4096 % 64)) else t }) :: es

/-- A write of `RBDATA`: none where the selected space is not writable there (R413, R414). -/
def State.rbWrite (s : State) (v : DWord) : Option State :=
  let r := s.host.rbsel.toNat
  let c := 96 * (r / 256 % 2) + r / 512 % 512
  let ix := r / 2 ^ 18 % 2 ^ 32
  let core := decide (r / 512 % 512 < 96)
  match r % 256 with
  | 4 => if core then
        (if ix = 0 then some (s.modCore c fun k => { k with hintMiss := v.toNat })
         else if ix ≤ ((s.core c).teams.map fun e => e.2.threads.length).foldl (· + ·) 0 then
           some (s.modCore c fun k => { k with teams := setCounters (ix - 1) v.toNat k.teams })
         else none)
      else none
  | 12 =>
      if core && ix < 32 then
        some (s.modCore c fun k =>
          let w : Watch := Tab.getD k.watch (ix / 4) { base := 0, len := 0, kinds := 0, ctx := 0 }
          { k with watch := Tab.set k.watch (ix / 4) (w.put (ix % 4) v) })
      else none
  | 20 => if ix == 0 && r / 512 % 512 < Config.l2Slices then some { s with host := { s.host with l2look := v } } else none
  | _ => none

/-! ## Attestation (20 R419) -/

/-- Exactly n bytes of a list. -/
def fitBytes (n : Nat) (l : List Byte) : List Byte := (l ++ List.replicate n 0).take n

/-- Bytes [447:0] of a report. -/
def HostWin.report (h : HostWin) (nonce : List Byte) : List Byte :=
  let key := fitBytes 57 Config.fusedKey
  leBytes 4 0x54414F56 ++ leBytes 4 Config.fusedSvn.toNat ++ nonce ++ fitBytes 16 Config.fusedSerial
    ++ fitBytes 64 (Config.shake256 Config.fusedConfig) ++ fitBytes 192 (h.images.flatMap fun d => fitBytes 64 d)
    ++ fitBytes 64 (Config.shake256 h.repairs.flatten) ++ leBytes 8 (h.reports + 1) ++ key ++ leBytes 7 0

/-- A report over the buffer; `FWSTAT`[2] is set once it is performed. -/
def State.attest (s : State) (v : DWord) : State :=
  let pa := v.toNat
  let body := s.host.report (s.readPa pa 32)
  let h : HostWin := { s.host with attreq := v, reports := s.host.reports + 1, fwstat := s.host.fwstat ||| 4 }
  if s.backed pa && s.backed (pa + 1023) then
    ({ s with host := h }).writePa pa (body ++ fitBytes 114 (Config.ed448Sign (fitBytes 64 (Config.shake256 body))))
  else { s with host := { s.host with attreq := v } }

/-! ## Writes of the host register window (20 R409) -/

/-- Reserved bits of a register of the window. -/
def winRsv (off : Nat) : Nat :=
  let hi (n : Nat) : Nat := 2 ^ 64 - 2 ^ n
  if off = 0 then 0xFFF + hi 52
  else if off = 8 then hi 16
  else if off = 0x10 then 0xF0 + hi 24
  else if off = 0x18 then hi 50
  else if off = 0x28 then hi 4
  else if off = 0x30 then hi 16
  else if off = 0x38 then 0x3FF + hi 52
  else if 0x1000 ≤ off ∧ off < 0x1200 then
    (if off % 64 = 0 then hi 2 else if off % 64 = 8 then 0xF0F0 + hi 32 else if off % 64 = 16 then hi 3 else 0)
  else if 0x2000 ≤ off ∧ off < 0x4000 then (if off % 32 = 16 then hi 41 else if off % 32 = 24 then hi 0 else 0)
  else 0

/-- A write of a stack's control block (19 R400, R401). -/
def Stk.write (k : Stk) (reg : Nat) (v : DWord) : Stk :=
  match reg with
  | 0 => k.setRate v.toNat
  | 16 => { k with err := k.err &&& ~~~(v.setWidth 3) }
  | _ => k

/-- `ERRCTL`: a die whose `halt` bit is set halts; `unfrz` empties a record (R408, R409, R412). -/
def State.writeErrctl (s : State) (v : DWord) : State :=
  let s := { s with host := { s.host with errctl := v &&& 3 } }
  let unfrz (s : State) (d : Nat) : State :=
    if v.getLsbD (2 + d) then s.modDie d fun x => { x with ero := { events := [], frozen := false, uncorr := 0 } } else s
  let halt (s : State) (d : Nat) : State := if v.getLsbD d && (s.die d).halted == 0 then s.haltDie d 3 else s
  halt (halt (unfrz (unfrz s 0) 1) 0) 1

/-- A write of a register of the window (R409): one that sets a reserved bit is discarded and
recorded, and sets `bad` in a stack's block (19 R400). -/
def State.hostWrite (s : State) (off : Nat) (v : DWord) : State :=
  if off % 8 != 0 then s
  else if v.toNat &&& winRsv off != 0 then
    let s := s.ero 13 0 0 12 0xFFFF off
    if 0x1000 ≤ off ∧ off < 0x1200 then s.modStk ((off - 0x1000) / 64) fun k => { k with err := k.err ||| 4 } else s
  else if off = 0 then { s with ctxtab := v }
  else if off = 8 then ({ s with host := { s.host with ctxbell := v } }).poll v.toNat
  else if off = 0x18 then { s with host := { s.host with rbsel := v } }
  else if off = 0x20 then
    match s.rbWrite v with
    | some s => { s with host := { s.host with rbdata := v }.advance }
    | none => s
  else if off = 0x28 then s.writeErrctl v
  else if off = 0x38 then s.attest v
  else if 0x1000 ≤ off ∧ off < 0x1200 then s.modStk ((off - 0x1000) / 64) fun k => k.write (off % 64) v
  else if 0x2000 ≤ off ∧ off < 0x4000 then
    { s with host := { s.host with endp := Memory.writeLe s.host.endp (off - 0x2000) 8 v.toNat } }
  else s

/-- HOST_REGISTER_WRITE (R409). -/
def execHostRegisterWrite (off : Nat) (v : BitVec 64) (s : State) : Host.Outcome State Fault Refusal := .next (s.hostWrite off v)

/-- CTXBELL (16 R339): the context entry is read. -/
def execCtxbell (v : BitVec 64) (s : State) : Host.Outcome State Fault Refusal := .next (s.hostWrite 8 v)

/-- STKRATE (19 R401): stack k's register; the LP tier has no control block (R404). -/
def execStkrate (stk : Nat) (v : BitVec 64) (s : State) : Host.Outcome State Fault Refusal :=
  if 8 ≤ stk then .next s else .next (s.hostWrite (0x1000 + 64 * stk) v)

/-- RBDATA_READ (R413): the selected word, and the index advances. -/
def execRbdataRead (s : State) : Host.Outcome State Fault Refusal :=
  .next { s with host := { s.host with rbdata := s.rbSelected }.advance }

/-- RBDATA_WRITE (R413). -/
def execRbdataWrite (v : BitVec 64) (s : State) : Host.Outcome State Fault Refusal := .next (s.hostWrite 0x20 v)

/-- ATTREQ (R419). -/
def execAttreq (v : BitVec 64) (s : State) : Host.Outcome State Fault Refusal := .next (s.hostWrite 0x38 v)

/-- ERRCTL_HALT (R408): the host sets or clears a die's `halt` bit. -/
def execErrctlHalt (die : Nat) (on : Bool) (s : State) : Host.Outcome State Fault Refusal :=
  if Config.dies ≤ die then .next s
  else
    let bit : DWord := 1#64 <<< die
    .next (s.hostWrite 0x28 (if on then s.host.errctl ||| bit else s.host.errctl &&& ~~~bit))

/-- ERRCTL_UNFRZ (R409, R412). -/
def execErrctlUnfrz (die : Nat) (s : State) : Host.Outcome State Fault Refusal :=
  if Config.dies ≤ die then .next s else .next (s.hostWrite 0x28 (s.host.errctl ||| (4#64 <<< die)))

/-! ## Firmware (20 R418) -/

/-- An image that the boot ROM accepts. -/
def fwOk (h body : List Byte) : Bool :=
  h.length == 256 && fieldLe h 0 4 == 0x57464F56 && fieldLe h 8 8 == body.length
    && ((h.drop 16).take 64) == Config.shake256 body && fieldLe h 80 62 == 0
    && Config.fusedSvn.toNat ≤ fieldLe h 4 4
    && Config.ed448Verify ((h.drop 142).take 114) (h.take 142)

/-- FIRMWARE_VERIFY (R418): three images run once each is verified; a rejection leaves the module in recovery
mode. -/
def execFirmwareVerify (header body : List Byte) (s : State) : Host.Outcome State Fault Refusal :=
  let h := s.host
  let svn : DWord := (h.fwstat &&& 0xFF) ||| (Config.fusedSvn.setWidth 64 <<< 8)
  if 3 ≤ h.images.length || h.fwstat.getLsbD 1 then .next s
  else if fwOk header body then
    let l := h.images ++ [(header.drop 16).take 64]
    .next { s with host := { h with images := l, fwstat := if l.length = 3 then svn ||| 1 else svn } }
  else .next { s with host := { h with fwstat := svn ||| 2 } }

/-! ## Attachment (20 R420; 15 R336) -/

/-- HOST_AGENT_ACCESS (R420): a read or a write of a host agent through BAR2, BAR4 or BAR0, or of its own memory;
an uncorrectable line is read as it is, and only the window answers in recovery mode (R418). -/
def execHostAgentAccess (addr : Nat) (data : Option (List Byte)) (len : Nat) (s : State) : Host.Outcome State Fault Refusal :=
  let n := match data with
    | some bs => bs.length
    | none => len
  let last := addr + n - 1
  let one (f : Nat → Bool) : Bool := f addr && f last
  if n = 0 || !(one inHbm || one inLp || one inHost || one inWindow) || (s.host.fwstat.getLsbD 1 && !one inWindow) then .next s
  else match data with
    | some bs => .next (s.writePa addr bs)
    | none => .next (s.winSeen addr len)

/-- A page from a peer takes the lowest free page and a ring entry; a full ring or an empty pool refuses it (15 R336). -/
def State.receive (s : State) (ctx : Nat) (q : Pool) (tag : BitVec 32) (sfill : Nat) (data : List Byte) : Except Cause State := do
  let h ← s.vread ctx q.flring 8
  let tail := fieldLe h 0 4
  let used := (tail + 2 ^ 32 - fieldLe h 4 4) % 2 ^ 32
  if q.flsz ≤ used then return s
  else
    match s.allocPage ctx q with
    | (none, s) => return s
    | (some i, s) => do
        let m ← s.getPg ctx q i
        let s ← s.vwriteOn .nt .peer ctx (q.at' 0 m.frame) data
        let s ← s.modPg ctx q i fun m => { m with fill := sfill }
        let s ← s.vwriteOn .nt .peer ctx (q.flring + 64 + 16 * (tail % q.flsz)) (leBytes 4 i ++ leBytes 4 tag.toNat ++ leBytes 8 sfill)
        s.vwriteOn .nt .peer ctx q.flring (leBytes 4 ((tail + 1) % 2 ^ 32))

/-- FLOLVO_PAGE_RECEIVE (15 R336): a page that no access can place leaves nothing (log 40). -/
def execFlolvoPageReceive (ctx : Nat) (tag : BitVec 32) (sfill : Nat) (data : List Byte) (s : State) : Host.Outcome State Fault Refusal :=
  match s.tablePool ctx with
  | .error _ => .next s
  | .ok q =>
      if s.cst ctx != 1 || sfill = 0 || q.p < sfill || data.length != q.p * (q.ekv + q.eix) then .next s
      else .next ((s.receive ctx q tag sfill data).toOption.getD s)

end Sys2Proof.Machine
end

