-- ==== Sys2Proof/Machine/Dispatch.lean ====
section
/-! DEFINITION. One arm for each constructor of Instr: a direct call of its meaning. -/

namespace Sys2Proof.Machine

/-- What an instruction, or one of the device's own steps, does. -/
def exec (i : Instr) (s : State) : Host.Outcome State Fault Refusal :=
  match i with
  | .vadd h t sat d a b => Sys2Proof.Machine.execVadd h t sat d a b s
  | .vsub h t sat d a b => Sys2Proof.Machine.execVsub h t sat d a b s
  | .vmul h t sat d a b => Sys2Proof.Machine.execVmul h t sat d a b s
  | .vmulh h t d a b => Sys2Proof.Machine.execVmulh h t d a b s
  | .vmad h t sat d a b c => Sys2Proof.Machine.execVmad h t sat d a b c s
  | .vmadw h t sat d a b c => Sys2Proof.Machine.execVmadw h t sat d a b c s
  | .vdiv h t sat rem d a b => Sys2Proof.Machine.execVdiv h t sat rem d a b s
  | .vmin h t d a b => Sys2Proof.Machine.execVmin h t d a b s
  | .vmax h t d a b => Sys2Proof.Machine.execVmax h t d a b s
  | .vabs h t sat d a => Sys2Proof.Machine.execVabs h t sat d a s
  | .vneg h t sat d a => Sys2Proof.Machine.execVneg h t sat d a s
  | .vand h t d a b => Sys2Proof.Machine.execVand h t d a b s
  | .vor h t d a b => Sys2Proof.Machine.execVor h t d a b s
  | .vxor h t d a b => Sys2Proof.Machine.execVxor h t d a b s
  | .vnot h t d a => Sys2Proof.Machine.execVnot h t d a s
  | .vshl h t d a b => Sys2Proof.Machine.execVshl h t d a b s
  | .vshr h t d a b => Sys2Proof.Machine.execVshr h t d a b s
  | .vsra h t d a b => Sys2Proof.Machine.execVsra h t d a b s
  | .vrot h t d a b => Sys2Proof.Machine.execVrot h t d a b s
  | .vbfe h t d a b c => Sys2Proof.Machine.execVbfe h t d a b c s
  | .vbfi h t pos len d a b => Sys2Proof.Machine.execVbfi h t pos len d a b s
  | .vpopc h t d a => Sys2Proof.Machine.execVpopc h t d a s
  | .vclz h t d a => Sys2Proof.Machine.execVclz h t d a s
  | .vctz h t d a => Sys2Proof.Machine.execVctz h t d a s
  | .vbrev h t d a => Sys2Proof.Machine.execVbrev h t d a s
  | .vsel h t d a b c => Sys2Proof.Machine.execVsel h t d a b c s
  | .vlea h t sh d a b => Sys2Proof.Machine.execVlea h t sh d a b s
  | .vcmp h t cc d a b => Sys2Proof.Machine.execVcmp h t cc d a b s
  | .vaddc h d a b c => Sys2Proof.Machine.execVaddc h d a b c s
  | .vsubb h d a b c => Sys2Proof.Machine.execVsubb h d a b c s
  | .vmov h t d a => Sys2Proof.Machine.execVmov h t d a s
  | .vmovi h f i1 d => Sys2Proof.Machine.execVmovi h f i1 d s
  | .vprmt h d a b c => Sys2Proof.Machine.execVprmt h d a b c s
  | .vrng h d a b c => Sys2Proof.Machine.execVrng h d a b c s
  | .vrngf h d a b c => Sys2Proof.Machine.execVrngf h d a b c s
  | .vfadd h t r sat d a b => Sys2Proof.Machine.execVfadd h t r sat d a b s
  | .vfsub h t r sat d a b => Sys2Proof.Machine.execVfsub h t r sat d a b s
  | .vfmul h t r sat d a b => Sys2Proof.Machine.execVfmul h t r sat d a b s
  | .vffma h t r sat d a b c => Sys2Proof.Machine.execVffma h t r sat d a b c s
  | .vfmin h t d a b => Sys2Proof.Machine.execVfmin h t d a b s
  | .vfmax h t d a b => Sys2Proof.Machine.execVfmax h t d a b s
  | .vfcmp h t cc d a b => Sys2Proof.Machine.execVfcmp h t cc d a b s
  | .vfclass h t d a => Sys2Proof.Machine.execVfclass h t d a s
  | .vfcvt h t r sat s1 d a => Sys2Proof.Machine.execVfcvt h t r sat s1 d a s
  | .vfcvti h t r sat i2f i1 d a => Sys2Proof.Machine.execVfcvti h t r sat i2f i1 d a s
  | .vfround h t r d a => Sys2Proof.Machine.execVfround h t r d a s
  | .vfscale h t r sat d a b => Sys2Proof.Machine.execVfscale h t r sat d a b s
  | .vfpack h t r sat hi d a b => Sys2Proof.Machine.execVfpack h t r sat hi d a b s
  | .vfunpk h t hi d a => Sys2Proof.Machine.execVfunpk h t hi d a s
  | .vfdot2 h t r sat d a b c => Sys2Proof.Machine.execVfdot2 h t r sat d a b c s
  | .vfrcp h t r sat fast d a => Sys2Proof.Machine.execVfrcp h t r sat fast d a s
  | .vfrsq h t r sat fast d a => Sys2Proof.Machine.execVfrsq h t r sat fast d a s
  | .vfsqrt h t r sat fast d a => Sys2Proof.Machine.execVfsqrt h t r sat fast d a s
  | .vfdiv h t r sat fast d a b => Sys2Proof.Machine.execVfdiv h t r sat fast d a b s
  | .vfexp2 h t r sat fast d a => Sys2Proof.Machine.execVfexp2 h t r sat fast d a s
  | .vflog2 h t r sat fast d a => Sys2Proof.Machine.execVflog2 h t r sat fast d a s
  | .vfsin h t r sat fast d a => Sys2Proof.Machine.execVfsin h t r sat fast d a s
  | .vfcos h t r sat fast d a => Sys2Proof.Machine.execVfcos h t r sat fast d a s
  | .vftanh h t r sat fast d a => Sys2Proof.Machine.execVftanh h t r sat fast d a s
  | .vfsigm h t r sat fast d a => Sys2Proof.Machine.execVfsigm h t r sat fast d a s
  | .vfgelu h t r sat fast d a => Sys2Proof.Machine.execVfgelu h t r sat fast d a s
  | .vfsilu h t r sat fast d a => Sys2Proof.Machine.execVfsilu h t r sat fast d a s
  | .sadd h t sat d a b => Sys2Proof.Machine.execSadd h t sat d a b s
  | .ssub h t sat d a b => Sys2Proof.Machine.execSsub h t sat d a b s
  | .smul h t sat d a b => Sys2Proof.Machine.execSmul h t sat d a b s
  | .smad h t sat d a b c => Sys2Proof.Machine.execSmad h t sat d a b c s
  | .sand h t d a b => Sys2Proof.Machine.execSand h t d a b s
  | .sor h t d a b => Sys2Proof.Machine.execSor h t d a b s
  | .sxor h t d a b => Sys2Proof.Machine.execSxor h t d a b s
  | .sshl h t d a b => Sys2Proof.Machine.execSshl h t d a b s
  | .sshr h t d a b => Sys2Proof.Machine.execSshr h t d a b s
  | .ssra h t d a b => Sys2Proof.Machine.execSsra h t d a b s
  | .smin h t d a b => Sys2Proof.Machine.execSmin h t d a b s
  | .smax h t d a b => Sys2Proof.Machine.execSmax h t d a b s
  | .scmp h t cc d a b => Sys2Proof.Machine.execScmp h t cc d a b s
  | .ssel h t d a b c => Sys2Proof.Machine.execSsel h t d a b c s
  | .smov h t d a => Sys2Proof.Machine.execSmov h t d a s
  | .smovi h f i1 d => Sys2Proof.Machine.execSmovi h f i1 d s
  | .sfadd h t r d a b => Sys2Proof.Machine.execSfadd h t r d a b s
  | .sfmul h t r d a b => Sys2Proof.Machine.execSfmul h t r d a b s
  | .sffma h t r d a b c => Sys2Proof.Machine.execSffma h t r d a b c s
  | .sfcmp h t cc d a b => Sys2Proof.Machine.execSfcmp h t cc d a b s
  | .sfcvt h t r k d a => Sys2Proof.Machine.execSfcvt h t r k d a s
  | .sread h d a => Sys2Proof.Machine.execSread h d a s
  | .sld h w sc ch d a b => Sys2Proof.Machine.execSld h w sc ch d a b s
  | .sst h w sc ch a b c => Sys2Proof.Machine.execSst h w sc ch a b c s
  | .vtos h lane first w64 d a => Sys2Proof.Machine.execVtos h lane first w64 d a s
  | .stov h w64 d a => Sys2Proof.Machine.execStov h w64 d a s
  | .pand h na nb d a b => Sys2Proof.Machine.execPand h na nb d a b s
  | .por h na nb d a b => Sys2Proof.Machine.execPor h na nb d a b s
  | .pxor h na nb d a b => Sys2Proof.Machine.execPxor h na nb d a b s
  | .pnot h d a => Sys2Proof.Machine.execPnot h d a s
  | .pmov h d a => Sys2Proof.Machine.execPmov h d a s
  | .pset h w64 d a => Sys2Proof.Machine.execPset h w64 d a s
  | .vshfl h m seg w64 d a b v => Sys2Proof.Machine.execVshfl h m seg w64 d a b v s
  | .vvote h m d a k => Sys2Proof.Machine.execVvote h m d a k s
  | .vballot h cnt d a => Sys2Proof.Machine.execVballot h cnt d a s
  | .vredux h o t sat r d a => Sys2Proof.Machine.execVredux h o t sat r d a s
  | .vscan h o t sat excl r d a => Sys2Proof.Machine.execVscan h o t sat excl r d a s
  | .vmatch h w64 d a => Sys2Proof.Machine.execVmatch h w64 d a s
  | .vlanemap h d a => Sys2Proof.Machine.execVlanemap h d a s
  | .bra h i1 => Sys2Proof.Machine.execBra h i1 s
  | .brx h a => Sys2Proof.Machine.execBrx h a s
  | .call h i1 d => Sys2Proof.Machine.execCall h i1 d s
  | .callx h d a => Sys2Proof.Machine.execCallx h d a s
  | .ret h a => Sys2Proof.Machine.execRet h a s
  | .reform h => Sys2Proof.Machine.execReform h s
  | .rejoin h a => Sys2Proof.Machine.execRejoin h a s
  | .exit h => Sys2Proof.Machine.execExit h s
  | .yield h => Sys2Proof.Machine.execYield h s
  | .nop h => Sys2Proof.Machine.execNop h s
  | .swtrap h code => Sys2Proof.Machine.execSwtrap h code s
  | .bkpt h code => Sys2Proof.Machine.execBkpt h code s
  | .ld h w sc ch d a b => Sys2Proof.Machine.execLd h w sc ch d a b s
  | .st h w sc ch a b c => Sys2Proof.Machine.execSt h w sc ch a b c s
  | .ldl h w d a b => Sys2Proof.Machine.execLdl h w d a b s
  | .stl h w a b c => Sys2Proof.Machine.execStl h w a b c s
  | .ldcl h w d a b => Sys2Proof.Machine.execLdcl h w d a b s
  | .stcl h w a b c => Sys2Proof.Machine.execStcl h w a b c s
  | .ldro h w ch d a b => Sys2Proof.Machine.execLdro h w ch d a b s
  | .ldw h w d a b => Sys2Proof.Machine.execLdw h w d a b s
  | .pref h die ch a b => Sys2Proof.Machine.execPref h die ch a b s
  | .atom h o t ord sc d a b => Sys2Proof.Machine.execAtom h o t ord sc d a b s
  | .atoml h o t ord cl d a b => Sys2Proof.Machine.execAtoml h o t ord cl d a b s
  | .red h o t ord sc a b => Sys2Proof.Machine.execRed h o t ord sc a b s
  | .acq h sc d a => Sys2Proof.Machine.execAcq h sc d a s
  | .rel h sc a => Sys2Proof.Machine.execRel h sc a s
  | .fence h seqc sc => Sys2Proof.Machine.execFence h seqc sc s
  | .xfence h sc ca cb => Sys2Proof.Machine.execXfence h sc ca cb s
  | .bar h nf arv a => Sys2Proof.Machine.execBar h nf arv a s
  | .barcl h nf arv a => Sys2Proof.Machine.execBarcl h nf arv a s
  | .bxinit h grp cl a b => Sys2Proof.Machine.execBxinit h grp cl a b s
  | .bxowe h grp cl a b => Sys2Proof.Machine.execBxowe h grp cl a b s
  | .bxpay h grp cl sc a b => Sys2Proof.Machine.execBxpay h grp cl sc a b s
  | .bxwait h cl sc a b => Sys2Proof.Machine.execBxwait h cl sc a b s
  | .bxpoll h cl sc d a b => Sys2Proof.Machine.execBxpoll h cl sc d a b s
  | .cpyG2l h sc ch d a b x => Sys2Proof.Machine.execCpyG2l h sc ch d a b x s
  | .cpyL2g h sc ch d a b x => Sys2Proof.Machine.execCpyL2g h sc ch d a b x s
  | .cpyW2l h d a b x => Sys2Proof.Machine.execCpyW2l h d a b x s
  | .cpyo h wst ch d a b x => Sys2Proof.Machine.execCpyo h wst ch d a b x s
  | .cpyl h d a b x => Sys2Proof.Machine.execCpyl h d a b x s
  | .gkv h ix d a b x => Sys2Proof.Machine.execGkv h ix d a b x s
  | .kvpf h ix d a b x => Sys2Proof.Machine.execKvpf h ix d a b x s
  | .hwait h d a => Sys2Proof.Machine.execHwait h d a s
  | .htest h d a => Sys2Proof.Machine.execHtest h d a s
  | .hcancel h a => Sys2Proof.Machine.execHcancel h a s
  | .hmov h d a => Sys2Proof.Machine.execHmov h d a s
  | .vlob h f n1 d a => Sys2Proof.Machine.execVlob h f n1 d a s
  | .tcfg h a => Sys2Proof.Machine.execTcfg h a s
  | .macq h => Sys2Proof.Machine.execMacq h s
  | .mrel h => Sys2Proof.Machine.execMrel h s
  | .mma h d a b => Sys2Proof.Machine.execMma h d a b s
  | .mmas h d a b x => Sys2Proof.Machine.execMmas h d a b x s
  | .mmag h d a b x => Sys2Proof.Machine.execMmag h d a b x s
  | .mzero h d => Sys2Proof.Machine.execMzero h d s
  | .mld h loc ch d a b => Sys2Proof.Machine.execMld h loc ch d a b s
  | .mst h loc ch raw d a b x => Sys2Proof.Machine.execMst h loc ch raw d a b x s
  | .mrd h c col d a b => Sys2Proof.Machine.execMrd h c col d a b s
  | .mwr h c col d a b => Sys2Proof.Machine.execMwr h c col d a b s
  | .tkbeg h a => Sys2Proof.Machine.execTkbeg h a s
  | .tkpush h a b => Sys2Proof.Machine.execTkpush h a b s
  | .tkend h byidx d a => Sys2Proof.Machine.execTkend h byidx d a s
  | .wqpush h sc d a b => Sys2Proof.Machine.execWqpush h sc d a b s
  | .wqpop h nb sc d a v => Sys2Proof.Machine.execWqpop h nb sc d a v s
  | .wqlen h d a => Sys2Proof.Machine.execWqlen h d a s
  | .lacnt h sc d a b x => Sys2Proof.Machine.execLacnt h sc d a b x s
  | .fetchw h a => Sys2Proof.Machine.execFetchw h a s
  | .launch h d a => Sys2Proof.Machine.execLaunch h d a s
  | .resq h sel d => Sys2Proof.Machine.execResq h sel d s
  | .rqld h f sc d a => Sys2Proof.Machine.execRqld h f sc d a s
  | .rqst h f sc a b => Sys2Proof.Machine.execRqst h f sc a b s
  | .rqemit h sc d a b => Sys2Proof.Machine.execRqemit h sc d a b s
  | .rqstop h sc d a => Sys2Proof.Machine.execRqstop h sc d a s
  | .rqfail h sc a b => Sys2Proof.Machine.execRqfail h sc a b s
  | .rqslot h inv sc d a => Sys2Proof.Machine.execRqslot h inv sc d a s
  | .bfdone h a => Sys2Proof.Machine.execBfdone h a s
  | .kvapp h sc d a b => Sys2Proof.Machine.execKvapp h sc d a b s
  | .kvmap h ix sc d a b => Sys2Proof.Machine.execKvmap h ix sc d a b s
  | .kvinv h sc d a b x => Sys2Proof.Machine.execKvinv h sc d a b x s
  | .kvref h o sc d a => Sys2Proof.Machine.execKvref h o sc d a s
  | .kvevictLp h sc d a => Sys2Proof.Machine.execKvevictLp h sc d a s
  | .kvevictCxl h sc d a => Sys2Proof.Machine.execKvevictCxl h sc d a s
  | .kvevictPeer h sc d a b => Sys2Proof.Machine.execKvevictPeer h sc d a b s
  | .rxlook h sc d a b => Sys2Proof.Machine.execRxlook h sc d a b s
  | .rxins h sc d a b => Sys2Proof.Machine.execRxins h sc d a b s
  | .csrrd h num d => Sys2Proof.Machine.execCsrrd h num d s
  | .csrwr h num a => Sys2Proof.Machine.execCsrwr h num a s
  | .tret h => Sys2Proof.Machine.execTret h s
  | .tretSkip h => Sys2Proof.Machine.execTretSkip h s
  | .tretKill h => Sys2Proof.Machine.execTretKill h s
  | .trd h f d a => Sys2Proof.Machine.execTrd h f d a s
  | .fltrep h d a b => Sys2Proof.Machine.execFltrep h d a b s
  | .fltcancel h d a b => Sys2Proof.Machine.execFltcancel h d a b s
  | .tlbinvVa h d a b => Sys2Proof.Machine.execTlbinvVa h d a b s
  | .tlbinvCtx h d a => Sys2Proof.Machine.execTlbinvCtx h d a s
  | .tlbinvMig h d a b => Sys2Proof.Machine.execTlbinvMig h d a b s
  | .idle h a => Sys2Proof.Machine.execIdle h a s
  | .pairWord stall yld post p0 p1 => Sys2Proof.Machine.execPairWord stall yld post p0 p1 s
  | .bankroleApply core => Sys2Proof.Machine.execBankroleApply core s
  | .issueGroupDraw core => Sys2Proof.Machine.execIssueGroupDraw core s
  | .binAged core slot pc => Sys2Proof.Machine.execBinAged core slot pc s
  | .longLatencyDissolve core gid => Sys2Proof.Machine.execLongLatencyDissolve core gid s
  | .rotation core gid => Sys2Proof.Machine.execRotation core gid s
  | .waitConditionMet core slot thr => Sys2Proof.Machine.execWaitConditionMet core slot thr s
  | .variableLatencyWriteback core k => Sys2Proof.Machine.execVariableLatencyWriteback core k s
  | .urgencyMark core => Sys2Proof.Machine.execUrgencyMark core s
  | .rejoinRelease core slot hg pc => Sys2Proof.Machine.execRejoinRelease core slot hg pc s
  | .collectorFire core slot hg pc => Sys2Proof.Machine.execCollectorFire core slot hg pc s
  | .barrierRelease cl a b id => Sys2Proof.Machine.execBarrierRelease cl a b id s
  | .engineGrant core => Sys2Proof.Machine.execEngineGrant core s
  | .loadDataReturn core k => Sys2Proof.Machine.execLoadDataReturn core k s
  | .storeGloballyPerformed core k => Sys2Proof.Machine.execStoreGloballyPerformed core k s
  | .faultRingEntryWrite ctx => Sys2Proof.Machine.execFaultRingEntryWrite ctx s
  | .teamHalt core slot => Sys2Proof.Machine.execTeamHalt core slot s
  | .commandPortionArrival core id => Sys2Proof.Machine.execCommandPortionArrival core id s
  | .commandRetire core id => Sys2Proof.Machine.execCommandRetire core id s
  | .commandFailure core id => Sys2Proof.Machine.execCommandFailure core id s
  | .pageRecall ctx page => Sys2Proof.Machine.execPageRecall ctx page s
  | .pageEviction ctx => Sys2Proof.Machine.execPageEviction ctx s
  | .teamPlacement grid cores => Sys2Proof.Machine.execTeamPlacement grid cores s
  | .gridCompletion grid => Sys2Proof.Machine.execGridCompletion grid s
  | .replayBegin replay => Sys2Proof.Machine.execReplayBegin replay s
  | .kick ctx => Sys2Proof.Machine.execKick ctx s
  | .launchPacket ctx => Sys2Proof.Machine.execLaunchPacket ctx s
  | .wsload ctx => Sys2Proof.Machine.execWsload ctx s
  | .setdet ctx => Sys2Proof.Machine.execSetdet ctx s
  | .signal ctx => Sys2Proof.Machine.execSignal ctx s
  | .wait ctx => Sys2Proof.Machine.execWait ctx s
  | .meridianStep ctx => Sys2Proof.Machine.execMeridianStep ctx s
  | .meridianIdlePoll ctx => Sys2Proof.Machine.execMeridianIdlePoll ctx s
  | .ctxbell v => Sys2Proof.Machine.execCtxbell v s
  | .contextTablePoll ctx => Sys2Proof.Machine.execContextTablePoll ctx s
  | .contextRun ctx => Sys2Proof.Machine.execContextRun ctx s
  | .contextEvict ctx => Sys2Proof.Machine.execContextEvict ctx s
  | .evictionComplete ctx => Sys2Proof.Machine.execEvictionComplete ctx s
  | .contextKill ctx => Sys2Proof.Machine.execContextKill ctx s
  | .deadlineSaveSegment ctx stack => Sys2Proof.Machine.execDeadlineSaveSegment ctx stack s
  | .journalMismatch ctx => Sys2Proof.Machine.execJournalMismatch ctx s
  | .portIntervalRefill port => Sys2Proof.Machine.execPortIntervalRefill port s
  | .portArbitrate port => Sys2Proof.Machine.execPortArbitrate port s
  | .linkRead stk tag line urg brst => Sys2Proof.Machine.execLinkRead stk tag line urg brst s
  | .linkWrite stk tag line brst data => Sys2Proof.Machine.execLinkWrite stk tag line brst data s
  | .linkMaskedWrite stk tag line brst mask data => Sys2Proof.Machine.execLinkMaskedWrite stk tag line brst mask data s
  | .linkAtomic stk tag line o kind w64 off opnd new => Sys2Proof.Machine.execLinkAtomic stk tag line o kind w64 off opnd new s
  | .urgencyNotice stk tag => Sys2Proof.Machine.execUrgencyNotice stk tag s
  | .linkReply stk tag => Sys2Proof.Machine.execLinkReply stk tag s
  | .refreshDue stk bank => Sys2Proof.Machine.execRefreshDue stk bank s
  | .forcedRefresh stk bank => Sys2Proof.Machine.execForcedRefresh stk bank s
  | .retrainIntervalExpiry stk failed => Sys2Proof.Machine.execRetrainIntervalExpiry stk failed s
  | .stkrate stk v => Sys2Proof.Machine.execStkrate stk v s
  | .dataRateChange stk failed => Sys2Proof.Machine.execDataRateChange stk failed s
  | .patrolScrub stk line res => Sys2Proof.Machine.execPatrolScrub stk line res s
  | .sramPatrol die unit addr res => Sys2Proof.Machine.execSramPatrol die unit addr res s
  | .weightStoreRefreshWindow die => Sys2Proof.Machine.execWeightStoreRefreshWindow die s
  | .cxlTimeout core k => Sys2Proof.Machine.execCxlTimeout core k s
  | .linkCrcFailure die unit tries => Sys2Proof.Machine.execLinkCrcFailure die unit tries s
  | .flolvoPageReceive ctx tag sfill data => Sys2Proof.Machine.execFlolvoPageReceive ctx tag sfill data s
  | .dieHalt die thermal => Sys2Proof.Machine.execDieHalt die thermal s
  | .warmReset die => Sys2Proof.Machine.execWarmReset die s
  | .coldReset => Sys2Proof.Machine.execColdReset s
  | .powerThermalStep die up => Sys2Proof.Machine.execPowerThermalStep die up s
  | .errctlHalt die on => Sys2Proof.Machine.execErrctlHalt die on s
  | .errctlUnfrz die => Sys2Proof.Machine.execErrctlUnfrz die s
  | .rbdataRead => Sys2Proof.Machine.execRbdataRead s
  | .rbdataWrite v => Sys2Proof.Machine.execRbdataWrite v s
  | .attreq v => Sys2Proof.Machine.execAttreq v s
  | .hostRegisterWrite off v => Sys2Proof.Machine.execHostRegisterWrite off v s
  | .firmwareVerify header body => Sys2Proof.Machine.execFirmwareVerify header body s
  | .postPackageRepair stk line => Sys2Proof.Machine.execPostPackageRepair stk line s
  | .weightStoreWindowEnd die => Sys2Proof.Machine.execWeightStoreWindowEnd die s
  | .requestWaited2us stk tag => Sys2Proof.Machine.execRequestWaited2us stk tag s
  | .hostAgentAccess addr data len => Sys2Proof.Machine.execHostAgentAccess addr data len s

end Sys2Proof.Machine
end

