-- ==== Sys2Proof/Machine/Step.lean ====
section
/-! DEFINITION. One step of the module: the act at the head of the agenda, or, with nothing due, what a free choice
names (log 1); and a state placed so that the next step issues one given word (log 2). -/

namespace Sys2Proof.Machine

/-- Steps that the host register window answers, and resets: what happens in recovery mode (20 R418). -/
def ofWindow (i : Instr) : Bool :=
  match i with
  | .ctxbell .. | .stkrate .. | .warmReset .. | .coldReset | .errctlHalt .. | .errctlUnfrz .. | .rbdataRead | .rbdataWrite ..
  | .attreq .. | .hostRegisterWrite .. | .hostAgentAccess .. | .firmwareVerify .. => true
  | _ => false

/-- Parts of a core's cycle, which come in their place in it and at no other time (06 R144 to R155). -/
def ofCycle (i : Instr) : Bool :=
  match i with
  | .issueGroupDraw .. | .binAged .. | .longLatencyDissolve .. | .rotation .. | .waitConditionMet .. | .urgencyMark ..
  | .rejoinRelease .. | .collectorFire .. | .barrierRelease .. | .engineGrant .. | .teamHalt .. => true
  | _ => false

/-- The dies of a context's cores: while one of them is halted the context does not go on (20 R408). -/
def State.ctxDies (s : State) (x : Nat) : List Nat := ((s.ctx? x).map fun x => x.coreList.map fun c => c / 96).getD []
/-- Of a core, and of the context that it serves. -/
def State.coreDies (s : State) (c : Nat) : List Nat := c / 96 :: (((s.core c).ctx.map fun x => s.ctxDies x).getD [])

/-- The dies that must run for a step: that of its unit, and those of the cores of its context (20 R408). -/
def State.diesOf (s : State) (i : Instr) : List Nat :=
  let grid (g : Nat) : List Nat := ((Tab.get? s.grids g).map fun g => g.die :: s.ctxDies g.ctx).getD []
  let mer (c : Nat) : List Nat := ((s.ctx? c).map fun x => x.mer.die :: s.ctxDies c).getD []
  match i with
  | .bankroleApply c | .issueGroupDraw c | .binAged c .. | .longLatencyDissolve c .. | .rotation c .. | .waitConditionMet c ..
  | .variableLatencyWriteback c .. | .urgencyMark c | .rejoinRelease c .. | .collectorFire c .. | .engineGrant c
  | .loadDataReturn c .. | .storeGloballyPerformed c .. | .teamHalt c .. | .commandPortionArrival c .. | .commandRetire c ..
  | .commandFailure c .. | .cxlTimeout c .. => s.coreDies c
  | .barrierRelease cl a .. => if cl then grid a else s.coreDies a
  | .pageRecall c .. | .pageEviction c | .meridianStep c | .meridianIdlePoll c | .flolvoPageReceive c .. => mer c
  | .teamPlacement g .. | .gridCompletion g => grid g
  | .replayBegin r => ((Tab.get? s.replays r).map fun r => r.die :: s.ctxDies r.ctx).getD []
  | .portIntervalRefill p | .portArbitrate p => [p / 96]
  | .sramPatrol d .. | .weightStoreRefreshWindow d | .weightStoreWindowEnd d | .linkCrcFailure d .. => [d]
  | .linkRead k .. | .linkWrite k .. | .linkMaskedWrite k .. | .linkAtomic k .. | .urgencyNotice k .. => [stkDie k]
  | .linkReply k .. | .refreshDue k .. | .forcedRefresh k .. | .retrainIntervalExpiry k .. | .patrolScrub k .. | .requestWaited2us k .. =>
      if k < 8 then [] else [stkDie k]
  | .deadlineSaveSegment c .. | .evictionComplete c => s.ctxDies c
  | _ => []

/-- A packet that a compute die would send: a line as its slice holds it, an atomic that stands for one in flight, an urgent
read for a read that is marked (19 R394, R395; 10 R242). -/
def State.sends (s : State) (i : Instr) : Bool :=
  match i with
  | .linkRead k _ line urg _ => !urg || s.urgentLine k line
  | .linkWrite k _ line _ data => s.asHeld k line (.allOnes 64) (linePad data)
  | .linkMaskedWrite k _ line _ mask data => s.asHeld k line mask (linePad data)
  | .linkAtomic k _ line o kind w64 off opnd new => match linkTy o kind w64 off.toNat with
      | some t => (s.forwarded k line o t off.toNat opnd.toNat new.toNat).isSome
      | none => false
  | _ => true

/-- A die runs: it is not halted (R408), and the module is not in recovery mode, where only the window answers (R418). -/
def State.runs (s : State) (die : Nat) : Bool := (s.die die).halted == 0 && !s.host.fwstat.getLsbD 1

/-- Whether a step may be taken: its units' dies run, and in recovery mode only the window answers. -/
def State.mayDo (s : State) (i : Instr) : Bool :=
  !i.isWord && (s.diesOf i).all s.runs && s.sends i && (!s.host.fwstat.getLsbD 1 || ofWindow i)

/-- The state after an issue: no word is being issued. -/
def issued (r : Host.Outcome State Fault Refusal) : Host.Outcome State Fault Refusal :=
  match r with
  | .next s => .next { s with cur := none }
  | .fault f => .fault f
  | .refused e => .refused e

/-- The state in which the word of an issue slot is executed. -/
def tryIssue (a : Attempt) : Host.Outcome State Fault Refusal :=
  match a with
  | .idle s => .next s
  | .run i s => issued (exec i s)

/-- One act. -/
def State.act (s : State) (a : Act) : Host.Outcome State Fault Refusal :=
  match a with
  | .issue c =>
      if !(s.coreDies c).all s.runs then .next s
      else match s.nextGroup c with
        | some g => tryIssue (s.attempt c g none)
        | none => .next s
  | .share c =>
      if !(s.coreDies c).all s.runs then .next s
      else match s.shareGroup c with
        | some (g, o) => tryIssue (s.attempt c g (some o))
        | none => .next s
  | .cycle c => .next (s.openCycle c)
  | .close c => .next (if (s.coreDies c).all s.runs then s.closeCycle c else s)
  | .tick c => .next (if s.runs (c / 96) then s.tickCore c else s)
  | .check c => .next (if s.runs (c / 96) then s.datapath c else s)
  | .event i => if s.mayDo i then exec i s else .next s
  | .reg off v => execHostRegisterWrite off v s

/-- One step. -/
def step (s : State) : Host.Outcome State Fault Refusal :=
  match s.agenda with
  | a :: rest => State.act { s with agenda := rest } a
  | [] =>
      let n := s.picks
      let s := { s with picks := n + 1 }
      match Config.pickCore n, Config.pickEvent n, Config.pickCheck n with
      | some c, _, _ => if c < 96 * Config.dies then s.act (.cycle c) else .next s
      | none, some i, _ => if ofCycle i then .next s else s.act (.event i)
      | none, none, some c => if c < 96 * Config.dies then s.act (.check c) else .next s
      | none, none, none => .next s

/-! ## A word as the next instruction (log 2) -/

/-- Where the word stands: virtual and physical address, and the entries of its tables (16 R345, R346). -/
def wordVa : Nat := 0x10000
def wordPa : Nat := 0x210000
def wordTables : List (Nat × Nat) := [(0x1000, 0x2001), (0x2000, 0x3001), (0x3000, 0x4001), (0x4000, 0x20001F)]

/-- Places the tables and the bytes of the word. -/
def placeWord (m : Memory) (w : Nat) : Memory :=
  Memory.writeN (wordTables.foldl (fun m e => Memory.writeLe m e.1 8 e.2) m) wordPa (leBytes 12 w)

/-- The thread, the home group and the team that issue it: one full home group of 64 registers of each kind. -/
def wordThread (gid t : Nat) : Thread :=
  { pc := BitVec.ofNat 57 wordVa, regs := [], preds := 0, st := .active gid, notBefore := 0, posts := [], lane := t }
def wordHg : HGroup := { scl := [], idx := [], hnd := [], hver := [] }
def wordTeam (gid : Nat) : Team :=
  { wid := 0, ctx := 0, grid := 0, index := 0, cluster := 0, rank := 0, hgroups := 1, lastn := 32, regs := 64, sregs := 64,
    loc := 49152, atrap := false, flags := 0, psize := 0, param := 0, recAddr := 0, slotw := 0xFFFFFFFF, detlvl := 0, ordinal := 0,
    threads := (List.range 32).map fun t => (t, wordThread gid t), hgs := [(0, wordHg)], scratch := [], opbuf := [], bars := [],
    colls := [], handles := [], hwaits := [], trap := none, held := [], fin := false, killed := false, taken := [],
    frozen := false, rpoison := [], units := List.range 48, noL1 := [], noRo := [], cmdFences := [] }
def wordGroup (gid now : Nat) : Group :=
  { gid := gid, slot := 0, pc := BitVec.ofNat 57 wordVa, mem := List.range 32, drawn := now, first := 0, heldAt := none,
    missed := false, ends := false, lanes := (List.range 32).map fun t => (t, t) }
/-- The context they run in, privileged, on core 0. -/
def wordCtx : Ctx :=
  { priv := true, cst := 1, root := 0x1000, fqbase := 0, fqsz := 1, svbase := 0, svsize := 0, cores := 1, wqmask := 0, cqbase := 0,
    cqsz := 1, trapvec := 0, detlvl := 0, rqbase := 0, nextFid := 0, faults := [], ringQ := [], ringTail := 0, ring := .reset 0 0,
    mer := .reset, erg := .reset, rx := [], jrn := .reset, saved := [], heldL := [], heldK := [], runHeld := false,
    save := none, savedQ := [] }
/-- Core 0 with that team alone. -/
def wordCore (k : Core) (gid : Nat) : Core :=
  { k with ctx := some 0, teams := [(0, wordTeam gid)], groups := [wordGroup gid k.now], issued := [], tried := [], drawn := false, exits := [], check := false, ready := [],
           pends := [], storeQ := [], fences := [], tlb := [], sb := [], cmds := [], watch := [] }

/-- The state with a word stored where the next step fetches it: core 0's next issue is that word. -/
def State.withFetchWord (s : State) (_nbits w : Nat) : State :=
  let gid := s.uid
  let line (l : Nat) : Bool := l / 64 == wordPa / 64 || (0x1000 ≤ l && l < 0x5000)
  { s with mem := placeWord s.mem w, poison := s.poison.filter (fun l => !line l), cores := Tab.set s.cores 0 (wordCore (s.core 0) gid),
           dies := Tab.set s.dies 0 { s.die 0 with halted := 0 }, host := { s.host with fwstat := s.host.fwstat &&& ~~~2#64 }, ctlb := Tab.erase s.ctlb 0, ctxs := Tab.set s.ctxs 0 wordCtx,
           cur := none, agenda := [.issue 0], uid := gid + 1 }

end Sys2Proof.Machine
end

