-- ==== Sys2Proof/Safety.lean ====
section
/-! DEFINITION. What counts as a safe run, and the views of the state in which claims are made: a step that
answers, memory in canonical form, what a register of a team holds, what a word may have changed. -/

namespace Sys2Proof.Machine

/-- The step goes on: no fault and no refusal. -/
def Answers (r : Host.Outcome State Fault Refusal) : Prop := ∃ t, r = .next t

/-- The byte memory stands in its one canonical form. -/
def State.Canon (s : State) : Prop := Memory.wf s.mem = true

/-! ## Registers -/

/-- What a register of the team in a slot holds; 0 where there is no team. -/
def State.reg (s : State) (c slot : Nat) (r : RegAt) : DWord :=
  match s.team? c slot with
  | some tm => tm.readReg r
  | none => 0

/-- A thread of the team in a slot. -/
def State.thread? (s : State) (c slot th : Nat) : Option Thread :=
  match s.team? c slot with
  | some tm => Tab.get? tm.threads th
  | none => none

/-- What a register reads after a value is written to it: a vector register keeps 32 bits (01 R8), an index
register 12 (R17), a predicate one truth value, and p0 stays true (R14). -/
def RegAt.holds (r : RegAt) (v : DWord) : DWord :=
  match r with
  | .v _ _ => (v.setWidth 32).setWidth 64
  | .p _ n => if n = 0 ∨ v ≠ 0 then 1 else 0
  | .s _ _ => v
  | .x _ _ => (v.setWidth 12).setWidth 64
  | .h _ _ => v

/-- The thread or the home group that owns a register is in the team, and a predicate is one of 48. -/
def Team.hasReg (tm : Team) (r : RegAt) : Bool :=
  match r with
  | .v t _ => (Tab.get? tm.threads t).isSome
  | .p t n => (Tab.get? tm.threads t).isSome && decide (n < 48)
  | .s g _ => (Tab.get? tm.hgs g).isSome
  | .x g _ => (Tab.get? tm.hgs g).isSome
  | .h g _ => (Tab.get? tm.hgs g).isSome

/-- The last value that a list of writes gives a register. -/
def lastOf (wr : List (RegAt × DWord)) (r : RegAt) : Option DWord :=
  (wr.reverse.find? fun e => e.1 == r).map fun e => e.2

/-- The registers of the issuing team after some writes: each written register holds what was written last,
EVERY other register what it held. -/
def Wrote (s t : State) (w : Iss) (wr : List (RegAt × DWord)) : Prop :=
  ∀ r, w.tm.hasReg r = true →
    t.reg w.core w.slot r = match lastOf wr r with
      | some v => r.holds v
      | none => s.reg w.core w.slot r

/-! ## Frames -/

/-- Everything of a core but its teams, its issue groups, the words issued in the cycle, the interlocks and the
outstanding results. -/
structure Core.SameUnits (k k' : Core) : Prop where
  cyc : k'.cyc = k.cyc
  wsPhase : k'.wsPhase = k.wsPhase
  ctxidReg : k'.ctxidReg = k.ctxidReg
  ctx : k'.ctx = k.ctx
  bankWr : k'.bankWr = k.bankWr
  bankRole : k'.bankRole = k.bankRole
  drawn : k'.drawn = k.drawn
  tried : k'.tried = k.tried
  exits : k'.exits = k.exits
  aged : k'.aged = k.aged
  check : k'.check = k.check
  hintMiss : k'.hintMiss = k.hintMiss
  storeQ : k'.storeQ = k.storeQ
  fences : k'.fences = k.fences
  l1 : k'.l1 = k.l1
  roCache : k'.roCache = k.roCache
  tlb : k'.tlb = k.tlb
  eng : k'.eng = k.eng
  srt : k'.srt = k.srt
  sb : k'.sb = k.sb
  spoison : k'.spoison = k.spoison
  cmds : k'.cmds = k.cmds
  watch : k'.watch = k.watch

/-- Everything of a team but its threads and home groups, whose registers `Wrote` speaks of, the skid counts of a
trap, and the marks of uncorrectable registers, none of which is new. -/
structure Team.SameRest (k k' : Team) : Prop where
  wid : k'.wid = k.wid
  ctx : k'.ctx = k.ctx
  grid : k'.grid = k.grid
  index : k'.index = k.index
  cluster : k'.cluster = k.cluster
  rank : k'.rank = k.rank
  hgroups : k'.hgroups = k.hgroups
  lastn : k'.lastn = k.lastn
  regs : k'.regs = k.regs
  sregs : k'.sregs = k.sregs
  loc : k'.loc = k.loc
  atrap : k'.atrap = k.atrap
  flags : k'.flags = k.flags
  psize : k'.psize = k.psize
  param : k'.param = k.param
  recAddr : k'.recAddr = k.recAddr
  slotw : k'.slotw = k.slotw
  detlvl : k'.detlvl = k.detlvl
  ordinal : k'.ordinal = k.ordinal
  scratch : k'.scratch = k.scratch
  opbuf : k'.opbuf = k.opbuf
  bars : k'.bars = k.bars
  colls : k'.colls = k.colls
  handles : k'.handles = k.handles
  hwaits : k'.hwaits = k.hwaits
  held : k'.held = k.held
  fin : k'.fin = k.fin
  killed : k'.killed = k.killed
  taken : k'.taken = k.taken
  units : k'.units = k.units
  frozen : k'.frozen = k.frozen
  noL1 : k'.noL1 = k.noL1
  noRo : k'.noRo = k.noRo
  cmdFences : k'.cmdFences = k.cmdFences
  rpoison : ∀ r, r ∈ k'.rpoison → r ∈ k.rpoison
  trap : k'.trap.map (fun tr => { tr with skids := [] }) = k.trap.map (fun tr => { tr with skids := [] })

/-- Everything of the module outside one core, but for the names handed out: every byte of memory and what older bytes
a read may still find, every context, grid, die, stack, port and unit. -/
structure State.SameModule (s t : State) (c : Nat) : Prop where
  mem : t.mem = s.mem
  late : t.late = s.late
  poison : t.poison = s.poison
  cores : ∀ c', c' ≠ c → t.core c' = s.core c'
  dies : t.dies = s.dies
  ctlb : t.ctlb = s.ctlb
  l2 : t.l2 = s.l2
  cxl : t.cxl = s.cxl
  ctxs : t.ctxs = s.ctxs
  grids : t.grids = s.grids
  replays : t.replays = s.replays
  scFences : t.scFences = s.scFences
  ctxtab : t.ctxtab = s.ctxtab
  units : t.units = s.units
  ports : t.ports = s.ports
  stks : t.stks = s.stks
  host : t.host = s.host
  cur : t.cur = s.cur
  agenda : t.agenda = s.agenda
  picks : t.picks = s.picks
  free : t.free = s.free
  wid : t.wid = s.wid
  hseq : t.hseq = s.hseq

/-- THE FRAME of a word that works in registers alone: nothing outside its core, no unit of the core, no other team,
and of its own team only threads and home groups may differ. -/
structure RegFrame (s t : State) (w : Iss) : Prop where
  module : State.SameModule s t w.core
  units : Core.SameUnits (s.core w.core) (t.core w.core)
  others : ∀ slot, slot ≠ w.slot → t.team? w.core slot = s.team? w.core slot
  own : ∃ tm, t.team? w.core w.slot = some tm ∧ Team.SameRest w.tm tm

/-- THE FRAME of a word that sends accesses: every byte of memory, context, die, grid and unit, every other core and
every other team is as it was; of its own core only the accesses in flight, the caches and the translations kept, and
of its own team only threads and home groups and the scratchpad, which holds `scr`. -/
structure SendFrame (s t : State) (w : Iss) (scr : Memory) : Prop where
  mem : t.mem = s.mem
  poison : t.poison = s.poison
  cores : ∀ c', c' ≠ w.core → t.core c' = s.core c'
  dies : t.dies = s.dies
  ctxs : t.ctxs = s.ctxs
  grids : t.grids = s.grids
  ctxtab : t.ctxtab = s.ctxtab
  units : t.units = s.units
  stks : t.stks = s.stks
  host : t.host = s.host
  cur : t.cur = s.cur
  agenda : t.agenda = s.agenda
  cyc : (t.core w.core).cyc = (s.core w.core).cyc
  ctx : (t.core w.core).ctx = (s.core w.core).ctx
  bankWr : (t.core w.core).bankWr = (s.core w.core).bankWr
  bankRole : (t.core w.core).bankRole = (s.core w.core).bankRole
  eng : (t.core w.core).eng = (s.core w.core).eng
  srt : (t.core w.core).srt = (s.core w.core).srt
  cmds : (t.core w.core).cmds = (s.core w.core).cmds
  sb : (t.core w.core).sb = (s.core w.core).sb
  others : ∀ slot, slot ≠ w.slot → t.team? w.core slot = s.team? w.core slot
  own : ∃ tm, t.team? w.core w.slot = some tm ∧ Team.SameRest { w.tm with scratch := scr } tm

/-! ## When a word takes effect -/

/-- The issue `w` stands in the state, and its issue group, if it is still there, is one of its team. -/
structure AtIssue (i : Instr) (g : Guard) (s : State) (w : Iss) : Prop where
  iss : s.issBy (admits i g) = some w
  group : ∀ x, x ∈ (s.core w.core).groups → x.gid = w.gid → x.slot = w.slot

/-- A word is being issued and takes effect: the issue `w` stands in the state, some member's guard is true, no
operand is out of bounds (02 R45 step 7), the members that continue at PC + 12 stay in the address space (R28), and no
register it reads holds uncorrectable data (20 R407). -/
structure Issues (i : Instr) (h : Hdr) (falls : Iss → List Nat) (s : State) (w : Iss) : Prop extends AtIssue i h.g s w where
  ts : w.ts ≠ []
  oob : w.oob i (usesUnder (s.core w.core).eng.conf i) ((s.core w.core).eng.conf.map TileCfg.count) = []
  past : w.past (falls w) = []
  good : w.badRegs h.g i (usesUnder (s.core w.core).eng.conf i) = []

/-- The word takes effect for some members and is not over for them, whose next word it stays; nothing of any other
member's changes, for which it will be issued again (06 R151). -/
def StaysAt (s t : State) (w : Iss) (ts : List Nat) : Prop :=
  ∀ th, th ∈ w.mem → (th ∈ ts → ∀ x, s.thread? w.core w.slot th = some x →
      ∃ y, t.thread? w.core w.slot th = some y ∧ y.pc = w.pc)
    ∧ (th ∉ ts → t.thread? w.core w.slot th = s.thread? w.core w.slot th)

/-- Every member that the team has continues at the PC given. -/
def Continues (s t : State) (w : Iss) (pc : Nat → PC) : Prop :=
  ∀ th, th ∈ w.mem → ∀ x, s.thread? w.core w.slot th = some x → ∃ y, t.thread? w.core w.slot th = some y ∧ y.pc = pc th

/-- The word answers a next state with some writes usable after `lat` cycles (02 R39), and the frame. -/
def CompletesFixed (i : Instr) (s : State) (w : Iss) (lat : Nat) (wr : List (RegAt × DWord)) : Prop :=
  ∃ t, exec i s = .next t ∧ Wrote s t w wr ∧ RegFrame s t w
    ∧ ∀ e, e ∈ wr → (w.slot, e.1, w.now + lat) ∈ (t.core w.core).ready

/-- The word answers a next state in which some writes are owed under a new name, every register still holding what
it held (02 R40), and the frame. -/
def CompletesLater (i : Instr) (s : State) (w : Iss) (wr : List (RegAt × DWord)) : Prop :=
  ∃ t, exec i s = .next t ∧ Wrote s t w [] ∧ RegFrame s t w ∧ t.uid = s.uid + 1
    ∧ ∃ p, p ∈ (t.core w.core).pends ∧ p.uid = s.uid ∧ p.slot = w.slot ∧ p.regs = wr.map (fun e => e.1)
      ∧ p.src = .vals wr none

end Sys2Proof.Machine
end

