-- ==== Sys2Proof/Certificates/Slice0/Obligations.lean ====
section
/-! DEFINITION. The statements for the provers. `cites` in OBLIGATIONS.json names the rules and files of the spec that
each rests on. A statement about a word says where it takes effect (`Issues`, and what the entry asks of the
operands), that `exec` then answers a next state, and what that state holds. -/

open Sys2Proof Sys2Proof.Machine

/-! ## Class 0 -/

/-- The value of a source under an integer type (R82), and the writes of an exact value to D (R84, R57). -/
def Sys2Proof.Machine.Iss.num (w : Iss) (th : Nat) (t : IType) (o : Opd) : Int := IType.val t (w.tm.val th o t.regs)
def Sys2Proof.Machine.Iss.gets (w : Iss) (th : Nat) (d : Opd) (t : IType) (v : Int) : List (RegAt × DWord) :=
  w.tm.dest th d t.regs (extend t v 32)

/-- Class 0 arithmetic on exact integers: Fit of the exact result reaches D (04, class 0 table; latency 02 Hints). -/
def Obligations.VectorArithmetic : Prop :=
  ∀ (h : Hdr) (t : IType) (sat : Bool) (d a b c : Opd) (s : State) (w : Iss),
    (Issues (.vadd h t sat d a b) h allFall s w → CompletesFixed (.vadd h t sat d a b) s w 4
      (w.ts.flatMap fun th => w.gets th d t (fit (w.num th t a + w.num th t b) t sat))) ∧
    (Issues (.vsub h t sat d a b) h allFall s w → CompletesFixed (.vsub h t sat d a b) s w 4
      (w.ts.flatMap fun th => w.gets th d t (fit (w.num th t a - w.num th t b) t sat))) ∧
    (Issues (.vmul h t sat d a b) h allFall s w → CompletesFixed (.vmul h t sat d a b) s w 6
      (w.ts.flatMap fun th => w.gets th d t (fit (w.num th t a * w.num th t b) t sat))) ∧
    (Issues (.vmulh h t d a b) h allFall s w → CompletesFixed (.vmulh h t d a b) s w 6
      (w.ts.flatMap fun th => w.gets th d t ((w.num th t a * w.num th t b).fdiv (2 ^ t.w)))) ∧
    (Issues (.vmad h t sat d a b c) h allFall s w → CompletesFixed (.vmad h t sat d a b c) s w 6
      (w.ts.flatMap fun th => w.gets th d t (fit (w.num th t a * w.num th t b + w.num th t c) t sat))) ∧
    (Issues (.vmadw h t sat d a b c) h allFall s w → CompletesFixed (.vmadw h t sat d a b c) s w 6
      (w.ts.flatMap fun th => w.gets th d (wideType t)
        (fit (w.num th t a * w.num th t b + w.num th (wideType t) c) (wideType t) sat)))

/-- Class 0 selection and logic (04, class 0 table). -/
def Obligations.VectorSelectLogic : Prop :=
  ∀ (h : Hdr) (t : IType) (sat : Bool) (d a b c : Opd) (s : State) (w : Iss),
    (Issues (.vmin h t d a b) h allFall s w → CompletesFixed (.vmin h t d a b) s w 4
      (w.ts.flatMap fun th => w.gets th d t (min (w.num th t a) (w.num th t b)))) ∧
    (Issues (.vmax h t d a b) h allFall s w → CompletesFixed (.vmax h t d a b) s w 4
      (w.ts.flatMap fun th => w.gets th d t (max (w.num th t a) (w.num th t b)))) ∧
    (Issues (.vabs h t sat d a) h allFall s w → CompletesFixed (.vabs h t sat d a) s w 4
      (w.ts.flatMap fun th => w.gets th d t (fit ((w.num th t a).natAbs : Nat) t sat))) ∧
    (Issues (.vneg h t sat d a) h allFall s w → CompletesFixed (.vneg h t sat d a) s w 4
      (w.ts.flatMap fun th => w.gets th d t (fit (-(w.num th t a)) t sat))) ∧
    (Issues (.vsel h t d a b c) h allFall s w → CompletesFixed (.vsel h t d a b c) s w 4
      (w.ts.flatMap fun th => w.gets th d t (if w.num th t c = 0 then w.num th t b else w.num th t a))) ∧
    (Issues (.vmov h t d a) h allFall s w → CompletesFixed (.vmov h t d a) s w 4
      (w.ts.flatMap fun th => w.gets th d t (w.num th t a))) ∧
    (Issues (.vand h t d a b) h allFall s w → CompletesFixed (.vand h t d a b) s w 4
      (w.ts.flatMap fun th => w.gets th d t (w.tm.val th a t.regs &&& w.tm.val th b t.regs : Nat))) ∧
    (Issues (.vor h t d a b) h allFall s w → CompletesFixed (.vor h t d a b) s w 4
      (w.ts.flatMap fun th => w.gets th d t (w.tm.val th a t.regs ||| w.tm.val th b t.regs : Nat))) ∧
    (Issues (.vxor h t d a b) h allFall s w → CompletesFixed (.vxor h t d a b) s w 4
      (w.ts.flatMap fun th => w.gets th d t (w.tm.val th a t.regs ^^^ w.tm.val th b t.regs : Nat))) ∧
    (Issues (.vnot h t d a) h allFall s w → CompletesFixed (.vnot h t d a) s w 4
      (w.ts.flatMap fun th => w.gets th d t (-(w.num th t a) - 1)))


/-- Class 0 bit work and compares (04, the sections on shifts, bit fields, addresses, compares, carries, immediates). -/
def Obligations.VectorBits : Prop :=
  (∀ (h : Hdr) (t : IType) (pos : BitVec 6) (len : BitVec 7) (sh : BitVec 3) (f : LaneForm) (imm : BitVec 32)
      (d a b c : Opd) (s : State) (w : Iss),
      (Issues (.vshl h t d a b) h allFall s w → CompletesFixed (.vshl h t d a b) s w 4
        (w.ts.flatMap fun th => w.gets th d t (w.num th t a * 2 ^ (w.tm.n32 th b % 256)))) ∧
      (Issues (.vshr h t d a b) h allFall s w → CompletesFixed (.vshr h t d a b) s w 4
        (w.ts.flatMap fun th => w.gets th d t (w.tm.val th a t.regs % 2 ^ t.w / 2 ^ (w.tm.n32 th b % 256) : Nat))) ∧
      (Issues (.vsra h t d a b) h allFall s w → CompletesFixed (.vsra h t d a b) s w 4
        (w.ts.flatMap fun th => w.gets th d t ((w.num th t a).fdiv (2 ^ (w.tm.n32 th b % 256))))) ∧
      (Issues (.vrot h t d a b) h allFall s w → CompletesFixed (.vrot h t d a b) s w 4
        (w.ts.flatMap fun th =>
          let x := w.tm.val th a t.regs % 2 ^ t.w
          let k := w.tm.n32 th b % 256 % t.w
          w.gets th d t (x * 2 ^ k % 2 ^ t.w + x / 2 ^ (t.w - k) : Nat))) ∧
      (Issues (.vbfe h t d a b c) h allFall s w → CompletesFixed (.vbfe h t d a b c) s w 4
        (w.ts.flatMap fun th => w.gets th d t (ibfe t (w.tm.val th a t.regs) (w.tm.n32 th b) (w.tm.n32 th c)))) ∧
      (Issues (.vbfi h t pos len d a b) h allFall s w → CompletesFixed (.vbfi h t pos len d a b) s w 4
        (w.ts.flatMap fun th => w.gets th d t (ibfi t pos.toNat len.toNat (w.tm.val th a t.regs) (w.tm.val th b t.regs)))) ∧
      (Issues (.vpopc h t d a) h allFall s w → CompletesFixed (.vpopc h t d a) s w 4
        (w.ts.flatMap fun th => w.gets th d .n32 (popBits t.w (w.tm.val th a t.regs)))) ∧
      (Issues (.vclz h t d a) h allFall s w → CompletesFixed (.vclz h t d a) s w 4
        (w.ts.flatMap fun th => w.gets th d .n32 (clzBits t.w (w.tm.val th a t.regs % 2 ^ t.w)))) ∧
      (Issues (.vctz h t d a) h allFall s w → CompletesFixed (.vctz h t d a) s w 4
        (w.ts.flatMap fun th => w.gets th d .n32 (ctzBits t.w (w.tm.val th a t.regs)))) ∧
      (Issues (.vbrev h t d a) h allFall s w → CompletesFixed (.vbrev h t d a) s w 4
        (w.ts.flatMap fun th => w.gets th d t (revBits t.w (w.tm.val th a t.regs)))) ∧
      (Issues (.vlea h t sh d a b) h allFall s w → CompletesFixed (.vlea h t sh d a b) s w 4
        (w.ts.flatMap fun th => w.gets th d .n64 (w.tm.n64 th a + w.num th t b * 2 ^ sh.toNat))) ∧
      (Issues (.vaddc h d a b c) h allFall s w → CompletesFixed (.vaddc h d a b c) s w 4
        (w.ts.flatMap fun th => w.gets th d .n64 (w.tm.n32 th a + w.tm.n32 th b + w.tm.n32 th c % 2 : Nat))) ∧
      (Issues (.vsubb h d a b c) h allFall s w → CompletesFixed (.vsubb h d a b c) s w 4
        (w.ts.flatMap fun th =>
          let v : Int := (w.tm.n32 th a : Int) - w.tm.n32 th b - (w.tm.n32 th c % 2 : Nat)
          w.gets th d .n64 (v % 2 ^ 32 + if v < 0 then 2 ^ 32 else 0))) ∧
      (Issues (.vprmt h d a b c) h allFall s w → CompletesFixed (.vprmt h d a b c) s w 4
        (w.ts.flatMap fun th => w.gets th d .n32 (iprmt (w.tm.val th a 1) (w.tm.val th b 1) (w.tm.val th c 1)))) ∧
      (Issues (.vmovi h f imm d) h allFall s w → CompletesFixed (.vmovi h f imm d) s w 4
        (w.ts.flatMap fun th => w.gets th d .n32 (match f with
          | .plain => imm.toNat
          | .hlane => imm.toNat + laneOf th
          | .thr => imm.toNat + th : Nat)))) ∧
  (∀ (h : Hdr) (t : IType) (cc : Cond) (d a b : Opd) (s : State) (w : Iss) (truth : Int → Int → Bool),
      (∀ x y : Int, truth x y = true ↔ (match cc with
        | .eq => x = y
        | .ne => x ≠ y
        | .lt => x < y
        | .le => x ≤ y
        | .gt => x > y
        | .ge => x ≥ y
        | .ord => False
        | .uno => False)) →
      Issues (.vcmp h t cc d a b) h allFall s w → CompletesFixed (.vcmp h t cc d a b) s w 4
        (w.ts.flatMap fun th => w.tm.dest th d 1 (if truth (w.num th t a) (w.num th t b) then 1 else 0)))


/-- `vdiv`, `vrng`, `vrngf` (04, Division and Random numbers): variable-latency producers. -/
def Obligations.VectorDivideRandom : Prop :=
  ∀ (h : Hdr) (t : IType) (sat rem : Bool) (d a b c : Opd) (s : State) (w : Iss),
    (Issues (.vdiv h t sat rem d a b) h allFall s w →
      ((w.tm.atrap = false ∨ ∀ th, th ∈ w.ts → w.num th t b ≠ 0) →
        CompletesLater (.vdiv h t sat rem d a b) s w (w.ts.flatMap fun th =>
          let x := w.num th t a
          let y := w.num th t b
          w.gets th d t (if y = 0 then (if rem then x else -1)
            else if rem then x.tmod y
            else if t.signed = true ∧ x = IType.minOf t ∧ y = -1 then (if sat then IType.maxOf t else IType.minOf t)
            else x.tdiv y))) ∧
      ((w.tm.atrap = true ∧ ∃ th, th ∈ w.ts ∧ w.num th t b = 0) →
        exec (.vdiv h t sat rem d a b) s =
          .next (s.wordTrap w .arith 0 (w.ts.filter fun th => decide (w.num th t b = 0)) [] .word))) ∧
    (Issues (.vrng h d a b c) h allFall s w → CompletesLater (.vrng h d a b c) s w
      (w.ts.flatMap fun th => w.gets th d .n32 (obgen (w.tm.n64 th a) (w.tm.n64 th b) (w.tm.n32 th c)))) ∧
    (Issues (.vrngf h d a b c) h allFall s w → CompletesLater (.vrngf h d a b c) s w
      (w.ts.flatMap fun th => w.gets th d .n32
        (roundRne (.fin false (2 * (obgen (w.tm.n64 th a) (w.tm.n64 th b) (w.tm.n32 th c) / 512) + 1) 1 (-24)) .f32)))

/-! ## Class 1 -/

/-- The exact value of a float source (R82, R31). -/
def Sys2Proof.Machine.Iss.fl (w : Iss) (th : Nat) (t : FType) (r : Rnd) (sat : Bool) (o : Opd) : FVal :=
  FType.decode t (w.tm.fval th t r sat o)
/-- A NaN result of operands none of which is a NaN (R66). -/
def Sys2Proof.Machine.makesNaN (ops : List FVal) (r : FVal) : Prop := r.isNaN = true ∧ ∀ x, x ∈ ops → x.isNaN = false
/-- A word whose computation may be invalid: it completes with its writes unless ATRAP is set and some thread with a
true guard is invalid; then the word traps with ARITH, at those threads (R68). -/
def Sys2Proof.Machine.FloatWord (i : Instr) (s : State) (w : Iss) (lat : Nat) (bad : Nat → Prop) [DecidablePred bad]
    (wr : Nat → List (RegAt × DWord)) : Prop :=
  ((w.tm.atrap = false ∨ ∀ th, th ∈ w.ts → ¬ bad th) → CompletesFixed i s w lat (w.ts.flatMap wr)) ∧
  ((w.tm.atrap = true ∧ ∃ th, th ∈ w.ts ∧ bad th) →
    exec i s = .next (s.wordTrap w .arith 0 (w.ts.filter fun th => decide (bad th)) [] .word))

/-- Float arithmetic of one rounding (04, Float instructions and Packing; 03, ARITH). -/
def Obligations.FloatArithmetic : Prop :=
  ∀ (h : Hdr) (t : FType) (r : Rnd) (sat : Bool) (d a b c : Opd) (s : State) (w : Iss) (bad : Nat → Prop) [DecidablePred bad],
    (Issues (.vfadd h t r sat d a b) h allFall s w →
      (∀ th, bad th ↔ makesNaN [w.fl th t r sat a, w.fl th t r sat b] (FVal.sum r [w.fl th t r sat a, w.fl th t r sat b])) →
      FloatWord (.vfadd h t r sat d a b) s w 5 bad fun th => w.tm.dest th d 1
        (roundFloat (FVal.sum r [w.fl th t r sat a, w.fl th t r sat b]) t r sat)) ∧
    (Issues (.vfsub h t r sat d a b) h allFall s w →
      (∀ th, bad th ↔ makesNaN [w.fl th t r sat a, w.fl th t r sat b] (FVal.sum r [w.fl th t r sat a, (w.fl th t r sat b).neg])) →
      FloatWord (.vfsub h t r sat d a b) s w 5 bad fun th => w.tm.dest th d 1
        (roundFloat (FVal.sum r [w.fl th t r sat a, (w.fl th t r sat b).neg]) t r sat)) ∧
    (Issues (.vfmul h t r sat d a b) h allFall s w →
      (∀ th, bad th ↔ makesNaN [w.fl th t r sat a, w.fl th t r sat b] ((w.fl th t r sat a).mul (w.fl th t r sat b))) →
      FloatWord (.vfmul h t r sat d a b) s w 5 bad fun th => w.tm.dest th d 1
        (roundFloat ((w.fl th t r sat a).mul (w.fl th t r sat b)) t r sat)) ∧
    (Issues (.vffma h t r sat d a b c) h allFall s w →
      (∀ th, bad th ↔ makesNaN [w.fl th t r sat a, w.fl th t r sat b, w.fl th t r sat c]
        (FVal.sum r [(w.fl th t r sat a).mul (w.fl th t r sat b), w.fl th t r sat c])) →
      FloatWord (.vffma h t r sat d a b c) s w 5 bad fun th => w.tm.dest th d 1
        (roundFloat (FVal.sum r [(w.fl th t r sat a).mul (w.fl th t r sat b), w.fl th t r sat c]) t r sat)) ∧
    (Issues (.vfdot2 h t r sat d a b c) h allFall s w →
      (∀ th, bad th ↔ (fdot2 t r sat (w.tm.fpacked th t r sat a) (w.tm.fpacked th t r sat b) (w.tm.fval th .f32 r sat c)).2 = true) →
      FloatWord (.vfdot2 h t r sat d a b c) s w 5 bad fun th => w.tm.dest th d 1
        (let x := w.tm.fpacked th t r sat a
         let y := w.tm.fpacked th t r sat b
         roundFloat (FVal.sum r [(FType.decode t (x % 2 ^ 16)).mul (FType.decode t (y % 2 ^ 16)),
           (FType.decode t (x / 2 ^ 16)).mul (FType.decode t (y / 2 ^ 16)), w.fl th .f32 r sat c]) .f32 r sat))

/-- Float words that never raise ARITH (04, Compare and classify, Conversions, Packing). -/
def Obligations.FloatSelectRound : Prop :=
  ∀ (h : Hdr) (t : FType) (r : Rnd) (sat hi : Bool) (cc : Cond) (d a b : Opd) (s : State) (w : Iss),
    (Issues (.vfmin h t d a b) h allFall s w → CompletesFixed (.vfmin h t d a b) s w 5
      (w.ts.flatMap fun th => w.tm.dest th d 1 (fminmax t false (w.tm.fval th t .rne false a) (w.tm.fval th t .rne false b)))) ∧
    (Issues (.vfmax h t d a b) h allFall s w → CompletesFixed (.vfmax h t d a b) s w 5
      (w.ts.flatMap fun th => w.tm.dest th d 1 (fminmax t true (w.tm.fval th t .rne false a) (w.tm.fval th t .rne false b)))) ∧
    (Issues (.vfcmp h t cc d a b) h allFall s w → CompletesFixed (.vfcmp h t cc d a b) s w 5
      (w.ts.flatMap fun th => w.tm.dest th d 1
        (if fcmp cc (w.fl th t .rne false a) (w.fl th t .rne false b) then 1 else 0))) ∧
    (Issues (.vfclass h t d a) h allFall s w → CompletesFixed (.vfclass h t d a) s w 5
      (w.ts.flatMap fun th => w.tm.dest th d 1 (fclass t (w.tm.fval th t .rne false a)))) ∧
    (Issues (.vfround h t r d a) h allFall s w → CompletesFixed (.vfround h t r d a) s w 6
      (w.ts.flatMap fun th => w.tm.dest th d 1 (froundInt t (w.tm.fval th t r false a) r))) ∧
    (Issues (.vfscale h t r sat d a b) h allFall s w → CompletesFixed (.vfscale h t r sat d a b) s w 6
      (w.ts.flatMap fun th => w.tm.dest th d 1
        (fscale t r sat (w.tm.fval th t r sat a) (IType.val .i32 (w.tm.n32 th b))))) ∧
    (Issues (.vfunpk h t hi d a) h allFall s w → CompletesFixed (.vfunpk h t hi d a) s w 6
      (w.ts.flatMap fun th =>
        let x := w.tm.fpacked th t .rne false a
        let k := if hi then 2 else 0
        w.tm.dest th d 2 (roundRne (FType.decode t (x / 2 ^ (FType.w t * k) % 2 ^ FType.w t)) .f32
          + 2 ^ 32 * roundRne (FType.decode t (x / 2 ^ (FType.w t * (k + 1)) % 2 ^ FType.w t)) .f32)))

/-- Float conversions (04, Conversions and Packing). -/
def Obligations.FloatConversions : Prop :=
  ∀ (h : Hdr) (t k : FType) (r : Rnd) (sat hi : Bool) (i : IType) (d a b : Opd) (s : State) (w : Iss) (bad : Nat → Prop)
    [DecidablePred bad],
    (Issues (.vfcvt h t r sat k d a) h allFall s w →
      (∀ th, bad th ↔ sat = false ∧ (w.fl th k r sat a).isNaN = true ∧ (t = .e3m2 ∨ t = .e2m3 ∨ t = .e2m1)) →
      FloatWord (.vfcvt h t r sat k d a) s w 6 bad fun th => w.tm.dest th d 1 (roundFloat (w.fl th k r sat a) t r sat)) ∧
    (Issues (.vfcvti h t r sat false i d a) h allFall s w →
      (∀ th, bad th ↔ sat = false ∧ (f2i (w.fl th t r sat a) i r).2 = true) →
      FloatWord (.vfcvti h t r sat false i d a) s w 6 bad fun th => w.gets th d i (f2i (w.fl th t r sat a) i r).1) ∧
    (Issues (.vfcvti h t r sat true i d a) h allFall s w →
      CompletesFixed (.vfcvti h t r sat true i d a) s w 6
        (w.ts.flatMap fun th => w.tm.dest th d 1 (roundFloat (FVal.ofInt (w.num th i a)) t r sat))) ∧
    (Issues (.vfpack h t r sat hi d a b) h allFall s w →
      CompletesFixed (.vfpack h t r sat hi d a b) s w 6 (w.ts.flatMap fun th =>
        let v := roundFloat (w.fl th .f32 r sat a) t r sat + 2 ^ FType.w t * roundFloat (w.fl th .f32 r sat b) t r sat
        let old := w.tm.val th d 1
        w.tm.dest th d 1 (if FType.w t = 16 then v
          else if hi then old % 2 ^ 16 + 2 ^ 16 * v else old / 2 ^ 16 * 2 ^ 16 + v)))

/-- The transcendentals (04, Transcendentals); results that the manual leaves within a bound are free (log 5). -/
def Obligations.Transcendentals : Prop :=
  ∀ (h : Hdr) (t : FType) (r : Rnd) (sat fast : Bool) (d a b : Opd) (s : State) (w : Iss) (i : Instr) (fn : TransFn) (x : Opd),
    ((i = .vfrcp h t r sat fast d a ∧ fn = .rcp ∧ x = a) ∨ (i = .vfrsq h t r sat fast d a ∧ fn = .rsq ∧ x = a) ∨
     (i = .vfsqrt h t r sat fast d a ∧ fn = .sqrt ∧ x = a) ∨ (i = .vfdiv h t r sat fast d a b ∧ fn = .div ∧ x = b) ∨
     (i = .vfexp2 h t r sat fast d a ∧ fn = .exp2 ∧ x = a) ∨ (i = .vflog2 h t r sat fast d a ∧ fn = .log2 ∧ x = a) ∨
     (i = .vfsin h t r sat fast d a ∧ fn = .sin ∧ x = a) ∨ (i = .vfcos h t r sat fast d a ∧ fn = .cos ∧ x = a) ∨
     (i = .vftanh h t r sat fast d a ∧ fn = .tanh ∧ x = a) ∨ (i = .vfsigm h t r sat fast d a ∧ fn = .sigm ∧ x = a) ∨
     (i = .vfgelu h t r sat fast d a ∧ fn = .gelu ∧ x = a) ∨ (i = .vfsilu h t r sat fast d a ∧ fn = .silu ∧ x = a)) →
    Issues i h allFall s w →
    ((w.tm.atrap = false ∨ ∀ th, th ∈ w.ts →
        (transFn fn t r sat fast (w.tm.fval th t r sat a) (w.tm.fval th t r sat x)).2 = false) →
      CompletesLater i s w (w.ts.flatMap fun th => w.tm.dest th d 1
        (transFn fn t r sat fast (w.tm.fval th t r sat a) (w.tm.fval th t r sat x)).1)) ∧
    ((w.tm.atrap = true ∧ ∃ th, th ∈ w.ts ∧
        (transFn fn t r sat fast (w.tm.fval th t r sat a) (w.tm.fval th t r sat x)).2 = true) →
      exec i s = .next (s.wordTrap w .arith 0 (w.ts.filter fun th =>
        (transFn fn t r sat fast (w.tm.fval th t r sat a) (w.tm.fval th t r sat x)).2) [] .word))

/-! ## Class 2 and the predicate words -/

/-- A scalar source of a home group under an integer type, read for its lowest thread with a true guard, and the
writes of an exact value to D, extended to 64 bits (04: scalar instructions). -/
def Sys2Proof.Machine.Iss.snum (w : Iss) (g : Nat) (t : IType) (o : Opd) : Int := IType.val t (w.tm.val (w.lead g) o 1)
def Sys2Proof.Machine.Iss.sgets (w : Iss) (g : Nat) (d : Opd) (t : IType) (v : Int) : List (RegAt × DWord) :=
  w.tm.dest (w.lead g) d 1 (extend t v 64)
/-- A truth value to predicate D of every thread of a home group whose guard is true. -/
def Sys2Proof.Machine.Iss.sputs (w : Iss) (g : Nat) (d : Opd) (b : Bool) : List (RegAt × DWord) :=
  (w.of g).flatMap fun th => w.tm.dest th d 1 (if b then 1 else 0)

/-- Class 2 integers (04, Scalar instructions). -/
def Obligations.ScalarArithmetic : Prop :=
  ∀ (h : Hdr) (t : IType) (sat : Bool) (f : SForm) (imm : BitVec 32) (d a b c : Opd) (s : State) (w : Iss),
    (Issues (.sadd h t sat d a b) h allFall s w → CompletesFixed (.sadd h t sat d a b) s w 2
      (w.hgs.flatMap fun g => w.sgets g d t (fit (w.snum g t a + w.snum g t b) t sat))) ∧
    (Issues (.ssub h t sat d a b) h allFall s w → CompletesFixed (.ssub h t sat d a b) s w 2
      (w.hgs.flatMap fun g => w.sgets g d t (fit (w.snum g t a - w.snum g t b) t sat))) ∧
    (Issues (.smul h t sat d a b) h allFall s w → CompletesFixed (.smul h t sat d a b) s w 2
      (w.hgs.flatMap fun g => w.sgets g d t (fit (w.snum g t a * w.snum g t b) t sat))) ∧
    (Issues (.smad h t sat d a b c) h allFall s w → CompletesFixed (.smad h t sat d a b c) s w 2
      (w.hgs.flatMap fun g => w.sgets g d t (fit (w.snum g t a * w.snum g t b + w.snum g t c) t sat))) ∧
    (Issues (.sand h t d a b) h allFall s w → CompletesFixed (.sand h t d a b) s w 2
      (w.hgs.flatMap fun g => w.sgets g d t (w.tm.val (w.lead g) a 1 &&& w.tm.val (w.lead g) b 1 : Nat))) ∧
    (Issues (.sor h t d a b) h allFall s w → CompletesFixed (.sor h t d a b) s w 2
      (w.hgs.flatMap fun g => w.sgets g d t (w.tm.val (w.lead g) a 1 ||| w.tm.val (w.lead g) b 1 : Nat))) ∧
    (Issues (.sxor h t d a b) h allFall s w → CompletesFixed (.sxor h t d a b) s w 2
      (w.hgs.flatMap fun g => w.sgets g d t (w.tm.val (w.lead g) a 1 ^^^ w.tm.val (w.lead g) b 1 : Nat))) ∧
    (Issues (.sshl h t d a b) h allFall s w → CompletesFixed (.sshl h t d a b) s w 2
      (w.hgs.flatMap fun g => w.sgets g d t (w.snum g t a * 2 ^ (w.tm.val (w.lead g) b 1 % 256)))) ∧
    (Issues (.sshr h t d a b) h allFall s w → CompletesFixed (.sshr h t d a b) s w 2
      (w.hgs.flatMap fun g => w.sgets g d t
        (w.tm.val (w.lead g) a 1 % 2 ^ t.w / 2 ^ (w.tm.val (w.lead g) b 1 % 256) : Nat))) ∧
    (Issues (.ssra h t d a b) h allFall s w → CompletesFixed (.ssra h t d a b) s w 2
      (w.hgs.flatMap fun g => w.sgets g d t ((w.snum g t a).fdiv (2 ^ (w.tm.val (w.lead g) b 1 % 256))))) ∧
    (Issues (.smin h t d a b) h allFall s w → CompletesFixed (.smin h t d a b) s w 2
      (w.hgs.flatMap fun g => w.sgets g d t (min (w.snum g t a) (w.snum g t b)))) ∧
    (Issues (.smax h t d a b) h allFall s w → CompletesFixed (.smax h t d a b) s w 2
      (w.hgs.flatMap fun g => w.sgets g d t (max (w.snum g t a) (w.snum g t b)))) ∧
    (Issues (.ssel h t d a b c) h allFall s w → CompletesFixed (.ssel h t d a b c) s w 2
      (w.hgs.flatMap fun g => w.sgets g d t (if w.snum g t c = 0 then w.snum g t b else w.snum g t a))) ∧
    (Issues (.smov h t d a) h allFall s w → CompletesFixed (.smov h t d a) s w 2
      (w.hgs.flatMap fun g => w.sgets g d t (w.snum g t a))) ∧
    (Issues (.smovi h f imm d) h allFall s w → CompletesFixed (.smovi h f imm d) s w 2
      (w.hgs.flatMap fun g => w.tm.dest (w.lead g) d 1 (match f with
        | .sext => (imm.signExtend 64).toNat
        | .zext => imm.toNat
        | .hi => imm.toNat * 2 ^ 32 + w.tm.val (w.lead g) d 1 % 2 ^ 32)))

/-- Scalar compares and floats (04, Scalar instructions). -/
def Obligations.ScalarFloatCompare : Prop :=
  ∀ (h : Hdr) (t : IType) (ft k : FType) (r : Rnd) (cc : Cond) (i : IType) (d a b c : Opd) (s : State) (w : Iss),
    (Issues (.scmp h t cc d a b) h allFall s w → CompletesFixed (.scmp h t cc d a b) s w 2
      (w.hgs.flatMap fun g => w.sputs g d (icmp cc (w.snum g t a) (w.snum g t b)))) ∧
    (Issues (.sfcmp h ft cc d a b) h allFall s w → CompletesFixed (.sfcmp h ft cc d a b) s w 4
      (w.hgs.flatMap fun g => w.sputs g d
        (fcmp cc (w.fl (w.lead g) ft .rne false a) (w.fl (w.lead g) ft .rne false b)))) ∧
    (Issues (.sfadd h ft r d a b) h allFall s w →
      (w.tm.atrap = false ∨ ∀ g, g ∈ w.hgs → ¬ makesNaN [w.fl (w.lead g) ft r false a, w.fl (w.lead g) ft r false b]
        (FVal.sum r [w.fl (w.lead g) ft r false a, w.fl (w.lead g) ft r false b])) →
      CompletesFixed (.sfadd h ft r d a b) s w 4 (w.hgs.flatMap fun g => w.tm.dest (w.lead g) d 1
        (roundFloat (FVal.sum r [w.fl (w.lead g) ft r false a, w.fl (w.lead g) ft r false b]) ft r false))) ∧
    (Issues (.sfmul h ft r d a b) h allFall s w →
      (w.tm.atrap = false ∨ ∀ g, g ∈ w.hgs → ¬ makesNaN [w.fl (w.lead g) ft r false a, w.fl (w.lead g) ft r false b]
        ((w.fl (w.lead g) ft r false a).mul (w.fl (w.lead g) ft r false b))) →
      CompletesFixed (.sfmul h ft r d a b) s w 4 (w.hgs.flatMap fun g => w.tm.dest (w.lead g) d 1
        (roundFloat ((w.fl (w.lead g) ft r false a).mul (w.fl (w.lead g) ft r false b)) ft r false))) ∧
    (Issues (.sffma h ft r d a b c) h allFall s w →
      (w.tm.atrap = false ∨ ∀ g, g ∈ w.hgs →
        (ffma ft r false (w.tm.fval (w.lead g) ft r false a) (w.tm.fval (w.lead g) ft r false b)
          (w.tm.fval (w.lead g) ft r false c)).2 = false) →
      CompletesFixed (.sffma h ft r d a b c) s w 4 (w.hgs.flatMap fun g => w.tm.dest (w.lead g) d 1
        (roundFloat (FVal.sum r [(w.fl (w.lead g) ft r false a).mul (w.fl (w.lead g) ft r false b),
          w.fl (w.lead g) ft r false c]) ft r false))) ∧
    (Issues (.sfcvt h ft r (.f2f k) d a) h allFall s w →
      (w.tm.atrap = false ∨ ∀ g, g ∈ w.hgs →
        ¬ ((w.fl (w.lead g) k r false a).isNaN = true ∧ (ft = .e3m2 ∨ ft = .e2m3 ∨ ft = .e2m1))) →
      CompletesFixed (.sfcvt h ft r (.f2f k) d a) s w 4 (w.hgs.flatMap fun g => w.tm.dest (w.lead g) d 1
        (roundFloat (w.fl (w.lead g) k r false a) ft r false))) ∧
    (Issues (.sfcvt h ft r (.f2i i) d a) h allFall s w →
      (w.tm.atrap = false ∨ ∀ g, g ∈ w.hgs → (f2i (w.fl (w.lead g) ft r false a) i r).2 = false) →
      CompletesFixed (.sfcvt h ft r (.f2i i) d a) s w 4 (w.hgs.flatMap fun g =>
        w.sgets g d i (f2i (w.fl (w.lead g) ft r false a) i r).1)) ∧
    (Issues (.sfcvt h ft r (.i2f i) d a) h allFall s w →
      CompletesFixed (.sfcvt h ft r (.i2f i) d a) s w 4 (w.hgs.flatMap fun g => w.tm.dest (w.lead g) d 1
        (roundFloat (FVal.ofInt (w.snum g i a)) ft r false)))

/-- `sread`, `vtos`, `stov` (04, Scalar instructions; 01, Special sources). -/
def Obligations.ScalarMoves : Prop :=
  ∀ (h : Hdr) (n : Fin 15) (lane : BitVec 5) (first w64 : Bool) (d a : Opd) (s : State) (w : Iss),
    (Issues (.sread h d (.spc n)) h allFall s w → CompletesLater (.sread h d (.spc n)) s w
      (w.hgs.flatMap fun g => w.tm.dest (w.lead g) d 1 (specialValue s w (w.lead g) n.val))) ∧
    (Issues (.vtos h lane first w64 d a) h allFall s w → CompletesLater (.vtos h lane first w64 d a) s w
      (w.hgs.flatMap fun g =>
        let src := if first then w.lead g else 32 * g + lane.toNat
        w.tm.dest (w.lead g) d 1 (if src ∈ w.ts then w.tm.val src a (if w64 then 2 else 1) else 0))) ∧
    (Issues (.stov h w64 d a) h allFall s w → CompletesLater (.stov h w64 d a) s w
      (w.ts.flatMap fun th => w.tm.dest th d (if w64 then 2 else 1) (w.tm.val th a 1)))

/-- The predicate words (04, Predicate instructions). -/
def Obligations.PredicateWords : Prop :=
  ∀ (h : Hdr) (na nb w64 : Bool) (d a b : Opd) (s : State) (w : Iss),
    (Issues (.pand h na nb d a b) h allFall s w → CompletesFixed (.pand h na nb d a b) s w 2
      (w.ts.flatMap fun th => w.tm.dest th d 1 (if (w.tm.pred th a ^^ na) && (w.tm.pred th b ^^ nb) then 1 else 0))) ∧
    (Issues (.por h na nb d a b) h allFall s w → CompletesFixed (.por h na nb d a b) s w 2
      (w.ts.flatMap fun th => w.tm.dest th d 1 (if (w.tm.pred th a ^^ na) || (w.tm.pred th b ^^ nb) then 1 else 0))) ∧
    (Issues (.pxor h na nb d a b) h allFall s w → CompletesFixed (.pxor h na nb d a b) s w 2
      (w.ts.flatMap fun th => w.tm.dest th d 1 (if (w.tm.pred th a ^^ na) ^^ (w.tm.pred th b ^^ nb) then 1 else 0))) ∧
    (Issues (.pnot h d a) h allFall s w → CompletesFixed (.pnot h d a) s w 2
      (w.ts.flatMap fun th => w.tm.dest th d 1 (if w.tm.pred th a then 0 else 1))) ∧
    (Issues (.pmov h d a) h allFall s w → CompletesFixed (.pmov h d a) s w 2
      (w.ts.flatMap fun th => w.tm.dest th d 1 (if w.tm.pred th a then 1 else 0))) ∧
    (Issues (.pset h w64 d a) h allFall s w → CompletesFixed (.pset h w64 d a) s w 2
      (w.ts.flatMap fun th => w.tm.dest th d 1
        (if (if w64 then w.tm.n64 th a else w.tm.n32 th a) = 0 then 0 else 1)))

/-- The pair word (02, Format P). -/
def Obligations.PairWord : Prop :=
  ∀ (stall : BitVec 4) (yld : Bool) (post : BitVec 2) (p q : Half) (s : State) (w : Iss) (hd : Hdr),
    hd = { g := { neg := false, p := 0 }, ht := { stall := stall, yld := yld, post := post, need := 0, fwd := false } } →
    (Issues (.pairWord stall yld post p q) hd allFall s w →
      (w.tm.atrap = false ∨ (∀ x, x = p ∨ x = q → ∀ th, th ∈ w.half x →
        (Hop.result x.hop (w.tm.readReg (.v th x.a.toNat)).toNat (w.tm.readReg (.v th x.b.toNat)).toNat
          (w.tm.readReg (.v th x.d.toNat)).toNat).2 = false)) →
      ∃ t, exec (.pairWord stall yld post p q) s = .next t ∧ RegFrame s t w ∧
        Wrote s t w ([p, q].flatMap fun x => (w.half x).map fun th => (RegAt.v th x.d.toNat,
          BitVec.ofNat 64 (Hop.result x.hop (w.tm.readReg (.v th x.a.toNat)).toNat (w.tm.readReg (.v th x.b.toNat)).toNat
            (w.tm.readReg (.v th x.d.toNat)).toNat).1))) ∧
    (AtIssue (.pairWord stall yld post p q) hd.g s w → w.ts ≠ [] →
      (Half.out p w.tm.regs = true ∧ w.half p ≠ []) ∨ (Half.out q w.tm.regs = true ∧ w.half q ≠ []) →
      ∃ bad, exec (.pairWord stall yld post p q) s = .next (s.wordTrap w .opbound 0 bad [] .word))

/-! ## Cross-lane words and control -/

/-- A cross-lane word is reached: in bounds (02, decode step 7), its members stay in the address space, and no register
it reads holds uncorrectable data. -/
structure Sys2Proof.Machine.Reaches (i : Instr) (h : Hdr) (s : State) (w : Iss) : Prop extends AtIssue i h.g s w where
  oob : w.oob i i.uses none = []
  past : w.past w.mem = []
  good : w.badRegs h.g i i.uses = []

/-- Reaching a cross-lane word (07, collection). -/
def Obligations.CrossLaneCollect : Prop :=
  ∀ (h : Hdr) (s : State) (w : Iss) (i : Instr),
    ((∃ m seg w64 d a b v, i = .vshfl h m seg w64 d a b v) ∨ (∃ m d a k, i = .vvote h m d a k) ∨ (∃ cnt d a, i = .vballot h cnt d a) ∨
     (∃ o t sat r d a, i = .vredux h o t sat r d a) ∨ (∃ o t sat excl r d a, i = .vscan h o t sat excl r d a) ∨
     (∃ w64 d a, i = .vmatch h w64 d a) ∨ (∃ d a, i = .vlanemap h d a)) →
    Reaches i h s w →
    ∃ t tm, exec i s = .next t ∧ t.team? w.core w.slot = some tm ∧ Wrote s t w [] ∧ State.SameModule s t w.core
      ∧ Core.SameUnits (s.core w.core) (t.core w.core) ∧ (∀ slot, slot ≠ w.slot → t.team? w.core slot = s.team? w.core slot)
      ∧ ∀ th, th ∈ w.mem → ((∃ x, s.thread? w.core w.slot th = some x) →
          ∃ y, t.thread? w.core w.slot th = some y ∧ y.st = .waiting (.collect w.pc))
        ∧ ∃ c, c ∈ tm.colls ∧ c.hg = hgOf th ∧ c.pc = w.pc ∧ (th, w.ts.contains th, w.tm.xs (hgOf th)) ∈ c.mem
          ∧ (c.ins = i ∨ ∃ c', c' ∈ w.tm.colls ∧ c'.hg = c.hg ∧ c'.pc = c.pc ∧ c'.ins = c.ins)

/-- Firing a collector (07). -/
def Obligations.CollectorFires : Prop :=
  ∀ (core slot hg : Nat) (pc : PC) (s : State) (tm : Team) (c : Coll) (ht : Hints),
    s.team? core slot = some tm → tm.colls.find? (fun c => c.hg == hg && c.pc == pc) = some c → tm.mayFire c = true →
    crossHints c.ins = some ht →
    ∃ t tm', exec (.collectorFire core slot hg pc) s = .next t ∧ t.team? core slot = some tm' ∧ State.SameModule s t core
      ∧ (∀ x, x ≠ slot → t.team? core x = s.team? core x)
      ∧ (∀ x, x ∈ tm'.colls → ¬ (x.hg = hg ∧ x.pc = pc))
      ∧ (∀ m, m ∈ c.mem → ∀ x, s.thread? core slot m.1 = some x →
          ∃ y, t.thread? core slot m.1 = some y ∧ y.pc = BitVec.ofNat 57 (pc.toNat + 12)
            ∧ y.st = .binned ((s.core core).now + fireCycles c.ins + 1))
      ∧ ∀ ps, ps = (sortNat ((c.mem.filter fun m => m.2.1).map fun m => m.1)).filterMap (fun th =>
            (c.mem.find? fun m => m.1 == th).map fun m => ({ t := th, xs := m.2.2 } : Part)) →
          ∀ r, tm.hasReg r = true → t.reg core slot r = match lastOf (fireWrites tm c ps) r with
            | some v => r.holds v
            | none => s.reg core slot r

/-- Control transfers (07). -/
def Obligations.Transfers : Prop :=
  ∀ (h : Hdr) (imm : BitVec 32) (d a : Opd) (s : State) (w : Iss),
    let rel : Int := (w.pc.toNat : Int) + 12 + 4 * imm.toInt
    let relPc : Nat → PC := fun th => if th ∈ w.ts then BitVec.ofNat 57 rel.toNat else w.next
    let regPc : Nat → PC := fun th => if th ∈ w.ts then BitVec.ofNat 57 (w.tm.n64 th a) else w.next
    let good : Prop := ∀ th, th ∈ w.ts → w.tm.n64 th a % 4 = 0 ∧ w.tm.n64 th a < 2 ^ 57
    let link : List (RegAt × DWord) := w.ts.flatMap fun th => w.tm.dest th d 2 (w.pc.toNat + 12)
    (Issues (.bra h imm) h falseFall s w → 0 ≤ rel → rel < 2 ^ 57 → rel % 4 = 0 →
      ∃ t, exec (.bra h imm) s = .next t ∧ Continues s t w relPc ∧ Wrote s t w [] ∧ RegFrame s t w) ∧
    (Issues (.call h imm d) h falseFall s w → WellFormed (.call h imm d) = true → 0 ≤ rel → rel < 2 ^ 57 → rel % 4 = 0 →
      CompletesLater (.call h imm d) s w link ∧ ∀ t, exec (.call h imm d) s = .next t → Continues s t w relPc) ∧
    (∀ i, i = .brx h a ∨ i = .ret h a → Issues i h falseFall s w → good →
      ∃ t, exec i s = .next t ∧ Continues s t w regPc ∧ Wrote s t w [] ∧ RegFrame s t w) ∧
    (Issues (.callx h d a) h falseFall s w → WellFormed (.callx h d a) = true → good →
      CompletesLater (.callx h d a) s w link ∧ ∀ t, exec (.callx h d a) s = .next t → Continues s t w regPc) ∧
    (∀ i, i = .brx h a ∨ i = .ret h a ∨ i = .callx h d a → Issues i h falseFall s w →
      ((∃ th, th ∈ w.ts ∧ w.tm.n64 th a % 4 ≠ 0) → ∃ mask addrs, exec i s = .next (s.wordTrap w .misalign 0 mask addrs .word)) ∧
      ((∀ th, th ∈ w.ts → w.tm.n64 th a % 4 = 0) → (∃ th, th ∈ w.ts ∧ 2 ^ 57 ≤ w.tm.n64 th a) →
        ∃ mask addrs, exec i s = .next (s.wordTrap w .prot 0 mask addrs .word)))


/-- `reform`, `yield`, `nop`, `rejoin`, `exit`, `swtrap`, `bkpt` (07 R162 to R166). -/
def Obligations.GroupWords : Prop :=
  (∀ (h : Hdr) (a : Opd) (s : State) (w : Iss),
      (∀ i, i = .reform h ∨ i = .yield h → AtIssue i h.g s w → w.past w.mem = [] →
        ∃ t, exec i s = .next t ∧ Continues s t w (fun _ => w.next) ∧ Wrote s t w [] ∧ RegFrame s t w
          ∧ ∀ g, g ∈ (t.core w.core).groups → g.gid = w.gid → g.ends = true) ∧
      (Issues (.nop h) h allFall s w →
        ∃ t, exec (.nop h) s = .next t ∧ Continues s t w (fun _ => w.next) ∧ Wrote s t w [] ∧ RegFrame s t w) ∧
      (Issues (.rejoin h a) h allFall s w →
        ∃ t, exec (.rejoin h a) s = .next t ∧ Wrote s t w [] ∧ RegFrame s t w
          ∧ Continues s t w (fun th => if th ∈ w.ts then w.pc else w.next)
          ∧ ∀ th, th ∈ w.ts → ∀ x, s.thread? w.core w.slot th = some x →
              ∃ y, t.thread? w.core w.slot th = some y ∧ y.st = .rejoin (BitVec.ofNat 32 (w.tm.n32 th a ||| 2 ^ laneOf th))) ∧
      (Issues (.exit h) h falseFall s w →
        ∃ t, exec (.exit h) s = .next t ∧ t.mem = s.mem ∧ Wrote s t w [] ∧ Continues s t w (fun _ => w.next)
          ∧ (t.core w.core).exits = (s.core w.core).exits ++ [(w.slot, w.ts)])) ∧
  (∀ (c slot : Nat) (ts : List Nat) (s : State) (tm : Team), (s.core c).exits = [(slot, ts)] → s.team? c slot = some tm → tm.fin = false →
      let t := s.endExits c
      t.mem = s.mem ∧ (t.core c).exits = [] ∧ (∀ th, th ∈ ts → ∀ y, t.thread? c slot th = some y → y.st = .exited)
        ∧ (∀ th, th ∉ ts → ∀ y, t.thread? c slot th = some y → s.thread? c slot th = some y)
        ∧ ∀ sl, sl ≠ slot → ∀ u, t.team? c sl = some u → s.team? c sl = some u) ∧
  (∀ (h : Hdr) (code : BitVec 13) (s : State) (w : Iss) (i : Instr) (c : Cause),
      (i = .swtrap h code ∧ c = .swtrap) ∨ (i = .bkpt h code ∧ c = .bkpt) →
      Issues i h allFall s w → w.tm.trap = none →
      ∃ t tm tr, exec i s = .next t ∧ t.team? w.core w.slot = some tm ∧ tm.trap = some tr ∧ tr.req.cause = c
        ∧ tr.req.code = code.toNat ∧ tr.req.point = w.pc ∧ tr.req.mask = sortNat w.ts ∧ tr.req.kind = .after ∧ tr.halted = false
        ∧ tr.cyc = w.now ∧ Continues s t w (fun _ => w.next) ∧ Wrote s t w [] ∧ State.SameModule s t w.core)



/-! ## Memory accesses -/

/-- A word of global accesses that translate: the requests are aligned and in the address space, translation finds a
physical address for each, no page of them migrates, and the context is not replaying a journal. -/
structure Sys2Proof.Machine.Translates (s : State) (w : Iss) (k : AKind) (size : Nat) (rs : List Req) (fs : List (Req × Nat)) : Prop where
  aligned : ∀ r, r ∈ rs → r.va % size = 0 ∧ r.va < 2 ^ 57
  found : (State.lookupAll s w.core w.tm.ctx k size rs []).1 = fs.map fun e => (e.1, .ok e.2)
  live : s.replaying w.tm.ctx = false
  still : ∀ r, r ∈ rs → s.migrating w.tm.ctx r.va = false

/-- The accesses are in flight: each read or atomic among the core's outstanding results at its physical address. -/
def Sys2Proof.Machine.InFlight (t : State) (w : Iss) (fs : List (Req × Nat)) (acc : Req → Access) : Prop :=
  ∀ e, e ∈ fs → ∃ p, p ∈ (t.core w.core).pends ∧ p.slot = w.slot ∧ p.regs = (acc e.1).act.dst ∧ p.src = .load (acc e.1) (.mem e.2)
/-- The stores are queued in the core's store queue. -/
def Sys2Proof.Machine.Queued (t : State) (w : Iss) (fs : List (Req × Nat)) (data : Req → List Byte) : Prop :=
  ∀ e, e ∈ fs → ∃ q, q ∈ (t.core w.core).storeQ ∧ q.slot = w.slot ∧ q.wid = w.tm.wid ∧ q.thr = e.1.t ∧ q.tgt = .mem e.2
    ∧ q.data = data e.1 ∧ q.parked = none
/-- The word has changed no register and no byte of memory, its team's scratchpad holds `scr`, and its members continue
at PC + 12. -/
def Sys2Proof.Machine.SentLocal (s t : State) (w : Iss) (scr : Memory) : Prop :=
  Wrote s t w [] ∧ SendFrame s t w scr ∧ t.late = s.late ∧ Continues s t w fun _ => w.next
def Sys2Proof.Machine.Sent (s t : State) (w : Iss) : Prop := SentLocal s t w w.tm.scratch

/-- Global loads and atomics (09; `sld` 04). -/
def Obligations.GlobalReadsIssue : Prop :=
  ∀ (h : Hdr) (wd : AWidth) (sc : Scope) (ch : CHint) (d a b : Opd) (o : AtomOp) (ty : AtomTy) (ord : Bool) (s : State) (w : Iss)
    (fs : List (Req × Nat)),
    (Issues (.ld h wd sc ch d a b) h allFall s w →
      Translates s w .load wd.bytes (w.reqs fun t => intBits 64 ((w.tm.n64 t a : Int) + IType.val .i32 (w.tm.n32 t b))) fs →
      ∃ t, exec (.ld h wd sc ch d a b) s = .next t ∧ Sent s t w ∧
        InFlight t w fs fun r => w.access r .ls wd.bytes sc ch (.load (w.dst r.t d wd.regs))) ∧
    (Issues (.ldro h wd ch d a b) h allFall s w →
      Translates s w .load wd.bytes (w.reqs fun t => intBits 64 ((w.tm.n64 t a : Int) + IType.val .i32 (w.tm.n32 t b))) fs →
      ∃ t, exec (.ldro h wd ch d a b) s = .next t ∧ Sent s t w ∧
        InFlight t w fs fun r => w.access r .ro wd.bytes .th ch (.load (w.dst r.t d wd.regs))) ∧
    (Issues (.sld h wd sc ch d a b) h allFall s w →
      Translates s w .load wd.bytes (w.hgReqs fun t => (w.tm.n64 t a + w.tm.val t b 1) % 2 ^ 64) fs →
      ∃ t, exec (.sld h wd sc ch d a b) s = .next t ∧ Sent s t w ∧
        InFlight t w fs fun r => w.access r .ls wd.bytes sc ch (.load (w.dst r.t d 1))) ∧
    (Issues (.atom h o ty ord sc d a b) h allFall s w →
      Translates s w .atomic (ty.w / 8) (w.reqs fun t => w.tm.n64 t a) fs →
      ∃ t, exec (.atom h o ty ord sc d a b) s = .next t ∧ Sent s t w ∧
        InFlight t w fs fun r => w.access r .ls (ty.w / 8) sc .dflt (.atom o ty ord (w.atomB r.t ty b)
          (w.tm.val r.t d ty.regs % 2 ^ ty.w) (w.dst r.t d ty.regs))) ∧
    (Issues (.red h o ty ord sc a b) h allFall s w →
      Translates s w .atomic (ty.w / 8) (w.reqs fun t => w.tm.n64 t a) fs →
      ∃ t, exec (.red h o ty ord sc a b) s = .next t ∧ Sent s t w ∧
        InFlight t w fs fun r => w.access r .ls (ty.w / 8) sc .dflt
          (.atom o ty ord (w.atomB r.t ty b) 0 []))

/-- Global stores (09; `sst` 04). -/
def Obligations.GlobalStoresIssue : Prop :=
  ∀ (h : Hdr) (wd : AWidth) (sc : Scope) (ch : CHint) (a b c : Opd) (s : State) (w : Iss) (fs : List (Req × Nat)),
    let data : Req → List Byte := fun r => leBytes wd.bytes (w.tm.val r.t c wd.regs % 2 ^ (8 * wd.bytes))
    (Issues (.st h wd sc ch a b c) h allFall s w →
      Translates s w .store wd.bytes (w.reqs fun t => intBits 64 ((w.tm.n64 t a : Int) + IType.val .i32 (w.tm.n32 t b))) fs →
      ∃ t, exec (.st h wd sc ch a b c) s = .next t ∧ Sent s t w ∧ Queued t w fs data) ∧
    (Issues (.sst h wd sc ch a b c) h allFall s w →
      Translates s w .store wd.bytes (w.hgReqs fun t => (w.tm.n64 t a + w.tm.val t b 1) % 2 ^ 64) fs →
      ∃ t, exec (.sst h wd sc ch a b c) s = .next t ∧ Sent s t w ∧ Queued t w fs data)


/-- A word of scratchpad accesses is let through: the bytes lie in the team's scratchpad and are aligned, no range that
a command records overlaps them, no word of them is uncorrectable, no earlier access must be performed first, and the
context is not replaying a journal. -/
structure Sys2Proof.Machine.LocalOk (s : State) (w : Iss) (size : Nat) (addr : Nat → Nat) : Prop where
  fits : ∀ th, th ∈ w.ts → addr th % size = 0 ∧ addr th + size ≤ w.tm.loc
  quiet : ∀ th, th ∈ w.ts → (s.core w.core).sbHit false w.slot (addr th) size false = false
  good : ∀ th, th ∈ w.ts → s.badTgt (.scr w.tref (addr th)) size = false
  first : ∀ y, y ∈ (s.core w.core).outs → w.ahead s true y = false
  live : s.replaying w.tm.ctx = false
/-- The scratchpad after the threads' stores, in thread order. -/
def Sys2Proof.Machine.storedAll (m : Memory) (addr : Nat → Nat) (data : Nat → List Byte) : List Nat → Memory
  | [] => m
  | th :: ts => storedAll (Memory.writeN m (addr th) (data th)) addr data ts

/-- Scratchpad accesses (09; 08, scratchpads). -/
def Obligations.ScratchpadWords : Prop :=
  ∀ (h : Hdr) (wd : AWidth) (d a b c : Opd) (o : AtomOp) (ty : AtomTy) (ord : Bool) (s : State) (w : Iss),
    let addr : Nat → Nat := fun th => intBits 32 ((w.tm.n32 th a : Int) + IType.val .i32 (w.tm.n32 th b))
    (Issues (.stl h wd a b c) h allFall s w → LocalOk s w wd.bytes addr →
      ∃ t, exec (.stl h wd a b c) s = .next t ∧ SentLocal s t w (storedAll w.tm.scratch addr
          (fun th => leBytes wd.bytes (w.tm.val th c wd.regs % 2 ^ (8 * wd.bytes))) (sortNat w.ts))) ∧
    (Issues (.ldl h wd d a b) h allFall s w → WellFormed (.ldl h wd d a b) = true → LocalOk s w wd.bytes addr →
      ∃ t, exec (.ldl h wd d a b) s = .next t ∧ Sent s t w ∧
        ∃ p, p ∈ (t.core w.core).pends ∧ p.slot = w.slot ∧ p.src = .vals ((sortNat w.ts).flatMap fun th =>
          placeLoad (w.dst th d wd.regs) (Memory.readLe w.tm.scratch (addr th) wd.bytes)) none) ∧
    (Issues (.atoml h o ty ord false d a b) h allFall s w → WellFormed (.atoml h o ty ord false d a b) = true →
      (s.ctx? w.tm.ctx).map (fun x => x.jrn.lvl) ≠ some 2 →
      ∀ th, w.ts = [th] → LocalOk s w (ty.w / 8) (fun th => w.tm.n32 th a) →
      ∃ t old, exec (.atoml h o ty ord false d a b) s = .next t ∧
        old = Memory.readLe w.tm.scratch (w.tm.n32 th a) (ty.w / 8) ∧
        SentLocal s t w (Memory.writeLe w.tm.scratch (w.tm.n32 th a) (ty.w / 8)
          (atomNew o ty old (w.atomB th ty b) (w.tm.val th d ty.regs % 2 ^ ty.w))) ∧
        ∃ p, p ∈ (t.core w.core).pends ∧ p.slot = w.slot ∧ p.src = .vals (placeLoad (w.dst th d ty.regs) old) none)

/-- Cluster scratchpad accesses (09; 08, cluster addresses). -/
def Obligations.ClusterWords : Prop :=
  ∀ (h : Hdr) (wd : AWidth) (d a b c : Opd) (o : AtomOp) (ty : AtomTy) (ord : Bool) (s : State) (w : Iss) (place : Nat → TRef),
    let addr : Nat → Nat := fun th => intBits 64 ((w.tm.n64 th a : Int) + IType.val .i32 (w.tm.n32 th b))
    let far (size : Nat) (addr : Nat → Nat) : Prop := s.replaying w.tm.ctx = false ∧ ∀ th, th ∈ w.ts →
      addr th % size = 0 ∧ s.clusterOk w.tm (addr th) size = true
        ∧ s.clusterTgt w (addr th) = some (.scr (place th) (addr th % 2 ^ 21)) ∧ (place th).core ≠ w.core
    let near : Prop := (∀ th, th ∈ w.ts → addr th / 2 ^ 21 = w.tm.rank ∧ w.tm.rank < 16 ∧ w.tm.rank < s.clusterSize w.tm.grid)
      ∧ LocalOk s w wd.bytes (fun th => addr th % 2 ^ 21) ∧ (∀ th, th ∈ w.ts → addr th % wd.bytes = 0)
    (Issues (.ldcl h wd d a b) h allFall s w → far wd.bytes addr →
      ∃ t, exec (.ldcl h wd d a b) s = .next t ∧ Sent s t w ∧ ∀ th, th ∈ w.ts → ∃ p, p ∈ (t.core w.core).pends ∧
        p.src = .load (w.access { t := th, va := addr th, park := [th] } .ls wd.bytes .clu .dflt (.load (w.dst th d wd.regs)))
          (.scr (place th) (addr th % 2 ^ 21))) ∧
    (Issues (.stcl h wd a b c) h allFall s w → far wd.bytes addr →
      ∃ t, exec (.stcl h wd a b c) s = .next t ∧ Sent s t w ∧ ∀ th, th ∈ w.ts → ∃ q, q ∈ (t.core w.core).storeQ ∧
        q.thr = th ∧ q.tgt = .scr (place th) (addr th % 2 ^ 21)
          ∧ q.data = leBytes wd.bytes (w.tm.val th c wd.regs % 2 ^ (8 * wd.bytes))) ∧
    (Issues (.atoml h o ty ord true d a b) h allFall s w → far (ty.w / 8) (fun th => w.tm.n64 th a) →
      ∃ t, exec (.atoml h o ty ord true d a b) s = .next t ∧ Sent s t w ∧ ∀ th, th ∈ w.ts → ∃ p, p ∈ (t.core w.core).pends ∧
        p.src = .load (w.access { t := th, va := w.tm.n64 th a, park := [th] } .ls (ty.w / 8) .clu .dflt
          (.atom o ty ord (w.atomB th ty b) (w.tm.val th d ty.regs % 2 ^ ty.w) (w.dst th d ty.regs)))
          (.scr (place th) (w.tm.n64 th a % 2 ^ 21))) ∧
    (Issues (.stcl h wd a b c) h allFall s w → near →
      ∃ t, exec (.stcl h wd a b c) s = .next t ∧ SentLocal s t w (storedAll w.tm.scratch (fun th => addr th % 2 ^ 21)
          (fun th => leBytes wd.bytes (w.tm.val th c wd.regs % 2 ^ (8 * wd.bytes))) (sortNat w.ts))) ∧
    (Issues (.ldcl h wd d a b) h allFall s w → WellFormed (.ldcl h wd d a b) = true → near →
      ∃ t, exec (.ldcl h wd d a b) s = .next t ∧ Sent s t w ∧
        ∃ p, p ∈ (t.core w.core).pends ∧ p.slot = w.slot ∧ p.src = .vals ((sortNat w.ts).flatMap fun th =>
          placeLoad (w.dst th d wd.regs) (Memory.readLe w.tm.scratch (addr th % 2 ^ 21) wd.bytes)) none)

/-- `ldw` and `pref` (09; 08, the weight store). -/
def Obligations.WeightLoadPrefetch : Prop :=
  ∀ (h : Hdr) (wd : AWidth) (die : Bool) (ch : CHint) (d a b : Opd) (s : State) (w : Iss),
    let addr : Nat → Nat := fun th => intBits 64 ((w.tm.n64 th a : Int) + IType.val .i32 (w.tm.n32 th b))
    (Issues (.ldw h wd d a b) h allFall s w →
      (∀ th, th ∈ w.ts → addr th % wd.bytes = 0 ∧ addr th < 2 ^ 31 ∧ addr th % 2 ^ 30 + wd.bytes ≤ 2 ^ 30) →
      ∃ t, exec (.ldw h wd d a b) s = .next t ∧ Sent s t w ∧ ∀ th, th ∈ w.ts → ∃ p, p ∈ (t.core w.core).pends ∧
        p.src = .load (w.access { t := th, va := addr th, park := [th] } .ls wd.bytes .th .dflt (.load (w.dst th d wd.regs)))
          (.wst (addr th / 2 ^ 30) (addr th % 2 ^ 30))) ∧
    (Issues (.pref h die ch a b) h allFall s w → (∀ th, th ∈ w.ts → addr th < 2 ^ 57 ∧ s.migrating w.tm.ctx (addr th) = false) →
      ∃ t, exec (.pref h die ch a b) s = .next t ∧ Sent s t w)

/-- The checks of an access (09) and parking on a missing page (16 R350). -/
def Obligations.AccessChecks : Prop :=
  (∀ (h : Hdr) (wd : AWidth) (sc : Scope) (ch : CHint) (d a b c : Opd) (o : AtomOp) (ty : AtomTy) (ord : Bool) (s : State) (w : Iss)
      (i : Instr) (size : Nat) (addr : Nat → Nat) (ok : Nat → Prop),
      ((i = .ld h wd sc ch d a b ∨ i = .st h wd sc ch a b c) ∧ size = wd.bytes ∧ (∀ th, addr th = w.tm.gaddr th a b) ∧ (∀ x, ok x ↔ x < 2 ^ 57)) ∨
      (i = .atom h o ty ord sc d a b ∧ size = ty.w / 8 ∧ (∀ th, addr th = w.tm.n64 th a) ∧ (∀ x, ok x ↔ x < 2 ^ 57)) ∨
      ((i = .ldl h wd d a b ∨ i = .stl h wd a b c) ∧ size = wd.bytes ∧ (∀ th, addr th = w.tm.laddr th a b)
        ∧ (∀ x, ok x ↔ x + size ≤ w.tm.loc)) →
      Issues i h allFall s w →
      ((∃ th, th ∈ w.ts ∧ addr th % size ≠ 0) → ∃ mask addrs, exec i s = .next (s.wordTrap w .misalign 0 mask addrs .word)) ∧
      ((∀ th, th ∈ w.ts → addr th % size = 0) → (∃ th, th ∈ w.ts ∧ ¬ ok (addr th)) →
        ∃ mask addrs, exec i s = .next (s.wordTrap w .prot 0 mask addrs .word))) ∧
  (∀ (h : Hdr) (wd : AWidth) (sc : Scope) (ch : CHint) (d a b : Opd) (s : State) (w : Iss) (x : Ctx) (page g : Nat),
      let addr : Nat → Nat := fun th => w.tm.gaddr th a b
      Issues (.ld h wd sc ch d a b) h allFall s w → w.mem = w.ts → (∀ th, th ∈ w.ts → hgOf th = g) →
      (∀ th, th ∈ w.ts → ∃ y, Tab.get? w.tm.threads th = some y) →
      (∀ th, th ∈ w.ts → addr th % wd.bytes = 0 ∧ addr th < 2 ^ 57 ∧ addr th / 65536 = page) →
      (∀ e, e ∈ (State.lookupAll s w.core w.tm.ctx .load wd.bytes (w.reqs addr) []).1 → e.2 = .fault) →
      (∀ th, th ∈ w.ts → s.migrating w.tm.ctx (addr th) = false) →
      s.ctx? w.tm.ctx = some x → x.faults.length < Config.maxFaults →
      ∃ t x' f, exec (.ld h wd sc ch d a b) s = .next t ∧ t.ctx? w.tm.ctx = some x' ∧ x'.faults = x.faults ++ [f]
        ∧ f.fid = x.nextFid ∧ f.kind = 0 ∧ f.pending = true ∧ f.pc = w.pc ∧ x'.ringQ.length = x.ringQ.length + 1
        ∧ (∀ th, th ∈ w.ts → ∃ y, t.thread? w.core w.slot th = some y ∧ y.st = .parked x.nextFid ∧ y.pc = w.pc)
        ∧ Wrote s t w [] ∧ t.mem = s.mem)


/-- What an event that performs the access named `uid` needs: it waits in no port, its name is its own, no trap has set it
aside and no fault has parked it, and nothing must be performed before it, nor does a recorded range hold it. -/
structure Sys2Proof.Machine.Performable (s : State) (c : Nat) (x : OutAcc) : Prop where
  named : (s.core c).outs.find? (fun y => y.uid == x.uid) = some x
  free : ∀ y, y ∈ (s.core c).outs → OutAcc.needs (s.core c).fences x y = false
  live : x.stuck = false
  port : s.inPort c x.uid = false
  quiet : s.heldAt x.path x.ins x.tgt x.size = false

/-- Performing a store (09, 10). -/
def Obligations.StorePerformed : Prop :=
  ∀ (c k pa : Nat) (s : State) (e : SEntry) (x : OutAcc),
    (s.core c).storeQ[k]? = some e → (s.core c).storeQ.find? (fun q => q.uid == e.uid) = some e → e.parked = none →
    e.tgt = .mem pa → inWindow pa = false → s.poison = [] →
    Performable s c x → x.uid = e.uid →
    ∃ t, exec (.storeGloballyPerformed c k) s = .next t
      ∧ (∀ j, j < e.data.length → Memory.read t.mem (pa + j) = e.data.getD j 0)
      ∧ (∀ a, a < pa ∨ pa + e.data.length ≤ a → Memory.read t.mem a = Memory.read s.mem a)
      ∧ (∀ q, q ∈ (t.core c).storeQ → q.uid ≠ e.uid)
      ∧ (t.core c).teams = (s.core c).teams ∧ t.ctxs = s.ctxs
      ∧ ∀ c', c' ≠ c → { t.core c' with sb := [] } = { s.core c' with sb := [] } ∧ (e.path ≠ .mx → t.core c' = s.core c')


/-- The return of a load's data and of an atomic (09), and the writeback event (02 R40; 04 R113). -/
def Obligations.ResultsArrive : Prop :=
  (∀ (c k pa : Nat) (s : State) (p : Pend) (a : Access) (x : OutAcc) (tm : Team),
      ((s.core c).pends.filter fun p => match p.src with
        | .load _ _ => true
        | .tile _ _ _ _ _ _ _ => true
        | _ => false)[k]? = some p →
      p.src = .load a (.mem pa) → (s.core c).pend? p.uid = some p → (∀ q, q ∈ (s.core c).storeQ → q.uid ≠ p.uid) →
      Performable s c x → x.uid = p.uid → inWindow pa = false → s.poison = [] → s.team? c p.slot = some tm → tm.trap = none →
      Tab.get? (s.core c).l1 (pa / 64) = none → Tab.get? (s.core c).roCache (pa / 64) = none →
      ((s.ctx? tm.ctx).map fun y => y.jrn.lvl) ≠ some 2 →
      (s.core c).pends.filter (fun q => q.ins == p.ins) = [p] → (∀ e, e ∈ s.late → ¬ (pa / 4 ≤ e.elem ∧ e.elem < (pa + a.size + 3) / 4)) →
      (∀ q, q ∈ (s.core c).storeQ → Tgt.overlaps (.mem pa) a.size q.tgt q.data.length = false) →
      let old := Memory.readLe s.mem pa a.size
      (∀ dst, a.act = .load dst →
        ∃ t, exec (.loadDataReturn c k) s = .next t ∧ t.mem = s.mem ∧ (∀ q, q ∈ (t.core c).pends → q.uid ≠ p.uid) ∧
          ∀ r, tm.hasReg r = true → t.reg c p.slot r = match lastOf (placeLoad dst old) r with
            | some v => r.holds v
            | none => s.reg c p.slot r) ∧
      (∀ o ty ord b d dst, a.act = .atom o ty ord b d dst →
        ∃ t, exec (.loadDataReturn c k) s = .next t ∧ Memory.readLe t.mem pa a.size = atomNew o ty old b d % 2 ^ (8 * a.size) ∧
          (∀ z, z < pa ∨ pa + a.size ≤ z → Memory.read t.mem z = Memory.read s.mem z) ∧
          ∀ r, tm.hasReg r = true → t.reg c p.slot r = match lastOf (placeLoad dst old) r with
            | some v => r.holds v
            | none => s.reg c p.slot r)) ∧
  (∀ (c k : Nat) (s : State) (p : Pend) (wr : List (RegAt × DWord)) (tm : Team),
      ((s.core c).pends.filter fun p => match p.src with
        | .vals _ none => true
        | _ => false)[k]? = some p →
      p.src = .vals wr none → s.team? c p.slot = some tm → tm.trap = none →
      ∃ t, exec (.variableLatencyWriteback c k) s = .next t ∧ State.SameModule s t c
        ∧ (∀ q, q ∈ (t.core c).pends → q.uid ≠ p.uid)
        ∧ ∀ r, tm.hasReg r = true → t.reg c p.slot r = match lastOf wr r with
            | some v => r.holds v
            | none => s.reg c p.slot r)


/-! ## Fences, records, barriers and barrier objects -/

/-- None of the word's threads has an access that is not performed, nor has its home group an arrival of `lacnt`, and no
queued store of the core has been seen by another thread or ordered by a wider fence. -/
def Sys2Proof.Machine.Settled (s : State) (w : Iss) : Prop :=
  ∀ x, x ∈ (s.core w.core).outs → x.seen = false ∧ x.near = false
    ∧ (x.slot = w.slot → x.thr ∉ w.ts ∧ (x.elect = true → ∀ th, th ∈ w.ts → hgOf th ≠ hgOf x.thr))
/-- The word's translated sync records are readable and valid (09, sync records): the thread, the physical address and
the record of each. -/
def Sys2Proof.Machine.Records (s : State) (fs : List (Req × Nat)) (rs : List (Nat × Nat × SyncRec)) : Prop :=
  rs.map (fun r => r.2.1) = fs.map (fun e => e.2) ∧ rs.map (fun r => r.1) = fs.map (fun e => e.1.t) ∧
  ∀ r, r ∈ rs → r.2.1 % 64 = 0 ∧ (∀ k, k < 64 → inWindow (r.2.1 + k) = false) ∧ s.poisoned r.2.1 64 = false ∧ SyncRec.ofBytes (Memory.readN s.mem r.2.1 64) = some r.2.2
/-- What a word orders before itself has been performed, which leaves `s1`: no access of it traps, waits in a port or is
held by a recorded range. -/
def Sys2Proof.Machine.Performed (s : State) (w : Iss) (f : OutAcc → Bool) (s1 : State) : Prop := s.performFirst w f = .ok s1
/-- What an `xfence` orders before itself has been performed, which leaves `s1`. -/
def Sys2Proof.Machine.XPerformed (s : State) (w : Iss) (ca cb : Path) (s1 : State) : Prop :=
  (s.guarded w fun s =>
      let us := w.ts.flatMap fun t => (s.core w.core).xfenceLeft w ca cb t
      ((s.core w.core).pends.filter fun p => us.contains p.uid).foldl (fun s p => s.performTile w.core p) (s.performAll w.core us)) = .ok s1
    ∧ ∀ th, th ∈ w.ts → (s1.core w.core).xfenceLeft w ca cb th = []
/-- What `fence.ar` leaves of the threads' `ls` accesses: no load and no atomic; stores that are performed at `.core`, or at
a wider scope come before every `ls` access of the thread that follows (those named before the fence). -/
def Sys2Proof.Machine.Fenced (s1 t : State) (w : Iss) (sc : Scope) : Prop :=
  ∀ y, y ∈ (t.core w.core).outs → y.lsOf w.slot w.ts = true → y.isSt = true ∧
    (if Scope.wide sc then y.uid < s1.uid → OutAcc.fenced (t.core w.core).fences y = true else y.near = true)

/-- Fences and sync records (09; 10). -/
def Obligations.FencesAndRecords : Prop :=
  ∀ (h : Hdr) (seqc : Bool) (sc : Scope) (ca cb : Path) (d : Option Opd) (a : Opd) (s : State) (w : Iss),
    (Issues (.fence h seqc sc) h allFall s w → ∀ s0 s1,
      (if (seqc && Scope.wide sc) = true then Performed s w (fun y => y.lsOf w.slot w.ts || y.near) s0 else s0 = s) →
      Performed s0 w (fun y => y.lsOf w.slot w.ts && !y.isSt) s1 →
      ∃ t, exec (.fence h seqc sc) s = .next t ∧ Wrote s1 t w [] ∧ Continues s1 t w (fun _ => w.next) ∧ t.mem = s1.mem
        ∧ Fenced s1 t w sc ∧ t.scFences = s1.scFences + (if seqc then 1 else 0) ∧ t.late = s1.late
        ∧ (4 ≤ sc.code.toNat → (t.core w.core).l1 = [])) ∧
    (Issues (.xfence h sc ca cb) h allFall s w → ∀ s0 s1, XPerformed s w ca cb s0 →
      (if cb = .ls then Performed s0 w (fun y => y.lsOf w.slot w.ts && !y.isSt) s1 else s1 = s0) →
      ∃ t, exec (.xfence h sc ca cb) s = .next t ∧ Wrote s1 t w [] ∧ Continues s1 t w (fun _ => w.next) ∧ t.mem = s1.mem
        ∧ t.late.length = s1.late.length
        ∧ (∀ (n : Nat) (e : Past), s1.late[n]? = some e → ∃ e' : Past, t.late[n]? = some e' ∧ { e' with seen := e.seen } = e ∧
            ∀ p : Path, p ∈ e'.seen ↔ p ∈ e.seen ∨ (p = cb ∧ ca ≠ cb ∧ e.path = ca
              ∧ ∃ th, th ∈ w.ts ∧ s1.includes sc (s1.agentAt w.core w.slot th) e.who = true))
        ∧ (cb = .ls → Fenced s1 t w sc)
        ∧ (cb = .ro → ∀ tm, s1.team? w.core w.slot = some tm → ∀ c, s1.inScope sc w.core tm.grid tm.cluster c = true →
            (t.core c).roCache = [])) ∧
    ∀ fs rs s1,
    (Issues (.rel h sc a) h allFall s w → Translates s w .atomic 64 (w.reqs fun t => w.tm.n64 t a) fs →
      let s0 := (State.lookupAll s w.core w.tm.ctx .atomic 64 (w.reqs fun t => w.tm.n64 t a) []).2
      (∀ e, e ∈ fs → s0.poisoned e.2 64 = false) → Performed s0 w (w.syncFirst s0 .atomic fs) s1 → Records s1 fs rs →
      let cov := w.relCovers s1 sc a rs
      ∀ s2, Performed s1 w (fun y => cov y && (Scope.wide sc || !y.isSt)) s2 → (∀ e, e ∈ fs → s2.poisoned e.2 64 = false) →
      ∃ t, exec (.rel h sc a) s = .next t ∧ Wrote s2 t w [] ∧ Continues s2 t w (fun _ => w.next)
        ∧ (∀ slot, slot ≠ w.slot → t.team? w.core slot = s2.team? w.core slot) ∧ (∀ c, c ≠ w.core → t.core c = s2.core c)
        ∧ (∀ y, y ∈ (t.core w.core).outs → cov y = true → Scope.wide sc = false ∧ y.isSt = true ∧ y.near = true)
        ∧ t.mem = rs.foldl (fun m r => Memory.writeLe m (r.2.1 + 8) 8 ((Memory.readLe m (r.2.1 + 8) 8 + 1) % 2 ^ 64)) s2.mem) ∧
    (Issues (.acq h sc d a) h allFall s w → Translates s w .load 64 (w.reqs fun t => w.tm.n64 t a) fs →
      let s0 := (State.lookupAll s w.core w.tm.ctx .load 64 (w.reqs fun t => w.tm.n64 t a) []).2
      (∀ e, e ∈ fs → s0.poisoned e.2 64 = false) → Performed s0 w (w.syncFirst s0 .load fs) s1 → Records s1 fs rs →
      ∃ t, exec (.acq h sc d a) s = .next t ∧ Wrote s1 t w [] ∧ Continues s1 t w (fun _ => w.next) ∧ t.mem = s1.mem
        ∧ (∀ y, y ∈ (t.core w.core).outs → y.lsOf w.slot w.ts = true → y.isSt = true)
        ∧ ∀ o, d = some o → ((∀ n, o ≠ .scl n) ∨ ∃ th, w.ts = [th]) →
          ∃ p, p ∈ (t.core w.core).pends ∧ p.slot = w.slot
            ∧ p.src = .vals (rs.flatMap fun r => w.tm.dest r.1 o 2 r.2.2.relcnt) none)

/-- Arrivals at barriers (09). -/
def Obligations.BarrierArrivals : Prop :=
  ∀ (h : Hdr) (nf arv cl : Bool) (a : Opd) (s : State) (w : Iss) (i : Instr),
    i = (if cl then .barcl h nf arv a else .bar h nf arv a) → Issues i h allFall s w →
    ((∃ th, th ∈ w.ts ∧ (if cl then 4 else 16) ≤ w.tm.n32 th a) →
      ∃ mask addrs, exec i s = .next (s.wordTrap w .opbound 0 mask addrs .word)) ∧
    ((∀ th, th ∈ w.ts → w.tm.n32 th a < (if cl then 4 else 16)
        ∧ (w.tm.rank, th) ∉ (s.barrier w.tm cl (w.tm.n32 th a)).arrived) →
      (nf = true ∨ Settled s w) → (cl = true → (Tab.get? s.grids w.tm.grid).isSome) →
      ∃ t tm, exec i s = .next t ∧ t.team? w.core w.slot = some tm ∧ Wrote s t w [] ∧ t.mem = s.mem
        ∧ (∀ id, (t.barrier tm cl id).phase = (s.barrier w.tm cl id).phase
          ∧ (id < (if cl then 4 else 16) → (t.barrier tm cl id).arrived = (s.barrier w.tm cl id).arrived
              ++ ((sortNat w.ts).filter fun th => w.tm.n32 th a == id).map fun th => (w.tm.rank, th)))
        ∧ (if arv then Continues s t w (fun _ => w.next) else StaysAt s t w w.ts)
        ∧ (arv = false → ∀ th, th ∈ w.ts → ∀ y, t.thread? w.core w.slot th = some y →
            y.st = .waiting (.bar cl (w.tm.n32 th a) (s.barrier w.tm cl (w.tm.n32 th a)).phase nf)))

/-- The release of a `rejoin` (07 R166) and the end of a barrier's phase (09 R220). -/
def Obligations.Releases : Prop :=
  (∀ (core slot hg : Nat) (pc : PC) (s : State) (tm : Team),
      s.team? core slot = some tm → tm.frozen = false → tm.atRejoin hg pc ≠ [] →
      (∀ e, e ∈ tm.atRejoin hg pc → ∀ l, l < 32 → e.2.getLsbD l = true →
        tm.exited (32 * hg + l) = true ∨ ∃ m, (32 * hg + l, m) ∈ tm.atRejoin hg pc) →
      ∃ t, exec (.rejoinRelease core slot hg pc) s = .next t ∧ State.SameModule s t core
        ∧ (∀ e, e ∈ tm.atRejoin hg pc → ∃ y, t.thread? core slot e.1 = some y ∧ y.pc = BitVec.ofNat 57 (pc.toNat + 12)
            ∧ y.st = .binned (s.core core).now)
        ∧ ∀ r, tm.hasReg r = true → t.reg core slot r = s.reg core slot r) ∧
  (∀ (cl : Bool) (a b id : Nat) (s : State) (e0 : Nat × Nat × Team) (es : List (Nat × Nat × Team)),
      let set := e0 :: es
      let br := s.barrier e0.2.2 cl id
      s.barSet cl a b = set →
      (∀ e, e ∈ set → s.team? e.1 e.2.1 = some e.2.2 ∧ (e.2.2.threads.map fun x => x.1).Nodup) →
      (set.map fun e => (e.1, e.2.1)).Nodup → (cl = true → (Tab.get? s.grids a).isSome) →
      ((∀ e, e ∈ set → e.2.2.frozen = false ∧ ∀ x, x ∈ (s.core e.1).outs → x.slot ≠ e.2.1) → br.arrived ≠ [] →
        (∀ e, e ∈ set → e.2.2.fin = true ∨ ∀ x, x ∈ e.2.2.threads → x.2.st = .exited ∨
          (x.2.st ≠ .halted ∧ (e.2.2.rank, x.1) ∈ br.arrived)) →
        ∃ t tm, exec (.barrierRelease cl a b id) s = .next t ∧ t.team? e0.1 e0.2.1 = some tm ∧ t.mem = s.mem
          ∧ t.barrier tm cl id = { phase := br.phase + 1, arrived := [] }
          ∧ (∀ e, e ∈ set → ∀ th x nf, s.thread? e.1 e.2.1 th = some x → x.st = .waiting (.bar cl id br.phase nf) →
              ∃ y, t.thread? e.1 e.2.1 th = some y ∧ y.pc = BitVec.ofNat 57 (x.pc.toNat + 12)
                ∧ y.st = .binned ((s.core e.1).now + 1))
          ∧ ∀ e, e ∈ set → ∀ r, t.reg e.1 e.2.1 r = s.reg e.1 e.2.1 r) ∧
      ((∃ e, e ∈ set ∧ e.2.2.fin = false ∧ ∃ x, x ∈ e.2.2.threads ∧ x.2.st = .halted) →
        exec (.barrierRelease cl a b id) s = .next s))


/-- Words over barrier objects (08; 09). -/
def Obligations.BarrierObjects : Prop :=
  ∀ (h : Hdr) (grp cl : Bool) (sc : Scope) (d a b : Opd) (s : State) (w : Iss) (os : List (Req × Tgt)),
    let obj (s : State) (g : Tgt) : BxObj := BxObj.ofBytes (s.readTgt g 16)
    let free (grp : Bool) : Prop := s.objects w cl (w.objReqs grp cl a) = .ok os ∧ (∀ e, e ∈ os → s.objHeld e.2 = false) ∧ Settled s w
      ∧ (os.map fun e => e.2).Nodup ∧ (∀ e, e ∈ os → e.1.t ∈ w.ts ∧ s.badTgt e.2 16 = false)
    let spare : Prop := ∀ e, e ∈ os → (obj s e.2).rsv = 0
    let homes : Prop := ∀ e, e ∈ os → ∃ r off tm, e.2 = .scr r off ∧ off % 16 = 0 ∧ s.team? r.core r.slot = some tm ∧ tm.wid = r.wid
    let upd (o : BxOp) (i : Instr) : Prop := ∃ t, exec i s = .next t ∧ Wrote s t w [] ∧ Continues s t w (fun _ => w.next)
      ∧ t.mem = s.mem ∧ ∀ e, e ∈ os → some (obj t e.2) = (obj s e.2).update o (w.tm.n32 e.1.t b)
    (Issues (.bxinit h grp cl a b) h allFall s w → free grp → homes → upd .init (.bxinit h grp cl a b)) ∧
    (Issues (.bxowe h grp cl a b) h allFall s w → free grp → homes → spare → upd .owe (.bxowe h grp cl a b)) ∧
    (Issues (.bxpay h grp cl sc a b) h allFall s w → free grp → homes → spare → upd .pay (.bxpay h grp cl sc a b)) ∧
    (Issues (.bxwait h cl sc a b) h allFall s w → free false →
      let ended : Req × Tgt → Bool := fun e => (obj s e.2).completed (w.tm.n32 e.1.t b % 65536)
      let left := os.filter fun e => !ended e
      ∃ t, exec (.bxwait h cl sc a b) s = .next t ∧ Wrote s t w [] ∧ t.mem = s.mem
        ∧ (left = [] → Continues s t w fun _ => w.next)
        ∧ (left ≠ [] → StaysAt s t w (left.map fun e => e.1.t) ∧ ∀ e, e ∈ left → ∀ y, t.thread? w.core w.slot e.1.t = some y →
            ∃ loc, y.st = .waiting (.bxwait e.2 (BitVec.ofNat 16 (w.tm.n32 e.1.t b)) sc loc))) ∧
    (Issues (.bxpoll h cl sc d a b) h allFall s w → free false →
      ∃ t, exec (.bxpoll h cl sc d a b) s = .next t ∧ Sent s t w ∧ ∃ p, p ∈ (t.core w.core).pends ∧ p.slot = w.slot
        ∧ p.src = .vals (os.flatMap fun e => w.tm.dest e.1.t d 1 (if (obj s e.2).completed (w.tm.n32 e.1.t b % 65536) then 1 else 0)) none)

/-! ## Asynchronous commands -/

/-- One command for each home group, `o g` says which: in the core's list with its ranges recorded, each under a handle
that is new, not null and pending, owed to D; no register and no byte of global memory has changed. -/
structure Sys2Proof.Machine.Ordered (s t : State) (w : Iss) (d : Opd) (o : Nat → Order) (hs : List DWord) : Prop where
  regs : Wrote s t w []
  pcs : Continues s t w fun _ => w.next
  mem : t.mem = s.mem
  others : ∀ slot, slot ≠ w.slot → t.team? w.core slot = s.team? w.core slot
  count : hs.length = w.hgs.length
  distinct : hs.Nodup
  fresh : ∀ h, h ∈ hs → h ≠ 0 ∧ h.toNat ∉ s.handleVals ∧ (t.team? w.core w.slot).bind (fun tm => tm.handle h)
    = some { st := 0, kvb := false, cause := 0 }
  owed : ∃ p, p ∈ (t.core w.core).pends ∧ p.slot = w.slot
    ∧ p.src = .vals ((w.hgs.zip hs).flatMap fun e => w.tm.dest (w.lead e.1) d 1 e.2.toNat) none
  cmds : ∀ e, e ∈ w.hgs.zip hs → ∃ c, c ∈ (t.core w.core).cmds ∧ c.h = e.2 ∧ c.hg = e.1 ∧ c.slot = w.slot ∧ c.wid = w.tm.wid
    ∧ c.mask = w.of e.1 ∧ c.kind = (o e.1).kind ∧ c.obj = (o e.1).obj ∧ c.rest = (o e.1).rest ∧ c.begun = false ∧ c.fin = none
    ∧ ∀ k, k ∈ (o e.1).claims → (s.core k.core).sbEntry k.opb k.slot k.lo (k.lo + k.n) k.wr c.id ∈ (t.core k.core).sb

/-- There is room for the commands, and no `xfence` holds their path. -/
structure Sys2Proof.Machine.Room (s : State) (w : Iss) (o : Nat → Order) : Prop where
  slots : (s.core w.core).cmds.length + w.hgs.length ≤ 128
  board : s.sbRoom (w.hgs.flatMap fun g => (o g).claims) = true
  names : s.handleVals.length + w.hgs.length < 2 ^ 63
  free : ∀ g, g ∈ w.hgs → w.tm.xfenced g (o g).path = false

/-- Issuing commands (09; 08). -/
def Obligations.CommandsIssue : Prop :=
  ∀ (h : Hdr) (sc : Scope) (ch : CHint) (wst ix : Bool) (d a b x : Opd) (s : State) (w : Iss) (r q : Nat → TRef) (off src : Nat → Nat)
    (ob : Nat → Option Tgt),
    let v : Nat → Nat := fun g => w.tm.n64 (w.lead g) b
    let n : Nat → Nat := fun g => w.tm.n32 (w.lead g) x
    let four : Prop := ∀ g, g ∈ w.hgs → (w.pair g a).1 % 4 = 0 ∧ v g % 4 = 0 ∧ n g % 4 = 0
    let inGlobal : Prop := ∀ g, g ∈ w.hgs → v g < 2 ^ 57
    let inStore : Prop := ∀ g, g ∈ w.hgs → v g < 2 ^ 31 ∧ v g % 2 ^ 30 + n g ≤ 2 ^ 30
    let object : Prop := ∀ g, g ∈ w.hgs → s.orderObj w (w.pair g a).2 = .ok (ob g)
    let side (n : Nat → Nat) : Prop := ∀ g, g ∈ w.hgs → s.side w (w.pair g a).1 (n g) = .ok (r g, off g)
    let goes (i : Instr) (o : Nat → Order) : Prop := Room s w o → ∃ t hs, exec i s = .next t ∧ Ordered s t w d o hs
    (Issues (.cpyG2l h sc ch d a b x) h allFall s w → four → inGlobal → side n → object → goes (.cpyG2l h sc ch d a b x) fun g =>
      { kind := .copy (.glob (v g)) (.scr (r g) (off g)) (n g) sc, obj := ob g, rest := whole (n g),
        claims := scrClaim (r g) (off g) (n g) true, path := .cp }) ∧
    (Issues (.cpyL2g h sc ch d a b x) h allFall s w → four → inGlobal → side n → object → goes (.cpyL2g h sc ch d a b x) fun g =>
      { kind := .copy (.scr (r g) (off g)) (.glob (v g)) (n g) sc, obj := ob g, rest := whole (n g),
        claims := scrClaim (r g) (off g) (n g) false, path := .cp }) ∧
    (Issues (.cpyW2l h d a b x) h allFall s w → four → inStore → side n → object → goes (.cpyW2l h d a b x) fun g =>
      { kind := .copy (.wst (v g / 2 ^ 30 % 2) (v g % 2 ^ 30)) (.scr (r g) (off g)) (n g) .th, obj := ob g, rest := whole (n g),
        claims := scrClaim (r g) (off g) (n g) true, path := .cp }) ∧
    (Issues (.cpyo h wst ch d a b x) h allFall s w → four → (if wst then inStore else inGlobal) → object →
      (∀ g, g ∈ w.hgs → off g = (w.pair g a).1 % 2 ^ 32 ∧ off g < (s.core w.core).slotBytes
        ∧ off g + n g ≤ (s.core w.core).slotBytes) →
      goes (.cpyo h wst ch d a b x) fun g =>
        { kind := .copy (if wst then .wst (v g / 2 ^ 30 % 2) (v g % 2 ^ 30) else .glob (v g)) (.opb (off g)) (n g) .th, obj := ob g,
          rest := whole (n g),
          claims := if n g = 0 then [] else [{ core := w.core, opb := true, slot := w.slot, lo := off g, n := n g, wr := true }],
          path := .cp }) ∧
    (Issues (.cpyl h d a b x) h allFall s w → (∀ g, g ∈ w.hgs → (w.pair g a).1 % 4 = 0 ∧ v g % 4 = 0 ∧ n g % 4 = 0 ∧ s.side w (v g) (n g) = .ok (q g, src g)) → side n →
      object → goes (.cpyl h d a b x) fun g =>
        { kind := .copy (.scr (q g) (src g)) (.scr (r g) (off g)) (n g) .clu, obj := ob g, rest := whole (n g),
          claims := scrClaim (r g) (off g) (n g) true ++ scrClaim (q g) (src g) (n g)
            (r g == q g && decide (off g < src g + n g) && decide (src g < off g + n g)), path := .cp }) ∧
    (Issues (.gkv h ix d a b x) h allFall s w → (∀ g, g ∈ w.hgs → (w.pair g a).1 % 64 = 0 ∧ (w.pair g x).1 % 4 = 0) → side (fun _ => 0) → object →
      goes (.gkv h ix d a b x) fun g =>
        { kind := .gather ((w.of g).map fun th => w.tm.n32 th b) (w.pair g x).1 ((w.pair g x).2 % 2 ^ 32) ix (r g) (off g), obj := ob g,
          rest := [(0, 1)], claims := scrClaim (r g) (off g) (w.tm.loc - off g) true, path := .gk }) ∧
    (Issues (.kvpf h ix d a b x) h allFall s w → object → goes (.kvpf h ix d a b x) fun g =>
        { kind := .kvpf ((w.of g).map fun th => w.tm.n32 th b) (w.pair g a).1 (n g) ix, obj := ob g, rest := [(0, 1)],
          claims := [], path := .gk })

/-- Handle words and `vlob` (09; 08). -/
def Obligations.HandleWords : Prop :=
  ∀ (h : Hdr) (n : BitVec 4) (d : Option Opd) (o a : Opd) (f : LobForm) (n1 : BitVec 5) (s : State) (w : Iss),
    let hv : Nat → DWord := fun g => w.tm.readReg (.h g n.toNat)
    let known : Prop := ∀ g, g ∈ w.hgs → (w.tm.handle (hv g)).isSome = true
    let status : Nat → HState := fun g => (w.tm.handle (hv g)).getD { st := 1, kvb := false, cause := 0 }
    let nulls : List (RegAt × DWord) := w.hgs.map fun g => (RegAt.h g n.toNat, 0)
    (Issues (.hwait h d (.hnd n)) h allFall s w → known → (∀ g, g ∈ w.hgs → (status g).st ≠ 0) →
      ∃ t, exec (.hwait h d (.hnd n)) s = .next t ∧ Wrote s t w nulls ∧ Continues s t w (fun _ => w.next) ∧ State.SameModule s t w.core ∧
        ∀ d', d = some d' → ∀ wr, wr = w.hgs.flatMap (fun g => w.tm.dest (w.lead g) d' 1 (status g).word) → wr ≠ [] →
          ∃ p, p ∈ (t.core w.core).pends ∧ p.slot = w.slot ∧ p.src = .vals wr none) ∧
    (Issues (.hwait h d (.hnd n)) h allFall s w → known → (∃ g, g ∈ w.hgs ∧ (status g).st = 0) →
      let late := w.ts.filter fun th => (status (hgOf th)).st == 0
      ∃ t tm, exec (.hwait h d (.hnd n)) s = .next t ∧ t.team? w.core w.slot = some tm ∧ Wrote s t w [] ∧ State.SameModule s t w.core
        ∧ StaysAt s t w late ∧ ∀ th, th ∈ late → ∀ y, t.thread? w.core w.slot th = some y →
          ∃ r, r ∈ tm.hwaits ∧ y.st = .waiting (.hwait r.id) ∧ r.hg = hgOf th ∧ r.reg = n.toNat ∧ r.h = hv (hgOf th)) ∧
    (Issues (.htest h o (.hnd n)) h allFall s w → known →
      CompletesLater (.htest h o (.hnd n)) s w (w.hgs.flatMap fun g => w.tm.dest (w.lead g) o 1 (status g).word)) ∧
    (Issues (.hcancel h (.hnd n)) h allFall s w → known → ((s.core w.core).cmds.map fun c => c.id).Nodup →
      ∃ t, exec (.hcancel h (.hnd n)) s = .next t ∧ Wrote s t w nulls ∧ Continues s t w (fun _ => w.next) ∧
        ∀ g c, g ∈ w.hgs → (s.core w.core).cmds.find? (fun c => c.h == hv g && c.wid == w.tm.wid) = some c → c.fin = none →
          ∃ c', c' ∈ (t.core w.core).cmds ∧ c'.id = c.id ∧ c'.fin = some (2, 0) ∧ (c.obj = none → c'.rest = [])
            ∧ (c.obj ≠ none → c'.rest = c.rest ∧ (c.rest ≠ [] → .event (.commandPortionArrival w.core c.id) ∈ t.agenda))) ∧
    (∀ i, i = .hwait h d (.hnd n) ∨ i = .htest h o (.hnd n) ∨ i = .hcancel h (.hnd n) → Issues i h allFall s w → ¬ known →
      ∃ mask addrs, exec i s = .next (s.wordTrap w .handle 0 mask addrs .word)) ∧
    (Issues (.hmov h o a) h allFall s w →
      CompletesLater (.hmov h o a) s w (w.hgs.flatMap fun g => w.tm.dest (w.lead g) o 1 (w.tm.val (w.lead g) a 1))) ∧
    (Issues (.vlob h f n1 o a) h allFall s w →
      (∀ th, th ∈ w.ts → w.tm.n32 th a % 4 = 0 ∧ w.tm.n32 th a + 128 * (n1.toNat + 1) ≤ (s.core w.core).slotBytes
        ∧ (s.core w.core).sbHit true w.slot (w.tm.n32 th a) (128 * (n1.toNat + 1)) false = false) →
      CompletesLater (.vlob h f n1 o a) s w (w.ts.flatMap fun th => w.tm.dest th o (n1.toNat + 1)
        ((List.range (n1.toNat + 1)).foldl (fun v k => v + 2 ^ (32 * k)
          * lobWord w.tm.opbuf f (w.tm.n32 th a) (n1.toNat + 1) (laneOf th) k) 0)))

/-- Portions, retirement and failure (09; 08). -/
def Obligations.CommandsProgress : Prop :=
  ∀ (core id : Nat) (s : State) (c : Cmd) (tm : Team), (s.core core).cmd? id = some c → s.team? core c.slot = some tm → tm.wid = c.wid →
    c.fin = none →
    (c.err = none → c.fault = none → c.erg = none → c.rest ≠ [] → c.begun = false → s.clear c.id = true → s.cmdHeld core c = false →
      (∃ a b n sc, c.kind = .copy a b n sc) →
      ∃ t, exec (.commandPortionArrival core id) s = .next t ∧ t.mem = s.mem
        ∧ (t.core core).cmd? id = some { c with begun := true }) ∧
    (∀ (q r : TRef) (src off n lo0 : Nat) (sc : Scope) (qm rm : Team),
      c.err = none → c.fault = none → c.erg = none → c.begun = true → c.obj = none → c.asks = [] →
      c.kind = .copy (.scr q src) (.scr r off) n sc → q ≠ r → c.rest = [(lo0, n)] → 0 < n → n % 4 = 0 → n < 2 ^ 32 →
      s.team? q.core q.slot = some qm → qm.wid = q.wid → s.team? r.core r.slot = some rm → rm.wid = r.wid →
      (s.core q.core).spoison = [] →
      ∃ t lo m rm', exec (.commandPortionArrival core id) s = .next t ∧ t.mem = s.mem
        ∧ lo0 ≤ lo ∧ 0 < m ∧ lo + m ≤ lo0 + n ∧ m % 4 = 0
        ∧ t.team? r.core r.slot = some rm' ∧ Memory.readN rm'.scratch (off + lo) m = Memory.readN qm.scratch (src + lo) m
        ∧ (∀ z, z < off + lo ∨ off + lo + m ≤ z → Memory.read rm'.scratch z = Memory.read rm.scratch z)
        ∧ (t.core core).cmd? id = some { c with rest := cutRange (lo0, n) lo m }) ∧
    (c.err = none → c.fault = none → c.rest = [] → c.obj = none → (∃ a b n sc, c.kind = .copy a b n sc) → tm.fin = false →
      ∃ t tm', exec (.commandRetire core id) s = .next t ∧ (t.core core).cmd? id = none ∧ t.mem = s.mem
        ∧ (∀ k x, x ∈ (t.core k).sb → x.cmd ≠ id)
        ∧ t.team? core c.slot = some tm' ∧ Tab.get? tm'.handles c.h.toNat = some { st := 1, kvb := c.kvb, cause := 0 }) ∧
    (∀ cause, c.err = some cause → tm.trap = none →
      ∃ t tm' tr c' later, exec (.commandFailure core id) s = .next t ∧ t.team? core c.slot = some tm' ∧ tm'.trap = some tr
        ∧ tr.req.cause = cause ∧ tr.req.point = c.pc ∧ tr.req.mask = sortNat c.mask ∧ tr.req.kind = .command ∧ tr.halted = false
        ∧ (t.core core).cmd? id = some c' ∧ c'.fin = some (3, cause.code)
        ∧ t.agenda = (if c.obj.isSome && !c.rest.isEmpty then [.event (.commandPortionArrival core id)] else [])
          ++ .event (.commandRetire core id) :: later)

/-! ## The matrix engine -/

/-- A word has changed no register, no byte of any memory, nothing of another core or team, and of its core's units none but
the matrix engine and the sorter; its members continue at PC + 12. -/
structure Sys2Proof.Machine.UnitFrame (s t : State) (w : Iss) : Prop where
  regs : Wrote s t w []
  pcs : Continues s t w fun _ => w.next
  module : State.SameModule s t w.core
  others : ∀ slot, slot ≠ w.slot → t.team? w.core slot = s.team? w.core slot
  own : ∃ tm, t.team? w.core w.slot = some tm ∧ Team.SameRest w.tm tm
  sb : (t.core w.core).sb = (s.core w.core).sb
  cmds : (t.core w.core).cmds = (s.core w.core).cmds
  storeQ : (t.core w.core).storeQ = (s.core w.core).storeQ
  bankRole : (t.core w.core).bankRole = (s.core w.core).bankRole
/-- The same, and the sorter as it was. -/
def Sys2Proof.Machine.EngineFrame (s t : State) (w : Iss) : Prop := UnitFrame s t w ∧ (t.core w.core).srt = (s.core w.core).srt

/-- The word has changed no register and no byte of any memory, and of its core only the accesses in flight, the ranges
recorded for them and the caches; its members continue at PC + 12. -/
def Sys2Proof.Machine.SentRanged (s t : State) (w : Iss) : Prop :=
  Wrote s t w [] ∧ SendFrame s (t.modCore w.core fun k => { k with sb := (s.core w.core).sb }) w w.tm.scratch
    ∧ t.late = s.late ∧ Continues s t w fun _ => w.next

/-- No register that the word reads holds uncorrectable data. -/
structure Sys2Proof.Machine.ReadsGood (s : State) (w : Iss) (i : Instr) : Prop where
  scalars : w.badScalars i = []
  regs : ∀ th, th ∈ w.ts → ∀ u, u ∈ usesUnder (s.core w.core).eng.conf i → u.dst = false → ∀ r, r ∈ touches u w.tm th →
    r ∉ w.tm.rpoison

/-- Home group `g` of the word's team owns the engine and issues alone. -/
def Sys2Proof.Machine.Owns (s : State) (w : Iss) (g : Nat) : Prop :=
  (s.core w.core).eng.owner = some (w.slot, g) ∧ ∀ th, th ∈ w.ts → hgOf th = g
/-- Its configuration is `c`, nothing is loading, and no tile holds uncorrectable data. -/
structure Sys2Proof.Machine.TilesReady (s : State) (w : Iss) (g : Nat) (c : TileCfg) : Prop where
  owns : Owns s w g
  conf : (s.core w.core).eng.conf = some c
  still : (s.core w.core).loading = false
  good : (s.core w.core).eng.tpoison = []
/-- The tile elements: those that `f` lists hold what it says, every other word of the accumulator store what it held. -/
def Sys2Proof.Machine.TilesBecome (s t : State) (w : Iss) (f : Nat → Option Nat) : Prop :=
  (t.core w.core).eng.owner = (s.core w.core).eng.owner ∧ (t.core w.core).eng.cfg = (s.core w.core).eng.cfg ∧
  ∀ n, (Tab.getD (t.core w.core).eng.tiles n 0).toNat = match f n with
    | some v => v
    | none => (Tab.getD (s.core w.core).eng.tiles n 0).toNat

/-- Ownership and configuration (05). -/
def Obligations.EngineOwnership : Prop :=
  ∀ (h : Hdr) (a : Opd) (d : Option Opd) (s : State) (w : Iss) (g : Nat),
    let e := (s.core w.core).eng
    (Issues (.macq h) h allFall s w → w.hgs = [g] → e.owner = none → e.drain = false → e.queue = [] →
      ∃ t, exec (.macq h) s = .next t ∧ EngineFrame s t w ∧ (t.core w.core).eng = { e with owner := some (w.slot, g) }) ∧
    (Issues (.macq h) h allFall s w → w.hgs = [g] → e.owner ≠ some (w.slot, g) → (e.owner ≠ none ∨ e.drain = true ∨ e.queue ≠ []) →
      e.waiter w.slot g = none →
      e.queue.length ≤ 16 → (e.queue.length < 16 → e.outside = []) →
      let me : EWait := { slot := w.slot, hg := g, k := 0, reload := none }
      ∃ t, exec (.macq h) s = .next t ∧ Wrote s t w [] ∧ StaysAt s t w w.ts
        ∧ (t.core w.core).eng = (if e.queue.length < 16 then { e with queue := e.queue ++ [me] }
            else { e with outside := e.outside ++ [me] })
        ∧ ∀ th, th ∈ w.ts → ∀ y, t.thread? w.core w.slot th = some y → y.st = .waiting .macq) ∧
    (Issues (.mrel h) h allFall s w → Owns s w g →
      ∃ t, exec (.mrel h) s = .next t ∧ EngineFrame s t w ∧ (t.core w.core).eng = { e with owner := none, drain := true }) ∧
    (∀ off blk c, off = w.tm.n32 (w.lead g) a → blk = Memory.readN w.tm.scratch off 64 → Issues (.tcfg h a) h allFall s w → Owns s w g →
      ReadsGood s w (.tcfg h a) → (s.core w.core).sb.length < Config.sbEntries →
      off % 64 = 0 → off + 64 ≤ w.tm.loc → (s.core w.core).loading = false → (s.core w.core).sbHit false w.slot off 64 false = false →
      (s.core w.core).spoison = [] → TileCfg.ofBytes blk = some c →
      ∃ t, exec (.tcfg h a) s = .next t ∧ EngineFrame s t w
        ∧ (t.core w.core).eng = { e with cfg := some blk, tiles := [], tpoison := [] }) ∧
    (∀ c, Issues (.mzero h d) h allFall s w → TilesReady s w g c → ReadsGood s w (.mzero h d) →
      ∃ t, exec (.mzero h d) s = .next t ∧ EngineFrame s t w ∧ TilesBecome s t w fun n => match d with
        | some o => if Opd.tile o * c.m * c.n ≤ n ∧ n < (Opd.tile o + 1) * c.m * c.n then some 0 else none
        | none => some 0) ∧
    (∀ i o x y cc col, i = .mrel h ∨ i = .tcfg h a ∨ i = .mma h o x y ∨ i = .mzero h d ∨ i = .mrd h cc col o x y ∨ i = .mwr h cc col o x y →
      Issues i h allFall s w → (∃ th, th ∈ w.ts ∧ e.owner ≠ some (w.slot, hgOf th)) →
      (∃ th, th ∈ w.ts ∧ e.reloading w.slot (hgOf th) = false) →
      ∃ mask addrs, exec i s = .next (s.wordTrap w .mxown 0 mask addrs .word)) ∧
    (∀ core x q tm, let k := s.core core; k.eng.owner = none → k.loading = false → k.eng.queue = x :: q → x.reload = none →
      s.team? core x.slot = some tm → tm.frozen = false → tm.trap = none → (tm.threads.map fun e => e.1).Nodup →
      ∃ t, exec (.engineGrant core) s = .next t ∧ State.SameModule s t core ∧ (t.core core).eng.owner = some (x.slot, x.hg)
        ∧ (t.core core).eng.drain = false ∧ (t.core core).eng.queue = (q ++ k.eng.outside).take 16
        ∧ (t.core core).eng.outside = (q ++ k.eng.outside).drop 16
        ∧ (t.core core).eng.tiles = k.eng.tiles ∧ (t.core core).eng.cfg = k.eng.cfg
        ∧ (∀ th z, hgOf th = x.hg → s.thread? core x.slot th = some z → z.st = .waiting .macq →
            ∃ y, t.thread? core x.slot th = some y ∧ y.pc = BitVec.ofNat 57 (z.pc.toNat + 12) ∧ y.st = .binned (k.now + 1))
        ∧ ∀ slot r, t.reg core slot r = s.reg core slot r) ∧
    (∀ core, let k := s.core core; k.eng.owner = none → k.loading = false → k.eng.queue = [] →
      ∃ t, exec (.engineGrant core) s = .next t ∧ (t.core core).eng = { k.eng with drain := false })

/-- Products (05). -/
def Obligations.TileProducts : Prop :=
  ∀ (h : Hdr) (d a b x : Opd) (xo : Option Opd) (s : State) (w : Iss) (g : Nat) (c : TileCfg), TilesReady s w g c → c.m ≤ 256 → c.n ≤ 256 →
    let old : Nat → Nat → Nat := fun i j => (Tab.getD (s.core w.core).eng.tiles ((Opd.tile d * c.m + i) * c.n + j) 0).toNat
    let sum : Nat → Nat → Int := fun i j => ((List.range c.a.k).map fun k =>
      sext c.a.w (w.fragBits g (w.base g a) c.a i k) * sext c.b.w (w.fragBits g (w.base g b) c.b j k)).foldl (· + ·) 0
    let become (t : State) (f : Nat → Nat → Option Nat) : Prop :=
      (∀ i j, i < c.m → j < c.n → ((Tab.getD (t.core w.core).eng.tiles ((Opd.tile d * c.m + i) * c.n + j) 0).toNat) = (f i j).getD (old i j)) ∧
      ∀ n, (n < Opd.tile d * c.m * c.n ∨ (Opd.tile d + 1) * c.m * c.n ≤ n) →
        Tab.getD (t.core w.core).eng.tiles n 0 = Tab.getD (s.core w.core).eng.tiles n 0
    (Issues (.mma h d a b) h allFall s w → ReadsGood s w (.mma h d a b) →
      ∃ t, exec (.mma h d a b) s = .next t ∧ EngineFrame s t w
        ∧ become t (fun i j => some (w.element g c (w.base g a) (w.base g b) none (old i j) i j % 2 ^ 32))
        ∧ (c.accInt = true → become t fun i j => some (intBits 32 ((old i j : Int) + sum i j)))) ∧
    (Issues (.mmas h d a b x) h allFall s w → ReadsGood s w (.mmas h d a b x) → c.scmode = true →
      ∃ t, exec (.mmas h d a b x) s = .next t ∧ EngineFrame s t w
        ∧ become t fun i j => some (w.element g c (w.base g a) (w.base g b) (some (w.base g x, w.base g x + (c.m + 31) / 32)) (old i j) i j
            % 2 ^ 32)) ∧
    (Issues (.mmag h d a b xo) h allFall s w → ReadsGood s w (.mmag h d a b xo) → c.groups ≠ 0 → (xo.isSome → c.scmode = true) → c.gtoff + 4 * c.groups ≤ w.tm.loc →
      (s.core w.core).sbHit false w.slot c.gtoff (4 * c.groups) false = false → (s.core w.core).spoison = [] →
      (s.core w.core).sb.length < Config.sbEntries →
      ∃ t, exec (.mmag h d a b xo) s = .next t ∧ EngineFrame s t w
        ∧ become t fun i j =>
            ((groupRows c.m ((List.range c.groups).map fun n => Memory.readLe w.tm.scratch (c.gtoff + 4 * n) 4) 0 0).find? fun r =>
              decide (r.2.1 ≤ i) && decide (i < r.2.2)).map fun r =>
                w.element g c (w.base g a) (w.base g b + r.1 * c.fb)
                  (xo.map fun o => (w.base g o, w.base g o + c.sa + r.1 * c.sb)) (old i j) i j % 2 ^ 32)

/-- Tile moves (05). -/
def Obligations.TileMoves : Prop :=
  ∀ (h : Hdr) (cols : ColCnt) (col : BitVec 8) (ch : CHint) (raw : Bool) (d a b x : Opd) (s : State) (w : Iss) (g : Nat) (c : TileCfg)
    (pa : Nat → Nat), TilesReady s w g c → (s.core w.core).sb = [] → (s.core w.core).spoison = [] → (s.core w.core).watch = [] →
    w.tm.xfenced g .mx = false →
    let old : Nat → Nat → Nat → Nat := fun t i j => (Tab.getD (s.core w.core).eng.tiles ((t * c.m + i) * c.n + j) 0).toNat
    let r0 := IType.val .i32 (w.tm.n32 (w.lead g) b)
    let st := w.tm.n32 (w.lead g) b
    let rows (va n : Nat) : List (Nat × Nat × Nat) := (List.range c.m).flatMap fun i => rowPieces (va + i * st) n
    let found (k : AKind) (va n : Nat) : Prop := (s.rowPlaces w k (rows va n)).1 = (rows va n).map (fun p => (p, .ok (pa p.2.1)))
      ∧ ∀ i, i < c.m → s.migrating w.tm.ctx (va + i * st) = false ∧ s.migrating w.tm.ctx (va + i * st + n - 1) = false
    let range (va n cmd : Nat) (wr : Bool) : List SbEntry := [(s.core w.core).sbEntry false w.slot va (va + (c.m - 1) * st + n) wr cmd]
    (Issues (.mrd h cols col d a b) h allFall s w → ReadsGood s w (.mrd h cols col d a b) → 0 ≤ r0 → r0 < c.m → col.toNat + cols.n ≤ c.n →
      CompletesLater (.mrd h cols col d a b) s w (w.ts.flatMap fun th => w.tm.dest th d cols.n (packNat 32 ((List.range cols.n).map fun k =>
        if r0.toNat + laneOf th < c.m then old (Opd.tile a) (r0.toNat + laneOf th) (col.toNat + k) else 0)))) ∧
    (Issues (.mwr h cols col d a b) h allFall s w → ReadsGood s w (.mwr h cols col d a b) → 0 ≤ r0 → r0 < c.m → col.toNat + cols.n ≤ c.n →
      ∃ t, exec (.mwr h cols col d a b) s = .next t ∧ EngineFrame s t w
        ∧ (∀ th k, th ∈ w.ts → k < cols.n → r0.toNat + laneOf th < c.m →
            (Tab.getD (t.core w.core).eng.tiles ((Opd.tile d * c.m + r0.toNat + laneOf th) * c.n + col.toNat + k) 0).toNat
              = w.tm.val th a cols.n / 2 ^ (32 * k) % 2 ^ 32)
        ∧ ∀ n, (∀ th k, th ∈ w.ts → k < cols.n → r0.toNat + laneOf th < c.m →
              n ≠ (Opd.tile d * c.m + r0.toNat + laneOf th) * c.n + col.toNat + k) →
            Tab.getD (t.core w.core).eng.tiles n 0 = Tab.getD (s.core w.core).eng.tiles n 0) ∧
    (∀ loc va, va = w.tm.n64 (w.lead g) a → Issues (.mld h loc ch d a b) h allFall s w → ReadsGood s w (.mld h loc ch d a b) → va % 4 = 0 → st % 4 = 0 →
      (∀ i, i < c.m → va + i * st + 4 * c.n ≤ (if loc then w.tm.loc else 2 ^ 57)) →
      (loc = true → ∃ t, exec (.mld h loc ch d a b) s = .next t ∧ SentRanged s t w ∧ ∃ p, p ∈ (t.core w.core).pends
        ∧ p.slot = w.slot ∧ p.hg = g ∧ (t.core w.core).sb = range va (4 * c.n) p.uid false
        ∧ p.src = .tile w.ts (Opd.tile d) va st true w.pc (c.places (Opd.tile d) va st fun y => .scr w.tref y)) ∧
      (loc = false → found .load va (4 * c.n) →
        ∃ t, exec (.mld h loc ch d a b) s = .next t ∧ Sent s t w ∧ ∃ p, p ∈ (t.core w.core).pends ∧ p.slot = w.slot ∧ p.hg = g
          ∧ p.src = .tile w.ts (Opd.tile d) va st false w.pc (c.places (Opd.tile d) va st fun y => .mem (pa y)))) ∧
    (∀ loc va wd, va = w.tm.n64 (w.lead g) d → wd = (if raw then 32 else c.out.w) → Issues (.mst h loc ch raw d a b x) h allFall s w →
      ReadsGood s w (.mst h loc ch raw d a b x) →
      (raw = true ∨ c.epi % 4 = 0 ∧ c.epi.testBit 5 = false) → va % 4 = 0 → st % 4 = 0 →
      (∀ i, i < c.m → va + i * st + wd * c.n / 8 ≤ (if loc then w.tm.loc else 2 ^ 57)) →
      let bytes : Nat → List Byte := fun i => packBytes wd (if raw then (List.range c.n).map fun j => old (Opd.tile a) i j
        else (w.outRow s c (Opd.tile a) (w.tm.n32 (w.lead g) x) i).1)
      (loc = true → ∃ t ins, exec (.mst h loc ch raw d a b x) s = .next t ∧ SentRanged s t w
        ∧ (t.core w.core).sb = range va (wd * c.n / 8) ins true ∧ ∀ i, i < c.m →
          ∃ q, q ∈ (t.core w.core).storeQ ∧ q.ins = ins ∧ q.slot = w.slot ∧ q.path = .mx ∧ q.tgt = .scr w.tref (va + i * st)
            ∧ q.parked = none ∧ q.data = bytes i) ∧
      (loc = false → found .store va (wd * c.n / 8) →
        ∃ t, exec (.mst h loc ch raw d a b x) s = .next t ∧ Sent s t w ∧ ∀ i, i < c.m → ∀ p, p ∈ rowPieces (va + i * st) (wd * c.n / 8) →
          ∃ q, q ∈ (t.core w.core).storeQ ∧ q.slot = w.slot ∧ q.path = .mx ∧ q.tgt = .mem (pa p.2.1) ∧ q.parked = none
            ∧ q.data = ((bytes i).drop p.1).take p.2.2))

/-! ## The sorter, work queues, election and launches -/

/-- The issuing team's context, where it stands, neither records nor replays a journal. -/
def Sys2Proof.Machine.NoJournal (s : State) (w : Iss) : Prop := ∀ x, s.ctx? w.tm.ctx = some x → x.jrn.lvl ≠ 2 ∧ x.jrn.lvl ≠ 3

/-- The sorter (11). -/
def Obligations.SorterWords : Prop :=
  ∀ (h : Hdr) (a b d : Opd) (byidx : Bool) (s : State) (w : Iss),
    let q := (s.core w.core).srt
    let kOf : Nat → Nat := fun g => w.tm.n32 (w.lead g) a
    (Issues (.tkbeg h a) h allFall s w → (∃ g, g ∈ w.hgs ∧ ¬ (1 ≤ kOf g ∧ kOf g ≤ 2048)) →
      ∃ mask addrs, exec (.tkbeg h a) s = .next (s.wordTrap w .opbound 0 mask addrs .word)) ∧
    (Issues (.tkbeg h a) h allFall s w → (∀ g, g ∈ w.hgs → 1 ≤ kOf g ∧ kOf g ≤ 2048 ∧ q.reloading w.slot g = false) →
      let r := w.hgs.foldl (fun (p : Sorter × List Nat) g =>
        ((p.1.acquire w.slot g (kOf g)).1, if (p.1.acquire w.slot g (kOf g)).2 then p.2 ++ w.of g else p.2)) (q, [])
      ∃ t, exec (.tkbeg h a) s = .next t ∧ Wrote s t w [] ∧ t.mem = s.mem ∧ (t.core w.core).srt = r.1
        ∧ (t.core w.core).eng = (s.core w.core).eng ∧ (r.2 = [] → UnitFrame s t w)
        ∧ (r.2 ≠ [] → StaysAt s t w r.2)
        ∧ ∀ th, th ∈ r.2 → ∀ y, t.thread? w.core w.slot th = some y → y.st = .waiting .tkbeg) ∧
    (∀ g k, q.owner = some (w.slot, g) ∨ (q.owner = none ∧ q.queue = []) →
      q.acquire w.slot g k = ({ q with owner := some (w.slot, g), k := k, kept := [], pushed := 0, ovf := false, nanx := false, fill := 0 }, false)) ∧
    (∀ g k, q.owner ≠ some (w.slot, g) → (q.owner ≠ none ∨ q.queue ≠ []) → q.waiter w.slot g = none →
      q.queue.length ≤ 16 → (q.queue.length < 16 → q.outside = []) →
      let me : EWait := { slot := w.slot, hg := g, k := k, reload := none }
      q.acquire w.slot g k = (if q.queue.length < 16 then { q with queue := q.queue ++ [me] }
        else { q with outside := q.outside ++ [me] }, true)) ∧
    (Issues (.tkpush h a b) h allFall s w → (∀ th, th ∈ w.ts → q.owner = some (w.slot, hgOf th)) → q.fill + w.ts.length ≤ 128 →
      ∃ t, exec (.tkpush h a b) s = .next t ∧ UnitFrame s t w ∧ (t.core w.core).eng = (s.core w.core).eng
        ∧ (t.core w.core).srt = { (sortNat w.ts).foldl (fun q th =>
              let v := w.tm.n32 th a
              let nan := (FType.decode .f32 v).isNaN
              if 2 ^ 24 ≤ q.pushed ∨ nan = true then
                { q with ovf := q.ovf || decide (2 ^ 24 ≤ q.pushed), nanx := q.nanx || nan }
              else { q with kept := (rankInsert (BitVec.ofNat 32 v, BitVec.ofNat 32 (w.tm.n32 th b)) q.kept).take q.k,
                            pushed := q.pushed + 1 }) q with fill := q.fill + w.ts.length }) ∧
    (∀ g s1, Issues (.tkend h byidx d a) h allFall s w → w.hgs = [g] → q.owner = some (w.slot, g) →
      let off := w.tm.n32 (w.lead g) a
      off % 8 = 0 → off + 8 * q.k ≤ w.tm.loc → (s.core w.core).sbHit false w.slot off (8 * q.kept.length) false = false →
      Performed s w (w.ahead s true) s1 → ∀ tm1, s1.team? w.core w.slot = some tm1 → tm1.wid = w.tm.wid →
      let rest := (s1.core w.core).srt.queue
      ∃ t tm, exec (.tkend h byidx d a) s = .next t ∧ Wrote s1 t w [] ∧ Continues s1 t w (fun _ => w.next) ∧ t.mem = s1.mem
        ∧ t.team? w.core w.slot = some tm
        ∧ (rest = [] → (t.core w.core).srt.owner = none)
        ∧ (∀ x xs, rest = x :: xs → (∀ tx, s1.team? w.core x.slot = some tx → tx.frozen = false) →
            (t.core w.core).srt.owner = some (x.slot, x.hg))
        ∧ tm.scratch = Memory.writeN tm1.scratch off ((if byidx then q.kept.foldl (fun l x => idxInsert x l) [] else q.kept).flatMap
            fun x => leBytes 4 x.2.toNat ++ leBytes 4 x.1.toNat)
        ∧ ∃ p, p ∈ (t.core w.core).pends ∧ p.slot = w.slot ∧ p.src = .vals (w.tm.dest (w.lead g) d 1
            (q.kept.length + (if q.ovf then 2 ^ 12 else 0) + (if q.nanx then 2 ^ 13 else 0) + 2 ^ 32 * q.pushed)) none) ∧
    (∀ i, i = .tkpush h a b ∨ i = .tkend h byidx d a → Issues i h allFall s w → (∃ th, th ∈ w.ts ∧ q.owner ≠ some (w.slot, hgOf th)) →
      (∃ th, th ∈ w.ts ∧ q.reloading w.slot (hgOf th) = false) →
      ∃ mask addrs, exec i s = .next (s.wordTrap w .prot 0 mask addrs .word))

/-- Work queues and election (11). -/
def Obligations.QueueWords : Prop :=
  ∀ (h : Hdr) (sc : Scope) (nb : Bool) (d a b x : Opd) (v : Option Opd) (s : State) (w : Iss) (th : Nat), w.ts = [th] → Settled s w →
    NoJournal s w →
    let n := w.tm.n32 th a
    let q := s.wq n
    let owes (t : State) (wr : List (RegAt × DWord)) : Prop := ∃ p, p ∈ (t.core w.core).pends ∧ p.slot = w.slot ∧ p.src = .vals wr none
    let others (t : State) : Prop := ∀ m, m < 128 → m ≠ n → t.wq m = s.wq m
    let valid (ok : Nat) : List (RegAt × DWord) := match v with
      | some (.prd p) => if p.val = 0 then [] else [(.p th p.val, BitVec.ofNat 64 ok)]
      | _ => []
    (Issues (.wqpush h sc d a b) h allFall s w → s.wqOk w.tm.ctx n = true → q.waiters = [] →
      ∃ t ok, exec (.wqpush h sc d a b) s = .next t ∧ Wrote s t w [] ∧ Continues s t w (fun _ => w.next) ∧ t.mem = s.mem ∧ others t
        ∧ ok = (if q.items.length < 1024 then 1 else 0) ∧ owes t (w.tm.dest th d 1 ok)
        ∧ t.wq n = { q with items := if ok = 1 then q.items ++ [leBytes 16 (w.tm.val th b 4)] else q.items }) ∧
    (Issues (.wqpop h nb sc d a v) h allFall s w → s.wqOk w.tm.ctx n = true → ∀ i is, q.items = i :: is →
      ∃ t, exec (.wqpop h nb sc d a v) s = .next t ∧ Wrote s t w [] ∧ Continues s t w (fun _ => w.next) ∧ t.mem = s.mem ∧ others t
        ∧ t.wq n = { q with items := is } ∧ owes t ((w.dst th d 4).zip (words 4 (leNat i)) ++ valid 1)) ∧
    (Issues (.wqpop h true sc d a v) h allFall s w → s.wqOk w.tm.ctx n = true → q.items = [] →
      ∃ t, exec (.wqpop h true sc d a v) s = .next t ∧ Sent s t w ∧ owes t ((w.dst th d 4).zip (words 4 0) ++ valid 0)) ∧
    (Issues (.wqpop h false sc d a v) h allFall s w → s.wqOk w.tm.ctx n = true → q.items = [] →
      ∃ t, exec (.wqpop h false sc d a v) s = .next t ∧ Wrote s t w [] ∧ t.mem = s.mem ∧ others t
        ∧ StaysAt s t w [th] ∧ ∃ u vp, t.wq n = { q with waiters := q.waiters ++ [(w.tref, th, u)] }
          ∧ ∀ y, t.thread? w.core w.slot th = some y → y.st = .waiting (.wq n u vp (w.dst th d 4) none sc)) ∧
    (Issues (.wqlen h d a) h allFall s w → s.wqOk w.tm.ctx n = true →
      CompletesLater (.wqlen h d a) s w (w.tm.dest th d 1 q.items.length)) ∧
    (∀ i, i = .wqpush h sc d a b ∨ i = .wqpop h nb sc d a v ∨ i = .wqlen h d a → Issues i h allFall s w → s.wqOk w.tm.ctx n = false →
      ∃ mask addrs, exec i s = .next (s.wordTrap w .prot 0 mask addrs .word)) ∧
    (Issues (.lacnt h sc d a b x) h allFall s w → w.tm.n32 th b = 0 →
      ∃ mask addrs, exec (.lacnt h sc d a b x) s = .next (s.wordTrap w .opbound 0 mask addrs .word)) ∧
    (∀ fs, Issues (.lacnt h sc d a b x) h allFall s w → w.tm.n32 th b ≠ 0 → Translates s w .atomic 4 (w.hgReqs fun t => w.tm.n64 t a) fs →
      ∃ t, exec (.lacnt h sc d a b x) s = .next t ∧ Sent s t w ∧ InFlight t w fs fun r =>
        w.access r .ls 4 sc .dflt (.elect (w.tm.n32 th b) (w.dst th d 1) (w.dst th x 1)))

/-- Launch words (13). -/
def Obligations.LaunchWords : Prop :=
  ∀ (h : Hdr) (d a : Opd) (sel : ResSel) (s : State) (w : Iss) (g : Nat), w.hgs = [g] → Settled s w → NoJournal s w →
    (∀ r pa, let rec' := Memory.readN s.mem pa 64; let st := s.launchStatus w.tm.ctx rec' w.tm.detlvl
      Issues (.launch h d a) h allFall s w → Translates s w .load 64 [r] [(r, pa)] → w.hgReqs (fun t => w.tm.n64 t a) = [r] →
      s.poisoned pa 64 = false →
      ∃ t code, exec (.launch h d a) s = .next t ∧ (∃ p, p ∈ (t.core w.core).pends ∧ p.slot = w.slot ∧ p.src = .vals (w.tm.dest r.t d 1 code) none)
        ∧ code = (if st = 0 ∧ 256 ≤ s.queued w.die then 5 else st)
        ∧ (code ≠ 0 ∨ recCores rec' = false → Wrote s t w [] ∧ Continues s t w (fun _ => w.next) ∧ t.mem = s.mem)
        ∧ (code ≠ 0 → t.grids = s.grids)
        ∧ (code = 0 → recCores rec' = false → ∃ gid gr, t.grids = Tab.set s.grids gid gr ∧ gr.ctx = w.tm.ctx ∧ gr.die = w.die ∧ gr.record = rec'
              ∧ gr.detlvl = w.tm.detlvl ∧ gr.unplaced = List.range (fieldLe rec' 8 4) ∧ gr.placed = [] ∧ gr.complete = false
              ∧ (t.die w.die).launchQ = (s.die w.die).launchQ ++ [gid])) ∧
    (∀ gr tm', let off := w.tm.n32 (w.lead g) a
      Issues (.fetchw h a) h allFall s w → off % 16 = 0 → off + 16 ≤ w.tm.loc → (s.core w.core).sb.length < 64 →
      (s.core w.core).sbHit false w.slot off 16 false = false → Tab.get? s.grids w.tm.grid = some gr →
      tm' = (if recCores gr.record || recHasCluster gr.record then none else gr.unplaced.getLast?) →
      ∃ t tm gr', exec (.fetchw h a) s = .next t ∧ Wrote s t w [] ∧ Continues s t w (fun _ => w.next) ∧ t.mem = s.mem
        ∧ t.team? w.core w.slot = some tm ∧ tm.taken = w.tm.taken ++ tm'.toList
        ∧ tm.scratch = Memory.writeN w.tm.scratch off (leBytes 4 (tm'.getD 0xFFFFFFFF) ++ leBytes 4 1 ++ leBytes 8 0)
        ∧ Tab.get? t.grids w.tm.grid = some gr' ∧ gr'.unplaced = gr.unplaced.filter (fun u => some u != tm')) ∧
    (Issues (.resq h sel d) h allFall s w →
      CompletesLater (.resq h sel d) s w (w.tm.dest (w.lead g) d 1 (match sel with
        | .param => w.tm.param.toNat
        | .psize => w.tm.psize
        | .flags => w.tm.flags
        | .recAddr => w.tm.recAddr.toNat)))

/-! ## Requests, the KV pool and the prefix tree -/

/-- The word owes some writes, if there are any. -/
def Sys2Proof.Machine.Owes (t : State) (w : Iss) (wr : List (RegAt × DWord)) : Prop :=
  wr ≠ [] → ∃ p, p ∈ (t.core w.core).pends ∧ p.slot = w.slot ∧ p.src = .vals wr none
/-- The word has changed no register; memory is as in `u`; the members continue at PC + 12. -/
def Sys2Proof.Machine.StoredAs (s t u : State) (w : Iss) : Prop :=
  Wrote s t w [] ∧ t.mem = u.mem ∧ Continues s t w fun _ => w.next

/-- The request instructions (14). -/
def Obligations.RequestWords : Prop :=
  ∀ (h : Hdr) (f : RqFld) (sc : Scope) (d a b : Opd) (s : State) (w : Iss) (th tab nrec st slot fl : Nat), w.ts = [th] →
    s.table w.tm.ctx = .ok (tab, nrec) →
    let ctx := w.tm.ctx
    let r := w.tm.n32 th a
    let v := w.tm.n32 th b
    let samp := match s.slotOf ctx r with
      | some e => e.samp
      | none => false
    (∀ i, i = .rqld h f sc d a ∨ i = .rqst h f sc a b ∨ i = .rqemit h sc d a b ∨ i = .rqstop h sc d a ∨ i = .rqfail h sc a b →
      Issues i h allFall s w → nrec ≤ r → ∃ mask addrs, exec i s = .next (s.wordTrap w .prot 0 mask addrs .word)) ∧
    (r < nrec → s.recFld ctx tab r 4 1 = .ok st → s.recFld ctx tab r 28 4 = .ok slot → s.recFld ctx tab r 6 1 = .ok fl →
    (∀ x, Issues (.rqld h f sc d a) h allFall s w → s.recFld ctx tab r (RqFld.at' f).1 (RqFld.at' f).2 = .ok x →
      ∃ t, exec (.rqld h f sc d a) s = .next t ∧ Sent s t w ∧ Owes t w (w.tm.dest th d (if f = .seed then 2 else 1) (match f with
        | .prio => x % 16
        | .spos => match s.slotOf ctx r with
            | some e => if e.samp = true ∧ slot ≠ 0xFFFFFFFF then e.kvlen else 0xFFFFFFFF
            | none => 0xFFFFFFFF
        | _ => x))) ∧
    (∀ u, Issues (.rqst h f sc a b) h allFall s w → f ≠ .prio → (st = 2 ∨ st = 3 →
        s.setRec ctx tab r (RqFld.at' f).1 (RqFld.at' f).2 (if f = .seed then w.tm.n64 th b else v) = .ok u) →
      ∃ t, exec (.rqst h f sc a b) s = .next t ∧ StoredAs s t (if st = 2 ∨ st = 3 then u else s) w) ∧
    (∀ u u' q, Issues (.rqst h .prio sc a b) h allFall s w → v ≤ 15 → (st = 2 ∨ st = 3 → s.setRec ctx tab r 5 1 v = .ok u
        ∧ u.tablePool ctx = .ok q ∧ u.refreshReq ctx q tab nrec r = .ok u') →
      ∃ t, exec (.rqst h .prio sc a b) s = .next t ∧ StoredAs s t (if st = 2 ∨ st = 3 then u' else s) w) ∧
    (Issues (.rqst h .prio sc a b) h allFall s w → 15 < v →
      ∃ mask addrs, exec (.rqst h .prio sc a b) s = .next (s.wordTrap w .prot 0 mask addrs .word)) ∧
    (∀ code, Issues (.rqemit h sc d a b) h allFall s w → (st = 5 ∧ code = 1 ∨ st = 4 ∧ code = 2 ∨
        st ≠ 4 ∧ st ≠ 5 ∧ (slot = 0xFFFFFFFF ∨ samp = false) ∧ code = 3 ∨
        st ≠ 4 ∧ st ≠ 5 ∧ slot ≠ 0xFFFFFFFF ∧ samp = true ∧ fl % 2 = 1 ∧ code = 4) →
      ∃ t, exec (.rqemit h sc d a b) s = .next t ∧ Sent s t w ∧ Owes t w (w.tm.dest th d 1 code)) ∧
    (∀ out n s1 s2 s3 s4 s5, Issues (.rqemit h sc d a b) h allFall s w → st ≠ 4 → st ≠ 5 → slot ≠ 0xFFFFFFFF → samp = true → fl % 2 = 0 →
      s.recFld ctx tab r 48 8 = .ok out → s.recFld ctx tab r 16 4 = .ok n → s.vput ctx (out + 4 * n) 4 v = .ok s1 →
      s1.setRec ctx tab r (192 + 4 * (n % 16)) 4 v = .ok s2 → s2.setRec ctx tab r 84 4 v = .ok s3 →
      s3.setRec ctx tab r 16 4 ((n + 1) % 2 ^ 32) = .ok s4 → s4.setRec ctx tab r 6 1 (fl + 1) = .ok s5 →
      ∃ t, exec (.rqemit h sc d a b) s = .next t ∧ StoredAs s t s5 w ∧ Owes t w (w.tm.dest th d 1 0)) ∧
    (∀ code, Issues (.rqstop h sc d a) h allFall s w → (st = 5 ∧ code = 8 ∨ st = 4 ∧ code = 7 ∨ st ≠ 4 ∧ st ≠ 5 ∧ fl % 2 = 0 ∧ code = 9 ∨
        st ≠ 4 ∧ st ≠ 5 ∧ fl % 2 = 1 ∧ fl / 2 % 2 = 1 ∧ code = 10) →
      ∃ t, exec (.rqstop h sc d a) s = .next t ∧ Sent s t w ∧ Owes t w (w.tm.dest th d 1 code)) ∧
    (∀ n mx last ns set bs code s1 s2 s3, Issues (.rqstop h sc d a) h allFall s w → st ≠ 4 → st ≠ 5 → fl % 2 = 1 → fl / 2 % 2 = 0 →
      s.recFld ctx tab r 16 4 = .ok n → s.recFld ctx tab r 20 4 = .ok mx → s.recFld ctx tab r 84 4 = .ok last →
      s.recFld ctx tab r 96 4 = .ok ns → s.recFld ctx tab r 88 8 = .ok set → s.vread ctx set (4 * ns) = .ok bs →
      (mx ≤ n ∧ code = 1 ∨ n < mx ∧ last ∈ tokWords bs ns ∧ code = 2) → s.setRec ctx tab r 6 1 (fl + 2) = .ok s1 →
      s1.setRec ctx tab r 4 1 4 = .ok s2 → s2.setRec ctx tab r 105 1 code = .ok s3 →
      ∃ t, exec (.rqstop h sc d a) s = .next t ∧ StoredAs s t s3 w ∧ Owes t w (w.tm.dest th d 1 code)) ∧
    (Issues (.rqfail h sc a b) h allFall s w → v % 256 = 0 →
      ∃ mask addrs, exec (.rqfail h sc a b) s = .next (s.wordTrap w .opbound 0 mask addrs .word)) ∧
    (∀ u, Issues (.rqfail h sc a b) h allFall s w → v % 256 ≠ 0 → s.faultReq ctx tab r (v % 256) = .ok u →
      ∃ t, exec (.rqfail h sc a b) s = .next t ∧ StoredAs s t u w ∧ (st ≠ 2 → st ≠ 3 → t.mem = s.mem)) ∧
    (Issues (.rqslot h true sc d a) h allFall s w →
      ∃ t, exec (.rqslot h true sc d a) s = .next t ∧ Sent s t w ∧ Owes t w (w.tm.dest th d 1 slot))) ∧
    (∀ x, Issues (.rqslot h false sc d a) h allFall s w → s.ctx? ctx = some x →
      ∃ t, exec (.rqslot h false sc d a) s = .next t ∧ Sent s t w ∧
        Owes t w (w.tm.dest th d 1 (match (if x.mer.slotTab = tab then x.mer.slots else [])[r]? with
          | some e => e.req
          | none => 0xFFFFFFFF))) ∧
    (∀ x, Issues (.bfdone h a) h allFall s w → s.ctx? ctx = some x → (∀ o, o ∈ (s.core w.core).outs → o.slot ≠ w.slot ∧ o.near = false) →
      ∃ t x', exec (.bfdone h a) s = .next t ∧ StoredAs s t s w ∧ t.ctx? ctx = some x'
        ∧ x'.mer.reports = x.mer.reports + (if x.mer.flying = true ∧ x.mer.step % 2 ^ 32 = r then 1 else 0))

/-- One command for the word's home group, begun, with nothing else done, under a pending handle owed to D. -/
def Sys2Proof.Machine.OneCommand (s t : State) (w : Iss) (d : Opd) (g : Nat) (k : CmdKind) : Prop :=
  Wrote s t w [] ∧ t.mem = s.mem ∧ Continues s t w (fun _ => w.next) ∧ ∃ hv, hv ≠ 0 ∧ hv.toNat ∉ s.handleVals
    ∧ (t.team? w.core w.slot).bind (fun tm => tm.handle hv) = some { st := 0, kvb := false, cause := 0 }
    ∧ Owes t w (w.tm.dest (w.lead g) d 1 hv.toNat)
    ∧ ∃ c, c ∈ (t.core w.core).cmds ∧ c.h = hv ∧ c.kind = k ∧ c.wid = w.tm.wid ∧ c.slot = w.slot ∧ c.begun = true ∧ c.fin = none

/-- The KV instructions (15). -/
def Obligations.KvWords : Prop :=
  ∀ (h : Hdr) (sc : Scope) (ix : Bool) (o : KvRefOp) (d a b x : Opd) (s : State) (w : Iss) (th tab nrec : Nat) (q : Pool) (cx : Ctx),
    w.ts = [th] → s.table w.tm.ctx = .ok (tab, nrec) → s.tablePool w.tm.ctx = .ok q → s.ctx? w.tm.ctx = some cx →
    let ctx := w.tm.ctx
    let r := w.tm.n32 th a
    let v := w.tm.n32 th b
    let g := hgOf th
    let room : Prop := (∀ c, c ∈ (s.core w.core).cmds → c.id < s.uid) ∧ Settled s w ∧ (s.core w.core).cmds.length < 128 ∧ s.handleVals.length < 2 ^ 63 ∧ w.tm.fin = false
    (∀ st slot pos, r < nrec → s.recFld ctx tab r 4 1 = .ok st → s.recFld ctx tab r 28 4 = .ok slot → s.recFld ctx tab r 12 4 = .ok pos →
      let kvlen := match s.slotOf ctx r with
        | some e => e.kvlen
        | none => 0
      let ready (k : Nat) : Bool := cx.erg.prep.any fun e => e.1 == r && e.2.1 == k && decide (v ≤ e.2.2.1)
      (∀ code, Issues (.kvapp h sc d a b) h allFall s w → ((st = 4 ∨ st = 5) ∧ code = 1 ∨ st ≠ 4 ∧ st ≠ 5 ∧ slot = 0xFFFFFFFF ∧ code = 2 ∨
          st ≠ 4 ∧ st ≠ 5 ∧ slot ≠ 0xFFFFFFFF ∧ (v ≤ pos ∨ kvlen < v) ∧ code = 3 ∨
          st ≠ 4 ∧ st ≠ 5 ∧ slot ≠ 0xFFFFFFFF ∧ pos < v ∧ v ≤ kvlen ∧ (∀ k, pos / q.p ≤ k → k ≤ (v - 1) / q.p → ready k = true) ∧ code = 4) →
        ∃ t, exec (.kvapp h sc d a b) s = .next t ∧ Sent s t w ∧ Owes t w (w.tm.dest th d 1 code)) ∧
      (∀ k pg rf m s1 s2, Issues (.kvapp h sc d a b) h allFall s w → st ≠ 4 → st ≠ 5 → slot ≠ 0xFFFFFFFF → pos < v → v ≤ kvlen →
        pos / q.p = k → (v - 1) / q.p = k → ready k = false → s.blkEntry ctx tab r k = .ok (pg, rf) → s.getPg ctx q pg = .ok m → m.refs ≤ 1 →
        s.setBlk ctx tab r k pg (min q.p (v - k * q.p)) = .ok s1 →
        s1.modPg ctx q pg (fun m => { m with fill := max m.fill (min q.p (v - k * q.p)) }) = .ok s2 →
        ∃ t y, exec (.kvapp h sc d a b) s = .next t ∧ StoredAs s t s2 w ∧ Owes t w (w.tm.dest th d 1 0)
          ∧ t.ctx? ctx = some y ∧ y.erg.prep = (cx.erg.prep ++ [(r, k, v, false)]).map fun e =>
            (e.1, e.2.1, e.2.2.1, e.2.2.2 || (e.1 == r && e.2.1 == k))) ∧
      (Issues (.kvmap h ix sc d a b) h allFall s w →
        (slot = 0xFFFFFFFF ∨ s.slotOf ctx r = none ∨ (cx.erg.prep.any fun e => e.1 == r && e.2.1 == v && e.2.2.2) = false) →
        ∃ t, exec (.kvmap h ix sc d a b) s = .next t ∧ Sent s t w ∧ Owes t w (w.tm.dest th d 2 0)) ∧
      (∀ e pg rf m, Issues (.kvmap h ix sc d a b) h allFall s w → slot ≠ 0xFFFFFFFF → s.slotOf ctx r = some e →
        (cx.erg.prep.any fun e => e.1 == r && e.2.1 == v && e.2.2.2) = true → s.blkEntry ctx tab r v = .ok (pg, rf) → s.getPg ctx q pg = .ok m →
        ∃ t, exec (.kvmap h ix sc d a b) s = .next t ∧ Sent s t w ∧
          Owes t w (w.tm.dest th d 2 (if m.held then q.row m.tier m.frame 0 ix else 0))) ∧
      (∀ nb, Issues (.kvinv h sc d a b x) h allFall s w → room → s.recFld ctx tab r 24 4 = .ok nb →
        let hi := min nb (v + w.tm.n32 th x)
        ∃ t y hv st', exec (.kvinv h sc d a b x) s = .next t ∧ StoredAs s t s w ∧ t.ctx? ctx = some y
          ∧ y.erg.cache = cx.erg.cache.filter (fun e => !(e.1 == r && decide (v ≤ e.2.1) && decide (e.2.1 < hi)))
          ∧ hv ≠ 0 ∧ Owes t w (w.tm.dest (w.lead g) d 1 hv.toNat)
          ∧ (t.team? w.core w.slot).bind (fun tm => tm.handle hv) = some st'
          ∧ st'.st = (if s.gathersOf ctx r v hi = [] then 1 else 0))) ∧
    (∀ i, i = .kvref h o sc d a ∨ i = .kvevictLp h sc d a ∨ i = .kvevictCxl h sc d a → Issues i h allFall s w → q.pages ≤ r →
      ∃ mask addrs, exec i s = .next (s.wordTrap w .prot 0 mask addrs .word)) ∧
    (∀ m, r < q.pages → s.getPg ctx q r = .ok m →
      (Issues (.kvref h .rd sc d a) h allFall s w →
        ∃ t, exec (.kvref h .rd sc d a) s = .next t ∧ Sent s t w ∧ Owes t w (w.tm.dest th d 1 m.refs)) ∧
      (∀ (u : State) (up : Bool), Issues (.kvref h (if up then .inc else .dec) sc d a) h allFall s w → s.modPg ctx q r (fun m =>
          if up then (if m.refs = 0 ∨ m.refs = 65535 then m else { m with refs := m.refs + 1 }) else { m with refs := m.refs - 1 }) = .ok u →
        ∃ t, exec (.kvref h (if up then .inc else .dec) sc d a) s = .next t ∧ StoredAs s t u w ∧ Owes t w (w.tm.dest th d 1 m.refs))) ∧
    (r < q.pages → room → (∃ l, s.allPg ctx q = .ok l) →
      (Issues (.kvevictLp h sc d a) h allFall s w → ∃ t, exec (.kvevictLp h sc d a) s = .next t ∧ OneCommand s t w d g (.evict r 1)) ∧
      (Issues (.kvevictCxl h sc d a) h allFall s w → ∃ t, exec (.kvevictCxl h sc d a) s = .next t ∧ OneCommand s t w d g (.evict r 2)) ∧
      (Issues (.kvevictPeer h sc d a b) h allFall s w → w.tm.n64 th b % 32 = 0 → w.tm.n64 th b < 2 ^ 57 →
        ∃ t, exec (.kvevictPeer h sc d a b) s = .next t ∧ OneCommand s t w d g (.peer r (w.tm.n64 th b))))

/-- The prefix tree (15). -/
def Obligations.PrefixWords : Prop :=
  ∀ (h : Hdr) (sc : Scope) (d a b : Opd) (s : State) (w : Iss) (th tab nrec pa adr n : Nat) (q : Pool) (bs : List Byte) (req : Req), w.ts = [th] →
    Settled s w → s.table w.tm.ctx = .ok (tab, nrec) → s.tablePool w.tm.ctx = .ok q → req = { t := th, va := adr, park := [th] } →
    let ctx := w.tm.ctx
    let u := (State.lookupAll s w.core ctx .load 1 [req] []).2
    (Issues (.rxlook h sc d a b) h allFall s w → w.tm.n64 th a % 4 ≠ 0 →
      ∃ mask addrs, exec (.rxlook h sc d a b) s = .next (s.wordTrap w .misalign 0 mask addrs .word)) ∧
    (Translates s w .load 1 [req] [(req, pa)] → s.poisoned pa 1 = false → 0 < n → adr % 65536 + 4 * n ≤ 65536 →
      s.vread ctx adr (4 * n) = .ok bs →
      (∀ m path, Issues (.rxlook h sc d a b) h allFall s w → adr = w.tm.n64 th a → adr % 4 = 0 → n = w.tm.n32 th b →
        u.rxMatch ctx q (n + 1) none (tokWords bs n) = .ok (m, path) →
        m ≤ n ∧ ∃ t, exec (.rxlook h sc d a b) s = .next t ∧ Sent s t w ∧ Owes t w (w.tm.dest th d 1 m)) ∧
      (∀ r pos out plen m u', r = w.tm.n32 th a → r < nrec → Issues (.rxins h sc d a b) h allFall s w → s.recFld ctx tab r 12 4 = .ok pos →
        s.recFld ctx tab r 40 8 = .ok adr → s.recFld ctx tab r 48 8 = .ok out → s.recFld ctx tab r 8 4 = .ok plen →
        n = min (w.tm.n32 th b) pos → n ≤ plen → u.rxInsert ctx q tab r (tokWords bs n) = .ok (m, u') →
        ∃ t x', exec (.rxins h sc d a b) s = .next t ∧ StoredAs s t u' w ∧ Owes t w (w.tm.dest th d 1 m)
          ∧ (t.ctx? ctx = some x' → ∃ y, u'.ctx? ctx = some y ∧ x'.rx = y.rx)))

/-! ## Control registers, traps and faults -/

/-- Control registers (01; 16). -/
def Obligations.ControlRegisters : Prop :=
  ∀ (h : Hdr) (num : BitVec 12) (d a : Opd) (s : State) (w : Iss),
    let n := num.toNat
    let k := s.core w.core
    let x (f : Ctx → DWord) : DWord := ((s.ctx? w.tm.ctx).map f).getD 0
    let value : DWord := match n with
      | 0 => k.ctxidReg
      | 1 => x fun x => x.detlvl
      | 2 => x fun x => x.trapvec
      | 3 => k.bankWr
      | 4 => x fun x => x.rqbase
      | 5 => (s.die w.die).gkick
      | 6 => (s.die w.die).wswin
      | 7 => (s.die w.die).sharetab
      | _ => (s.die w.die).retrain
    let ends (i : Instr) (c : Cause) : Prop := ∃ mask addrs, exec i s = .next (s.wordTrap w c 0 mask addrs .word)
    (∀ i, i = .csrrd h num d ∨ i = .csrwr h num a → Issues i h allFall s w → 8 < n → ends i .ill) ∧
    (Issues (.csrrd h num d) h allFall s w → n ≤ 8 → w.priv = false → n ≠ 0 → n ≠ 1 → n ≠ 6 → ends (.csrrd h num d) .prot) ∧
    (Issues (.csrwr h num a) h allFall s w → n ≤ 8 → w.priv = false → ends (.csrwr h num a) .prot) ∧
    (Issues (.csrrd h num d) h allFall s w → n ≤ 8 → (w.priv = true ∨ n = 0 ∨ n = 1 ∨ n = 6) →
      CompletesLater (.csrrd h num d) s w (w.hgs.flatMap fun g => w.tm.dest (w.lead g) d 1 value.toNat)) ∧
    (∀ g v, w.hgs = [g] → v = w.tm.n64 (w.lead g) a → Issues (.csrwr h num a) h allFall s w → w.priv = true →
      let bits : DWord := BitVec.ofNat 64 v
      let admits : Prop := (n = 0 ∧ v < 2 ^ 16) ∨ (n = 1 ∧ v < 2 ∧ value.toNat < 2) ∨ (n = 2 ∧ v % 4 = 0 ∧ v < 2 ^ 57) ∨
        (n = 3 ∧ ∀ i, i < 32 → v / 4 ^ i % 4 ≠ 3) ∨ (n = 8 ∧ v < 2 ^ 32 ∧ (v = 0 ∨ 1000 ≤ v))
      (n ≤ 3 → ¬ admits → ends (.csrwr h num a) .ill) ∧
      (admits → ∃ t, exec (.csrwr h num a) s = .next t ∧ Wrote s t w [] ∧ t.mem = s.mem ∧ Continues s t w (fun _ => w.next)
        ∧ (n = 0 → (t.core w.core).ctxidReg = bits) ∧ (n = 3 → (t.core w.core).bankWr = bits ∧ (t.core w.core).bankRole = k.bankRole)
        ∧ (n = 8 → (t.die w.die).retrain = bits)
        ∧ (∀ y, s.ctx? w.tm.ctx = some y → ∃ z, t.ctx? w.tm.ctx = some z ∧ (n = 1 → z = { y with detlvl := bits })
            ∧ (n = 2 → z = { y with trapvec := bits }) ∧ (n ≠ 1 → n ≠ 2 → z = y))))

/-- Entering a handler and returning from it (16). -/
def Obligations.TrapEntryAndReturn : Prop :=
  ∀ (core slot : Nat) (h : Hdr) (f : TrdFld) (d a : Opd) (s : State) (w : Iss) (tm : Team) (tr : Trap) (i : Instr),
    let idle (c sl : Nat) : Prop := (∀ p, p ∈ (s.core c).pends → p.slot ≠ sl) ∧ ∀ e, e ∈ (s.core c).storeQ → e.slot ≠ sl
    (∀ hh, s.team? core slot = some tm → tm.trap = some tr → tm.frozen = false → tm.skidOver (s.core core).now = true →
      idle core slot → tr.vec ≠ 0 → tr.vec < 2 ^ 57 → tm.handlerHg tr.req.mask = some hh →
      (tm.threads.map fun e => e.1).Nodup →
      ∃ t tm' tr', exec (.teamHalt core slot) s = .next t ∧ t.team? core slot = some tm' ∧ tm'.trap = some tr' ∧ State.SameModule s t core
        ∧ tr'.halted = true ∧ tr'.hhg = hh ∧ tr'.req = tr.req ∧ tr'.winx = [0, 1, 2, 3].map (fun n => (tm.readReg (.x hh n)).toNat)
        ∧ (∀ th y, Tab.get? tm.threads th = some y → ∃ p z, p ∈ tr'.prior ∧ p.thr = th ∧ p.st = y.st ∧ p.pc = y.pc ∧ p.rst = y.st ∧ p.rpc = y.pc
            ∧ Tab.get? tm'.threads th = some z
            ∧ (if hgOf th = hh ∧ y.st ≠ .exited then
                p.win = (List.range 16).map (fun n => (tm.readReg (.v th n)).setWidth 32) ∧ p.preds = y.preds ∧ z.pc.toNat = tr.vec
                  ∧ z.st = .binned (s.core core).now
              else z.st = if y.st = .exited then .exited else .halted))
        ∧ ∀ r, tm'.readReg r = match r with
            | .v th n => if hgOf th = hh ∧ n < 16 ∧ tm.exited th = false then 0 else tm.readReg r
            | .p th n => if hgOf th = hh ∧ 1 ≤ n ∧ n < 8 ∧ tm.exited th = false then 0 else tm.readReg r
            | .x g _ => if g = hh then 0 else tm.readReg r
            | _ => tm.readReg r) ∧
    (i = .trd h f d a ∨ i = .tret h ∨ i = .tretSkip h ∨ i = .tretKill h → Issues i h allFall s w →
      (∃ th, th ∈ w.ts ∧ w.tm.isHandler th = false) → ∃ mask addrs, exec i s = .next (s.wordTrap w .ill 0 mask addrs .word)) ∧
    (w.tm.trap = some tr → tr.halted = true → (∀ th, th ∈ w.ts → w.tm.isHandler th = true) →
      (Issues (.trd h f d a) h allFall s w → (∀ th, th ∈ w.ts → TrdFld.beyond f w.tm.hgroups (w.tm.n32 th a) = false) →
        ∃ t fv, exec (.trd h f d a) s = .next t ∧ Sent s t w
          ∧ Owes t w (w.ts.flatMap fun th => w.tm.dest th d 1 (tr.field f th (w.tm.n32 th a) fv))) ∧
      (∀ skip, Issues (if skip then .tretSkip h else .tret h) h allFall s w → idle w.core w.slot → w.tm.held = [] → tr.groups = [] →
        tr.req.kind = .word → (tr.prior.map fun p => p.thr).Nodup →
        ∃ t tm', exec (if skip then .tretSkip h else .tret h) s = .next t ∧ t.team? w.core w.slot = some tm' ∧ tm'.trap = none ∧ t.mem = s.mem
          ∧ (∀ p x, p ∈ tr.prior → Tab.get? w.tm.threads p.thr = some x → ∃ y, Tab.get? tm'.threads p.thr = some y
              ∧ y.st = (if x.st = .exited then .exited else p.st)
              ∧ y.pc = (if skip = true ∧ p.thr ∈ tr.req.mask ∧ x.st ≠ .exited ∧ p.st ≠ .exited then BitVec.ofNat 57 (tr.req.point.toNat + 12) else p.pc))
          ∧ (∀ p, p ∈ tr.prior → (Tab.get? w.tm.threads p.thr).isSome → ∀ n, n < 48 →
              let hl := hgOf p.thr = tr.hhg ∧ p.st ≠ .exited
              tm'.readReg (.v p.thr n) = (if hl ∧ n < 16 then (p.win.getD n 0).setWidth 64 else w.tm.readReg (.v p.thr n))
              ∧ tm'.readReg (.p p.thr n) = (if hl ∧ 1 ≤ n ∧ n < 8 then (if p.preds.getLsbD n then 1 else 0) else w.tm.readReg (.p p.thr n)))
          ∧ (∀ g n, tm'.readReg (.s g n) = w.tm.readReg (.s g n) ∧ tm'.readReg (.h g n) = w.tm.readReg (.h g n)
              ∧ (n < 4 → (Tab.get? w.tm.hgs g).isSome → tm'.readReg (.x g n)
                = if g = tr.hhg then BitVec.setWidth 64 (BitVec.ofNat 12 (tr.winx.getD n 0)) else w.tm.readReg (.x g n)))) ∧
      (Issues (.tretKill h) h allFall s w →
        ∃ t, exec (.tretKill h) s = .next t ∧ (∀ p, p ∈ (t.core w.core).pends → p.slot ≠ w.slot)
          ∧ ∀ tm', t.team? w.core w.slot = some tm' → tm'.wid = w.tm.wid → tm'.fin = true ∧ tm'.threads = []))

/-- Faults, invalidations and idle (16). -/
def Obligations.FaultWords : Prop :=
  ∀ (h : Hdr) (d a b : Opd) (s : State) (w : Iss) (g : Nat), w.hgs = [g] →
    let ctx := w.tm.n32 (w.lead g) a
    let fid := w.tm.n32 (w.lead g) b
    let va := w.tm.n64 (w.lead g) b
    let room : Prop := Settled s w ∧ (s.core w.core).cmds.length < 128 ∧ s.handleVals.length < 2 ^ 63
    let command (t : State) (k : CmdKind → Prop) : Prop := Wrote s t w [] ∧ t.mem = s.mem ∧ Continues s t w (fun _ => w.next) ∧
      ∃ c hv, c ∈ (t.core w.core).cmds ∧ c.h = hv ∧ hv ≠ 0 ∧ k c.kind ∧ Owes t w (w.tm.dest (w.lead g) d 1 hv.toNat)
    let gone (t : State) (sel : TlbEntry → Prop) : Prop :=
      (∀ c e, e ∈ (t.core c).tlb → ¬ (e.ctx = ctx ∧ sel e)) ∧ ∀ q l, Tab.get? t.ctlb q = some l → ∀ e, e ∈ l → ¬ (e.ctx = ctx ∧ sel e)
    (∀ i, i = .fltrep h d a b ∨ i = .fltcancel h d a b ∨ i = .tlbinvVa h d a b ∨ i = .tlbinvCtx h d a ∨ i = .tlbinvMig h d a b →
      Issues i h allFall s w → w.priv = false → ∃ mask addrs, exec i s = .next (s.wordTrap w .prot 0 mask addrs .word)) ∧
    (∀ i x, i = .fltrep h d a b ∨ i = .fltcancel h d a b → Issues i h allFall s w → w.priv = true → s.ctx? ctx = some x → x.cst ≠ 0 →
      x.cst ≠ 4 → (∀ f, f ∈ x.faults → ¬ (f.fid = fid ∧ f.pending = true)) →
      ∃ t, exec i s = .next t ∧ Sent s t w ∧ Owes t w (w.tm.dest (w.lead g) d 1 1)) ∧
    (∀ x f tm, w.priv = true → s.ctx? ctx = some x → x.cst ≠ 0 → x.cst ≠ 4 →
      x.faults.find? (fun f => f.fid == fid && f.pending) = some f → f.cmd = none → f.reissue = true → x.saved = [] →
      s.team? f.core f.slot = some tm → tm.frozen = false → tm.trap = none → (f.core ≠ w.core ∨ f.slot ≠ w.slot) →
      (tm.threads.map fun e => e.1).Nodup →
      (∀ r pa, f.kind = 5 → Issues (.fltrep h d a b) h allFall s w → r = { t := f.mem.headD 0, va := f.va, park := f.mem } →
        (State.lookupAll (s.modCtx ctx fun x => { x with faults := x.faults.filter fun g => g.fid != fid }) f.core ctx .fetch 1 [r] []).1
          = [(r, .ok pa)] → s.poisoned pa 1 = false →
        ∃ t y, exec (.fltrep h d a b) s = .next t ∧ Owes t w (w.tm.dest (w.lead g) d 1 0) ∧ t.mem = s.mem ∧ Wrote s t w []
          ∧ t.ctx? ctx = some y ∧ y.faults = x.faults.filter (fun g => g.fid != fid)
          ∧ ∀ th z, Tab.get? tm.threads th = some z → z.st = .parked f.fid → ∃ v, t.thread? f.core f.slot th = some v ∧ v.pc = f.pc
            ∧ v.st = .binned ((s.core f.core).now + 1)) ∧
      (Issues (.fltcancel h d a b) h allFall s w →
        ∃ t tm' tr, exec (.fltcancel h d a b) s = .next t ∧ Owes t w (w.tm.dest (w.lead g) d 1 0) ∧ t.mem = s.mem ∧ Wrote s t w []
          ∧ t.team? f.core f.slot = some tm' ∧ tm'.trap = some tr ∧ tr.req.cause = .fatalpage ∧ tr.req.mask = sortNat f.mem
          ∧ tr.req.point = f.pc ∧ tr.halted = false)) ∧
    (Issues (.tlbinvVa h d a b) h allFall s w → w.priv = true → room →
      ∃ t, exec (.tlbinvVa h d a b) s = .next t ∧ gone t (fun e => e.va ≤ va ∧ va < e.va + e.size)
        ∧ command t fun k => ∃ after, k = .tlbinv after) ∧
    (Issues (.tlbinvCtx h d a) h allFall s w → w.priv = true → room →
      ∃ t, exec (.tlbinvCtx h d a) s = .next t ∧ gone t (fun _ => True) ∧ command t fun k => k = .tlbinv (s.translated ctx fun _ => true)) ∧
    (∀ r pa x l mva, Issues (.tlbinvMig h d a b) h allFall s w → w.priv = true → room → Translates s w .load 32 [r] [(r, pa)] →
      w.hgReqs (fun t => w.tm.n64 t b) = [r] → s.poisoned pa 32 = false → s.ctx? ctx = some x → mva = fieldLe (s.readPa pa 32) 0 8 →
      s.walk mva 4 x.root = .leaf l → fieldLe (s.readPa pa 32) 16 16 = 0 → mva < 2 ^ 57 → mva % l.size = 0 →
      fieldLe (s.readPa pa 32) 8 8 % l.size = 0 →
      ∃ t, exec (.tlbinvMig h d a b) s = .next t ∧ gone t (fun e => e.va / l.size = mva / l.size)
        ∧ command t fun k => k = .mig ctx mva (fieldLe (s.readPa pa 32) 8 8) l.size l.at') ∧
    (Issues (.idle h a) h allFall s w →
      let late := w.ts.filter fun th => w.tm.n32 th a != 0
      ∃ t, exec (.idle h a) s = .next t ∧ Wrote s t w [] ∧ State.SameModule s t w.core
        ∧ (late = [] → Continues s t w fun _ => w.next)
        ∧ (late ≠ [] → StaysAt s t w late ∧ ∀ th, th ∈ late → ∀ y, t.thread? w.core w.slot th = some y →
            y.st = .waiting (.idle (w.tm.n32 th a) false)))


/-! ## The scheduler's own events -/

/-- The events of a core's scheduler (06 R144 to R155). -/
def Obligations.SchedulerEvents : Prop :=
  ∀ (core slot gid th : Nat) (pc : PC) (s : State),
    let k := s.core core
    let quiet (t : State) : Prop := State.SameModule s t core ∧ ∀ sl r, t.reg core sl r = s.reg core sl r
    (∀ b, k.drawable = some b → k.issued = [] →
      b ∈ k.bins ∧ (k.eligible b = true ∨ (k.groups = [] ∧ ∀ x, x ∈ k.bins → k.eligible x = false))
      ∧ (∀ x, x ∈ k.bins → k.eligible x = k.eligible b → Bin.before x b = false)
      ∧ ∃ t g, exec (.issueGroupDraw core) s = .next t ∧ quiet t ∧ (t.core core).groups = k.groups ++ [g] ∧ (t.core core).drawn = true
        ∧ g.gid = s.uid ∧ g.slot = b.slot ∧ g.pc = BitVec.ofNat 57 b.pc ∧ g.mem = b.mem.take 32 ∧ g.first = k.now + 1
        ∧ ∀ u x, u ∈ g.mem → s.thread? core b.slot u = some x → t.thread? core b.slot u = some { x with st := .active s.uid }) ∧
    (k.drawn = true ∨ 8 ≤ k.groups.length → exec (.issueGroupDraw core) s = .next s) ∧
    (∀ b, b ∈ k.agingBins → b.slot = slot → b.pc = pc.toNat →
      ∃ t, exec (.binAged core slot pc) s = .next t ∧ quiet t ∧ (slot, pc) ∈ (t.core core).aged ∧ (t.core core).teams = k.teams) ∧
    (∀ g hi, k.groups.find? (fun x => x.gid == gid) = some g → s.held? core g = some hi → s.mustDissolve core g = true →
      let old : Prop := ∃ a, g.heldAt = some a ∧ a + 8 ≤ k.now
      ∃ t, exec (.longLatencyDissolve core gid) s = .next t ∧ quiet t ∧ (∀ x, x ∈ (t.core core).groups → x.gid ≠ gid)
        ∧ ∀ u x, u ∈ g.mem → s.thread? core g.slot u = some x → ∃ y, t.thread? core g.slot u = some y ∧ y.pc = x.pc ∧
            ((∃ n r, (u, n, r) ∈ hi.long ∧ (old ∨ u ∈ hi.quick) ∧ y.st = .waiting (.held n r)) ∨
             ((old ∨ u ∈ hi.quick → ∀ n r, (u, n, r) ∉ hi.long) ∧ y.st = .binned k.now))) ∧
    (∀ g, k.groups.find? (fun x => x.gid == gid) = some g → g.drawn + 4096 ≤ k.now → (∃ e, e ∈ k.issued ∧ e.1 = gid) →
      (∃ b, b ∈ k.bins ∧ k.eligible b = true) →
      ∃ t, exec (.rotation core gid) s = .next t ∧ quiet t ∧ (∀ x, x ∈ (t.core core).groups → x.gid ≠ gid)
        ∧ ∀ u x, u ∈ g.mem → s.thread? core g.slot u = some x → t.thread? core g.slot u = some { x with st := .binned k.now }) ∧
    (∀ tm x, s.team? core slot = some tm → tm.frozen = false → Tab.get? tm.threads th = some x →
      (∀ b, x.st = .waiting (.idle 0 b) → ∃ t, exec (.waitConditionMet core slot th) s = .next t ∧ quiet t
        ∧ t.thread? core slot th = some { x with st := .binned (k.now + 1), pc := BitVec.ofNat 57 (x.pc.toNat + 12) }) ∧
      ∀ needs regs, x.st = .waiting (.held needs regs) →
        ((∀ n, n ∈ needs → x.counter n.1 ≤ n.2) → (∀ p, p ∈ k.pends → p.slot = slot → ∀ r, r ∈ regs → r ∉ p.regs) →
          ∃ t, exec (.waitConditionMet core slot th) s = .next t ∧ quiet t
            ∧ t.thread? core slot th = some { x with st := .binned (k.now + 1) }) ∧
        (tm.trap = none → (∃ n, n ∈ needs ∧ n.2 < x.counter n.1) → exec (.waitConditionMet core slot th) s = .next s)) ∧
    (∀ p, k.urgentRead = some p → .close core ∈ s.agenda →
      p ∈ k.pends ∧ (∀ a g, p.src = .load a g → p.missed = true) ∧ p.urgent = false ∧ k.issued = []
      ∧ ∃ t, exec (.urgencyMark core) s = .next t ∧ t.mem = s.mem ∧ (t.core core).teams = k.teams
        ∧ (∀ q, q ∈ (t.core core).pends → q.uid = p.uid → q.urgent = true)
        ∧ ∀ e r, e ∈ t.ports → r ∈ e.2.wait → r.uid = p.uid → r.core = core → r.urg = true)

/-! ## Placement, completion, replays and packets -/

/-- Placement, completion, replays, KICK and LAUNCH packets (06 R141; 01 R8; 13 R285 to R296). -/
def Obligations.LaunchEvents : Prop :=
  ∀ (grid c replay ctx n : Nat) (b : List Byte) (x : Ctx) (s : State),
    (∀ g slot, Tab.get? s.grids grid = some g → s.ctx? g.ctx = some x → recHasCluster g.record = false → g.detlvl ≠ 1 →
      g.unplaced ≠ [] → c < 192 → let u := s.modCore c Core.settle
      u.serves g.ctx c = true → u.wsFree (c / 96) = true → (u.die (c / 96)).halted = 0 →
      0 < (u.core c).roomFor (u.core c).teams g.record → (u.core c).freeSlot = some slot →
      ∃ t i tm g', exec (.teamPlacement grid [c]) s = .next t ∧ i ∈ g.unplaced ∧ t.team? c slot = some tm
        ∧ tm.index = i ∧ tm.grid = grid ∧ tm.ctx = g.ctx ∧ tm.wid = s.wid ∧ t.mem = s.mem
        ∧ (∀ r, tm.hasReg r = true → tm.readReg r = match r with
            | .p _ 0 => 1
            | _ => 0)
        ∧ tm.threads.map (fun e => e.1) = List.range (32 * (fieldLe g.record 12 1 - 1) + fieldLe g.record 13 1)
        ∧ (∀ th y, Tab.get? tm.threads th = some y → y.pc = BitVec.ofNat 57 (fieldLe g.record 0 8) ∧ ∃ f, y.st = .binned f)
        ∧ (∀ sl, sl ≠ slot → t.team? c sl = s.team? c sl)
        ∧ Tab.get? t.grids grid = some g' ∧ g'.unplaced = g.unplaced.filter fun j => j != i) ∧
    (∀ g, Tab.get? s.grids grid = some g →
      (g.unplaced ≠ [] → exec (.gridCompletion grid) s = .next s) ∧
      (g.unplaced = [] → (∀ e tm, e ∈ s.cores → tm ∈ e.2.teams → tm.2.grid ≠ grid) → s.ctx? g.ctx = some x →
        (∀ q, q ∈ x.saved → q.team.grid ≠ grid) → fieldLe g.record 8 4 ≤ g.finished.length → g.node = none →
        ∃ t, exec (.gridCompletion grid) s = .next t ∧ Tab.get? t.grids grid = none
          ∧ (fieldLe g.record 48 8 = 0 → t.mem = s.mem)
          ∧ (∀ u, fieldLe g.record 48 8 ≠ 0 → s.vwrite g.ctx (fieldLe g.record 48 8) (leBytes 8 1) = .ok u → t.mem = u.mem))) ∧
    (∀ r, Tab.get? s.replays replay = some r → s.ctx? r.ctx = some x → x.cst = 1 → x.jrn.lvl < 2 → r.ended = false → r.begun = false →
      let earlier : Prop := ∃ e, e ∈ s.replays ∧ e.1 < replay ∧ e.2.ended = false ∧ e.2.image = r.image ∧ e.2.ctx = r.ctx
      (earlier → exec (.replayBegin replay) s = .next s) ∧
      (¬ earlier → ∃ t r', exec (.replayBegin replay) s = .next t ∧ Tab.get? t.replays replay = some r' ∧ r'.begun = true
        ∧ ∀ code, ((r.badHdr = true ∧ code = 7) ∨ (r.badHdr = false ∧ s.readImage r.ctx r.image = .ok none ∧ code = 6)) →
            r'.ended = true ∧ ∀ u, s.vwrite r.ctx r.doneAt (leBytes 8 (0xFFFFFFFE * 2 ^ 32 + code)) = .ok u → t.mem = u.mem)) ∧
    (s.headPkt ctx = some (n, b) → s.ctx? ctx = some x → pktOk b x.priv = true → (pktWaits b = true → x.ring.open_ = []) → x.jrn.lvl < 2 →
      let u := s.startPkt ctx n
      (fieldLe b 0 1 = 1 → s.kickQ (fieldLe b 16 1) < 64 → (s.die (fieldLe b 16 1)).halted = 0 →
        ∀ h, u.vread ctx (fieldLe b 8 8) 32 = .ok h →
        ∃ t r y, exec (.kick ctx) s = .next t ∧ Tab.get? t.replays s.uid = some r ∧ r.ctx = ctx ∧ r.die = fieldLe b 16 1
          ∧ r.table = fieldLe b 8 8 ∧ r.image = fieldLe h 0 8 ∧ r.nent = fieldLe h 8 4 ∧ r.rdone = fieldLe h 16 8 ∧ r.packet = some n
          ∧ r.begun = false ∧ r.ended = false ∧ t.mem = u.mem ∧ t.ctx? ctx = some y ∧ y.ring.rd = (n + 1) % 2 ^ 32
          ∧ y.ring.open_ = x.ring.open_ ++ [n]) ∧
      (fieldLe b 0 1 = 2 → s.queueFull (fieldLe b 24 1) = true → exec (.launchPacket ctx) s = .next s) ∧
      (fieldLe b 0 1 = 2 → (s.die (fieldLe b 24 1)).halted = 0 → s.queueFull (fieldLe b 24 1) = false → ∀ r, s.vread ctx (fieldLe b 8 8) 64 = .ok r →
        let code := s.launchStatus ctx r x.detlvl.toNat
        (code ≠ 0 → ∃ t y, exec (.launchPacket ctx) s = .next t ∧ t.grids = s.grids ∧ t.ctx? ctx = some y
          ∧ y.ring.rd = (n + 1) % 2 ^ 32 ∧ n ∉ y.ring.open_
          ∧ ∀ v, u.vwrite ctx (fieldLe b 16 8) (leBytes 1 code) = .ok v → t.mem = v.mem) ∧
        (code = 0 → recCores r = false → ∃ t g y, exec (.launchPacket ctx) s = .next t ∧ Tab.get? t.grids s.uid = some g ∧ g.ctx = ctx
          ∧ g.record = r ∧ g.die = fieldLe b 24 1 ∧ g.unplaced = List.range (fieldLe r 8 4) ∧ g.packet = some (ctx, n) ∧ g.finished = []
          ∧ t.ctx? ctx = some y ∧ y.ring.rd = (n + 1) % 2 ^ 32 ∧ n ∈ y.ring.open_)))

/-- The packets that hold the command ring (13 R296, R425; 17 R368, R374). -/
def Obligations.PacketEvents : Prop :=
  ∀ (ctx n : Nat) (b : List Byte) (x : Ctx) (s : State), s.ctx? ctx = some x →
    let u := s.startPkt ctx n
    let starts : Prop := s.headPkt ctx = some (n, b) ∧ pktOk b x.priv = true ∧ (pktWaits b = true → x.ring.open_ = [])
    let begun (t : State) (r : Ring → Ring) : Prop := t.mem = u.mem ∧ ∃ y, t.ctx? ctx = some y
      ∧ y.ring = r { x.ring with rd := (n + 1) % 2 ^ 32, open_ := x.ring.open_ ++ [n] }
    let closed (t : State) (y : Ctx) : Prop := t.ctx? ctx = some y ∧ y.ring.open_ = x.ring.open_.filter fun m => m != n
    (starts → fieldLe b 0 1 = 3 → ∃ t y, exec (.wsload ctx) s = .next t ∧ (∀ d, (t.die d).weights = (s.die d).weights) ∧ t.mem = s.mem
      ∧ t.ctx? ctx = some y ∧ y.ring = { x.ring with ws := some (n, fieldLe b 8 8, fieldLe b 16 4, fieldLe b 20 4, fieldLe b 24 1) }) ∧
    (∀ src off len die bs, x.ring.ws = some (n, src, off, len, die) →
      (s.dieIdle die = false → exec (.wsload ctx) s = .next s) ∧
      (s.dieIdle die = true → s.alive x = true → (s.die die).halted = 0 → s.vread ctx src len = .ok bs →
        ∃ t y, exec (.wsload ctx) s = .next t ∧ closed t y ∧ y.ring.ws = none ∧ y.ring.rd = (n + 1) % 2 ^ 32 ∧ t.mem = u.mem
          ∧ (t.die die).weights = Memory.writeN (s.die die).weights off bs)) ∧
    (starts → fieldLe b 0 1 = 4 → x.ring.setdet = none →
      (∀ j, s.newJournal ctx (fieldLe b 8 1) (fieldLe b 16 8) = some j →
        ∃ t, exec (.setdet ctx) s = .next t ∧ begun t fun r => { r with setdet := some (n, j) }) ∧
      (s.newJournal ctx (fieldLe b 8 1) (fieldLe b 16 8) = none →
        ∃ t y, exec (.setdet ctx) s = .next t ∧ t.mem = s.mem ∧ t.ctx? ctx = some y ∧ y.ring = { x.ring with stopped := some n })) ∧
    (∀ j, x.ring.setdet = some (n, j) →
      (x.mer.flying = true ∨ x.mer.begun = true ∨ (∃ g, g ∈ s.grids ∧ g.2.ctx = ctx) → exec (.setdet ctx) s = .next s) ∧
      (s.alive x = true → x.mer.flying = false → x.mer.begun = false → (∀ g, g ∈ s.grids → g.2.ctx ≠ ctx) → x.jrn.lvl < 2 → j.lvl < 2 →
        ∃ t y, exec (.setdet ctx) s = .next t ∧ closed t y ∧ y.ring.setdet = none ∧ y.jrn = j ∧ y.detlvl.toNat = j.lvl ∧ t.mem = s.mem)) ∧
    (starts → fieldLe b 0 1 = 5 → ∀ v, s.vwrite ctx (fieldLe b 8 8) ((b.drop 16).take 8) = .ok v →
      ∃ t y, exec (.signal ctx) s = .next t ∧ t.mem = (v.startPkt ctx n).mem ∧ t.ctx? ctx = some y ∧ y.ring.rd = (n + 1) % 2 ^ 32
        ∧ n ∉ y.ring.open_) ∧
    (starts → fieldLe b 0 1 = 6 → x.ring.wait = none → ∃ t, exec (.wait ctx) s = .next t
      ∧ begun t fun r => { r with wait := some (n, fieldLe b 8 8, fieldLe b 16 8) }) ∧
    (∀ addr v now, x.ring.wait = some (n, addr, v) → s.vget ctx addr 8 = .ok now →
      (now < v → exec (.wait ctx) s = .next s) ∧
      (v ≤ now → s.alive x = true → ∃ t y, exec (.wait ctx) s = .next t ∧ closed t y ∧ y.ring.wait = none ∧ t.mem = s.mem))

/-! ## Contexts -/

/-- The events of a context (16 R339, R340, R351, R360 to R363; 17 R373; 19 R403). -/
def Obligations.ContextEvents : Prop :=
  ∀ (ctx stack left : Nat) (s : State) (x : Ctx), ctx < 65536 → s.poison = [] → (∀ i, i < 128 → inWindow (s.ctxEntry ctx + i) = false) →
    let u := s.takeReq ctx
    let b := u.entryBytes ctx
    let clash : Prop := ∃ e, e ∈ s.ctxs ∧ e.1 ≠ ctx ∧ (e.2.cst = 1 ∨ e.2.cst = 2) ∧ e.2.cores &&& (ctxOf b).cores ≠ 0
    let killed (t : State) : Prop := (∃ y, t.ctx? ctx = some y ∧ y.cst = 4 ∧ y.faults = [] ∧ y.saved = []) ∧ (∀ g, g ∈ t.grids → g.2.ctx ≠ ctx)
      ∧ (∀ r, r ∈ t.replays → r.2.ctx ≠ ctx) ∧ ∀ c sl tm, t.team? c sl = some tm → tm.ctx = ctx → tm.fin = true
    (∀ i, i = .ctxbell (BitVec.ofNat 64 ctx) ∨ i = .contextTablePoll ctx → ∃ t, exec i s = .next t
      ∧ (s.ctx? ctx = some x → ∃ y, t.ctx? ctx = some y ∧ y.ring.wr = Memory.readLe s.mem (s.ctxEntry ctx + 100) 4)
      ∧ (i = .ctxbell (BitVec.ofNat 64 ctx) → t.host.ctxbell.toNat = ctx)
      ∧ (s.req ctx = 0 → t.mem = s.mem) ∧ (s.req ctx = 1 → s.cst ctx ≠ 1 → t.agenda = .event (.contextRun ctx) :: s.agenda)
      ∧ (s.req ctx = 2 → s.cst ctx = 1 → t.agenda = .event (.contextEvict ctx) :: s.agenda)
      ∧ (s.req ctx = 3 → s.cst ctx = 1 ∨ s.cst ctx = 2 ∨ s.cst ctx = 3 → t.agenda = .event (.contextKill ctx) :: s.agenda)) ∧
    (s.ctx? ctx = none → s.req ctx = 1 →
      (entryOk b = false → exec (.contextRun ctx) s = .next (u.putCtx ctx 3 3)) ∧
      (entryOk b = true → clash → exec (.contextRun ctx) s = .next (u.putCtx ctx 3 1)) ∧
      (entryOk b = true → ¬ clash → ∃ t, exec (.contextRun ctx) s = .next t ∧ t.ctx? ctx = some (ctxOf b)
        ∧ t.mem = (u.putCtx ctx 2 1).mem ∧ (∀ v, v ∈ wqsOf (ctxOf b).wqmask → t.wq v = { ctx := some ctx, items := [], waiters := [] })
        ∧ ∀ c, c ∈ (ctxOf b).coreList → (s.core c).teams = [] → (t.core c).ctx = some ctx)) ∧
    (s.ctx? ctx = some x →
      (x.cst = 2 → s.req ctx = 1 → ∃ t, exec (.contextRun ctx) s = .next t ∧ t.ctx? ctx = some { x with runHeld := true }) ∧
      (x.cst = 1 → s.req ctx = 2 → x.svsize < x.saveBound → exec (.contextEvict ctx) s = .next (u.putCtx ctx 3 2)) ∧
      (x.cst = 1 → s.req ctx = 2 → x.saveBound ≤ x.svsize → ∃ t, exec (.contextEvict ctx) s = .next t
        ∧ t.ctx? ctx = some { x with cst := 2 } ∧ t.mem = (u.putCtx ctx 2 2).mem
        ∧ ∀ c sl tm, s.team? c sl = some tm → tm.ctx = ctx → tm.fin = false → (s.core c).evictable sl tm = true →
            t.team? c sl = some { tm with frozen := true }) ∧
      (x.cst = 2 → x.save = none → (s.freeze ctx).evictReady ctx = true →
        Tab.sortedFrom 0 s.cores = true → (∀ e, e ∈ s.cores → Tab.sortedFrom 0 e.2.teams = true) →
        (∀ c sl tm, s.team? c sl = some tm → tm.ctx = ctx → (∀ p, p ∈ (s.core c).pends → p.slot ≠ sl) ∧ ∀ o, o ∈ (s.core c).outs → o.slot ≠ sl) →
        ∃ t y, exec (.evictionComplete ctx) s = .next t ∧ t.ctx? ctx = some y ∧ y.save.isSome = true ∧ t.mem = s.mem
          ∧ (∀ c sl tm, t.team? c sl = some tm → tm.ctx ≠ ctx)
          ∧ ∀ c sl tm, s.team? c sl = some tm → tm.ctx = ctx → ∃ q, q ∈ y.saved ∧ q.core = c ∧ q.slot = sl ∧ q.team.wid = tm.wid
              ∧ q.team.threads = tm.imaged.threads ∧ q.team.hgs = tm.hgs ∧ q.team.scratch = tm.scratch) ∧
      (∀ done, x.cst = 2 → x.save = some (0, done) → (∀ e g, e ∈ s.stks → g ∈ e.2.segs → g.1 ≠ ctx) →
        ∃ t, exec (.evictionComplete ctx) s = .next t ∧ t.ctx? ctx = some { x with cst := 3 } ∧ t.mem = (s.putCtx ctx 2 3).mem) ∧
      (∀ fr bs rest done, x.save = some (left, done) → left = 0 → (s.stk stack).segs = (ctx, fr, bs) :: rest → (s.stk stack).running = none →
        (s.stk stack).pend = none → (s.die (stkDie stack)).retrain = 0 →
        (∀ bk, bk ∈ x.frameBanks stack fr → (s.stk stack).training ≠ some (bankChan bk) ∧ bk ∉ (s.stk stack).forced
          ∧ ∀ r, r ∈ (s.stk stack).ofBank stack bk → 3 < (s.stk stack).cls r) →
        inWindow (x.svbase + 4096 * fr) = false → ∃ t, exec (.deadlineSaveSegment ctx stack) s = .next t
          ∧ t.mem = Memory.writeN s.mem (x.svbase + 4096 * fr) bs ∧ (t.stk stack).segs = rest
          ∧ t.ctx? ctx = some { x with save := some (left, done ++ [(fr, bs)]) }) ∧
      (∀ fr done, x.save = some (left + 1, done) → (s.stk stack).segs = [] → (s.stk stack).running = none → (s.stk stack).pend = none →
        s.saveFrame ctx x stack = some fr → ∃ t bs, exec (.deadlineSaveSegment ctx stack) s = .next t ∧ t.mem = s.mem ∧ bs.length = 4096
          ∧ (t.stk stack).segs = [(ctx, fr, bs)] ∧ t.ctx? ctx = some { x with save := some (left, done) }) ∧
      (s.req ctx = 3 → x.cst = 1 ∨ x.cst = 2 ∨ x.cst = 3 → ∃ t, exec (.contextKill ctx) s = .next t ∧ killed t) ∧
      (x.cst = 1 ∨ x.cst = 2 → s.mismatched ctx x = true → ∃ t, exec (.journalMismatch ctx) s = .next t ∧ killed t
        ∧ Memory.read t.mem (s.ctxEntry ctx + 3) = 5) ∧
      (∀ e rest, x.ringQ = e :: rest → x.cst = 1 ∨ x.cst = 2 → (∀ i, i < 64 + 32 * x.fqsz → inWindow (x.fqbase + i) = false) →
        let used := (x.ringTail + 2 ^ 32 - Memory.readLe s.mem (x.fqbase + 4) 4) % 2 ^ 32
        let place := x.fqbase + 64 + 32 * (x.ringTail % x.fqsz)
        (x.fqsz ≤ used → ∃ t, exec (.faultRingEntryWrite ctx) s = .next t ∧ t.mem = Memory.writeLe s.mem (x.fqbase + 8) 4 x.ringQ.length
          ∧ t.ctx? ctx = some x) ∧
        (used < x.fqsz → leNat (s.readPa (x.fqbase + 12) 52) = 0 → e.length = 32 → ∃ t, exec (.faultRingEntryWrite ctx) s = .next t
          ∧ (∃ y, t.ctx? ctx = some y ∧ y = { x with ringQ := rest, ringTail := (x.ringTail + 1) % 2 ^ 32, saved := y.saved }
              ∧ (x.priv = false → y.saved = x.saved))
          ∧ Memory.readN t.mem place 32 = e ∧ Memory.readLe t.mem x.fqbase 4 = (x.ringTail + 1) % 2 ^ 32
          ∧ ∀ a, (a < place ∨ place + 32 ≤ a) → (a < x.fqbase ∨ x.fqbase + 4 ≤ a) → (a < x.fqbase + 8 ∨ x.fqbase + 12 ≤ a) →
              Memory.read t.mem a = Memory.read s.mem a)))

/-! ## Meridian's steps and Erg's page moves -/

/-- Meridian's and Erg's events (14 R298 to R305; 15 R323, R325). -/
def Obligations.MeridianAndErg : Prop :=
  ∀ (ctx page : Nat) (s : State) (x : Ctx) (q : Pool) (h : List Byte), s.ctx? ctx = some x →
    let m := x.mer
    let serves : Prop := m.tab ≠ 0 ∧ x.cst = 1 ∧ (s.die m.die).halted = 0
    let ready : Prop := serves ∧ (x.ring.setdet = none ∨ m.begun = true)
    let event : Instr := if m.idle then .meridianIdlePoll ctx else .meridianStep ctx
    let rest : Prop := m.idle = true ∨ (m.flying = false ∧ m.ended = false)
    let s0 := s.modMer ctx fun m => { m with cgroups := fieldLe h 20 4 }
    let over' := s.modMer ctx fun m => { m with flying := false, ended := true }
    (¬ serves → exec (.meridianStep ctx) s = .next s) ∧
    (¬ ready → exec (.meridianIdlePoll ctx) s = .next s) ∧
    (serves → m.idle = false → m.flying = true →
      (s.stepOver ctx = .ok none → exec (.meridianStep ctx) s = .next s) ∧
      (s.stepOver ctx = .ok (some 0) → ¬ ready → exec (.meridianStep ctx) s = .next over') ∧
      (s.stepOver ctx = .ok (some 0) → ready → exec (.meridianStep ctx) s = exec (.meridianStep ctx) over') ∧
      (∀ c, s.stepOver ctx = .ok (some c) → c ≠ 0 → m.next = none →
        ∃ t y, exec (.meridianStep ctx) s = .next t ∧ t.ctx? ctx = some y ∧ y.mer.tab = 0 ∧ y.mer.slots = m.slots
          ∧ ∀ u, s.vput ctx (m.tab + 6) 1 4 = .ok u → t.mem = u.mem)) ∧
    (ready → s.vread ctx m.tab 256 = .ok h → s.pool ctx (fieldLe h 72 8) = .ok (some q) →
      (rest → m.begun = false → m.stop = true ∨ fieldLe h 4 1 % 2 = 0 → m.next = none →
        ∃ t y, exec event s = .next t ∧ t.ctx? ctx = some y ∧ y.mer.tab = 0 ∧ ∀ u, s.vput ctx (m.tab + 6) 1 0 = .ok u → t.mem = u.mem) ∧
      (∀ s1 s2 s3 b left, rest → m.stop = false → fieldLe h 4 1 % 2 = 1 → x.jrn.lvl < 2 → s0.pool ctx (fieldLe h 72 8) = .ok (some q) →
        s0.retirePhase ctx q m.tab (fieldLe h 0 4) (m.step + 1) = .ok (some (left, s1)) →
        State.collectTo ctx q m.tab (fieldLe h 0 4) (m.step + 1) (fieldLe h 96 4) (2 ^ 20) s1 = .ok s2 →
        s2.form ctx q m.tab (fieldLe h 0 4) (m.step + 1) left = .ok (b, s3) → (∃ z, s3.ctx? ctx = some z ∧ z.jrn.lvl < 2) →
        (∀ s4, b.slots = [] → s3.vput ctx (m.tab + 6) 1 2 = .ok s4 →
          ∃ t y, exec event s = .next t ∧ t.mem = s4.mem ∧ t.ctx? ctx = some y ∧ y.mer.idle = true) ∧
        (∀ s4 s5, b.slots ≠ [] → s3.writeStep ctx m.tab (m.step + 1) b = .ok s4 → s4.kickStep ctx m.tab (m.step + 1) b = .ok s5 →
          ∃ y, exec event s = .next s5 ∧ ((∃ z, s4.ctx? ctx = some z ∧ z.jrn.lvl < 2) → s5.ctx? ctx = some y ∧ y.mer.flying = true
            ∧ y.mer.idle = false ∧ y.mer.step = m.step + 1 ∧ y.mer.slots = b.slots)))) ∧
    (∀ pd ws, s.waitersOn ctx page = ws → ws ≠ [] → (∀ e, e ∈ ws → e.2.2 = .ok pd) → s.pool ctx pd = .ok (some q) →
      (∀ u, s.recall? ctx q page = .noFrame u → exec (.pageRecall ctx page) s = .next u) ∧
      (∀ u, s.recall? ctx q page = .ok u → ∃ t, exec (.pageRecall ctx page) s = .next t ∧ t.mem = u.mem
        ∧ ∀ e, e ∈ ws → ∀ d, (u.core e.1).cmd? e.2.1 = some d → ∃ d', (t.core e.1).cmd? e.2.1 = some d' ∧ d'.erg = none)) ∧
    (s.waitersOn ctx page = [] → exec (.pageRecall ctx page) s = .next s) ∧
    (∀ l v fr u pg pd rest, (s.cores.flatMap fun e => (e.2.cmds.filter fun d => d.erg.isSome && (match Tab.get? e.2.teams d.slot with
          | some tm => tm.ctx == ctx
          | none => false)).map fun d => (d.erg.getD 0, s.poolAt ctx d)) = (pg, pd) :: rest → (∃ a, pd = .ok a ∧ s.pool ctx a = .ok (some q)) →
      s.allPg ctx q = .ok l → freeFrame q l 0 (s.resv ctx) = none →
      let able (e : Nat × PgMeta) : Prop := e ∈ l ∧ e.2.candidate 0 = true ∧ e.1 ∉ s.triedFor ctx q pg
      able v → (∀ e, able e → e ≠ v → evictBefore v e = true) → freeFrame q l 1 [] = some fr →
      s.movePage ctx q v.1 v.2 1 fr = .ok u → exec (.pageEviction ctx) s = .next (u.setTried ctx q pg (s.triedFor ctx q pg)))


/-! ## Ports, links and controllers -/

/-- Ports and the packet link (17 R376 to R378; 19 R394 to R396). -/
def Obligations.LinkEvents : Prop :=
  ∀ (port stk tag line : Nat) (urg brst w64 : Bool) (mask : BitVec 64) (data : List Byte) (o : AtomOp) (kind : BitVec 2) (off : BitVec 6)
    (opnd new : BitVec 64) (s : State),
    let p := Tab.getD s.ports port Port.reset
    let here (r : PReq) : Prop := (∃ x, x ∈ (s.core r.core).pends ∧ x.uid = r.uid)
      ∨ (∃ x, x ∈ (s.core r.core).storeQ ∧ x.uid = r.uid) ∨ ∃ d x, d ∈ (s.core r.core).cmds ∧ x ∈ d.asks ∧ x.1 = r.uid
    let q := s.stk stk
    let plain (op : Nat) : LReq := { tag := tag, op := op, line := line, urg := false, brst := brst, waited := false, mask := 0, data := [],
                                     atom := none, acc := none, back := false }
    (port < 192 → ∃ t p', exec (.portIntervalRefill port) s = .next t ∧ t.mem = s.mem ∧ p' = Tab.getD t.ports port Port.reset ∧ p'.next = none ∧
      (p.next = none → p'.share = p.share ∧ p'.wait = p.wait ∧ p'.rest = min (p.rest + p.rest?) (2 * p.rest?)
        ∧ (∀ (i : Nat) (e : Nat × Nat) (k : Nat), p.share[i]? = some e → p.tok[i]? = some k → p'.tok[i]? = some (min (k + e.2) (2 * e.2)))
        ∧ p'.spill = min 2048 (p.spill + (((p.share.zip p.tok).map fun e => e.2 + e.1.2 - 2 * e.1.2).sum + (p.rest + p.rest? - 2 * p.rest?)))) ∧
      (∀ l, p.next = some l → l ≠ [] → p'.share = l ∧ p'.tok = l.map (fun e => e.2) ∧ p'.rest = p'.rest? ∧ p'.spill = 0 ∧ p'.wait = p.wait) ∧
      (p.next = some [] → p'.share = [] ∧ p'.wait = [])) ∧
    (∀ r, p.wait = [r] → here r → ∃ t, exec (.portArbitrate port) s = .next t ∧ t.mem = s.mem
      ∧ (Tab.getD t.ports port Port.reset).wait = if (p.spend r.ctx).isSome then [] else [r]) ∧
    (∀ a b p1, p.wait = [a, b] → a ≠ b → here a → here b →
      let first := if b.urg && !a.urg then b else a
      let second := if b.urg && !a.urg then a else b
      { p with wait := [] }.spend first.ctx = some p1 → ∃ t, exec (.portArbitrate port) s = .next t ∧ t.mem = s.mem
        ∧ (Tab.getD t.ports port Port.reset).wait = if (p1.spend second.ctx).isSome then [] else [second]) ∧
    (lineOk stk line = true → tag < 1024 → ∀ i r,
      (i = .linkRead stk tag line urg brst ∧ r = { plain 0 with urg := urg }) ∨
      (i = .linkWrite stk tag line brst data ∧ r = { plain 1 with data := linePad data, back := s.asHeld stk line (.allOnes 64) (linePad data) }) ∨
      (i = .linkMaskedWrite stk tag line brst mask data ∧ r = { plain 2 with mask := mask, data := linePad data, back := s.asHeld stk line mask (linePad data) }) ∨
      (i = .linkAtomic stk tag line o kind w64 off opnd new ∧ ∃ ty, linkTy o kind w64 off.toNat = some ty
        ∧ r = { plain 3 with brst := false, atom := some (o, kind, w64, off, opnd, new),
                             acc := s.forwarded stk line o ty off.toNat opnd.toNat new.toNat }) →
      ((∃ x, x ∈ q.queue ∧ x.tag = tag) → exec i s = .next s) ∧
      ((∀ x, x ∈ q.queue → x.tag ≠ tag) → ∃ t, exec i s = .next t ∧ t.mem = s.mem ∧ (t.stk stk).queue = q.queue ++ [r]
        ∧ Tab.get? (t.stk stk).replies tag = none ∧ ∀ k, k ≠ stk → t.stk k = s.stk k)) ∧
    (linkTy o kind w64 off.toNat = none → ∃ t, exec (.linkAtomic stk tag line o kind w64 off opnd new) s = .next t ∧ t.mem = s.mem ∧ t.stks = s.stks) ∧
    ((∀ r, r ∈ q.queue → r.tag = tag → r.op = 0 → s.urgentLine stk r.line = false) → exec (.urgencyNotice stk tag) s = .next s) ∧
    (stk < 10 → ∃ t, exec (.urgencyNotice stk tag) s = .next t ∧ t.mem = s.mem
      ∧ (t.stk stk).queue = q.queue.map fun r => if r.tag = tag ∧ r.op = 0 ∧ s.urgentLine stk r.line = true then { r with urg := true } else r) ∧
    (stk < 10 → ∃ t, exec (.requestWaited2us stk tag) s = .next t ∧ t.mem = s.mem
      ∧ (t.stk stk).queue = q.queue.map fun r => if r.tag = tag then { r with waited := true } else r) ∧
    (∀ r, q.queue.find? (fun x => x.tag == tag) = some r →
      let a := lineAt stk r.line
      ((∃ y, y ∈ q.ofBank stk (bankAt stk r.line) ∧ q.cls y < q.cls r) → exec (.linkReply stk tag) s = .next s) ∧
      (s.grant stk r = none → exec (.linkReply stk tag) s = .next s) ∧
      (∀ n, s.grant stk r = some n → s.poison = [] → lineOk stk r.line = true → ∃ t st bs, exec (.linkReply stk tag) s = .next t
        ∧ (t.stk stk).queue = q.queue.filter (fun x => x.tag != tag) ∧ Tab.get? (t.stk stk).replies tag = some (st, bs)
        ∧ (r.op = 0 → (st = 0 ∨ st = 1) ∧ bs = Memory.readN s.mem a 64 ∧ t.mem = s.mem)
        ∧ (r.op = 1 → st = 0 ∧ bs = [] ∧ t.mem = if r.back then s.mem else Memory.writeN s.mem a r.data)
        ∧ (r.op = 2 → st = 0 ∧ bs = [] ∧ ∀ z, Memory.read t.mem z =
            if r.back = false ∧ a ≤ z ∧ z < a + 64 ∧ r.mask.getLsbD (z - a) = true then r.data.getD (z - a) 0 else Memory.read s.mem z)
        ∧ ∀ o kind w64 off opnd new ty, r.op = 3 → r.atom = some (o, kind, w64, off, opnd, new) → linkTy o kind w64 off.toNat = some ty →
            let n := if w64 then 8 else 4
            let old := Memory.readLe s.mem (a + off.toNat) n
            st = 0 ∧ bs = leBytes 8 old
              ∧ (∀ x, r.acc = some x → ∃ u : State, u.mem = s.mem ∧ u.cores = s.cores ∧ u.ctxs = s.ctxs
                  ∧ t.mem = if ((s.core x.1).pend? x.2).isSome then (u.performAcc x.1 x.2).mem else s.mem)
              ∧ (r.acc = none → t.mem = Memory.writeLe s.mem (a + off.toNat) n (atomNew o ty old (opnd.toNat % 2 ^ (8 * n)) (new.toNat % 2 ^ (8 * n))))))

/-- Controllers, patrol and windows (19 R397 to R406; 20 R407, R417; 08 R191). -/
def Obligations.StackEvents : Prop :=
  ∀ (stk bank line die unit addr : Nat) (failed : Bool) (v : BitVec 64) (res : BitVec 2) (s : State),
    let q := s.stk stk
    let a := lineAt stk line
    let next (i : Instr) (f : State → Prop) : Prop := ∃ t, exec i s = .next t ∧ t.mem = s.mem ∧ f t
    (stk < 10 → bank ∉ q.forced → next (.refreshDue stk bank) fun t =>
      let was := Tab.getD q.post bank 0
      let now := Tab.getD (t.stk stk).post bank 0
      let busy : Prop := (∃ r, r ∈ q.queue ∧ bankAt stk r.line = bank) ∨ bank ∈ s.segBanks stk
      let shut : Prop := q.running.isSome = true ∨ q.training = some (bankChan bank)
      let closed : Prop := Tab.get? (t.stk stk).rows bank = none ∧ (t.stk stk).forced = q.forced
      let kept : Prop := (t.stk stk).rows = q.rows ∧ (t.stk stk).forced = q.forced
      (q.covered bank = true → kept ∧ now = was ∧ Tab.getD (t.stk stk).seenAll bank 0 = Tab.getD q.seenAll bank 0 + 1) ∧
      (q.covered bank = false → ((closed ∧ ¬ shut ∧ now = was) ∨ (closed ∧ ¬ shut ∧ ¬ busy ∧ -8 < was ∧ now = was - 1)
        ∨ (kept ∧ (was < 0 ∨ ((busy ∨ shut) ∧ was < 8)) ∧ now = was + 1)
        ∨ ((busy ∨ shut) ∧ 8 ≤ was ∧ now = was ∧ (t.stk stk).rows = q.rows ∧ (t.stk stk).forced = q.forced ++ [bank]))
        ∧ (¬ busy → ¬ shut → 0 ≤ was → closed))
        ∧ (-8 ≤ was → was ≤ 8 → -8 ≤ now ∧ now ≤ 8) ∧ (t.stk stk).queue = q.queue
        ∧ ∀ b, b ≠ bank → Tab.getD (t.stk stk).post b 0 = Tab.getD q.post b 0) ∧
    (stk < 10 → bank ∈ q.forced → next (.refreshDue stk bank) fun t => (t.stk stk).rows = q.rows ∧ (t.stk stk).forced = q.forced
      ∧ (t.stk stk).post = q.post) ∧
    (bank ∈ q.forced → q.running = none → next (.forcedRefresh stk bank) fun t => bank ∉ (t.stk stk).forced ∧ Tab.get? (t.stk stk).rows bank = none) ∧
    (bank ∉ q.forced ∨ q.running.isSome = true → exec (.forcedRefresh stk bank) s = .next s) ∧
    (∀ us, us = (s.die (stkDie stk)).retrain.toNat →
      (q.running.isSome = true ∨ (us = 0 ∧ q.training = none) → exec (.retrainIntervalExpiry stk failed) s = .next s) ∧
      (us ≠ 0 → stk < 10 → q.running = none → q.pend = none → q.training = none → next (.retrainIntervalExpiry stk failed) fun t =>
        (t.stk stk).rtFrom = q.rtFrom + 10 * us ∧ (t.stk stk).training = some 0 ∧ (t.stk stk).retry = []
          ∧ (t.stk stk).rate = q.rate ∧ (t.stk stk).rows = q.rows)) ∧
    (∀ ch, stk < 10 → q.running = none → q.training = some ch → next (.retrainIntervalExpiry stk failed) fun t =>
      (∀ b, bankChan b = ch → Tab.get? (t.stk stk).rows b = none ∧ b ∉ (t.stk stk).forced)
        ∧ (∀ b, bankChan b ≠ ch → Tab.get? (t.stk stk).rows b = Tab.get? q.rows b ∧ (b ∈ (t.stk stk).forced ↔ b ∈ q.forced))
        ∧ (t.stk stk).training = (if ch + 1 < Config.channels then some (ch + 1) else none)
        ∧ Tab.getD (t.stk stk).allRef ch 0 = Tab.getD q.allRef ch 0 + 1
        ∧ Tab.getD (t.stk stk).retry ch 0 = (if failed then 3 else 0) ∧ (t.stk stk).tfail = q.tfail + (if failed then 1 else 0)
        ∧ (t.stk stk).err = (if failed then q.err ||| 1 else q.err) ∧ (t.stk stk).rate = q.rate) ∧
    (stk < 8 → v.toNat < 4 → q.running = none → next (.stkrate stk v) fun t => (t.stk stk).reg = v ∧ (t.stk stk).rate = q.rate
      ∧ (v.toNat = q.rate → (t.stk stk).pend = none)
      ∧ (v.toNat ≠ q.rate → q.pend = none → (t.stk stk).pend = some (v.toNat, q.now + rateLimit))
      ∧ (∀ e, v.toNat ≠ q.rate → q.pend = some e → (t.stk stk).pend = some (v.toNat, e.2))) ∧
    (stk < 8 → 4 ≤ v.toNat → next (.stkrate stk v) fun t => (t.stk stk).reg = q.reg ∧ (t.stk stk).rate = q.rate ∧ (t.stk stk).err = q.err ||| 4) ∧
    (∀ r lim, q.running = none → q.pend = some (r, lim) → next (.dataRateChange stk failed) fun t =>
      (t.stk stk).running = some r ∧ (t.stk stk).pend = none ∧ (t.stk stk).rate = q.rate ∧ (t.stk stk).rows = [] ∧ (t.stk stk).forced = []
        ∧ ((t.stk stk).err = (if q.segs = [] then q.err else q.err ||| 2) ∨ (t.stk stk).err = (if q.segs = [] then q.err else q.err ||| 2) ||| 1)) ∧
    (∀ r, q.running = some r → q.nextReq = none → next (.dataRateChange stk failed) fun t =>
      (t.stk stk).running = none ∧ (t.stk stk).rate = (if failed then q.rate else r) ∧ (t.stk stk).rows = []
        ∧ (t.stk stk).err = (if failed then q.err ||| 1 else q.err)) ∧
    (lineOk stk line = true → s.grant stk (LReq.scrub line) = none → exec (.patrolScrub stk line res) s = .next s) ∧
    (lineOk stk line = true → (s.grant stk (LReq.scrub line)).isSome = true → next (.patrolScrub stk line res) fun t => (t.stk stk).patrol = line + 1
      ∧ (res = 2 → t.poisoned a 64 = true) ∧ (res ≠ 2 → t.poison = s.poison)) ∧
    (stk < 8 → line < 2 ^ 30 → s.poisoned (lineAddr stk line) 64 = true →
      ((∃ e, e ∈ s.ctxs ∧ (e.2.cst = 1 ∨ e.2.cst = 2)) → exec (.postPackageRepair stk line) s = .next s) ∧
      ((∀ e, e ∈ s.ctxs → e.2.cst ≠ 1 ∧ e.2.cst ≠ 2) → ∃ t, exec (.postPackageRepair stk line) s = .next t
        ∧ t.poisoned (lineAddr stk line) 64 = false ∧ t.host.repairs = s.host.repairs ++ [leBytes 4 stk ++ leBytes 4 line]
        ∧ ∀ z, Memory.read t.mem z = if lineAddr stk line ≤ z ∧ z < lineAddr stk line + 64 then 0 else Memory.read s.mem z)) ∧
    (die < 2 → patrolled die unit addr = true → next (.sramPatrol die unit addr res) fun t => let c := 96 * die + unit
      (res ≠ 2 → t.cores = s.cores ∧ t.poison = s.poison) ∧
      (res = 2 → addr % 4 = 0 → (s.team? c (addr / 4 / 2 ^ 22 % 16)).isSome = true →
        (addr / 4 / 2 ^ 22 % 16, addr / 4 % 2 ^ 22 / 4 * 4) ∈ (t.core c).spoison) ∧
      (res = 2 → addr % 4 = 1 → addr / 4 % (Config.accBytes / 4) ∈ (t.core c).eng.tpoison) ∧
      (res = 2 → addr % 4 = 3 → t.poisoned (64 * (addr / 4)) 64 = true)) ∧
    (die < 2 → (s.die die).wsIn = false → s.wsDue die = true → next (.weightStoreRefreshWindow die) fun t => (t.die die).wsIn = true
      ∧ (t.die die).wsScrub = ((s.die die).wsScrub + 1) % 262144 ∧ (t.die die).weights = (s.die die).weights) ∧
    ((s.die die).wsIn = true ∨ s.wsDue die = false → exec (.weightStoreRefreshWindow die) s = .next s) ∧
    (die < 2 → s.wsDue die = false → next (.weightStoreWindowEnd die) fun t => (t.die die).wsIn = false ∧ (t.die die).weights = (s.die die).weights) ∧
    (s.wsDue die = true → exec (.weightStoreWindowEnd die) s = .next s)

/-! ## Faults, resets and the host window -/

/-- Faults, halts, resets, power and received pages (19 R405; 20 R407, R408, R412, R417, R422; 15 R336). -/
def Obligations.FaultEvents : Prop :=
  ∀ (core k die unit tries ctx sfill : Nat) (thermal up : Bool) (tag : BitVec 32) (data : List Byte) (s : State),
    let cxl := s.flights core inCxl
    let alone (slot hg uid ins : Nat) : Prop := (∀ y, y ∈ (s.core core).outs → y.slot = slot → hgOf y.thr = hg → uid ≤ y.uid ∨ y.ins = ins)
      ∧ (s.core core).olderLeft slot hg uid ins = false
    let traps (t : State) (slot thr : Nat) (pc : PC) : Prop := ∀ tm, s.team? core slot = some tm → ∃ tm' tr, t.team? core slot = some tm'
      ∧ tm'.trap = some tr ∧ tr.req.cause = .poison ∧ tr.req.mask = [thr] ∧ tr.req.point = pc ∧ tr.halted = false ∧ ∀ r, tm'.readReg r = tm.readReg r
    (cxl[k]? = none → exec (.cxlTimeout core k) s = .next s) ∧
    (∀ p a g, cxl[k]? = some (.read p) → p.src = .load a g → alone p.slot p.hg p.uid p.ins → (∀ tm, s.team? core p.slot = some tm → tm.trap = none) →
      ∃ t, exec (.cxlTimeout core k) s = .next t ∧ t.mem = s.mem ∧ traps t p.slot a.thr a.pc
        ∧ ∃ p', p' ∈ (t.core core).pends ∧ p' = { p with aside := true }) ∧
    (∀ e, cxl[k]? = some (.store e) → e.mem = [] → alone e.slot e.hg e.uid e.ins → (∀ tm, s.team? core e.slot = some tm → tm.trap = none) →
      ∃ t, exec (.cxlTimeout core k) s = .next t ∧ t.mem = s.mem ∧ traps t e.slot e.thr e.pc
        ∧ ∃ e', e' ∈ (t.core core).storeQ ∧ e' = { e with aside := true }) ∧
    (∀ d, cxl[k]? = some (.cmd d) → ∃ t, exec (.cxlTimeout core k) s = .next t ∧ t.mem = s.mem
      ∧ t.agenda = .event (.commandFailure core d.id) :: s.agenda ∧ ∀ d', (t.core core).cmd? d.id = some d' → d'.err = some .poison) ∧
    (die < 2 → unit < 512 → let used := Tab.getD s.host.spares (unitKey 10 die unit) 0
      (tries < 16 → ∃ t, exec (.linkCrcFailure die unit tries) s = .next t ∧ t.mem = s.mem ∧ t.cores = s.cores ∧ t.host = s.host) ∧
      (16 ≤ tries → used < 2 → ∃ t, exec (.linkCrcFailure die unit tries) s = .next t ∧ t.mem = s.mem ∧ t.cores = s.cores
        ∧ Tab.getD t.host.spares (unitKey 10 die unit) 0 = used + 1 ∧ t.host.repairs = s.host.repairs ++ [leBytes 1 die ++ leBytes 2 unit])) ∧
    ((s.die die).halted ≠ 0 → exec (.dieHalt die thermal) s = .next s) ∧
    (die < 2 → (s.die die).halted = 0 → ∃ t, exec (.dieHalt die thermal) s = .next t ∧ t.mem = s.mem ∧ t.cores = s.cores
      ∧ (t.die die).halted = (if thermal then 2 else 1) ∧ (t.die die).ero.frozen = true
      ∧ ((s.die die).ero.frozen = false → ∃ ev, (t.die die).ero.events.getLast? = some ev ∧ fieldLe ev 2 2 = if thermal then 13 else 3)) ∧
    (die < 2 → (s.die die).halted ≠ 4 → Tab.sortedFrom 0 s.ctxs = true → ∃ t, exec (.warmReset die) s = .next t
      ∧ (∀ c, c / 96 = die → t.core c = Core.reset) ∧ (t.die die).weights = (s.die die).weights
      ∧ (t.die die).halted = 4 ∧ (t.die die).retrain = Die.reset.retrain
      ∧ ∀ c x, s.ctx? c = some x → ∃ y, t.ctx? c = some y
          ∧ y.cst = if (x.cst = 1 ∨ x.cst = 2) ∧ (∃ d, d ∈ x.coreList ∧ d / 96 = die) then 4 else x.cst) ∧
    (die < 2 → (s.die die).halted = 4 → ∃ t, exec (.warmReset die) s = .next t ∧ t.mem = s.mem ∧ t.cores = s.cores
      ∧ (t.die die).halted = (if s.host.errctl.getLsbD die then 3 else 0)
      ∧ (t.die die).ero = { (s.die die).ero with frozen := (s.die die).ero.frozen || s.host.errctl.getLsbD die }) ∧
    (∃ t, exec .coldReset s = .next t ∧ t.mem = s.mem ∧ t.poison = s.poison ∧ t.cxl = s.cxl ∧ t.host.repairs = s.host.repairs
      ∧ t.ctxs = [] ∧ t.grids = [] ∧ t.cores = [] ∧ t.dies = [] ∧ t.ports = [] ∧ t.stks = [] ∧ t.host.fwstat = 0 ∧ t.ctxtab = 0) ∧
    (die < 2 → ∃ t, exec (.powerThermalStep die up) s = .next t ∧ t.mem = s.mem ∧ t.cores = s.cores
      ∧ (t.die die).mhz = let to' := if up then (s.die die).mhz + 100 else (s.die die).mhz - 100
          if to' = 0 ∨ 2500 < to' then (s.die die).mhz else to') ∧
    (∀ q h, s.tablePool ctx = .ok q → s.cst ctx = 1 → 1 ≤ sfill → sfill ≤ q.p → data.length = q.p * (q.ekv + q.eix) → s.vread ctx q.flring 8 = .ok h →
      let tail := fieldLe h 0 4
      let used := (tail + 2 ^ 32 - fieldLe h 4 4) % 2 ^ 32
      (q.flsz ≤ used → exec (.flolvoPageReceive ctx tag sfill data) s = .next s) ∧
      (∀ i m s1 s2 s3 s4 s5, used < q.flsz → s.allocPage ctx q = (some i, s1) → s1.getPg ctx q i = .ok m →
        s1.vwriteOn .nt .peer ctx (q.at' 0 m.frame) data = .ok s2 → (s2.modPg ctx q i fun m => { m with fill := sfill }) = .ok s3 →
        s3.vwriteOn .nt .peer ctx (q.flring + 64 + 16 * (tail % q.flsz)) (leBytes 4 i ++ leBytes 4 tag.toNat ++ leBytes 8 sfill) = .ok s4 →
        s4.vwriteOn .nt .peer ctx q.flring (leBytes 4 ((tail + 1) % 2 ^ 32)) = .ok s5 → exec (.flolvoPageReceive ctx tag sfill data) s = .next s5))

/-- The host register window (20 R408, R409, R412 to R420). -/
def Obligations.HostEvents : Prop :=
  ∀ (die unit addr len : Nat) (v : BitVec 64) (header body bs : List Byte) (s : State),
    let h := s.host
    let next (i : Instr) (f : State → Prop) : Prop := ∃ t, exec i s = .next t ∧ t.mem = s.mem ∧ f t
    (die < 2 → h.errctl.toNat < 4 →
      next (.errctlHalt die true) (fun t => (t.die die).halted = (if (s.die die).halted = 0 then 3 else (s.die die).halted)
        ∧ t.host.errctl.getLsbD die = true ∧ ((s.die die).halted = 0 → (t.die die).ero.frozen = true)) ∧
      next (.errctlHalt die false) (fun t => (t.die die).halted = (s.die die).halted ∧ t.host.errctl.getLsbD die = false) ∧
      (h.errctl.getLsbD die = false → next (.errctlUnfrz die) fun t => t.host.errctl = h.errctl ∧ (t.die die).halted = (s.die die).halted
        ∧ (t.die die).ero = { events := [], frozen := false, uncorr := 0 })) ∧
    (next .rbdataRead fun t => t.host.rbdata = s.rbSelected ∧ t.cores = s.cores ∧ t.host.rbsel.toNat % 2 ^ 18 = h.rbsel.toNat % 2 ^ 18
      ∧ t.host.rbsel.toNat / 2 ^ 18 = (h.rbsel.toNat / 2 ^ 18 + 1) % 2 ^ 32) ∧
    (die < 2 → unit < 96 → h.rbsel.toNat = 4 + 256 * die + 512 * unit → next (.rbdataWrite 0) fun t =>
      (t.core (96 * die + unit)).hintMiss = 0 ∧ (t.core (96 * die + unit)).teams = (s.core (96 * die + unit)).teams
        ∧ ∀ c, c ≠ 96 * die + unit → t.core c = s.core c) ∧
    (s.rbWrite v = none → exec (.rbdataWrite v) s = .next s) ∧
    (v.toNat % 1024 = 0 → v.toNat < 2 ^ 52 →
      ((s.backed v.toNat && s.backed (v.toNat + 1023)) = false → next (.attreq v) fun t => t.host.reports = h.reports ∧ t.host.fwstat = h.fwstat) ∧
      (s.backed v.toNat = true → s.backed (v.toNat + 1023) = true → inWindow v.toNat = false → s.poison = [] →
        ∃ t, exec (.attreq v) s = .next t ∧ t.host.reports = h.reports + 1 ∧ t.host.fwstat.getLsbD 2 = true
          ∧ Memory.readN t.mem v.toNat 448 = h.report (Memory.readN s.mem v.toNat 32))) ∧
    (v.toNat % 4096 = 0 → v.toNat < 2 ^ 52 → next (.hostRegisterWrite 0 v) fun t => t.ctxtab = v ∧ t.host = h) ∧
    (v.toNat < 2 ^ 50 → next (.hostRegisterWrite 0x18 v) fun t => t.host = { h with rbsel := v }) ∧
    (2 ^ 50 ≤ v.toNat → next (.hostRegisterWrite 0x18 v) fun t => t.host = h ∧ t.ctxtab = s.ctxtab ∧ t.ctxs = s.ctxs) ∧
    (next (.hostRegisterWrite 0x30 v) fun t => t.host = h ∧ t.ctxtab = s.ctxtab) ∧
    (h.images.length < 3 → h.fwstat.getLsbD 1 = false →
      next (.firmwareVerify header body) fun t =>
        t.host.images = (if fwOk header body then h.images ++ [(header.drop 16).take 64] else h.images)
        ∧ t.host.fwstat.getLsbD 1 = !fwOk header body
        ∧ t.host.fwstat.getLsbD 0 = (if fwOk header body ∧ h.images.length = 2 then true else h.fwstat.getLsbD 0)) ∧
    (3 ≤ h.images.length ∨ h.fwstat.getLsbD 1 = true → exec (.firmwareVerify header body) s = .next s) ∧
    (addr + bs.length ≤ 2 ^ 39 → bs ≠ [] →
      (h.fwstat.getLsbD 1 = false → s.poison = [] → ∃ t, exec (.hostAgentAccess addr (some bs) len) s = .next t ∧ t.mem = Memory.writeN s.mem addr bs
        ∧ t.cores = s.cores ∧ t.host = h) ∧
      (h.fwstat.getLsbD 1 = true → exec (.hostAgentAccess addr (some bs) len) s = .next s)) ∧
    (addr + len ≤ 2 ^ 39 → exec (.hostAgentAccess addr none len) s = .next s)

/-! ## Registers, decoding, steps, memory and reset -/

/-- `BANKROLE` (01 R26). -/
def Obligations.BankRoles : Prop :=
  (∀ (h : Hdr) (num : BitVec 12) (d a : Opd) (gs : List Nat) (g : Nat) (s : State) (w : Iss),
      num = 3 → w.priv = true →
      (Issues (.csrwr h num a) h allFall s w → w.hgs = gs ++ [g] →
        (∀ g', g' ∈ w.hgs → ∀ i, i < 32 → w.tm.n64 (w.lead g') a / 4 ^ i % 4 ≠ 3) →
        ∃ t, exec (.csrwr h num a) s = .next t ∧ (t.core w.core).bankWr = BitVec.ofNat 64 (w.tm.n64 (w.lead g) a)
          ∧ (t.core w.core).bankRole = (s.core w.core).bankRole) ∧
      (Issues (.csrrd h num d) h allFall s w →
        CompletesLater (.csrrd h num d) s w (w.hgs.flatMap fun g => w.tm.dest (w.lead g) d 1 (s.core w.core).bankWr.toNat))) ∧
  (∀ (core : Nat) (s : State), ∃ t, exec (.bankroleApply core) s = .next t ∧ (∀ c, c ≠ core → t.core c = s.core c) ∧
      ((s.core core).teams = [] → (t.core core).bankRole = (s.core core).bankWr ∧ (t.core core).bankWr = (s.core core).bankWr
        ∧ (t.core core).teams = []) ∧
      ((s.core core).teams ≠ [] → t.core core = s.core core)) ∧
  (∀ (s t : State) (gid n c : Nat) (g : Grid) (q : SavedTeam) (slot : Nat),
      t = s.placeTeam gid g n c ∨ s.putSaved q c = some (slot, t) →
      (t.core c).bankWr = (s.core c).bankWr
        ∧ (t.core c).bankRole = if (s.core c).teams = [] then (s.core c).bankWr else (s.core c).bankRole)

/-- Reading and writing registers; the index registers of R17 (01 R8, R14, R17). -/
def Obligations.RegisterReads : Prop :=
  (∀ (tm : Team) (r r' : RegAt) (v : DWord), tm.hasReg r = true →
      (tm.writeReg r v).readReg r' = if r' = r then r.holds v else tm.readReg r') ∧
  (∀ (tm : Team) (g n : Nat) (v : DWord), (Tab.get? tm.hgs g).isSome →
      (tm.writeReg (.x g n) v).readReg (.x g n) = BitVec.setWidth 64 (BitVec.setWidth 12 v)
        ∧ ((tm.writeReg (.x g n) v).readReg (.x g n)).toNat = v.toNat % 4096) ∧
  (∀ (tm : Team) (g n : Nat), (tm.readReg (.x g n)).toNat < 4096) ∧
  (∀ (h : Hdr) (n : BitVec 2) (a : Opd) (s : State) (w : Iss), Issues (.smov h .n64 (.idx n) a) h allFall s w →
      ∃ t, exec (.smov h .n64 (.idx n) a) s = .next t ∧ ∀ g, g ∈ w.hgs → w.tm.hasReg (.x g n.toNat) = true →
        (t.reg w.core w.slot (.x g n.toNat)).toNat = w.tm.n64 (w.lead g) a % 4096)

/-- The worked encodings of the manual (02, 05, 07, 09, 11, 13, 14, 15, 16). -/
def Obligations.WordsDecode : Prop :=
  let h (stall : BitVec 4) (post : BitVec 2) (p : Fin 48) : Hdr :=
    { g := { neg := false, p := p }, ht := { stall := stall, yld := false, post := post, need := 0, fwd := false } }
  let half (o : Hop) (d a b : BitVec 10) : Half := { hop := o, d := d, a := a, b := b, neg := false, p := 0 }
  decodeWord 0x10301400A40540280A600000 = .ok (.vffma (h 3 0 5) .f32 .rne false (.vec 40) (.vec 41) (.vec 42) (.vec 40)) ∧
  decodeWord 0x01F003800048D159002001C0 = .ok (.vmovi (h 1 0 0) .plain 0x12345678 (.vec 7)) ∧
  decodeWord 0xB100000100803088090280B0 = .ok (.pairWord 1 false 0 (half .add 1 2 3) (half .fmul 9 10 11)) ∧
  decodeWord 0x01BA2180130C800000400082 = .ok (.vcmp (h 2 0 0) .i32 .lt (.prd 3) (.vec 4) (.imm 100)) ∧
  decodeWord 0x4000000003FFFFFF02000068 = .ok (.bra (h 0 0 1) (-51)) ∧
  decodeWord 0x31000A005700344600000003 = .ok (.vshfl (h 0 0 0) .swap 0 false (.vec 20) (.vec 21) (.imm 1) (some (.prd 6))) ∧
  decodeWord 0x700A09C01A01100A004000C0 = .ok (.cpyG2l (h 2 0 0) .die .dflt (.hnd 3) (.scl 6) (.scl 8) (.scl 10)) ∧
  decodeWord 0x803A41000008000000040000 = .ok (.mma (h 0 1 0) (.til 2) (.vec 0) (.vec 64)) ∧
  decodeWord 0x906805403300944300000100 = .ok (.lacnt (h 0 0 0) .dev (.scl 10) (.scl 12) (.imm 4) (.prd 3)) ∧
  decodeWord 0x911802401800000000000000 = .ok (.launch (h 0 0 0) (.scl 4) (.scl 6)) ∧
  decodeWord 0x922005001001000000000100 = .ok (.rqemit (h 0 0 0) .dev (.vec 10) (.vec 4) (.vec 8)) ∧
  decodeWord 0x930006001000A00000000100 = .ok (.kvapp (h 0 0 0) .dev (.vec 12) (.vec 4) (.vec 5)) ∧
  decodeWord 0xA04802401A01000000000000 = .ok (.fltrep (h 0 0 0) (.scl 4) (.scl 6) (.scl 8))

/-- Decode of encode (02). -/
def Obligations.RoundTrip : Prop :=
  ∀ i : Instr, WellFormed i = true → ∃ w, encode i = some w ∧ decodeWord w = .ok i

/-- One step (02 R28, R45; the agenda of log 1). -/
def Obligations.StepRunsDecoded : Prop :=
  (∀ (s : State) (c : Nat) (rest : List Act) (g : Group) (tm : Team) (p : Nat) (u : State),
      s.agenda = .issue c :: rest →
      let s' := { s with agenda := rest }
      let a := g.pc.toNat
      (∀ d, d ∈ s'.coreDies c → s'.runs d = true) → (s'.core c).check = false → s'.nextGroup c = some g → s'.team? c g.slot = some tm →
      a + 11 < 2 ^ 57 → a / 65536 = (a + 11) / 65536 → (s'.core c).watched tm.ctx a 12 4 = false →
      s'.migrating tm.ctx a = false → s'.migrating tm.ctx (a + 11) = false →
      { s' with cur := some { core := c, slot := g.slot, gid := g.gid, pc := g.pc, mem := g.mem, share := none } }.translate c tm.ctx a .fetch
        = (.ok p, u) → inCxl p = false → u.poisoned p 12 = false →
      let bytes := u.readPa p 12
      (∀ i, decodeBytes bytes = .ok i → step s = issued (exec i u)) ∧
      (∀ e gs is, decodeBytes bytes = .error e → e ≠ .reservedGuard → wordGuards (BitVec.ofNat 96 (leNat bytes)) = some gs →
        u.issBy (fun tm t => tm.guards gs t) = some is → is.ts ≠ [] →
        step s = .next { u.wordTrap is .ill 0 is.ts [] .word with cur := none })) ∧
  (∀ (s : State) (i : Instr) (rest : List Act), s.agenda = .event i :: rest →
      let s' := { s with agenda := rest }
      s'.mayDo i = true → step s = exec i s') ∧
  (∀ s : State, s.agenda = [] →
      let s' := { s with picks := s.picks + 1 }
      step s = match Config.pickCore s.picks, Config.pickEvent s.picks, Config.pickCheck s.picks with
        | some c, _, _ => .next (if c < 192 then s'.openCycle c else s')
        | none, some i, _ => if ofCycle i = false ∧ s'.mayDo i = true then exec i s' else .next s'
        | none, none, some c => .next (if c < 192 ∧ s'.runs (c / 96) = true then s'.datapath c else s')
        | none, none, none => .next s')

/-- The canonical form of memory (the model's own representation, log 3). -/
def Obligations.MemoryCanonical : Prop :=
  ∀ s t : State, s.Canon → step s = .next t → t.Canon

/-- The state after reset (01 R22, R25; 20 R409, R410; memory: log 3). -/
def Obligations.ResetState : Prop :=
  State.reset.Canon ∧
  (∀ c k, k = State.reset.core c →
    k.cyc = 0 ∧ k.ctxidReg = 0 ∧ k.bankWr = 0xAAAA555500000000 ∧ k.bankRole = 0xAAAA555500000000 ∧ k.teams = []) ∧
  (∀ d x, x = State.reset.die d →
    x.gkick = 0 ∧ x.sharetab = 0 ∧ x.retrain = 0xF4240 ∧ x.ero.events = [] ∧ x.ero.frozen = false ∧ x.halted = 0) ∧
  (∀ c, State.reset.ctx? c = none) ∧ State.reset.grids = [] ∧ State.reset.ctxtab = 0 ∧
  State.reset.host.ctxbell = 0 ∧ State.reset.host.rbsel = 0 ∧ State.reset.host.rbdata = 0 ∧ State.reset.host.errctl = 0 ∧ State.reset.host.attreq = 0 ∧ State.reset.host.endp = []
end

