-- ==== Sys2Proof/Laws/Decode.lean ====
section
/-! SUPPORT. Each field of an encoding read back: the shared codes, operand fields, guards, hints, and the fields of a
word of each format. -/

namespace Sys2Proof

/-! ## Bits of concatenations -/

/-- A field above the last part. -/
theorem high_append {n m : Nat} (x : BitVec n) (y : BitVec m) (k l : Nat) (h : m ≤ k) :
    (x ++ y).extractLsb' k l = x.extractLsb' (k - m) l := by
  ext i hi
  simp only [BitVec.getElem_extractLsb', BitVec.getLsbD_append]
  rw [if_neg (by omega), show k + i - m = k - m + i by omega]

/-- A field within the last part. -/
theorem low_append {n m : Nat} (x : BitVec n) (y : BitVec m) (k l : Nat) (h : k + l ≤ m) :
    (x ++ y).extractLsb' k l = y.extractLsb' k l := by
  ext i h
  simp only [BitVec.getElem_extractLsb', BitVec.getLsbD_append]
  rw [if_pos (by omega)]

/-- The whole of a vector as a field. -/
theorem extract_self {n : Nat} (x : BitVec n) : x.extractLsb' 0 n = x := by
  ext i hi
  simp

/-- A bit above the last part. -/
theorem bit_high {n m : Nat} (x : BitVec n) (y : BitVec m) (k : Nat) (h : m ≤ k) :
    (x ++ y).getLsbD k = x.getLsbD (k - m) := by
  rw [BitVec.getLsbD_append, if_neg (by omega)]

/-- A bit within the last part. -/
theorem bit_low {n m : Nat} (x : BitVec n) (y : BitVec m) (k : Nat) (h : k < m) :
    (x ++ y).getLsbD k = y.getLsbD k := by
  rw [BitVec.getLsbD_append, if_pos (by omega)]

theorem bit1_getLsbD (b : Bool) : (bit1 b).getLsbD 0 = b := by cases b <;> rfl

/-! ## Shared codes -/

@[simp] theorem IType.ofCode_code (t : IType) : IType.ofCode t.code = t := by cases t <;> rfl
@[simp] theorem FType.ofCode_code (t : FType) : FType.ofCode t.code = t := by cases t <;> rfl
@[simp] theorem Rnd.ofCode_code (t : Rnd) : Rnd.ofCode t.code = some t := by cases t <;> rfl
@[simp] theorem AWidth.ofCode_code (t : AWidth) : AWidth.ofCode t.code = some t := by cases t <;> rfl
@[simp] theorem CHint.ofCode_code (t : CHint) : CHint.ofCode t.code = some t := by cases t <;> rfl
@[simp] theorem Scope.ofCode_code (t : Scope) : Scope.ofCode t.code = some t := by cases t <;> rfl
@[simp] theorem Cond.ofCode_code (t : Cond) : Cond.ofCode t.code = t := by cases t <;> rfl
@[simp] theorem Path.ofCode_code (t : Path) : Path.ofCode t.code = some t := by cases t <;> rfl
@[simp] theorem ShMode.ofCode_code (t : ShMode) : ShMode.ofCode t.code = t := by cases t <;> rfl
@[simp] theorem VoteMode.ofCode_code (t : VoteMode) : VoteMode.ofCode t.code = t := by cases t <;> rfl
@[simp] theorem RedOp.ofCode_code (t : RedOp) : RedOp.ofCode t.code = .ok t := by cases t <;> rfl
@[simp] theorem RedType.ofCode_code (t : RedType) : RedType.ofCode t.code = .ok t := by
  cases t with
  | int t => cases t <;> rfl
  | _ => rfl
@[simp] theorem AtomOp.ofCode_code (t : AtomOp) : AtomOp.ofCode t.code = .ok t := by cases t <;> rfl
@[simp] theorem AtomTy.ofCodes_codes (t : AtomTy) : AtomTy.ofCodes t.wcode t.kind = .ok t := by cases t <;> rfl
@[simp] theorem ColCnt.ofCode_code (t : ColCnt) : ColCnt.ofCode t.code = .ok t := by cases t <;> rfl
@[simp] theorem RqFld.ofCode_code (t : RqFld) : RqFld.ofCode t.code = .ok t := by cases t <;> rfl
@[simp] theorem TrdFld.ofCode_code (t : TrdFld) : TrdFld.ofCode t.code = .ok t := by cases t <;> rfl
@[simp] theorem Hop.ofCode_code (t : Hop) : Hop.ofCode t.code = .ok t := by cases t <;> rfl

/-! ## Operand fields (R12, R20, R31) -/

/-- Every operand but a code that another form has reads back from its field. -/
theorem Opd.ofField_field (o : Opd) (h : o.wf = true) : Opd.ofField o.field = o := by
  cases o with
  | vec n => simp (disch := omega) only [Opd.ofField, Opd.field, high_append, low_append, extract_self, Nat.reduceSub]; rfl
  | ind x b => simp (disch := omega) only [Opd.ofField, Opd.field, high_append, low_append, extract_self, Nat.reduceSub]; rfl
  | scl n => simp (disch := omega) only [Opd.ofField, Opd.field, high_append, low_append, bit_high, extract_self, Nat.reduceSub]; rfl
  | imm i => simp (disch := omega) only [Opd.ofField, Opd.field, high_append, low_append, extract_self, Nat.reduceSub]; rfl
  | idx n => revert n; decide
  | hnd n => revert n; decide
  | prd n => revert n; decide
  | til n => revert n; decide
  | spc n => revert n; decide
  | rsv c =>
    have hc : Opd.ofCode c = .rsv c := by
      simp only [Opd.wf, codeDefined, Bool.not_eq_true', Bool.or_eq_false_iff, Bool.and_eq_false_iff, decide_eq_false_iff_not] at h
      unfold Opd.ofCode
      dsimp only
      rw [if_neg (by omega), if_neg (by omega), dif_neg (by omega), dif_neg (by omega), dif_neg (by omega)]
    simp (disch := omega) only [Opd.ofField, Opd.field, high_append, low_append, bit_high, extract_self, Nat.reduceSub]
    exact hc

/-! ## Guards, hints and words -/

theorem Hints.ofBits_bits (h : Hints) : Hints.ofBits h.bits = h := by
  simp (disch := omega) only [Hints.ofBits, Hints.bits, high_append, low_append, bit_high, bit_low, Nat.reduceSub, extract_self,
    bit1_getLsbD]

theorem Guard.ofBits_bits (g : Guard) : Guard.ofBits g.bits = some g := by
  obtain ⟨n, p⟩ := g
  have hp := p.isLt
  simp (disch := omega) only [Guard.ofBits, Guard.bits, low_append, bit_high, Nat.reduceSub, extract_self, bit1_getLsbD]
  rw [dif_pos (by simp [Nat.mod_eq_of_lt (show p.val < 64 by omega)])]
  simp [Nat.mod_eq_of_lt (show p.val < 64 by omega)]

/-- The fields of a word of format S or L read back. -/
theorem Raw.ofWord_toWord (r : Raw) : Raw.ofWord r.toWord = r := by
  simp (disch := omega) only [Raw.ofWord, Raw.toWord, high_append, low_append, Nat.reduceSub, extract_self]

/-- A half-operation reads back from its 40 bits. -/
theorem Half.ofBits_bits (h : Half) : Half.ofBits h.bits = .ok h := by
  simp (disch := omega) only [Half.ofBits, Half.bits, high_append, low_append, bit_high, bit_low, Nat.reduceSub, extract_self,
    bit1_getLsbD, Hop.ofCode_code]
  rfl

/-- A word of format S or L decodes to what its class's entry builds, if that instruction is well-formed. -/
theorem decodeWord_toWord {r : Raw} {h : Hdr} {i : Instr} (hg : r.g = h.g.bits) (ht : r.ht = h.ht.bits) (hc : r.cls ≠ 11#4)
    (hb : build h r = .ok (i, true)) (hm : i.modsOk = true) (ho : i.operandsOk = true) : decodeWord r.toWord = .ok i := by
  have hcls : r.toWord.extractLsb' 92 4 = r.cls := congrArg Raw.cls (Raw.ofWord_toWord r)
  have hz : (h.ht.bits.extractLsb' 0 2 == 0#2) = true := by
    simp (disch := omega) only [Hints.bits, low_append, extract_self]
    rfl
  unfold decodeWord
  rw [hcls, if_neg hc, Raw.ofWord_toWord]
  dsimp only
  rw [hg, ht, Guard.ofBits_bits, Hints.ofBits_bits]
  dsimp only
  rw [show (Hdr.mk h.g h.ht) = h from rfl, hb]
  dsimp only
  rw [hm, ho]
  simp [hz]

/-! The entry of each class builds its words. -/

theorem build_class0 (h : Hdr) {r : Raw} (e : r.cls = 0) : build h r = build0 h r := by
  unfold build; rw [e]; rfl
theorem build_class1 (h : Hdr) {r : Raw} (e : r.cls = 1) : build h r = build1 h r := by
  unfold build; rw [e]; rfl
theorem build_class2 (h : Hdr) {r : Raw} (e : r.cls = 2) : build h r = build2 h r := by
  unfold build; rw [e]; rfl
theorem build_class3 (h : Hdr) {r : Raw} (e : r.cls = 3) : build h r = build3 h r := by
  unfold build; rw [e]; rfl
theorem build_class4 (h : Hdr) {r : Raw} (e : r.cls = 4) : build h r = build4 h r := by
  unfold build; rw [e]; rfl
theorem build_class5 (h : Hdr) {r : Raw} (e : r.cls = 5) : build h r = build5 h r := by
  unfold build; rw [e]; rfl
theorem build_class6 (h : Hdr) {r : Raw} (e : r.cls = 6) : build h r = build6 h r := by
  unfold build; rw [e]; rfl
theorem build_class7 (h : Hdr) {r : Raw} (e : r.cls = 7) : build h r = build7 h r := by
  unfold build; rw [e]; rfl
theorem build_class8 (h : Hdr) {r : Raw} (e : r.cls = 8) : build h r = build8 h r := by
  unfold build; rw [e]; rfl
theorem build_class9 (h : Hdr) {r : Raw} (e : r.cls = 9) : build h r = build9 h r := by
  unfold build; rw [e]; rfl
theorem build_class10 (h : Hdr) {r : Raw} (e : r.cls = 10) : build h r = build10 h r := by
  unfold build; rw [e]; rfl

end Sys2Proof
end

