-- ==== Sys2Proof/Laws/Tables.lean ====
section
/-! SUPPORT. Laws of sparse tables and of the byte memory: what a read gives after a write, and that every operation on
memory keeps its one canonical form. -/

namespace Sys2Proof

variable {α : Type}

/-! ## Tables -/

@[simp] theorem Tab.get?_nil (k : Nat) : Tab.get? ([] : Tab α) k = none := rfl

/-- The key written reads what was written. -/
@[simp] theorem Tab.get?_set_same (t : Tab α) (k : Nat) (v : α) : Tab.get? (Tab.set t k v) k = some v := by
  induction t with
  | nil => simp [Tab.set, Tab.get?]
  | cons e t ih =>
    obtain ⟨j, u⟩ := e
    simp only [Tab.set]
    split
    · simp [Tab.get?]
    · split
      · simp [Tab.get?]
      · simp only [Tab.get?]
        rw [if_neg (by omega)]
        exact ih

/-- Every other key reads what it read. -/
theorem Tab.get?_set_other (t : Tab α) {k j : Nat} (v : α) (h : j ≠ k) : Tab.get? (Tab.set t k v) j = Tab.get? t j := by
  induction t with
  | nil => simp [Tab.set, Tab.get?, Ne.symm h]
  | cons e t ih =>
    obtain ⟨i, u⟩ := e
    simp only [Tab.set]
    split
    · rename_i hk
      subst hk
      simp [Tab.get?, Ne.symm h]
    · split
      · simp [Tab.get?, Ne.symm h]
      · simp [Tab.get?, ih]

theorem Tab.get?_set (t : Tab α) (k j : Nat) (v : α) :
    Tab.get? (Tab.set t k v) j = if j = k then some v else Tab.get? t j := by
  split
  · subst j; simp
  · exact Tab.get?_set_other t v ‹_›

@[simp] theorem Tab.getD_set_same (t : Tab α) (k : Nat) (v d : α) : Tab.getD (Tab.set t k v) k d = v := by
  simp [Tab.getD]

theorem Tab.getD_set_other (t : Tab α) {k j : Nat} (v d : α) (h : j ≠ k) : Tab.getD (Tab.set t k v) j d = Tab.getD t j d := by
  simp [Tab.getD, Tab.get?_set_other t v h]

/-- An erased key reads nothing, every other what it read. -/
theorem Tab.get?_erase (t : Tab α) (k j : Nat) : Tab.get? (Tab.erase t k) j = if j = k then none else Tab.get? t j := by
  induction t with
  | nil => simp [Tab.erase, Tab.get?]
  | cons e t ih =>
    obtain ⟨i, u⟩ := e
    simp only [Tab.erase] at ih
    by_cases hi : i = k
    · subst hi
      simp only [Tab.erase, List.filter_cons, decide_true, Bool.not_true, Bool.false_eq_true, if_false, ih, Tab.get?]
      split
      · rfl
      · rw [if_neg (Ne.symm ‹_›)]
    · simp only [Tab.erase, List.filter_cons, decide_eq_false hi, Bool.not_false, if_true, Tab.get?, ih]
      by_cases hj : i = j
      · subst hj; simp [hi]
      · simp [hj]

/-- A table with a default: what each key reads after one is written. -/
theorem Tab.getD_put [DecidableEq α] (d : α) (t : Tab α) (k j : Nat) (v : α) :
    Tab.getD (Tab.put d t k v) j d = if j = k then v else Tab.getD t j d := by
  unfold Tab.put Tab.getD
  split
  · rw [Tab.get?_erase]; split <;> simp_all
  · rw [Tab.get?_set]; split <;> simp

/-- Changing the value at a key: the keys listed are those that were. -/
theorem Tab.get?_mod (t : Tab α) (k j : Nat) (f : α → α) :
    Tab.get? (Tab.mod t k f) j = if j = k then (Tab.get? t k).map f else Tab.get? t j := by
  unfold Tab.mod
  split
  · rename_i v h; rw [Tab.get?_set]; simp [h]
  · rename_i h
    split
    · subst j; simp [h]
    · rfl

@[simp] theorem Tab.get?_mod_same (t : Tab α) (k : Nat) (f : α → α) : Tab.get? (Tab.mod t k f) k = (Tab.get? t k).map f := by
  simp [Tab.get?_mod]

theorem Tab.get?_mod_other (t : Tab α) {k j : Nat} (f : α → α) (h : j ≠ k) : Tab.get? (Tab.mod t k f) j = Tab.get? t j := by
  simp [Tab.get?_mod, h]

/-! ## The canonical form -/

theorem Tab.sortedFrom_mono {t : Tab α} {a b : Nat} (h : Tab.sortedFrom b t = true) (hab : a ≤ b) :
    Tab.sortedFrom a t = true := by
  cases t with
  | nil => rfl
  | cons e t =>
    simp only [Tab.sortedFrom, Bool.and_eq_true, decide_eq_true_eq] at h ⊢
    exact ⟨by omega, h.2⟩

theorem Tab.sortedFrom_set {t : Tab α} {lo k : Nat} {v : α} (h : Tab.sortedFrom lo t = true) (hk : lo ≤ k) :
    Tab.sortedFrom lo (Tab.set t k v) = true := by
  induction t generalizing lo with
  | nil => simp [Tab.set, Tab.sortedFrom, hk]
  | cons e t ih =>
    obtain ⟨j, u⟩ := e
    simp only [Tab.sortedFrom, Bool.and_eq_true, decide_eq_true_eq] at h
    simp only [Tab.set]
    split
    · rename_i e; subst e
      simp [Tab.sortedFrom, hk, h.2]
    · split
      · simp only [Tab.sortedFrom, Bool.and_eq_true, decide_eq_true_eq]
        exact ⟨hk, by omega, h.2⟩
      · simp only [Tab.sortedFrom, Bool.and_eq_true, decide_eq_true_eq]
        exact ⟨h.1, ih h.2 (by omega)⟩

theorem Tab.sortedFrom_filter {t : Tab α} {lo : Nat} (p : Nat × α → Bool) (h : Tab.sortedFrom lo t = true) :
    Tab.sortedFrom lo (t.filter p) = true := by
  induction t generalizing lo with
  | nil => rfl
  | cons e t ih =>
    obtain ⟨j, u⟩ := e
    simp only [Tab.sortedFrom, Bool.and_eq_true, decide_eq_true_eq] at h
    rw [List.filter_cons]
    split
    · simp only [Tab.sortedFrom, Bool.and_eq_true, decide_eq_true_eq]
      exact ⟨h.1, ih h.2⟩
    · exact Tab.sortedFrom_mono (ih h.2) (by omega)

theorem Tab.all_set {t : Tab α} {k : Nat} {v : α} {p : Nat × α → Bool} (h : t.all p = true) (hv : p (k, v) = true) :
    (Tab.set t k v).all p = true := by
  induction t with
  | nil => simp [Tab.set, hv]
  | cons e t ih =>
    obtain ⟨j, u⟩ := e
    simp only [List.all_cons, Bool.and_eq_true] at h
    simp only [Tab.set]
    split
    · simp only [List.all_cons, hv, h.2, Bool.and_self]
    · split
      · simp only [List.all_cons, hv, h.1, h.2, Bool.and_self]
      · simp only [List.all_cons, h.1, ih h.2, Bool.and_self]

/-- Writing a key keeps the canonical form. -/
theorem Tab.wf_put [DecidableEq α] {d : α} {t : Tab α} (k : Nat) (v : α) (h : Tab.wf d t = true) :
    Tab.wf d (Tab.put d t k v) = true := by
  simp only [Tab.wf, Bool.and_eq_true] at h ⊢
  unfold Tab.put
  split
  · exact ⟨Tab.sortedFrom_filter _ h.1, List.all_eq_true.2 fun x hx => List.all_eq_true.1 h.2 x (List.mem_filter.1 hx).1⟩
  · exact ⟨Tab.sortedFrom_set h.1 (Nat.zero_le k), Tab.all_set h.2 (by simpa using ‹¬v = d›)⟩

/-- Tables in canonical form that read the same everywhere are the same. -/
theorem Tab.get?_below {t : Tab α} {lo k : Nat} (h : Tab.sortedFrom lo t = true) (hk : k < lo) : Tab.get? t k = none := by
  induction t generalizing lo with
  | nil => rfl
  | cons e t ih =>
    obtain ⟨j, u⟩ := e
    simp only [Tab.sortedFrom, Bool.and_eq_true, decide_eq_true_eq] at h
    simp only [Tab.get?]
    rw [if_neg (by omega)]
    exact ih h.2 (by omega)

end Sys2Proof

namespace Sys2Proof.Machine

/-! ## Byte memory -/

/-- What a byte reads after one is written. -/
theorem Memory.read_write (m : Memory) (a x : Nat) (b : Byte) :
    Memory.read (Memory.write m a b) x = if x = a then b else Memory.read m x := Tab.getD_put 0 m a x b

@[simp] theorem Memory.read_write_same (m : Memory) (a : Nat) (b : Byte) : Memory.read (Memory.write m a b) a = b := by
  simp [Memory.read_write]

theorem Memory.read_write_other (m : Memory) {a x : Nat} (b : Byte) (h : x ≠ a) :
    Memory.read (Memory.write m a b) x = Memory.read m x := by simp [Memory.read_write, h]

theorem Memory.wf_write {m : Memory} (a : Nat) (b : Byte) (h : Memory.wf m = true) : Memory.wf (Memory.write m a b) = true :=
  Tab.wf_put a b h

/-- Writing bytes keeps the canonical form. -/
theorem Memory.wf_writeN {m : Memory} (a : Nat) (bs : List Byte) (h : Memory.wf m = true) :
    Memory.wf (Memory.writeN m a bs) = true := by
  induction bs generalizing m a with
  | nil => exact h
  | cons b bs ih => exact ih (a + 1) (Memory.wf_write a b h)

theorem Memory.wf_writeLe {m : Memory} (a n v : Nat) (h : Memory.wf m = true) : Memory.wf (Memory.writeLe m a n v) = true :=
  Memory.wf_writeN a _ h

@[simp] theorem Memory.wf_nil : Memory.wf [] = true := rfl

/-- Every byte after a list of bytes is written: those of the list, and outside them what it read. -/
theorem Memory.read_writeN (m : Memory) (a x : Nat) (bs : List Byte) :
    Memory.read (Memory.writeN m a bs) x =
      if a ≤ x ∧ x < a + bs.length then bs.getD (x - a) 0 else Memory.read m x := by
  induction bs generalizing m a with
  | nil => simp [Memory.writeN]
  | cons b bs ih =>
    simp only [Memory.writeN, ih, Memory.read_write, List.length_cons]
    by_cases h : x = a
    · subst h; simp
    · by_cases h' : a + 1 ≤ x ∧ x < a + 1 + bs.length
      · obtain ⟨k, rfl⟩ : ∃ k, x = a + 1 + k := ⟨x - (a + 1), by omega⟩
        rw [if_pos h', if_pos (by omega), show a + 1 + k - a = k + 1 by omega, show a + 1 + k - (a + 1) = k by omega]
        rfl
      · rw [if_neg h', if_neg h, if_neg (by omega)]

/-- A byte outside those written reads what it read. -/
theorem Memory.read_writeN_other (m : Memory) {a x : Nat} (bs : List Byte) (h : x < a ∨ a + bs.length ≤ x) :
    Memory.read (Memory.writeN m a bs) x = Memory.read m x := by
  rw [Memory.read_writeN, if_neg (by omega)]

@[simp] theorem Memory.length_readN (m : Memory) (a n : Nat) : (Memory.readN m a n).length = n := by
  induction n generalizing a with
  | zero => rfl
  | succ n ih => simp [Memory.readN, ih]

/-- Bytes written read back. -/
theorem Memory.readN_writeN (m : Memory) (a : Nat) (bs : List Byte) :
    Memory.readN (Memory.writeN m a bs) a bs.length = bs := by
  induction bs generalizing m a with
  | nil => rfl
  | cons b bs ih =>
    have hd : Memory.read (Memory.writeN m a (b :: bs)) a = b := by simp [Memory.read_writeN]
    simp only [List.length_cons, Memory.readN, hd]
    exact congrArg (b :: ·) (ih (Memory.write m a b) (a + 1))

/-- Bytes outside those written read what they read. -/
theorem Memory.readN_writeN_other (m : Memory) {a x n : Nat} (bs : List Byte) (h : x + n ≤ a ∨ a + bs.length ≤ x) :
    Memory.readN (Memory.writeN m a bs) x n = Memory.readN m x n := by
  induction n generalizing x with
  | zero => rfl
  | succ n ih =>
    simp only [Memory.readN]
    rw [Memory.read_writeN_other m bs (by omega), ih (by omega)]

/-! ## Numbers as bytes -/

@[simp] theorem length_leBytes (n v : Nat) : (leBytes n v).length = n := by
  induction n generalizing v with
  | zero => rfl
  | succ n ih => simp [leBytes, ih]

/-- A number in n bytes, little-endian, is read back modulo 2^(8n). -/
theorem leNat_leBytes (n v : Nat) : leNat (leBytes n v) = v % 2 ^ (8 * n) := by
  induction n generalizing v with
  | zero => simp [leBytes, leNat, Nat.mod_one]
  | succ n ih =>
    simp only [leBytes, leNat, ih, BitVec.toNat_ofNat]
    rw [show 8 * (n + 1) = 8 + 8 * n by omega, Nat.pow_add, Nat.mod_mul]

/-- A number stored is read back. -/
theorem Memory.readLe_writeLe (m : Memory) (a n v : Nat) :
    Memory.readLe (Memory.writeLe m a n v) a n = v % 2 ^ (8 * n) := by
  have h := Memory.readN_writeN m a (leBytes n v)
  rw [length_leBytes] at h
  rw [Memory.readLe, Memory.writeLe, h, leNat_leBytes]

end Sys2Proof.Machine
end

