-- ==== Sys2Proof/Laws/State.lean ====
section
/-! SUPPORT. What each field of the state, of a core, of a team and of a thread holds after each named update: one lemma
for each field and update, and what the parts that are reached into hold. -/

namespace Sys2Proof.Machine

/-! ## State.setCore -/

@[simp] theorem State.setCore_mem (s : State) (c : Nat) (k : Core) : (s.setCore c k).mem = s.mem := rfl
@[simp] theorem State.setCore_late (s : State) (c : Nat) (k : Core) : (s.setCore c k).late = s.late := rfl
@[simp] theorem State.setCore_poison (s : State) (c : Nat) (k : Core) : (s.setCore c k).poison = s.poison := rfl
@[simp] theorem State.setCore_dies (s : State) (c : Nat) (k : Core) : (s.setCore c k).dies = s.dies := rfl
@[simp] theorem State.setCore_ctlb (s : State) (c : Nat) (k : Core) : (s.setCore c k).ctlb = s.ctlb := rfl
@[simp] theorem State.setCore_l2 (s : State) (c : Nat) (k : Core) : (s.setCore c k).l2 = s.l2 := rfl
@[simp] theorem State.setCore_cxl (s : State) (c : Nat) (k : Core) : (s.setCore c k).cxl = s.cxl := rfl
@[simp] theorem State.setCore_ctxs (s : State) (c : Nat) (k : Core) : (s.setCore c k).ctxs = s.ctxs := rfl
@[simp] theorem State.setCore_grids (s : State) (c : Nat) (k : Core) : (s.setCore c k).grids = s.grids := rfl
@[simp] theorem State.setCore_replays (s : State) (c : Nat) (k : Core) : (s.setCore c k).replays = s.replays := rfl
@[simp] theorem State.setCore_scFences (s : State) (c : Nat) (k : Core) : (s.setCore c k).scFences = s.scFences := rfl
@[simp] theorem State.setCore_ctxtab (s : State) (c : Nat) (k : Core) : (s.setCore c k).ctxtab = s.ctxtab := rfl
@[simp] theorem State.setCore_units (s : State) (c : Nat) (k : Core) : (s.setCore c k).units = s.units := rfl
@[simp] theorem State.setCore_ports (s : State) (c : Nat) (k : Core) : (s.setCore c k).ports = s.ports := rfl
@[simp] theorem State.setCore_stks (s : State) (c : Nat) (k : Core) : (s.setCore c k).stks = s.stks := rfl
@[simp] theorem State.setCore_host (s : State) (c : Nat) (k : Core) : (s.setCore c k).host = s.host := rfl
@[simp] theorem State.setCore_cur (s : State) (c : Nat) (k : Core) : (s.setCore c k).cur = s.cur := rfl
@[simp] theorem State.setCore_agenda (s : State) (c : Nat) (k : Core) : (s.setCore c k).agenda = s.agenda := rfl
@[simp] theorem State.setCore_picks (s : State) (c : Nat) (k : Core) : (s.setCore c k).picks = s.picks := rfl
@[simp] theorem State.setCore_free (s : State) (c : Nat) (k : Core) : (s.setCore c k).free = s.free := rfl
@[simp] theorem State.setCore_uid (s : State) (c : Nat) (k : Core) : (s.setCore c k).uid = s.uid := rfl
@[simp] theorem State.setCore_wid (s : State) (c : Nat) (k : Core) : (s.setCore c k).wid = s.wid := rfl
@[simp] theorem State.setCore_hseq (s : State) (c : Nat) (k : Core) : (s.setCore c k).hseq = s.hseq := rfl

/-! ## State.modCore -/

@[simp] theorem State.modCore_mem (s : State) (c : Nat) (f : Core → Core) : (s.modCore c f).mem = s.mem := rfl
@[simp] theorem State.modCore_late (s : State) (c : Nat) (f : Core → Core) : (s.modCore c f).late = s.late := rfl
@[simp] theorem State.modCore_poison (s : State) (c : Nat) (f : Core → Core) : (s.modCore c f).poison = s.poison := rfl
@[simp] theorem State.modCore_dies (s : State) (c : Nat) (f : Core → Core) : (s.modCore c f).dies = s.dies := rfl
@[simp] theorem State.modCore_ctlb (s : State) (c : Nat) (f : Core → Core) : (s.modCore c f).ctlb = s.ctlb := rfl
@[simp] theorem State.modCore_l2 (s : State) (c : Nat) (f : Core → Core) : (s.modCore c f).l2 = s.l2 := rfl
@[simp] theorem State.modCore_cxl (s : State) (c : Nat) (f : Core → Core) : (s.modCore c f).cxl = s.cxl := rfl
@[simp] theorem State.modCore_ctxs (s : State) (c : Nat) (f : Core → Core) : (s.modCore c f).ctxs = s.ctxs := rfl
@[simp] theorem State.modCore_grids (s : State) (c : Nat) (f : Core → Core) : (s.modCore c f).grids = s.grids := rfl
@[simp] theorem State.modCore_replays (s : State) (c : Nat) (f : Core → Core) : (s.modCore c f).replays = s.replays := rfl
@[simp] theorem State.modCore_scFences (s : State) (c : Nat) (f : Core → Core) : (s.modCore c f).scFences = s.scFences := rfl
@[simp] theorem State.modCore_ctxtab (s : State) (c : Nat) (f : Core → Core) : (s.modCore c f).ctxtab = s.ctxtab := rfl
@[simp] theorem State.modCore_units (s : State) (c : Nat) (f : Core → Core) : (s.modCore c f).units = s.units := rfl
@[simp] theorem State.modCore_ports (s : State) (c : Nat) (f : Core → Core) : (s.modCore c f).ports = s.ports := rfl
@[simp] theorem State.modCore_stks (s : State) (c : Nat) (f : Core → Core) : (s.modCore c f).stks = s.stks := rfl
@[simp] theorem State.modCore_host (s : State) (c : Nat) (f : Core → Core) : (s.modCore c f).host = s.host := rfl
@[simp] theorem State.modCore_cur (s : State) (c : Nat) (f : Core → Core) : (s.modCore c f).cur = s.cur := rfl
@[simp] theorem State.modCore_agenda (s : State) (c : Nat) (f : Core → Core) : (s.modCore c f).agenda = s.agenda := rfl
@[simp] theorem State.modCore_picks (s : State) (c : Nat) (f : Core → Core) : (s.modCore c f).picks = s.picks := rfl
@[simp] theorem State.modCore_free (s : State) (c : Nat) (f : Core → Core) : (s.modCore c f).free = s.free := rfl
@[simp] theorem State.modCore_uid (s : State) (c : Nat) (f : Core → Core) : (s.modCore c f).uid = s.uid := rfl
@[simp] theorem State.modCore_wid (s : State) (c : Nat) (f : Core → Core) : (s.modCore c f).wid = s.wid := rfl
@[simp] theorem State.modCore_hseq (s : State) (c : Nat) (f : Core → Core) : (s.modCore c f).hseq = s.hseq := rfl

/-! ## State.modTeam -/

@[simp] theorem State.modTeam_mem (s : State) (c slot : Nat) (f : Team → Team) : (s.modTeam c slot f).mem = s.mem := rfl
@[simp] theorem State.modTeam_late (s : State) (c slot : Nat) (f : Team → Team) : (s.modTeam c slot f).late = s.late := rfl
@[simp] theorem State.modTeam_poison (s : State) (c slot : Nat) (f : Team → Team) : (s.modTeam c slot f).poison = s.poison := rfl
@[simp] theorem State.modTeam_dies (s : State) (c slot : Nat) (f : Team → Team) : (s.modTeam c slot f).dies = s.dies := rfl
@[simp] theorem State.modTeam_ctlb (s : State) (c slot : Nat) (f : Team → Team) : (s.modTeam c slot f).ctlb = s.ctlb := rfl
@[simp] theorem State.modTeam_l2 (s : State) (c slot : Nat) (f : Team → Team) : (s.modTeam c slot f).l2 = s.l2 := rfl
@[simp] theorem State.modTeam_cxl (s : State) (c slot : Nat) (f : Team → Team) : (s.modTeam c slot f).cxl = s.cxl := rfl
@[simp] theorem State.modTeam_ctxs (s : State) (c slot : Nat) (f : Team → Team) : (s.modTeam c slot f).ctxs = s.ctxs := rfl
@[simp] theorem State.modTeam_grids (s : State) (c slot : Nat) (f : Team → Team) : (s.modTeam c slot f).grids = s.grids := rfl
@[simp] theorem State.modTeam_replays (s : State) (c slot : Nat) (f : Team → Team) : (s.modTeam c slot f).replays = s.replays := rfl
@[simp] theorem State.modTeam_scFences (s : State) (c slot : Nat) (f : Team → Team) : (s.modTeam c slot f).scFences = s.scFences := rfl
@[simp] theorem State.modTeam_ctxtab (s : State) (c slot : Nat) (f : Team → Team) : (s.modTeam c slot f).ctxtab = s.ctxtab := rfl
@[simp] theorem State.modTeam_units (s : State) (c slot : Nat) (f : Team → Team) : (s.modTeam c slot f).units = s.units := rfl
@[simp] theorem State.modTeam_ports (s : State) (c slot : Nat) (f : Team → Team) : (s.modTeam c slot f).ports = s.ports := rfl
@[simp] theorem State.modTeam_stks (s : State) (c slot : Nat) (f : Team → Team) : (s.modTeam c slot f).stks = s.stks := rfl
@[simp] theorem State.modTeam_host (s : State) (c slot : Nat) (f : Team → Team) : (s.modTeam c slot f).host = s.host := rfl
@[simp] theorem State.modTeam_cur (s : State) (c slot : Nat) (f : Team → Team) : (s.modTeam c slot f).cur = s.cur := rfl
@[simp] theorem State.modTeam_agenda (s : State) (c slot : Nat) (f : Team → Team) : (s.modTeam c slot f).agenda = s.agenda := rfl
@[simp] theorem State.modTeam_picks (s : State) (c slot : Nat) (f : Team → Team) : (s.modTeam c slot f).picks = s.picks := rfl
@[simp] theorem State.modTeam_free (s : State) (c slot : Nat) (f : Team → Team) : (s.modTeam c slot f).free = s.free := rfl
@[simp] theorem State.modTeam_uid (s : State) (c slot : Nat) (f : Team → Team) : (s.modTeam c slot f).uid = s.uid := rfl
@[simp] theorem State.modTeam_wid (s : State) (c slot : Nat) (f : Team → Team) : (s.modTeam c slot f).wid = s.wid := rfl
@[simp] theorem State.modTeam_hseq (s : State) (c slot : Nat) (f : Team → Team) : (s.modTeam c slot f).hseq = s.hseq := rfl

/-! ## State.modThread -/

@[simp] theorem State.modThread_mem (s : State) (c slot i : Nat) (f : Thread → Thread) : (s.modThread c slot i f).mem = s.mem := rfl
@[simp] theorem State.modThread_late (s : State) (c slot i : Nat) (f : Thread → Thread) : (s.modThread c slot i f).late = s.late := rfl
@[simp] theorem State.modThread_poison (s : State) (c slot i : Nat) (f : Thread → Thread) : (s.modThread c slot i f).poison = s.poison := rfl
@[simp] theorem State.modThread_dies (s : State) (c slot i : Nat) (f : Thread → Thread) : (s.modThread c slot i f).dies = s.dies := rfl
@[simp] theorem State.modThread_ctlb (s : State) (c slot i : Nat) (f : Thread → Thread) : (s.modThread c slot i f).ctlb = s.ctlb := rfl
@[simp] theorem State.modThread_l2 (s : State) (c slot i : Nat) (f : Thread → Thread) : (s.modThread c slot i f).l2 = s.l2 := rfl
@[simp] theorem State.modThread_cxl (s : State) (c slot i : Nat) (f : Thread → Thread) : (s.modThread c slot i f).cxl = s.cxl := rfl
@[simp] theorem State.modThread_ctxs (s : State) (c slot i : Nat) (f : Thread → Thread) : (s.modThread c slot i f).ctxs = s.ctxs := rfl
@[simp] theorem State.modThread_grids (s : State) (c slot i : Nat) (f : Thread → Thread) : (s.modThread c slot i f).grids = s.grids := rfl
@[simp] theorem State.modThread_replays (s : State) (c slot i : Nat) (f : Thread → Thread) : (s.modThread c slot i f).replays = s.replays := rfl
@[simp] theorem State.modThread_scFences (s : State) (c slot i : Nat) (f : Thread → Thread) : (s.modThread c slot i f).scFences = s.scFences := rfl
@[simp] theorem State.modThread_ctxtab (s : State) (c slot i : Nat) (f : Thread → Thread) : (s.modThread c slot i f).ctxtab = s.ctxtab := rfl
@[simp] theorem State.modThread_units (s : State) (c slot i : Nat) (f : Thread → Thread) : (s.modThread c slot i f).units = s.units := rfl
@[simp] theorem State.modThread_ports (s : State) (c slot i : Nat) (f : Thread → Thread) : (s.modThread c slot i f).ports = s.ports := rfl
@[simp] theorem State.modThread_stks (s : State) (c slot i : Nat) (f : Thread → Thread) : (s.modThread c slot i f).stks = s.stks := rfl
@[simp] theorem State.modThread_host (s : State) (c slot i : Nat) (f : Thread → Thread) : (s.modThread c slot i f).host = s.host := rfl
@[simp] theorem State.modThread_cur (s : State) (c slot i : Nat) (f : Thread → Thread) : (s.modThread c slot i f).cur = s.cur := rfl
@[simp] theorem State.modThread_agenda (s : State) (c slot i : Nat) (f : Thread → Thread) : (s.modThread c slot i f).agenda = s.agenda := rfl
@[simp] theorem State.modThread_picks (s : State) (c slot i : Nat) (f : Thread → Thread) : (s.modThread c slot i f).picks = s.picks := rfl
@[simp] theorem State.modThread_free (s : State) (c slot i : Nat) (f : Thread → Thread) : (s.modThread c slot i f).free = s.free := rfl
@[simp] theorem State.modThread_uid (s : State) (c slot i : Nat) (f : Thread → Thread) : (s.modThread c slot i f).uid = s.uid := rfl
@[simp] theorem State.modThread_wid (s : State) (c slot i : Nat) (f : Thread → Thread) : (s.modThread c slot i f).wid = s.wid := rfl
@[simp] theorem State.modThread_hseq (s : State) (c slot i : Nat) (f : Thread → Thread) : (s.modThread c slot i f).hseq = s.hseq := rfl

/-! ## State.modDie -/

@[simp] theorem State.modDie_mem (s : State) (d : Nat) (f : Die → Die) : (s.modDie d f).mem = s.mem := rfl
@[simp] theorem State.modDie_late (s : State) (d : Nat) (f : Die → Die) : (s.modDie d f).late = s.late := rfl
@[simp] theorem State.modDie_poison (s : State) (d : Nat) (f : Die → Die) : (s.modDie d f).poison = s.poison := rfl
@[simp] theorem State.modDie_cores (s : State) (d : Nat) (f : Die → Die) : (s.modDie d f).cores = s.cores := rfl
@[simp] theorem State.modDie_ctlb (s : State) (d : Nat) (f : Die → Die) : (s.modDie d f).ctlb = s.ctlb := rfl
@[simp] theorem State.modDie_l2 (s : State) (d : Nat) (f : Die → Die) : (s.modDie d f).l2 = s.l2 := rfl
@[simp] theorem State.modDie_cxl (s : State) (d : Nat) (f : Die → Die) : (s.modDie d f).cxl = s.cxl := rfl
@[simp] theorem State.modDie_ctxs (s : State) (d : Nat) (f : Die → Die) : (s.modDie d f).ctxs = s.ctxs := rfl
@[simp] theorem State.modDie_grids (s : State) (d : Nat) (f : Die → Die) : (s.modDie d f).grids = s.grids := rfl
@[simp] theorem State.modDie_replays (s : State) (d : Nat) (f : Die → Die) : (s.modDie d f).replays = s.replays := rfl
@[simp] theorem State.modDie_scFences (s : State) (d : Nat) (f : Die → Die) : (s.modDie d f).scFences = s.scFences := rfl
@[simp] theorem State.modDie_ctxtab (s : State) (d : Nat) (f : Die → Die) : (s.modDie d f).ctxtab = s.ctxtab := rfl
@[simp] theorem State.modDie_units (s : State) (d : Nat) (f : Die → Die) : (s.modDie d f).units = s.units := rfl
@[simp] theorem State.modDie_ports (s : State) (d : Nat) (f : Die → Die) : (s.modDie d f).ports = s.ports := rfl
@[simp] theorem State.modDie_stks (s : State) (d : Nat) (f : Die → Die) : (s.modDie d f).stks = s.stks := rfl
@[simp] theorem State.modDie_host (s : State) (d : Nat) (f : Die → Die) : (s.modDie d f).host = s.host := rfl
@[simp] theorem State.modDie_cur (s : State) (d : Nat) (f : Die → Die) : (s.modDie d f).cur = s.cur := rfl
@[simp] theorem State.modDie_agenda (s : State) (d : Nat) (f : Die → Die) : (s.modDie d f).agenda = s.agenda := rfl
@[simp] theorem State.modDie_picks (s : State) (d : Nat) (f : Die → Die) : (s.modDie d f).picks = s.picks := rfl
@[simp] theorem State.modDie_free (s : State) (d : Nat) (f : Die → Die) : (s.modDie d f).free = s.free := rfl
@[simp] theorem State.modDie_uid (s : State) (d : Nat) (f : Die → Die) : (s.modDie d f).uid = s.uid := rfl
@[simp] theorem State.modDie_wid (s : State) (d : Nat) (f : Die → Die) : (s.modDie d f).wid = s.wid := rfl
@[simp] theorem State.modDie_hseq (s : State) (d : Nat) (f : Die → Die) : (s.modDie d f).hseq = s.hseq := rfl

/-! ## State.modCtx -/

@[simp] theorem State.modCtx_mem (s : State) (c : Nat) (f : Ctx → Ctx) : (s.modCtx c f).mem = s.mem := rfl
@[simp] theorem State.modCtx_late (s : State) (c : Nat) (f : Ctx → Ctx) : (s.modCtx c f).late = s.late := rfl
@[simp] theorem State.modCtx_poison (s : State) (c : Nat) (f : Ctx → Ctx) : (s.modCtx c f).poison = s.poison := rfl
@[simp] theorem State.modCtx_cores (s : State) (c : Nat) (f : Ctx → Ctx) : (s.modCtx c f).cores = s.cores := rfl
@[simp] theorem State.modCtx_dies (s : State) (c : Nat) (f : Ctx → Ctx) : (s.modCtx c f).dies = s.dies := rfl
@[simp] theorem State.modCtx_ctlb (s : State) (c : Nat) (f : Ctx → Ctx) : (s.modCtx c f).ctlb = s.ctlb := rfl
@[simp] theorem State.modCtx_l2 (s : State) (c : Nat) (f : Ctx → Ctx) : (s.modCtx c f).l2 = s.l2 := rfl
@[simp] theorem State.modCtx_cxl (s : State) (c : Nat) (f : Ctx → Ctx) : (s.modCtx c f).cxl = s.cxl := rfl
@[simp] theorem State.modCtx_grids (s : State) (c : Nat) (f : Ctx → Ctx) : (s.modCtx c f).grids = s.grids := rfl
@[simp] theorem State.modCtx_replays (s : State) (c : Nat) (f : Ctx → Ctx) : (s.modCtx c f).replays = s.replays := rfl
@[simp] theorem State.modCtx_scFences (s : State) (c : Nat) (f : Ctx → Ctx) : (s.modCtx c f).scFences = s.scFences := rfl
@[simp] theorem State.modCtx_ctxtab (s : State) (c : Nat) (f : Ctx → Ctx) : (s.modCtx c f).ctxtab = s.ctxtab := rfl
@[simp] theorem State.modCtx_units (s : State) (c : Nat) (f : Ctx → Ctx) : (s.modCtx c f).units = s.units := rfl
@[simp] theorem State.modCtx_ports (s : State) (c : Nat) (f : Ctx → Ctx) : (s.modCtx c f).ports = s.ports := rfl
@[simp] theorem State.modCtx_stks (s : State) (c : Nat) (f : Ctx → Ctx) : (s.modCtx c f).stks = s.stks := rfl
@[simp] theorem State.modCtx_host (s : State) (c : Nat) (f : Ctx → Ctx) : (s.modCtx c f).host = s.host := rfl
@[simp] theorem State.modCtx_cur (s : State) (c : Nat) (f : Ctx → Ctx) : (s.modCtx c f).cur = s.cur := rfl
@[simp] theorem State.modCtx_agenda (s : State) (c : Nat) (f : Ctx → Ctx) : (s.modCtx c f).agenda = s.agenda := rfl
@[simp] theorem State.modCtx_picks (s : State) (c : Nat) (f : Ctx → Ctx) : (s.modCtx c f).picks = s.picks := rfl
@[simp] theorem State.modCtx_free (s : State) (c : Nat) (f : Ctx → Ctx) : (s.modCtx c f).free = s.free := rfl
@[simp] theorem State.modCtx_uid (s : State) (c : Nat) (f : Ctx → Ctx) : (s.modCtx c f).uid = s.uid := rfl
@[simp] theorem State.modCtx_wid (s : State) (c : Nat) (f : Ctx → Ctx) : (s.modCtx c f).wid = s.wid := rfl
@[simp] theorem State.modCtx_hseq (s : State) (c : Nat) (f : Ctx → Ctx) : (s.modCtx c f).hseq = s.hseq := rfl

/-! ## State.modGrid -/

@[simp] theorem State.modGrid_mem (s : State) (g : Nat) (f : Grid → Grid) : (s.modGrid g f).mem = s.mem := rfl
@[simp] theorem State.modGrid_late (s : State) (g : Nat) (f : Grid → Grid) : (s.modGrid g f).late = s.late := rfl
@[simp] theorem State.modGrid_poison (s : State) (g : Nat) (f : Grid → Grid) : (s.modGrid g f).poison = s.poison := rfl
@[simp] theorem State.modGrid_cores (s : State) (g : Nat) (f : Grid → Grid) : (s.modGrid g f).cores = s.cores := rfl
@[simp] theorem State.modGrid_dies (s : State) (g : Nat) (f : Grid → Grid) : (s.modGrid g f).dies = s.dies := rfl
@[simp] theorem State.modGrid_ctlb (s : State) (g : Nat) (f : Grid → Grid) : (s.modGrid g f).ctlb = s.ctlb := rfl
@[simp] theorem State.modGrid_l2 (s : State) (g : Nat) (f : Grid → Grid) : (s.modGrid g f).l2 = s.l2 := rfl
@[simp] theorem State.modGrid_cxl (s : State) (g : Nat) (f : Grid → Grid) : (s.modGrid g f).cxl = s.cxl := rfl
@[simp] theorem State.modGrid_ctxs (s : State) (g : Nat) (f : Grid → Grid) : (s.modGrid g f).ctxs = s.ctxs := rfl
@[simp] theorem State.modGrid_replays (s : State) (g : Nat) (f : Grid → Grid) : (s.modGrid g f).replays = s.replays := rfl
@[simp] theorem State.modGrid_scFences (s : State) (g : Nat) (f : Grid → Grid) : (s.modGrid g f).scFences = s.scFences := rfl
@[simp] theorem State.modGrid_ctxtab (s : State) (g : Nat) (f : Grid → Grid) : (s.modGrid g f).ctxtab = s.ctxtab := rfl
@[simp] theorem State.modGrid_units (s : State) (g : Nat) (f : Grid → Grid) : (s.modGrid g f).units = s.units := rfl
@[simp] theorem State.modGrid_ports (s : State) (g : Nat) (f : Grid → Grid) : (s.modGrid g f).ports = s.ports := rfl
@[simp] theorem State.modGrid_stks (s : State) (g : Nat) (f : Grid → Grid) : (s.modGrid g f).stks = s.stks := rfl
@[simp] theorem State.modGrid_host (s : State) (g : Nat) (f : Grid → Grid) : (s.modGrid g f).host = s.host := rfl
@[simp] theorem State.modGrid_cur (s : State) (g : Nat) (f : Grid → Grid) : (s.modGrid g f).cur = s.cur := rfl
@[simp] theorem State.modGrid_agenda (s : State) (g : Nat) (f : Grid → Grid) : (s.modGrid g f).agenda = s.agenda := rfl
@[simp] theorem State.modGrid_picks (s : State) (g : Nat) (f : Grid → Grid) : (s.modGrid g f).picks = s.picks := rfl
@[simp] theorem State.modGrid_free (s : State) (g : Nat) (f : Grid → Grid) : (s.modGrid g f).free = s.free := rfl
@[simp] theorem State.modGrid_uid (s : State) (g : Nat) (f : Grid → Grid) : (s.modGrid g f).uid = s.uid := rfl
@[simp] theorem State.modGrid_wid (s : State) (g : Nat) (f : Grid → Grid) : (s.modGrid g f).wid = s.wid := rfl
@[simp] theorem State.modGrid_hseq (s : State) (g : Nat) (f : Grid → Grid) : (s.modGrid g f).hseq = s.hseq := rfl

/-! ## State.draw -/

@[simp] theorem State.draw_mem (s : State) : s.draw.2.mem = s.mem := rfl
@[simp] theorem State.draw_late (s : State) : s.draw.2.late = s.late := rfl
@[simp] theorem State.draw_poison (s : State) : s.draw.2.poison = s.poison := rfl
@[simp] theorem State.draw_cores (s : State) : s.draw.2.cores = s.cores := rfl
@[simp] theorem State.draw_dies (s : State) : s.draw.2.dies = s.dies := rfl
@[simp] theorem State.draw_ctlb (s : State) : s.draw.2.ctlb = s.ctlb := rfl
@[simp] theorem State.draw_l2 (s : State) : s.draw.2.l2 = s.l2 := rfl
@[simp] theorem State.draw_cxl (s : State) : s.draw.2.cxl = s.cxl := rfl
@[simp] theorem State.draw_ctxs (s : State) : s.draw.2.ctxs = s.ctxs := rfl
@[simp] theorem State.draw_grids (s : State) : s.draw.2.grids = s.grids := rfl
@[simp] theorem State.draw_replays (s : State) : s.draw.2.replays = s.replays := rfl
@[simp] theorem State.draw_scFences (s : State) : s.draw.2.scFences = s.scFences := rfl
@[simp] theorem State.draw_ctxtab (s : State) : s.draw.2.ctxtab = s.ctxtab := rfl
@[simp] theorem State.draw_units (s : State) : s.draw.2.units = s.units := rfl
@[simp] theorem State.draw_ports (s : State) : s.draw.2.ports = s.ports := rfl
@[simp] theorem State.draw_stks (s : State) : s.draw.2.stks = s.stks := rfl
@[simp] theorem State.draw_host (s : State) : s.draw.2.host = s.host := rfl
@[simp] theorem State.draw_cur (s : State) : s.draw.2.cur = s.cur := rfl
@[simp] theorem State.draw_agenda (s : State) : s.draw.2.agenda = s.agenda := rfl
@[simp] theorem State.draw_picks (s : State) : s.draw.2.picks = s.picks := rfl
@[simp] theorem State.draw_free (s : State) : s.draw.2.free = s.free + 1 := rfl
@[simp] theorem State.draw_uid (s : State) : s.draw.2.uid = s.uid := rfl
@[simp] theorem State.draw_wid (s : State) : s.draw.2.wid = s.wid := rfl
@[simp] theorem State.draw_hseq (s : State) : s.draw.2.hseq = s.hseq := rfl

/-! ## State.drawBool -/

@[simp] theorem State.drawBool_mem (s : State) : s.drawBool.2.mem = s.mem := rfl
@[simp] theorem State.drawBool_late (s : State) : s.drawBool.2.late = s.late := rfl
@[simp] theorem State.drawBool_poison (s : State) : s.drawBool.2.poison = s.poison := rfl
@[simp] theorem State.drawBool_cores (s : State) : s.drawBool.2.cores = s.cores := rfl
@[simp] theorem State.drawBool_dies (s : State) : s.drawBool.2.dies = s.dies := rfl
@[simp] theorem State.drawBool_ctlb (s : State) : s.drawBool.2.ctlb = s.ctlb := rfl
@[simp] theorem State.drawBool_l2 (s : State) : s.drawBool.2.l2 = s.l2 := rfl
@[simp] theorem State.drawBool_cxl (s : State) : s.drawBool.2.cxl = s.cxl := rfl
@[simp] theorem State.drawBool_ctxs (s : State) : s.drawBool.2.ctxs = s.ctxs := rfl
@[simp] theorem State.drawBool_grids (s : State) : s.drawBool.2.grids = s.grids := rfl
@[simp] theorem State.drawBool_replays (s : State) : s.drawBool.2.replays = s.replays := rfl
@[simp] theorem State.drawBool_scFences (s : State) : s.drawBool.2.scFences = s.scFences := rfl
@[simp] theorem State.drawBool_ctxtab (s : State) : s.drawBool.2.ctxtab = s.ctxtab := rfl
@[simp] theorem State.drawBool_units (s : State) : s.drawBool.2.units = s.units := rfl
@[simp] theorem State.drawBool_ports (s : State) : s.drawBool.2.ports = s.ports := rfl
@[simp] theorem State.drawBool_stks (s : State) : s.drawBool.2.stks = s.stks := rfl
@[simp] theorem State.drawBool_host (s : State) : s.drawBool.2.host = s.host := rfl
@[simp] theorem State.drawBool_cur (s : State) : s.drawBool.2.cur = s.cur := rfl
@[simp] theorem State.drawBool_agenda (s : State) : s.drawBool.2.agenda = s.agenda := rfl
@[simp] theorem State.drawBool_picks (s : State) : s.drawBool.2.picks = s.picks := rfl
@[simp] theorem State.drawBool_free (s : State) : s.drawBool.2.free = s.free + 1 := rfl
@[simp] theorem State.drawBool_uid (s : State) : s.drawBool.2.uid = s.uid := rfl
@[simp] theorem State.drawBool_wid (s : State) : s.drawBool.2.wid = s.wid := rfl
@[simp] theorem State.drawBool_hseq (s : State) : s.drawBool.2.hseq = s.hseq := rfl

/-! ## State.newUid -/

@[simp] theorem State.newUid_mem (s : State) : s.newUid.2.mem = s.mem := rfl
@[simp] theorem State.newUid_late (s : State) : s.newUid.2.late = s.late := rfl
@[simp] theorem State.newUid_poison (s : State) : s.newUid.2.poison = s.poison := rfl
@[simp] theorem State.newUid_cores (s : State) : s.newUid.2.cores = s.cores := rfl
@[simp] theorem State.newUid_dies (s : State) : s.newUid.2.dies = s.dies := rfl
@[simp] theorem State.newUid_ctlb (s : State) : s.newUid.2.ctlb = s.ctlb := rfl
@[simp] theorem State.newUid_l2 (s : State) : s.newUid.2.l2 = s.l2 := rfl
@[simp] theorem State.newUid_cxl (s : State) : s.newUid.2.cxl = s.cxl := rfl
@[simp] theorem State.newUid_ctxs (s : State) : s.newUid.2.ctxs = s.ctxs := rfl
@[simp] theorem State.newUid_grids (s : State) : s.newUid.2.grids = s.grids := rfl
@[simp] theorem State.newUid_replays (s : State) : s.newUid.2.replays = s.replays := rfl
@[simp] theorem State.newUid_scFences (s : State) : s.newUid.2.scFences = s.scFences := rfl
@[simp] theorem State.newUid_ctxtab (s : State) : s.newUid.2.ctxtab = s.ctxtab := rfl
@[simp] theorem State.newUid_units (s : State) : s.newUid.2.units = s.units := rfl
@[simp] theorem State.newUid_ports (s : State) : s.newUid.2.ports = s.ports := rfl
@[simp] theorem State.newUid_stks (s : State) : s.newUid.2.stks = s.stks := rfl
@[simp] theorem State.newUid_host (s : State) : s.newUid.2.host = s.host := rfl
@[simp] theorem State.newUid_cur (s : State) : s.newUid.2.cur = s.cur := rfl
@[simp] theorem State.newUid_agenda (s : State) : s.newUid.2.agenda = s.agenda := rfl
@[simp] theorem State.newUid_picks (s : State) : s.newUid.2.picks = s.picks := rfl
@[simp] theorem State.newUid_free (s : State) : s.newUid.2.free = s.free := rfl
@[simp] theorem State.newUid_uid (s : State) : s.newUid.2.uid = s.uid + 1 := rfl
@[simp] theorem State.newUid_wid (s : State) : s.newUid.2.wid = s.wid := rfl
@[simp] theorem State.newUid_hseq (s : State) : s.newUid.2.hseq = s.hseq := rfl

/-! ## Team.modThread -/

@[simp] theorem Team.modThread_wid (tm : Team) (i : Nat) (f : Thread → Thread) : (tm.modThread i f).wid = tm.wid := rfl
@[simp] theorem Team.modThread_ctx (tm : Team) (i : Nat) (f : Thread → Thread) : (tm.modThread i f).ctx = tm.ctx := rfl
@[simp] theorem Team.modThread_grid (tm : Team) (i : Nat) (f : Thread → Thread) : (tm.modThread i f).grid = tm.grid := rfl
@[simp] theorem Team.modThread_index (tm : Team) (i : Nat) (f : Thread → Thread) : (tm.modThread i f).index = tm.index := rfl
@[simp] theorem Team.modThread_cluster (tm : Team) (i : Nat) (f : Thread → Thread) : (tm.modThread i f).cluster = tm.cluster := rfl
@[simp] theorem Team.modThread_rank (tm : Team) (i : Nat) (f : Thread → Thread) : (tm.modThread i f).rank = tm.rank := rfl
@[simp] theorem Team.modThread_hgroups (tm : Team) (i : Nat) (f : Thread → Thread) : (tm.modThread i f).hgroups = tm.hgroups := rfl
@[simp] theorem Team.modThread_lastn (tm : Team) (i : Nat) (f : Thread → Thread) : (tm.modThread i f).lastn = tm.lastn := rfl
@[simp] theorem Team.modThread_regs (tm : Team) (i : Nat) (f : Thread → Thread) : (tm.modThread i f).regs = tm.regs := rfl
@[simp] theorem Team.modThread_sregs (tm : Team) (i : Nat) (f : Thread → Thread) : (tm.modThread i f).sregs = tm.sregs := rfl
@[simp] theorem Team.modThread_loc (tm : Team) (i : Nat) (f : Thread → Thread) : (tm.modThread i f).loc = tm.loc := rfl
@[simp] theorem Team.modThread_atrap (tm : Team) (i : Nat) (f : Thread → Thread) : (tm.modThread i f).atrap = tm.atrap := rfl
@[simp] theorem Team.modThread_flags (tm : Team) (i : Nat) (f : Thread → Thread) : (tm.modThread i f).flags = tm.flags := rfl
@[simp] theorem Team.modThread_psize (tm : Team) (i : Nat) (f : Thread → Thread) : (tm.modThread i f).psize = tm.psize := rfl
@[simp] theorem Team.modThread_param (tm : Team) (i : Nat) (f : Thread → Thread) : (tm.modThread i f).param = tm.param := rfl
@[simp] theorem Team.modThread_recAddr (tm : Team) (i : Nat) (f : Thread → Thread) : (tm.modThread i f).recAddr = tm.recAddr := rfl
@[simp] theorem Team.modThread_slotw (tm : Team) (i : Nat) (f : Thread → Thread) : (tm.modThread i f).slotw = tm.slotw := rfl
@[simp] theorem Team.modThread_detlvl (tm : Team) (i : Nat) (f : Thread → Thread) : (tm.modThread i f).detlvl = tm.detlvl := rfl
@[simp] theorem Team.modThread_ordinal (tm : Team) (i : Nat) (f : Thread → Thread) : (tm.modThread i f).ordinal = tm.ordinal := rfl
@[simp] theorem Team.modThread_hgs (tm : Team) (i : Nat) (f : Thread → Thread) : (tm.modThread i f).hgs = tm.hgs := rfl
@[simp] theorem Team.modThread_scratch (tm : Team) (i : Nat) (f : Thread → Thread) : (tm.modThread i f).scratch = tm.scratch := rfl
@[simp] theorem Team.modThread_opbuf (tm : Team) (i : Nat) (f : Thread → Thread) : (tm.modThread i f).opbuf = tm.opbuf := rfl
@[simp] theorem Team.modThread_bars (tm : Team) (i : Nat) (f : Thread → Thread) : (tm.modThread i f).bars = tm.bars := rfl
@[simp] theorem Team.modThread_colls (tm : Team) (i : Nat) (f : Thread → Thread) : (tm.modThread i f).colls = tm.colls := rfl
@[simp] theorem Team.modThread_handles (tm : Team) (i : Nat) (f : Thread → Thread) : (tm.modThread i f).handles = tm.handles := rfl
@[simp] theorem Team.modThread_hwaits (tm : Team) (i : Nat) (f : Thread → Thread) : (tm.modThread i f).hwaits = tm.hwaits := rfl
@[simp] theorem Team.modThread_trap (tm : Team) (i : Nat) (f : Thread → Thread) : (tm.modThread i f).trap = tm.trap := rfl
@[simp] theorem Team.modThread_held (tm : Team) (i : Nat) (f : Thread → Thread) : (tm.modThread i f).held = tm.held := rfl
@[simp] theorem Team.modThread_fin (tm : Team) (i : Nat) (f : Thread → Thread) : (tm.modThread i f).fin = tm.fin := rfl
@[simp] theorem Team.modThread_killed (tm : Team) (i : Nat) (f : Thread → Thread) : (tm.modThread i f).killed = tm.killed := rfl
@[simp] theorem Team.modThread_taken (tm : Team) (i : Nat) (f : Thread → Thread) : (tm.modThread i f).taken = tm.taken := rfl
@[simp] theorem Team.modThread_frozen (tm : Team) (i : Nat) (f : Thread → Thread) : (tm.modThread i f).frozen = tm.frozen := rfl
@[simp] theorem Team.modThread_rpoison (tm : Team) (i : Nat) (f : Thread → Thread) : (tm.modThread i f).rpoison = tm.rpoison := rfl
@[simp] theorem Team.modThread_units (tm : Team) (i : Nat) (f : Thread → Thread) : (tm.modThread i f).units = tm.units := rfl

/-! ## Team.modHg -/

@[simp] theorem Team.modHg_wid (tm : Team) (g : Nat) (f : HGroup → HGroup) : (tm.modHg g f).wid = tm.wid := rfl
@[simp] theorem Team.modHg_ctx (tm : Team) (g : Nat) (f : HGroup → HGroup) : (tm.modHg g f).ctx = tm.ctx := rfl
@[simp] theorem Team.modHg_grid (tm : Team) (g : Nat) (f : HGroup → HGroup) : (tm.modHg g f).grid = tm.grid := rfl
@[simp] theorem Team.modHg_index (tm : Team) (g : Nat) (f : HGroup → HGroup) : (tm.modHg g f).index = tm.index := rfl
@[simp] theorem Team.modHg_cluster (tm : Team) (g : Nat) (f : HGroup → HGroup) : (tm.modHg g f).cluster = tm.cluster := rfl
@[simp] theorem Team.modHg_rank (tm : Team) (g : Nat) (f : HGroup → HGroup) : (tm.modHg g f).rank = tm.rank := rfl
@[simp] theorem Team.modHg_hgroups (tm : Team) (g : Nat) (f : HGroup → HGroup) : (tm.modHg g f).hgroups = tm.hgroups := rfl
@[simp] theorem Team.modHg_lastn (tm : Team) (g : Nat) (f : HGroup → HGroup) : (tm.modHg g f).lastn = tm.lastn := rfl
@[simp] theorem Team.modHg_regs (tm : Team) (g : Nat) (f : HGroup → HGroup) : (tm.modHg g f).regs = tm.regs := rfl
@[simp] theorem Team.modHg_sregs (tm : Team) (g : Nat) (f : HGroup → HGroup) : (tm.modHg g f).sregs = tm.sregs := rfl
@[simp] theorem Team.modHg_loc (tm : Team) (g : Nat) (f : HGroup → HGroup) : (tm.modHg g f).loc = tm.loc := rfl
@[simp] theorem Team.modHg_atrap (tm : Team) (g : Nat) (f : HGroup → HGroup) : (tm.modHg g f).atrap = tm.atrap := rfl
@[simp] theorem Team.modHg_flags (tm : Team) (g : Nat) (f : HGroup → HGroup) : (tm.modHg g f).flags = tm.flags := rfl
@[simp] theorem Team.modHg_psize (tm : Team) (g : Nat) (f : HGroup → HGroup) : (tm.modHg g f).psize = tm.psize := rfl
@[simp] theorem Team.modHg_param (tm : Team) (g : Nat) (f : HGroup → HGroup) : (tm.modHg g f).param = tm.param := rfl
@[simp] theorem Team.modHg_recAddr (tm : Team) (g : Nat) (f : HGroup → HGroup) : (tm.modHg g f).recAddr = tm.recAddr := rfl
@[simp] theorem Team.modHg_slotw (tm : Team) (g : Nat) (f : HGroup → HGroup) : (tm.modHg g f).slotw = tm.slotw := rfl
@[simp] theorem Team.modHg_detlvl (tm : Team) (g : Nat) (f : HGroup → HGroup) : (tm.modHg g f).detlvl = tm.detlvl := rfl
@[simp] theorem Team.modHg_ordinal (tm : Team) (g : Nat) (f : HGroup → HGroup) : (tm.modHg g f).ordinal = tm.ordinal := rfl
@[simp] theorem Team.modHg_threads (tm : Team) (g : Nat) (f : HGroup → HGroup) : (tm.modHg g f).threads = tm.threads := rfl
@[simp] theorem Team.modHg_scratch (tm : Team) (g : Nat) (f : HGroup → HGroup) : (tm.modHg g f).scratch = tm.scratch := rfl
@[simp] theorem Team.modHg_opbuf (tm : Team) (g : Nat) (f : HGroup → HGroup) : (tm.modHg g f).opbuf = tm.opbuf := rfl
@[simp] theorem Team.modHg_bars (tm : Team) (g : Nat) (f : HGroup → HGroup) : (tm.modHg g f).bars = tm.bars := rfl
@[simp] theorem Team.modHg_colls (tm : Team) (g : Nat) (f : HGroup → HGroup) : (tm.modHg g f).colls = tm.colls := rfl
@[simp] theorem Team.modHg_handles (tm : Team) (g : Nat) (f : HGroup → HGroup) : (tm.modHg g f).handles = tm.handles := rfl
@[simp] theorem Team.modHg_hwaits (tm : Team) (g : Nat) (f : HGroup → HGroup) : (tm.modHg g f).hwaits = tm.hwaits := rfl
@[simp] theorem Team.modHg_trap (tm : Team) (g : Nat) (f : HGroup → HGroup) : (tm.modHg g f).trap = tm.trap := rfl
@[simp] theorem Team.modHg_held (tm : Team) (g : Nat) (f : HGroup → HGroup) : (tm.modHg g f).held = tm.held := rfl
@[simp] theorem Team.modHg_fin (tm : Team) (g : Nat) (f : HGroup → HGroup) : (tm.modHg g f).fin = tm.fin := rfl
@[simp] theorem Team.modHg_killed (tm : Team) (g : Nat) (f : HGroup → HGroup) : (tm.modHg g f).killed = tm.killed := rfl
@[simp] theorem Team.modHg_taken (tm : Team) (g : Nat) (f : HGroup → HGroup) : (tm.modHg g f).taken = tm.taken := rfl
@[simp] theorem Team.modHg_frozen (tm : Team) (g : Nat) (f : HGroup → HGroup) : (tm.modHg g f).frozen = tm.frozen := rfl
@[simp] theorem Team.modHg_rpoison (tm : Team) (g : Nat) (f : HGroup → HGroup) : (tm.modHg g f).rpoison = tm.rpoison := rfl
@[simp] theorem Team.modHg_units (tm : Team) (g : Nat) (f : HGroup → HGroup) : (tm.modHg g f).units = tm.units := rfl

/-! ## Core.ungroup -/

@[simp] theorem Core.ungroup_cyc (k : Core) (slot : Nat) (ts : List Nat) : (k.ungroup slot ts).cyc = k.cyc := rfl
@[simp] theorem Core.ungroup_wsPhase (k : Core) (slot : Nat) (ts : List Nat) : (k.ungroup slot ts).wsPhase = k.wsPhase := rfl
@[simp] theorem Core.ungroup_ctxidReg (k : Core) (slot : Nat) (ts : List Nat) : (k.ungroup slot ts).ctxidReg = k.ctxidReg := rfl
@[simp] theorem Core.ungroup_ctx (k : Core) (slot : Nat) (ts : List Nat) : (k.ungroup slot ts).ctx = k.ctx := rfl
@[simp] theorem Core.ungroup_bankWr (k : Core) (slot : Nat) (ts : List Nat) : (k.ungroup slot ts).bankWr = k.bankWr := rfl
@[simp] theorem Core.ungroup_bankRole (k : Core) (slot : Nat) (ts : List Nat) : (k.ungroup slot ts).bankRole = k.bankRole := rfl
@[simp] theorem Core.ungroup_teams (k : Core) (slot : Nat) (ts : List Nat) : (k.ungroup slot ts).teams = k.teams := rfl
@[simp] theorem Core.ungroup_issued (k : Core) (slot : Nat) (ts : List Nat) : (k.ungroup slot ts).issued = k.issued := rfl
@[simp] theorem Core.ungroup_tried (k : Core) (slot : Nat) (ts : List Nat) : (k.ungroup slot ts).tried = k.tried := rfl
@[simp] theorem Core.ungroup_drawn (k : Core) (slot : Nat) (ts : List Nat) : (k.ungroup slot ts).drawn = k.drawn := rfl
@[simp] theorem Core.ungroup_aged (k : Core) (slot : Nat) (ts : List Nat) : (k.ungroup slot ts).aged = k.aged := rfl
@[simp] theorem Core.ungroup_hintMiss (k : Core) (slot : Nat) (ts : List Nat) : (k.ungroup slot ts).hintMiss = k.hintMiss := rfl
@[simp] theorem Core.ungroup_ready (k : Core) (slot : Nat) (ts : List Nat) : (k.ungroup slot ts).ready = k.ready := rfl
@[simp] theorem Core.ungroup_pends (k : Core) (slot : Nat) (ts : List Nat) : (k.ungroup slot ts).pends = k.pends := rfl
@[simp] theorem Core.ungroup_storeQ (k : Core) (slot : Nat) (ts : List Nat) : (k.ungroup slot ts).storeQ = k.storeQ := rfl
@[simp] theorem Core.ungroup_fences (k : Core) (slot : Nat) (ts : List Nat) : (k.ungroup slot ts).fences = k.fences := rfl
@[simp] theorem Core.ungroup_l1 (k : Core) (slot : Nat) (ts : List Nat) : (k.ungroup slot ts).l1 = k.l1 := rfl
@[simp] theorem Core.ungroup_roCache (k : Core) (slot : Nat) (ts : List Nat) : (k.ungroup slot ts).roCache = k.roCache := rfl
@[simp] theorem Core.ungroup_tlb (k : Core) (slot : Nat) (ts : List Nat) : (k.ungroup slot ts).tlb = k.tlb := rfl
@[simp] theorem Core.ungroup_eng (k : Core) (slot : Nat) (ts : List Nat) : (k.ungroup slot ts).eng = k.eng := rfl
@[simp] theorem Core.ungroup_srt (k : Core) (slot : Nat) (ts : List Nat) : (k.ungroup slot ts).srt = k.srt := rfl
@[simp] theorem Core.ungroup_sb (k : Core) (slot : Nat) (ts : List Nat) : (k.ungroup slot ts).sb = k.sb := rfl
@[simp] theorem Core.ungroup_spoison (k : Core) (slot : Nat) (ts : List Nat) : (k.ungroup slot ts).spoison = k.spoison := rfl
@[simp] theorem Core.ungroup_cmds (k : Core) (slot : Nat) (ts : List Nat) : (k.ungroup slot ts).cmds = k.cmds := rfl
@[simp] theorem Core.ungroup_watch (k : Core) (slot : Nat) (ts : List Nat) : (k.ungroup slot ts).watch = k.watch := rfl

/-! ## Thread.settle -/

@[simp] theorem Thread.settle_pc (th : Thread) (u : Nat) : (th.settle u).pc = th.pc := rfl
@[simp] theorem Thread.settle_regs (th : Thread) (u : Nat) : (th.settle u).regs = th.regs := rfl
@[simp] theorem Thread.settle_preds (th : Thread) (u : Nat) : (th.settle u).preds = th.preds := rfl
@[simp] theorem Thread.settle_st (th : Thread) (u : Nat) : (th.settle u).st = th.st := rfl
@[simp] theorem Thread.settle_notBefore (th : Thread) (u : Nat) : (th.settle u).notBefore = th.notBefore := rfl
@[simp] theorem Thread.settle_lane (th : Thread) (u : Nat) : (th.settle u).lane = th.lane := rfl

/-! ## Team.settle -/

@[simp] theorem Team.settle_wid (tm : Team) (u : Nat) : (tm.settle u).wid = tm.wid := rfl
@[simp] theorem Team.settle_ctx (tm : Team) (u : Nat) : (tm.settle u).ctx = tm.ctx := rfl
@[simp] theorem Team.settle_grid (tm : Team) (u : Nat) : (tm.settle u).grid = tm.grid := rfl
@[simp] theorem Team.settle_index (tm : Team) (u : Nat) : (tm.settle u).index = tm.index := rfl
@[simp] theorem Team.settle_cluster (tm : Team) (u : Nat) : (tm.settle u).cluster = tm.cluster := rfl
@[simp] theorem Team.settle_rank (tm : Team) (u : Nat) : (tm.settle u).rank = tm.rank := rfl
@[simp] theorem Team.settle_hgroups (tm : Team) (u : Nat) : (tm.settle u).hgroups = tm.hgroups := rfl
@[simp] theorem Team.settle_lastn (tm : Team) (u : Nat) : (tm.settle u).lastn = tm.lastn := rfl
@[simp] theorem Team.settle_regs (tm : Team) (u : Nat) : (tm.settle u).regs = tm.regs := rfl
@[simp] theorem Team.settle_sregs (tm : Team) (u : Nat) : (tm.settle u).sregs = tm.sregs := rfl
@[simp] theorem Team.settle_loc (tm : Team) (u : Nat) : (tm.settle u).loc = tm.loc := rfl
@[simp] theorem Team.settle_atrap (tm : Team) (u : Nat) : (tm.settle u).atrap = tm.atrap := rfl
@[simp] theorem Team.settle_flags (tm : Team) (u : Nat) : (tm.settle u).flags = tm.flags := rfl
@[simp] theorem Team.settle_psize (tm : Team) (u : Nat) : (tm.settle u).psize = tm.psize := rfl
@[simp] theorem Team.settle_param (tm : Team) (u : Nat) : (tm.settle u).param = tm.param := rfl
@[simp] theorem Team.settle_recAddr (tm : Team) (u : Nat) : (tm.settle u).recAddr = tm.recAddr := rfl
@[simp] theorem Team.settle_slotw (tm : Team) (u : Nat) : (tm.settle u).slotw = tm.slotw := rfl
@[simp] theorem Team.settle_detlvl (tm : Team) (u : Nat) : (tm.settle u).detlvl = tm.detlvl := rfl
@[simp] theorem Team.settle_ordinal (tm : Team) (u : Nat) : (tm.settle u).ordinal = tm.ordinal := rfl
@[simp] theorem Team.settle_hgs (tm : Team) (u : Nat) : (tm.settle u).hgs = tm.hgs := rfl
@[simp] theorem Team.settle_scratch (tm : Team) (u : Nat) : (tm.settle u).scratch = tm.scratch := rfl
@[simp] theorem Team.settle_opbuf (tm : Team) (u : Nat) : (tm.settle u).opbuf = tm.opbuf := rfl
@[simp] theorem Team.settle_bars (tm : Team) (u : Nat) : (tm.settle u).bars = tm.bars := rfl
@[simp] theorem Team.settle_colls (tm : Team) (u : Nat) : (tm.settle u).colls = tm.colls := rfl
@[simp] theorem Team.settle_handles (tm : Team) (u : Nat) : (tm.settle u).handles = tm.handles := rfl
@[simp] theorem Team.settle_hwaits (tm : Team) (u : Nat) : (tm.settle u).hwaits = tm.hwaits := rfl
@[simp] theorem Team.settle_held (tm : Team) (u : Nat) : (tm.settle u).held = tm.held := rfl
@[simp] theorem Team.settle_fin (tm : Team) (u : Nat) : (tm.settle u).fin = tm.fin := rfl
@[simp] theorem Team.settle_killed (tm : Team) (u : Nat) : (tm.settle u).killed = tm.killed := rfl
@[simp] theorem Team.settle_taken (tm : Team) (u : Nat) : (tm.settle u).taken = tm.taken := rfl
@[simp] theorem Team.settle_frozen (tm : Team) (u : Nat) : (tm.settle u).frozen = tm.frozen := rfl
@[simp] theorem Team.settle_rpoison (tm : Team) (u : Nat) : (tm.settle u).rpoison = tm.rpoison := rfl
@[simp] theorem Team.settle_units (tm : Team) (u : Nat) : (tm.settle u).units = tm.units := rfl

/-! ## Team.writeReg -/

@[simp] theorem Team.writeReg_wid (tm : Team) (r : RegAt) (v : DWord) : (tm.writeReg r v).wid = tm.wid := by
  unfold Team.writeReg; split <;> (try split) <;> rfl
@[simp] theorem Team.writeReg_ctx (tm : Team) (r : RegAt) (v : DWord) : (tm.writeReg r v).ctx = tm.ctx := by
  unfold Team.writeReg; split <;> (try split) <;> rfl
@[simp] theorem Team.writeReg_grid (tm : Team) (r : RegAt) (v : DWord) : (tm.writeReg r v).grid = tm.grid := by
  unfold Team.writeReg; split <;> (try split) <;> rfl
@[simp] theorem Team.writeReg_index (tm : Team) (r : RegAt) (v : DWord) : (tm.writeReg r v).index = tm.index := by
  unfold Team.writeReg; split <;> (try split) <;> rfl
@[simp] theorem Team.writeReg_cluster (tm : Team) (r : RegAt) (v : DWord) : (tm.writeReg r v).cluster = tm.cluster := by
  unfold Team.writeReg; split <;> (try split) <;> rfl
@[simp] theorem Team.writeReg_rank (tm : Team) (r : RegAt) (v : DWord) : (tm.writeReg r v).rank = tm.rank := by
  unfold Team.writeReg; split <;> (try split) <;> rfl
@[simp] theorem Team.writeReg_hgroups (tm : Team) (r : RegAt) (v : DWord) : (tm.writeReg r v).hgroups = tm.hgroups := by
  unfold Team.writeReg; split <;> (try split) <;> rfl
@[simp] theorem Team.writeReg_lastn (tm : Team) (r : RegAt) (v : DWord) : (tm.writeReg r v).lastn = tm.lastn := by
  unfold Team.writeReg; split <;> (try split) <;> rfl
@[simp] theorem Team.writeReg_regs (tm : Team) (r : RegAt) (v : DWord) : (tm.writeReg r v).regs = tm.regs := by
  unfold Team.writeReg; split <;> (try split) <;> rfl
@[simp] theorem Team.writeReg_sregs (tm : Team) (r : RegAt) (v : DWord) : (tm.writeReg r v).sregs = tm.sregs := by
  unfold Team.writeReg; split <;> (try split) <;> rfl
@[simp] theorem Team.writeReg_loc (tm : Team) (r : RegAt) (v : DWord) : (tm.writeReg r v).loc = tm.loc := by
  unfold Team.writeReg; split <;> (try split) <;> rfl
@[simp] theorem Team.writeReg_atrap (tm : Team) (r : RegAt) (v : DWord) : (tm.writeReg r v).atrap = tm.atrap := by
  unfold Team.writeReg; split <;> (try split) <;> rfl
@[simp] theorem Team.writeReg_flags (tm : Team) (r : RegAt) (v : DWord) : (tm.writeReg r v).flags = tm.flags := by
  unfold Team.writeReg; split <;> (try split) <;> rfl
@[simp] theorem Team.writeReg_psize (tm : Team) (r : RegAt) (v : DWord) : (tm.writeReg r v).psize = tm.psize := by
  unfold Team.writeReg; split <;> (try split) <;> rfl
@[simp] theorem Team.writeReg_param (tm : Team) (r : RegAt) (v : DWord) : (tm.writeReg r v).param = tm.param := by
  unfold Team.writeReg; split <;> (try split) <;> rfl
@[simp] theorem Team.writeReg_recAddr (tm : Team) (r : RegAt) (v : DWord) : (tm.writeReg r v).recAddr = tm.recAddr := by
  unfold Team.writeReg; split <;> (try split) <;> rfl
@[simp] theorem Team.writeReg_slotw (tm : Team) (r : RegAt) (v : DWord) : (tm.writeReg r v).slotw = tm.slotw := by
  unfold Team.writeReg; split <;> (try split) <;> rfl
@[simp] theorem Team.writeReg_detlvl (tm : Team) (r : RegAt) (v : DWord) : (tm.writeReg r v).detlvl = tm.detlvl := by
  unfold Team.writeReg; split <;> (try split) <;> rfl
@[simp] theorem Team.writeReg_ordinal (tm : Team) (r : RegAt) (v : DWord) : (tm.writeReg r v).ordinal = tm.ordinal := by
  unfold Team.writeReg; split <;> (try split) <;> rfl
@[simp] theorem Team.writeReg_scratch (tm : Team) (r : RegAt) (v : DWord) : (tm.writeReg r v).scratch = tm.scratch := by
  unfold Team.writeReg; split <;> (try split) <;> rfl
@[simp] theorem Team.writeReg_opbuf (tm : Team) (r : RegAt) (v : DWord) : (tm.writeReg r v).opbuf = tm.opbuf := by
  unfold Team.writeReg; split <;> (try split) <;> rfl
@[simp] theorem Team.writeReg_bars (tm : Team) (r : RegAt) (v : DWord) : (tm.writeReg r v).bars = tm.bars := by
  unfold Team.writeReg; split <;> (try split) <;> rfl
@[simp] theorem Team.writeReg_colls (tm : Team) (r : RegAt) (v : DWord) : (tm.writeReg r v).colls = tm.colls := by
  unfold Team.writeReg; split <;> (try split) <;> rfl
@[simp] theorem Team.writeReg_handles (tm : Team) (r : RegAt) (v : DWord) : (tm.writeReg r v).handles = tm.handles := by
  unfold Team.writeReg; split <;> (try split) <;> rfl
@[simp] theorem Team.writeReg_hwaits (tm : Team) (r : RegAt) (v : DWord) : (tm.writeReg r v).hwaits = tm.hwaits := by
  unfold Team.writeReg; split <;> (try split) <;> rfl
@[simp] theorem Team.writeReg_trap (tm : Team) (r : RegAt) (v : DWord) : (tm.writeReg r v).trap = tm.trap := by
  unfold Team.writeReg; split <;> (try split) <;> rfl
@[simp] theorem Team.writeReg_held (tm : Team) (r : RegAt) (v : DWord) : (tm.writeReg r v).held = tm.held := by
  unfold Team.writeReg; split <;> (try split) <;> rfl
@[simp] theorem Team.writeReg_fin (tm : Team) (r : RegAt) (v : DWord) : (tm.writeReg r v).fin = tm.fin := by
  unfold Team.writeReg; split <;> (try split) <;> rfl
@[simp] theorem Team.writeReg_killed (tm : Team) (r : RegAt) (v : DWord) : (tm.writeReg r v).killed = tm.killed := by
  unfold Team.writeReg; split <;> (try split) <;> rfl
@[simp] theorem Team.writeReg_taken (tm : Team) (r : RegAt) (v : DWord) : (tm.writeReg r v).taken = tm.taken := by
  unfold Team.writeReg; split <;> (try split) <;> rfl
@[simp] theorem Team.writeReg_frozen (tm : Team) (r : RegAt) (v : DWord) : (tm.writeReg r v).frozen = tm.frozen := by
  unfold Team.writeReg; split <;> (try split) <;> rfl
@[simp] theorem Team.writeReg_rpoison (tm : Team) (r : RegAt) (v : DWord) : (tm.writeReg r v).rpoison = tm.rpoison := by
  unfold Team.writeReg; split <;> (try split) <;> rfl
@[simp] theorem Team.writeReg_units (tm : Team) (r : RegAt) (v : DWord) : (tm.writeReg r v).units = tm.units := by
  unfold Team.writeReg; split <;> (try split) <;> rfl

/-! ## What is reached into -/

@[simp] theorem State.core_setCore_same (s : State) (c : Nat) (k : Core) : (s.setCore c k).core c = k := by
  simp [State.core, State.setCore]
theorem State.core_setCore_other (s : State) {c c' : Nat} (k : Core) (h : c' ≠ c) : (s.setCore c k).core c' = s.core c' :=
  Tab.getD_set_other _ _ _ h
@[simp] theorem State.core_modCore_same (s : State) (c : Nat) (f : Core → Core) : (s.modCore c f).core c = f (s.core c) := by
  simp [State.modCore]
theorem State.core_modCore_other (s : State) {c c' : Nat} (f : Core → Core) (h : c' ≠ c) :
    (s.modCore c f).core c' = s.core c' := State.core_setCore_other s _ h
@[simp] theorem State.core_modTeam_same (s : State) (c slot : Nat) (f : Team → Team) :
    (s.modTeam c slot f).core c = { s.core c with teams := Tab.mod (s.core c).teams slot f } := by
  simp [State.modTeam]
theorem State.core_modTeam_other (s : State) {c c' : Nat} (slot : Nat) (f : Team → Team) (h : c' ≠ c) :
    (s.modTeam c slot f).core c' = s.core c' := State.core_modCore_other s _ h
@[simp] theorem State.core_modDie (s : State) (d : Nat) (f : Die → Die) (c : Nat) : (s.modDie d f).core c = s.core c := rfl
@[simp] theorem State.core_modCtx (s : State) (x : Nat) (f : Ctx → Ctx) (c : Nat) : (s.modCtx x f).core c = s.core c := rfl
@[simp] theorem State.core_modGrid (s : State) (g : Nat) (f : Grid → Grid) (c : Nat) : (s.modGrid g f).core c = s.core c := rfl
@[simp] theorem State.core_newUid (s : State) (c : Nat) : s.newUid.2.core c = s.core c := rfl

@[simp] theorem State.die_modDie_same (s : State) (d : Nat) (f : Die → Die) : (s.modDie d f).die d = f (s.die d) := by
  simp [State.die, State.modDie]
theorem State.die_modDie_other (s : State) {d d' : Nat} (f : Die → Die) (h : d' ≠ d) : (s.modDie d f).die d' = s.die d' :=
  Tab.getD_set_other _ _ _ h
theorem State.ctx?_modCtx (s : State) (c c' : Nat) (f : Ctx → Ctx) :
    (s.modCtx c f).ctx? c' = if c' = c then (s.ctx? c).map f else s.ctx? c' := Tab.get?_mod _ _ _ _
@[simp] theorem State.ctx?_modCore (s : State) (c : Nat) (f : Core → Core) (x : Nat) : (s.modCore c f).ctx? x = s.ctx? x := rfl
@[simp] theorem State.ctx?_modTeam (s : State) (c slot : Nat) (f : Team → Team) (x : Nat) :
    (s.modTeam c slot f).ctx? x = s.ctx? x := rfl

@[simp] theorem State.team?_modTeam_same (s : State) (c slot : Nat) (f : Team → Team) :
    (s.modTeam c slot f).team? c slot = (s.team? c slot).map f := by
  simp [State.team?]
theorem State.team?_modTeam_slot (s : State) (c : Nat) {slot slot' : Nat} (f : Team → Team) (h : slot' ≠ slot) :
    (s.modTeam c slot f).team? c slot' = s.team? c slot' := by
  simp [State.team?, Tab.get?_mod_other _ _ h]
theorem State.team?_modTeam_core (s : State) {c c' : Nat} (slot slot' : Nat) (f : Team → Team) (h : c' ≠ c) :
    (s.modTeam c slot f).team? c' slot' = s.team? c' slot' := by
  simp [State.team?, State.core_modTeam_other s slot f h]
/-- An update of a core that keeps its teams keeps every team. -/
theorem State.team?_modCore (s : State) (c : Nat) {f : Core → Core} (h : ∀ k, (f k).teams = k.teams) (c' slot : Nat) :
    (s.modCore c f).team? c' slot = s.team? c' slot := by
  unfold State.team?
  by_cases e : c' = c
  · subst e; simp [h]
  · simp [State.core_modCore_other s f e]

theorem Team.get?_modThread (tm : Team) (i j : Nat) (f : Thread → Thread) :
    Tab.get? (tm.modThread i f).threads j = if j = i then (Tab.get? tm.threads i).map f else Tab.get? tm.threads j :=
  Tab.get?_mod _ _ _ _
theorem Team.get?_modHg (tm : Team) (g j : Nat) (f : HGroup → HGroup) :
    Tab.get? (tm.modHg g f).hgs j = if j = g then (Tab.get? tm.hgs g).map f else Tab.get? tm.hgs j :=
  Tab.get?_mod _ _ _ _

end Sys2Proof.Machine
end

