-- ==== Sys2Proof/Laws/Frames.lean ====
section
/-! SUPPORT. The frame of the shared operations of a word that works in registers alone: each of them keeps
everything outside its core, every unit of the core, every other team, and of its own team all but threads and home
groups. A meaning built from them inherits the frame from these lemmas. -/

namespace Sys2Proof.Machine

/-! ## The relations -/

theorem Core.SameUnits.refl (k : Core) : Core.SameUnits k k := by constructor <;> rfl

theorem Core.SameUnits.trans {a b c : Core} (h : Core.SameUnits a b) (g : Core.SameUnits b c) : Core.SameUnits a c := by
  obtain ⟨⟩ := h
  obtain ⟨⟩ := g
  constructor <;> simp_all

theorem Team.SameRest.refl (tm : Team) : Team.SameRest tm tm := by
  constructor
  case rpoison => exact fun _ h => h
  all_goals rfl

theorem Team.SameRest.trans {a b c : Team} (h : Team.SameRest a b) (g : Team.SameRest b c) : Team.SameRest a c where
  wid := g.wid.trans h.wid
  ctx := g.ctx.trans h.ctx
  grid := g.grid.trans h.grid
  index := g.index.trans h.index
  cluster := g.cluster.trans h.cluster
  rank := g.rank.trans h.rank
  hgroups := g.hgroups.trans h.hgroups
  lastn := g.lastn.trans h.lastn
  regs := g.regs.trans h.regs
  sregs := g.sregs.trans h.sregs
  loc := g.loc.trans h.loc
  atrap := g.atrap.trans h.atrap
  flags := g.flags.trans h.flags
  psize := g.psize.trans h.psize
  param := g.param.trans h.param
  recAddr := g.recAddr.trans h.recAddr
  slotw := g.slotw.trans h.slotw
  detlvl := g.detlvl.trans h.detlvl
  ordinal := g.ordinal.trans h.ordinal
  scratch := g.scratch.trans h.scratch
  opbuf := g.opbuf.trans h.opbuf
  bars := g.bars.trans h.bars
  colls := g.colls.trans h.colls
  handles := g.handles.trans h.handles
  hwaits := g.hwaits.trans h.hwaits
  held := g.held.trans h.held
  fin := g.fin.trans h.fin
  killed := g.killed.trans h.killed
  taken := g.taken.trans h.taken
  units := g.units.trans h.units
  frozen := g.frozen.trans h.frozen
  noL1 := g.noL1.trans h.noL1
  noRo := g.noRo.trans h.noRo
  cmdFences := g.cmdFences.trans h.cmdFences
  rpoison := fun r hr => h.rpoison r (g.rpoison r hr)
  trap := g.trap.trans h.trap

/-! ## Teams -/

theorem Team.sameRest_modThread (tm : Team) (i : Nat) (f : Thread → Thread) : Team.SameRest tm (tm.modThread i f) := by
  constructor
  case rpoison => exact fun _ h => h
  all_goals rfl

theorem Team.sameRest_modHg (tm : Team) (g : Nat) (f : HGroup → HGroup) : Team.SameRest tm (tm.modHg g f) := by
  constructor
  case rpoison => exact fun _ h => h
  all_goals rfl

/-- A write of a register changes threads or home groups only. -/
theorem Team.sameRest_writeReg (tm : Team) (r : RegAt) (v : DWord) : Team.SameRest tm (tm.writeReg r v) := by
  cases r with
  | v t n => exact Team.sameRest_modThread ..
  | p t n =>
    simp only [Team.writeReg]
    split
    · exact .refl _
    · exact Team.sameRest_modThread ..
  | s g n => exact Team.sameRest_modHg ..
  | x g n => exact Team.sameRest_modHg ..
  | h g n => exact Team.sameRest_modHg ..

/-- Updates that each keep the rest of a team keep it in any number. -/
theorem Team.sameRest_foldl {β : Type} (f : Team → β → Team) (h : ∀ tm b, Team.SameRest tm (f tm b)) (l : List β)
    (tm : Team) : Team.SameRest tm (l.foldl f tm) := by
  induction l generalizing tm with
  | nil => exact .refl _
  | cons b l ih => exact (h tm b).trans (ih (f tm b))

theorem Team.sameRest_writeRegs (tm : Team) (w : List (RegAt × DWord)) : Team.SameRest tm (tm.writeRegs w) := by
  refine (Team.sameRest_foldl (fun tm e => tm.writeReg e.1 e.2) (fun tm e => Team.sameRest_writeReg ..) w tm).trans ?_
  constructor
  case rpoison => exact fun _ h => (List.mem_filter.1 h).1
  all_goals rfl

theorem Team.sameRest_file (tm : Team) (ts : List (Nat × PC)) (n : Nat) : Team.SameRest tm (tm.file ts n) :=
  Team.sameRest_foldl _ (fun _ _ => Team.sameRest_modThread ..) _ _

/-! ## One word's frame under the shared operations -/

theorem RegFrame.refl {s : State} {w : Iss} (h : s.team? w.core w.slot = some w.tm) : RegFrame s s w where
  module := by
    constructor
    case cores => exact fun _ _ => rfl
    all_goals rfl
  units := .refl _
  others _ _ := rfl
  own := ⟨_, h, .refl _⟩

/-- An update of the core's groups, issued words, interlocks or outstanding results stays in the frame. -/
theorem RegFrame.modCore {s t : State} {w : Iss} (h : RegFrame s t w) (f : Core → Core)
    (hf : Core.SameUnits (t.core w.core) (f (t.core w.core))) (ht : ∀ k, (f k).teams = k.teams) :
    RegFrame s (t.modCore w.core f) w where
  module := { h.module with cores := fun c hc => (State.core_modCore_other t f hc).trans (h.module.cores c hc) }
  units := by rw [State.core_modCore_same]; exact h.units.trans hf
  others slot hs := by rw [State.team?_modCore t w.core ht]; exact h.others slot hs
  own := by rw [State.team?_modCore t w.core ht]; exact h.own

/-- An update of the word's own team that keeps all but threads and home groups stays in the frame. -/
theorem RegFrame.modTeam {s t : State} {w : Iss} (h : RegFrame s t w) (f : Team → Team)
    (hf : ∀ tm, Team.SameRest tm (f tm)) : RegFrame s (t.modTeam w.core w.slot f) w where
  module := { h.module with cores := fun c hc => (State.core_modTeam_other t w.slot f hc).trans (h.module.cores c hc) }
  units := by
    rw [State.core_modTeam_same]
    refine h.units.trans ?_
    constructor <;> rfl
  others slot hs := by rw [State.team?_modTeam_slot t w.core f hs]; exact h.others slot hs
  own := by
    obtain ⟨tm, e, r⟩ := h.own
    exact ⟨f tm, by rw [State.team?_modTeam_same, e]; rfl, r.trans (hf tm)⟩

/-- A fresh name stays in the frame. -/
theorem RegFrame.newUid {s t : State} {w : Iss} (h : RegFrame s t w) : RegFrame s t.newUid.2 w where
  module := { h.module with }
  units := h.units
  others := h.others
  own := h.own

theorem Core.sameUnits_ungroup (k : Core) (slot : Nat) (ts : List Nat) : Core.SameUnits k (k.ungroup slot ts) := by
  constructor <;> rfl

theorem RegFrame.writeRegs {s t : State} {w : Iss} (h : RegFrame s t w) (wr : List (RegAt × DWord)) :
    RegFrame s (t.writeRegs w.core w.slot wr) w :=
  h.modTeam _ fun tm => Team.sameRest_writeRegs tm wr

theorem RegFrame.file {s t : State} {w : Iss} (h : RegFrame s t w) (ts : List (Nat × PC)) :
    RegFrame s (t.file w.core w.slot ts) w :=
  h.modTeam _ fun tm => Team.sameRest_file tm ts _

theorem RegFrame.setState {s t : State} {w : Iss} (h : RegFrame s t w) (ts : List Nat) (st : TState) :
    RegFrame s (t.setState w.core w.slot ts st) w :=
  (h.modCore (fun k => k.ungroup w.slot ts) (Core.sameUnits_ungroup ..) fun _ => rfl).modTeam _
    fun tm => Team.sameRest_foldl (fun tm t => tm.modThread t fun th => { th with st := st })
      (fun _ _ => Team.sameRest_modThread ..) ts tm

/-- Dissolving a group of the word's own team stays in the frame. -/
theorem RegFrame.dissolve {s t : State} {w : Iss} (h : RegFrame s t w) (gid : Nat)
    (hg : ∀ x, x ∈ (t.core w.core).groups → x.gid = gid → x.slot = w.slot) : RegFrame s (t.dissolve w.core gid) w := by
  unfold State.dissolve
  split
  · exact h
  · rename_i g e
    have hs : g.slot = w.slot := hg g (List.mem_of_find?_eq_some e) (by simpa using List.find?_some e)
    have h1 : RegFrame s (t.modCore w.core fun k => { k with groups := k.groups.filter fun h => h.gid != gid }) w :=
      h.modCore _ (by constructor <;> rfl) fun _ => rfl
    simp only [hs]
    exact h1.modTeam _ fun tm => Team.sameRest_file tm ..

/-- The results of a fixed-latency producer stay in the frame. -/
theorem RegFrame.fixedWrite {s t : State} {w : Iss} (h : RegFrame s t w) (lat post : Nat) (wr : List (RegAt × DWord)) :
    RegFrame s (t.fixedWrite w lat post wr).s w := by
  have h1 : RegFrame s ((t.writeRegs w.core w.slot wr).modCore w.core fun k =>
      { k with ready := k.ready ++ wr.map fun e => (w.slot, e.1, w.now + lat) }) w :=
    (h.writeRegs wr).modCore _ (by constructor <;> rfl) fun _ => rfl
  unfold State.fixedWrite
  split
  · exact h1
  · refine RegFrame.modCore h1.newUid (fun k => { k with pends := k.pends ++ [_] }) ?_ fun _ => rfl
    constructor <;> rfl

/-- The recording of an owed result stays in the frame. -/
theorem RegFrame.laterWrite {s t : State} {w : Iss} (h : RegFrame s t w) (ts : List Nat) (wr : List (RegAt × DWord)) :
    RegFrame s (t.laterWrite w ts wr).s w := by
  refine RegFrame.modCore h.newUid (fun k => { k with pends := k.pends ++ [_] }) ?_ fun _ => rfl
  constructor <;> rfl

/-- What follows a word's effect stays in the frame: members move on. -/
theorem RegFrame.finish {s : State} {w : Iss} {d : Done} (ht : Hints) (h : RegFrame s d.s w) :
    RegFrame s (State.finish w ht d) w := by
  unfold State.finish
  extract_lets s0 go upd s1 pcs npc split
  have h1 : RegFrame s s1 w := by
    refine h.modTeam _ fun tm => ?_
    extract_lets tm'
    have h' : Team.SameRest tm tm' := Team.sameRest_foldl _ (fun _ _ => Team.sameRest_modThread ..) go tm
    refine h'.trans ?_
    split
    · rename_i tr e
      split
      · exact .refl _
      · constructor
        case trap => rw [e]; rfl
        case rpoison => exact fun _ h => h
        all_goals rfl
    · exact .refl _
  exact h1.modCore _ (by constructor <;> rfl) fun _ => rfl

end Sys2Proof.Machine
end

