-- ==== Sys2Proof/Laws/Memory.lean ====
section
/-! SUPPORT. What the shared operations do to the byte memory: those that write none of it, and that every one of them
that writes keeps its canonical form. -/

namespace Sys2Proof.Machine

/-! ## Operations that write no byte of memory -/

@[simp] theorem State.writeRegs_mem (s : State) (c slot : Nat) (w : List (RegAt × DWord)) :
    (s.writeRegs c slot w).mem = s.mem := rfl
@[simp] theorem State.writeBack_mem (s : State) (c : Nat) (p : Pend) (w : List (RegAt × DWord)) :
    (s.writeBack c p w).mem = s.mem := rfl
@[simp] theorem State.file_mem (s : State) (c slot : Nat) (ts : List (Nat × PC)) : (s.file c slot ts).mem = s.mem := rfl
@[simp] theorem State.setState_mem (s : State) (c slot : Nat) (ts : List Nat) (st : TState) :
    (s.setState c slot ts st).mem = s.mem := rfl
@[simp] theorem State.dissolve_mem (s : State) (c gid : Nat) : (s.dissolve c gid).mem = s.mem := by
  unfold State.dissolve; split <;> rfl
@[simp] theorem State.message_mem (s : State) (a b : Nat) : (s.message a b).mem = s.mem := by
  unfold State.message; dsimp only; split <;> rfl
@[simp] theorem State.hear_mem (s : State) (a : Nat) : (s.hear a).mem = s.mem := by
  unfold State.hear; dsimp only [State.drawBool, State.draw]; split <;> simp
@[simp] theorem State.exchange_mem (s : State) (a b : Nat) : (s.exchange a b).mem = s.mem := by
  simp [State.exchange]
@[simp] theorem State.ero_mem (s : State) (u d i e x v : Nat) : (s.ero u d i e x v).mem = s.mem := by
  unfold State.ero
  split
  · rfl
  · exact State.hear_mem s _
@[simp] theorem State.keepCore_mem (s : State) (c : Nat) (e : TlbEntry) : (s.keepCore c e).mem = s.mem := rfl
@[simp] theorem State.keepQuad_mem (s : State) (c : Nat) (e : TlbEntry) : (s.keepQuad c e).mem = s.mem := by
  unfold State.keepQuad; dsimp only; split <;> rfl
@[simp] theorem State.walkFor_mem (s : State) (c ctx va : Nat) (priv : Bool) (root : Nat) (k : AKind) :
    (s.walkFor c ctx va priv root k).2.mem = s.mem := by
  unfold State.walkFor; split <;> simp
/-- Translating an address may keep translations; it writes no memory. -/
@[simp] theorem State.translate_mem (s : State) (c ctx va : Nat) (k : AKind) :
    (s.translate c ctx va k).2.mem = s.mem := by
  unfold State.translate
  dsimp only [State.drawBool]
  repeat' split
  all_goals simp
/-- Steps that each keep memory keep it in any number. -/
theorem State.mem_foldl {β : Type} (f : State → β → State) (h : ∀ s b, (f s b).mem = s.mem) (l : List β) (s : State) :
    (l.foldl f s).mem = s.mem := by
  induction l generalizing s with
  | nil => rfl
  | cons b l ih => exact (ih (f s b)).trans (h s b)

@[simp] theorem State.enterPort_mem (s : State) (c u pa n : Nat) : (s.enterPort c u pa n).mem = s.mem :=
  State.mem_foldl _ (fun s i => by dsimp only; split <;> rfl) _ _
@[simp] theorem State.portTgt_mem (s : State) (c u : Nat) (g : Tgt) (n : Nat) : (s.portTgt c u g n).mem = s.mem := by
  unfold State.portTgt; split <;> simp
@[simp] theorem State.passPorts_mem (s : State) (c u : Nat) : (s.passPorts c u).mem = s.mem := rfl
@[simp] theorem State.leavePorts_mem (s : State) (c : Nat) (us : List Nat) : (s.leavePorts c us).mem = s.mem := by
  unfold State.leavePorts; split <;> rfl
@[simp] theorem State.winSeen_mem (s : State) (pa n : Nat) : (s.winSeen pa n).mem = s.mem := by
  unfold State.winSeen; split <;> rfl
@[simp] theorem State.winWrite_mem (s : State) (pa : Nat) (bs : List Byte) : (s.winWrite pa bs).mem = s.mem := rfl
@[simp] theorem State.dropped_mem (s : State) (pa : Nat) : (s.dropped pa).mem = s.mem := by
  unfold State.dropped; repeat' split
  all_goals simp
@[simp] theorem State.raise_mem (s : State) (c slot : Nat) (r : TrapReq) (stop : List Nat) :
    (s.raise c slot r stop).mem = s.mem := rfl
@[simp] theorem State.mismatch_mem (s : State) (ctx : Nat) : (s.mismatch ctx).mem = s.mem := rfl
@[simp] theorem State.writeScr_mem (s : State) (r : TRef) (off : Nat) (bs : List Byte) :
    (s.writeScr r off bs).mem = s.mem := by
  unfold State.writeScr; dsimp only; split <;> rfl
@[simp] theorem State.touchL2_mem (s : State) (pa : Nat) : (s.touchL2 pa).mem = s.mem := by
  unfold State.touchL2; split <;> rfl
@[simp] theorem State.forget_mem (s : State) (pa n : Nat) : (s.forget pa n).mem = s.mem := by
  unfold State.forget; split <;> rfl
@[simp] theorem State.seePath_mem (s : State) (a : Agent) (sc : Scope) (p q : Path) : (s.seePath a sc p q).mem = s.mem := by
  unfold State.seePath; split <;> rfl
@[simp] theorem State.seeWork_mem (s : State) (f : Agent → Bool) : (s.seeWork f).mem = s.mem := by
  unfold State.seeWork; split <;> rfl
@[simp] theorem State.fillL1_mem (s : State) (c line : Nat) : (s.fillL1 c line).mem = s.mem := by
  unfold State.fillL1; dsimp only [State.draw]; rfl
@[simp] theorem State.fillRo_mem (s : State) (c line : Nat) : (s.fillRo c line).mem = s.mem := rfl
/-- What a read finds of one element's history is a free choice; it writes no memory. -/
@[simp] theorem State.elemOn_mem (p : Path) (t : Option (Nat × Nat)) (w : Nat) (l : List Past) (v : Option (List Byte)) (s : State) :
    (State.elemOn p t w l v s).2.mem = s.mem := by
  induction l generalizing v s with
  | nil => rfl
  | cons e es ih =>
    unfold State.elemOn
    dsimp only [State.drawBool]
    repeat' split
    · exact ih ..
    · rfl
    · exact ih ..
    · rfl
@[simp] theorem State.readOn_mem (s : State) (p : Path) (t : Option (Nat × Nat)) (pa n : Nat) : (s.readOn p t pa n).2.mem = s.mem := by
  unfold State.readOn
  extract_lets mine
  split
  · rfl
  · have h : ∀ (l : List Nat) (r : List (List Byte) × State), r.2.mem = s.mem → (l.foldl (fun (r : List (List Byte) × State) k =>
        let (v, s) := State.elemOn p t (pa / 4 + k) r.2.late none r.2
        (r.1 ++ [v.getD (Memory.readN s.mem (4 * (pa / 4 + k)) 4)], s)) r).2.mem = s.mem := by
      intro l
      induction l with
      | nil => exact fun r hr => hr
      | cons k l ih => exact fun r hr => ih _ ((State.elemOn_mem ..).trans hr)
    exact h _ _ rfl
/-- Where no older bytes are left, a read of any path returns what stands in memory. -/
theorem State.readOn_settled {s : State} (h : s.late = []) (p : Path) (t : Option (Nat × Nat)) (pa n : Nat) :
    s.readOn p t pa n = (s.readPa pa n, s) := by
  simp [State.readOn, h]
/-- A narrow load may perform a queued store at `.core`; no memory is written. -/
@[simp] theorem State.forward_mem (c slot thr pa n : Nat) (l : List SEntry) (r : List Byte × State) :
    (State.forward c slot thr pa n l r).2.mem = r.2.mem := by
  induction l generalizing r with
  | nil => rfl
  | cons e es ih =>
    unfold State.forward
    dsimp only [State.drawBool]
    repeat' split
    all_goals first
      | rfl
      | exact (ih _).trans rfl
/-- A load may keep a line in a cache; it writes no memory. -/
@[simp] theorem State.loadBytes_mem (s : State) (c slot : Nat) (a : Access) (g : Tgt) : (s.loadBytes c slot a g).2.mem = s.mem := by
  unfold State.loadBytes
  dsimp only [State.drawBool]
  repeat' split
  all_goals simp
@[simp] theorem State.modCmd_mem (s : State) (c id : Nat) (f : Cmd → Cmd) : (s.modCmd c id f).mem = s.mem := rfl
@[simp] theorem State.leaveQueues_mem (s : State) (n : Nat) (gone : Nat → Nat → Bool) : (s.leaveQueues n gone).mem = s.mem := rfl
@[simp] theorem State.newFault_mem (s : State) (ctx team : Nat) (f : PFault) : (s.newFault ctx team f).2.mem = s.mem := by
  unfold State.newFault; split <;> rfl
@[simp] theorem State.mesh_mem (s : State) (c : Nat) (g : Tgt) : (s.mesh c g).mem = s.mem := by
  unfold State.mesh; split <;> simp
@[simp] theorem State.unclaim_mem (s : State) (u : Nat) : (s.unclaim u).mem = s.mem := rfl
@[simp] theorem State.eroPoison_mem (s : State) (c va : Nat) (g : Tgt) : (s.eroPoison c va g).mem = s.mem := by
  unfold State.eroPoison State.eroUnit
  dsimp only
  rw [State.ero_mem]
  repeat' split
  all_goals simp
@[simp] theorem State.dropL1_mem (s : State) (c : Nat) (sc : Scope) : (s.dropL1 c sc).mem = s.mem := by
  unfold State.dropL1; split <;> rfl
@[simp] theorem State.dropStores_mem (s : State) (c : Nat) (f : SEntry → Bool) : (s.dropStores c f).mem = s.mem :=
  (State.mem_foldl _ (fun s u => by split <;> rfl) _ _).trans rfl
@[simp] theorem State.setAside_mem (s : State) (c : Nat) (us : List Nat) (on : Bool) : (s.setAside c us on).mem = s.mem := rfl
@[simp] theorem State.dropAside_mem (s : State) (c slot : Nat) : (s.dropAside c slot).mem = s.mem :=
  (State.dropStores_mem ..).trans (State.mem_foldl _ (fun s u => State.unclaim_mem s u) _ _)
@[simp] theorem State.abandon_mem (s : State) (c slot : Nat) (us : List Nat) : (s.abandon c slot us).mem = s.mem :=
  (State.dropStores_mem ..).trans (State.mem_foldl _ (fun s u => State.unclaim_mem s u) _ _)
@[simp] theorem State.dropParked_mem (s : State) (c f wid : Nat) : (s.dropParked c f wid).mem = s.mem := State.dropStores_mem ..
@[simp] theorem State.reap_mem (s : State) (grid cl : Nat) : (s.reap grid cl).mem = s.mem := by
  unfold State.reap; dsimp only; split
  · exact State.mem_foldl _ (fun s b => by split <;> rfl) _ _
  · rfl
@[simp] theorem State.teamDone_mem (s : State) (c slot : Nat) : (s.teamDone c slot).mem = s.mem := by
  unfold State.teamDone; split <;> simp
@[simp] theorem State.exitThreads_mem (s : State) (c slot : Nat) (ts : List Nat) : (s.exitThreads c slot ts).mem = s.mem := by
  unfold State.exitThreads
  split
  · rfl
  · split
    · rfl
    · extract_lets us s1 s2
      have h2 : s2.mem = s.mem := rfl
      split
      · exact h2
      · extract_lets s3 skid
        have h3 : s3.mem = s.mem := (State.mem_foldl _ (fun s b => by split <;> rfl) _ _).trans h2
        split
        · exact (State.teamDone_mem ..).trans h3
        · exact h3
@[simp] theorem State.restoreGroups_mem (s : State) (c slot : Nat) (gs : List Group) :
    (s.restoreGroups c slot gs).mem = s.mem := by
  unfold State.restoreGroups
  refine State.mem_foldl _ (fun s g => ?_) _ _
  dsimp only
  repeat' split
  all_goals rfl

/-- What follows a word's effect writes no memory. -/
@[simp] theorem State.finish_mem (w : Iss) (ht : Hints) (d : Done) : (State.finish w ht d).mem = d.s.mem := by
  rfl
@[simp] theorem State.passOver_mem (s : State) (c gid : Nat) (o : Option Nat) : (s.passOver c gid o).mem = s.mem := by
  unfold State.passOver; dsimp only; split <;> rfl
@[simp] theorem State.holdWord_mem (s : State) (w : Iss) (on : Nat → List HoldOn) : (s.holdWord w on).mem = s.mem := by
  unfold State.holdWord
  dsimp only
  repeat' split
  · simp
  · simp
  · simp
  · exact (State.mem_foldl _ (fun s t => State.setState_mem ..) _ _).trans (by simp)
@[simp] theorem State.fixedWrite_mem (s : State) (w : Iss) (lat post : Nat) (wr : List (RegAt × DWord)) :
    (s.fixedWrite w lat post wr).s.mem = s.mem := by
  unfold State.fixedWrite; dsimp only; split <;> rfl
@[simp] theorem State.laterWrite_mem (s : State) (w : Iss) (ts : List Nat) (wr : List (RegAt × DWord)) :
    (s.laterWrite w ts wr).s.mem = s.mem := rfl
@[simp] theorem State.waitAt_mem (s : State) (w : Iss) (ts : List (Nat × WaitCond)) (o : List (Nat × Nat)) :
    (s.waitAt w ts o).s.mem = s.mem := State.mem_foldl _ (fun _ _ => State.setState_mem ..) _ _
@[simp] theorem State.waitBefore_mem (s : State) (w : Iss) (ts : List Nat) (c : WaitCond) :
    (s.waitBefore w ts c).s.mem = s.mem := rfl

/-! ## Operations that write keep the canonical form -/

theorem State.Canon.of_mem {s t : State} (h : s.Canon) (e : t.mem = s.mem) : t.Canon := by
  rw [State.Canon, e]; exact h

/-- Steps that each keep the canonical form keep it in any number. -/
theorem State.canon_foldl {β : Type} {f : State → β → State} (h : ∀ s b, s.Canon → (f s b).Canon) (l : List β) {s : State}
    (hs : s.Canon) : (l.foldl f s).Canon := by
  induction l generalizing s with
  | nil => exact hs
  | cons b l ih => exact ih (h s b hs)

theorem State.canon_writeN {s : State} (h : s.Canon) (pa : Nat) (bs : List Byte) :
    State.Canon { s with mem := Memory.writeN s.mem pa bs } := Memory.wf_writeN pa bs h

theorem State.canon_writeLines {s : State} (h : s.Canon) (f pa : Nat) (bs : List Byte) : (s.writeLines f pa bs).Canon := by
  induction f generalizing s pa bs with
  | zero => exact h
  | succ f ih =>
    unfold State.writeLines
    extract_lets n here t
    have ht : t.Canon := by
      simp only [t]
      repeat' split
      · exact h
      · exact Memory.wf_writeN _ _ h
      · exact Memory.wf_writeN _ _ h
      · exact h.of_mem (by simp)
    split
    · exact ht
    · exact ih ht _ _

/-- A write at a physical address keeps the canonical form. -/
theorem State.canon_putPa {s : State} (h : s.Canon) (pa : Nat) (bs : List Byte) : (s.putPa pa bs).Canon := by
  unfold State.putPa
  repeat' split
  · exact h.of_mem (by simp)
  · exact State.canon_writeN h _ _
  · exact State.canon_writeLines h _ _ _

theorem State.canon_writePa {s : State} (h : s.Canon) (pa : Nat) (bs : List Byte) : (s.writePa pa bs).Canon :=
  State.canon_putPa (State.Canon.of_mem h (State.forget_mem ..)) pa bs

theorem State.canon_writeOn {s : State} (h : s.Canon) (p : Path) (w : Agent) (pa : Nat) (bs : List Byte) :
    (s.writeOn p w pa bs).Canon := State.canon_putPa h pa bs

theorem State.canon_writePieces {s : State} (h : s.Canon) (p : Path) (w : Agent) (ps : List (Nat × Nat)) (bs : List Byte) :
    (State.writePieces p w s ps bs).Canon := by
  induction ps generalizing s bs with
  | nil => exact h
  | cons q ps ih => exact ih (State.canon_writeOn h _ _ _ _) _

/-- A write for a context keeps the canonical form, where it is made. -/
theorem State.canon_vwriteOn {s t : State} (h : s.Canon) {p : Path} {w : Agent} {ctx va : Nat} {bs : List Byte}
    (e : s.vwriteOn p w ctx va bs = .ok t) : t.Canon := by
  unfold State.vwriteOn at e
  split at e
  · cases e
  · split at e
    · cases e
    · cases e; exact State.canon_writePieces h _ _ _ _

theorem State.canon_vwrite {s t : State} (h : s.Canon) {ctx va : Nat} {bs : List Byte} (e : s.vwrite ctx va bs = .ok t) :
    t.Canon := State.canon_vwriteOn h e

theorem State.canon_vput {s t : State} (h : s.Canon) {ctx va n v : Nat} (e : s.vput ctx va n v = .ok t) : t.Canon :=
  State.canon_vwrite h e

theorem State.canon_vput_getD {s d : State} (h : s.Canon) (hd : d.Canon) (ctx va n v : Nat) :
    ((s.vput ctx va n v).toOption.getD d).Canon := by
  cases e : s.vput ctx va n v with
  | error c => exact hd
  | ok t => exact State.canon_vput h e

theorem State.canon_modCtx {s : State} (h : s.Canon) (c : Nat) (f : Ctx → Ctx) : (s.modCtx c f).Canon := h

theorem State.canon_jrnStat {s : State} (h : s.Canon) (ctx v : Nat) : (s.jrnStat ctx v).Canon := by
  unfold State.jrnStat
  split
  · exact h
  · refine State.canon_vput_getD ?_ ?_ _ _ _ _ <;> exact h

theorem State.canon_record {s : State} (h : s.Canon) (ctx : Nat) (a : Arrival) : (s.record ctx a).Canon := by
  unfold State.record
  split
  · exact h
  · dsimp only
    split
    · exact h
    · split
      · exact h
      · split
        · exact State.canon_jrnStat (s := s.modCtx ctx _) h _ _
        · rename_i e
          have h1 := State.canon_vwrite (State.canon_modCtx h _ _) e
          split
          · exact State.canon_jrnStat (State.canon_modCtx h1 _ _) _ _
          · rename_i e2
            have h2 := State.canon_vput (State.canon_modCtx h1 _ _) e2
            split
            · exact State.canon_jrnStat h2 _ _
            · exact h2

theorem State.canon_consume {s : State} (h : s.Canon) (ctx : Nat) (a : Arrival) (e : Nat) : (s.consume ctx a e).Canon := by
  unfold State.consume
  extract_lets s1
  have h1 : s1.Canon := h
  split
  · exact State.canon_vput_getD h1 h1 _ _ _ _
  · exact h1

theorem State.canon_writeTgt {s : State} (h : s.Canon) (g : Tgt) (bs : List Byte) : (s.writeTgt g bs).Canon := by
  cases g with
  | mem pa => exact State.canon_writePa h _ _
  | scr r off => exact h.of_mem (State.writeScr_mem ..)
  | wst d off => exact h

theorem State.canon_bxUpdate {s : State} (h : s.Canon) (g : Tgt) (o : BxOp) (n : Nat) :
    ((s.bxUpdate g o n).getD s).Canon := by
  unfold State.bxUpdate
  split
  · exact State.canon_writeTgt h _ _
  · exact h

/-- A command that ends writes no memory: what it owes to its object arrives next. -/
@[simp] theorem State.cmdEnd_mem (s : State) (c id st cause : Nat) : (s.cmdEnd c id st cause).mem = s.mem := by
  unfold State.cmdEnd
  dsimp only
  repeat' split
  all_goals first
    | rfl
    | exact State.leavePorts_mem ..

/-- A write that is performed, with the line of the core's L1, keeps the canonical form. -/
theorem State.canon_putTgt {s : State} (h : s.Canon) (c : Nat) (p : Path) (w : Agent) (g : Tgt) (bs : List Byte) :
    (s.putTgt c p w g bs).Canon := by
  unfold State.putTgt
  split
  · exact State.Canon.of_mem (State.canon_writeOn h _ _ _ bs) (State.modCore_mem ..)
  · exact State.canon_writeTgt h _ bs

/-- An atomic update keeps memory canonical. -/
theorem State.canon_rmw {s : State} (h : s.Canon) (c slot : Nat) (a : Access) (g : Tgt) : (s.rmw c slot a g).2.Canon := by
  unfold State.rmw
  dsimp only
  split
  · exact State.canon_record (State.canon_putTgt h _ _ _ _ _) _ _
  · exact State.canon_putTgt h _ _ _ _ _

theorem State.canon_putCtx {s : State} (h : s.Canon) (ctx off v : Nat) : (s.putCtx ctx off v).Canon :=
  State.canon_writePa h _ _

theorem State.canon_performStore {s : State} (h : s.Canon) (c : Nat) (e : SEntry) : (s.performStore c e).Canon := by
  unfold State.performStore
  extract_lets s1 s2
  have h2 : s2.Canon := State.canon_putTgt (State.Canon.of_mem (s := s1) h (State.mesh_mem ..)) _ _ _ _ _
  split
  · exact h2.of_mem (State.unclaim_mem ..)
  · exact h2

theorem State.canon_performNear {s : State} (h : s.Canon) (c wid : Nat) : (s.performNear c wid).Canon :=
  State.canon_foldl (fun _ e hs => State.canon_performStore hs c e) _ h

/-- Killing a team may perform its atomics and end its commands; memory stays canonical. -/
theorem State.canon_killTeam {s : State} (h : s.Canon) (c slot : Nat) : (s.killTeam c slot).Canon := by
  unfold State.killTeam
  split
  · exact h
  · extract_lets s0 mine s1 s2 s3 s4 s5 s6 s7 s8
    have h0 : s0.Canon := State.canon_performNear h _ _
    have h1 : s1.Canon := by
      refine State.canon_foldl (fun s p hs => ?_) _ h0
      dsimp only [State.drawBool]
      repeat' split
      · exact State.canon_rmw (s := { s with free := s.free + 1 }) hs _ _ _ _
      all_goals exact hs
    have h2 : s2.Canon := State.canon_foldl (fun s u hs => hs.of_mem (State.unclaim_mem ..)) _ h1
    have h4 : s4.Canon := State.canon_foldl (fun s d hs => hs.of_mem (State.cmdEnd_mem ..)) _ (s := s3) h2
    exact h4.of_mem (by simp [s8, s7, s6, s5])

theorem State.canon_fatal {s : State} (h : s.Canon) (c slot : Nat) (r : TrapReq) (nested : Bool) :
    (s.fatal c slot r nested).Canon := by
  unfold State.fatal
  split
  · exact h
  · refine State.canon_killTeam (State.Canon.of_mem (State.canon_putCtx ?_ _ _ _) (State.ero_mem ..)) c slot
    exact h.of_mem (State.newFault_mem ..)

theorem State.canon_raiseFor {s : State} (h : s.Canon) (c slot u : Nat) (r : TrapReq) (stop : List Nat) :
    (s.raiseFor c slot u r stop).Canon := by
  unfold State.raiseFor
  repeat' split
  · exact State.canon_fatal h _ _ _ _
  · exact h
  · exact h

theorem State.canon_wordTrap {s : State} (h : s.Canon) (w : Iss) (cause : Cause) (code : Nat) (mask : List Nat)
    (addrs : Tab Nat) (kind : TrapKind) : (s.wordTrap w cause code mask addrs kind).Canon := by
  unfold State.wordTrap
  dsimp only
  split
  · exact h
  · split
    · exact h
    · split
      · exact State.canon_fatal h _ _ _ _
      · exact h

/-- However an issue attempt ends, memory stays canonical if the word's own effect kept it so. -/
theorem State.canon_conclude {s : State} (h : s.Canon) (w : Iss) (ht : Hints) {r : Res}
    (hr : match r with
      | .done d => d.s.Canon
      | .cut t => t.Canon
      | .trapIn t _ _ _ => t.Canon
      | _ => True) : (s.conclude w ht r).Canon := by
  cases r with
  | done d => exact State.Canon.of_mem (s := d.s) hr (State.finish_mem ..)
  | trap c code mask addrs => exact State.canon_wordTrap h _ _ _ _ _ _
  | hold => exact h.of_mem (State.holdWord_mem ..)
  | softTrap c code =>
    refine State.canon_wordTrap ?_ _ _ _ _ _ _
    show State.Canon (State.modCore (match (s.team? w.core w.slot).bind fun tm => tm.trap with
      | none => _
      | some _ => _) _ _)
    split <;> exact h
  | cut t => exact hr
  | trapIn t c mask addrs => exact State.canon_wordTrap (s := t) hr _ _ _ _ _ _

/-- A word keeps memory canonical if its own effect does: the checks, the guard and what follows add nothing. -/
theorem canon_runWord {i : Instr} {h : Hdr} {falls : Iss → List Nat} {body : Iss → State → Res} {s t : State}
    (hs : s.Canon)
    (hb : ∀ w, match body w s with
      | .done d => d.s.Canon
      | .cut t => t.Canon
      | .trapIn t _ _ _ => t.Canon
      | _ => True)
    (e : runWord i h falls body s = .next t) : t.Canon := by
  unfold runWord at e
  split at e
  · cases e
  · split at e
    · split at e
      · cases e; exact hs.of_mem (State.finish_mem ..)
      · cases e; exact State.canon_wordTrap hs _ _ _ _ _ _
    · dsimp only at e
      split at e
      · split at e
        · cases e; exact State.canon_conclude hs _ _ (hb _)
        · cases e; exact State.canon_wordTrap hs _ _ _ _ _ _
        · cases e; exact State.canon_wordTrap hs _ _ _ _ _ _
      · cases e; exact State.canon_wordTrap hs _ _ _ _ _ _

theorem State.canon_readTrap {s : State} (h : s.Canon) (c slot : Nat) (cause : Cause) (ps : List Pend) :
    (s.readTrap c slot cause ps).Canon := by
  unfold State.readTrap
  split
  · exact h
  · exact State.canon_raiseFor (State.Canon.of_mem (s := s) h (State.setAside_mem ..)) _ _ _ _ _

theorem State.canon_poisonTrap {s : State} (h : s.Canon) (c slot : Nat) (cause : Cause) (ps : List Pend) :
    (s.poisonTrap c slot cause ps).Canon := by
  unfold State.poisonTrap
  split
  · exact State.canon_readTrap (h.of_mem (State.eroPoison_mem ..)) _ _ _ _
  · exact State.canon_readTrap h _ _ _ _

theorem State.canon_tileTrap {s : State} (h : s.Canon) (c : Nat) (p : Pend) (thr : List Nat) (base : Nat) (pc : PC) :
    (s.tileTrap c p thr base pc).Canon :=
  State.canon_raiseFor (State.Canon.of_mem (s := s) h (State.setAside_mem ..)) _ _ _ _ _

theorem State.canon_performPend {s : State} (h : s.Canon) (c : Nat) (p : Pend) (a : Access) (g : Tgt) :
    (s.performPend c p a g).Canon := by
  unfold State.performPend
  dsimp only
  split
  · refine State.Canon.of_mem ?_ (State.writeBack_mem ..)
    have h1 : ((s.mesh c g).rmw c p.slot a g).2.Canon := State.canon_rmw (h.of_mem (State.mesh_mem ..)) _ _ _ _
    split
    · exact h1.of_mem (State.dropL1_mem ..)
    · exact h1
  · exact h.of_mem (by simp)

/-- Performing an access and all that comes before it keeps memory canonical. -/
theorem State.canon_perform {c : Nat} (f u : Nat) {s : State} (h : s.Canon) : (State.perform c f u s).Canon := by
  induction f generalizing u s with
  | zero => exact h
  | succ f ih =>
    unfold State.perform
    split
    · exact h
    · extract_lets s1
      have h1 : s1.Canon := State.canon_foldl (fun s u hs => ih u hs) _ h
      clear_value s1
      split
      · exact h1
      · split
        · exact State.canon_performStore h1 _ _
        · split
          · split
            · split
              · extract_lets mark older s2 bad
                have h2 : s2.Canon := State.canon_foldl (fun s u hs => ih u hs) _ h1
                split
                · exact h2
                · exact State.canon_poisonTrap h2 _ _ _ _
              · refine State.canon_foldl (fun s q hs => ?_) _ h1
                split
                · exact State.canon_performPend hs _ _ _ _
                · exact hs
            · exact h1
          · exact h1

theorem State.canon_performAcc {s : State} (h : s.Canon) (c u : Nat) : (s.performAcc c u).Canon := State.canon_perform _ _ h

theorem State.canon_drain {s : State} (h : s.Canon) (c slot : Nat) (ts : List Nat) (f : OutAcc → Bool) :
    (s.drain c slot ts f).Canon :=
  State.canon_foldl (fun _ u hs => State.canon_performAcc hs c u) _ h

theorem State.canon_drainLs {s : State} (h : s.Canon) (c slot : Nat) (ts : List Nat) : (s.drainLs c slot ts).Canon :=
  State.canon_drain h _ _ _ _

theorem State.canon_drainWrites {s : State} (h : s.Canon) (c slot : Nat) (ts : List Nat) :
    (s.drainWrites c slot ts).Canon := State.canon_drain h _ _ _ _

theorem State.canon_performTile {s : State} (h : s.Canon) (c : Nat) (p : Pend) : (s.performTile c p).Canon := by
  unfold State.performTile
  split
  · split
    · exact h
    · extract_lets before s1
      have h1 : s1.Canon := State.canon_foldl (fun _ u hs => State.canon_performAcc hs c u) _ h
      clear_value s1
      split
      · exact h1
      · split
        · split
          · exact State.canon_foldl (fun _ u hs => State.canon_performAcc hs c u) _ h1
          · rename_i s2 s3 _ _ _ _
            have h2 : s2.Canon := State.canon_foldl (fun _ u hs => State.canon_performAcc hs c u) _ h1
            refine State.canon_tileTrap ?_ _ _ _ _ _
            simp only [s3]
            split
            · exact h2.of_mem (State.eroPoison_mem ..)
            · exact h2
        · refine State.Canon.of_mem ?_ ((State.unclaim_mem ..).trans (State.writeBack_mem ..))
          refine State.canon_foldl (fun s q hs => ?_) _ h1
          dsimp only
          refine State.Canon.of_mem hs ((State.modCore_mem ..).trans ?_)
          split
          · exact State.readOn_mem ..
          · rfl
  · exact h

theorem State.canon_completeIssued {s : State} (h : s.Canon) (c slot : Nat) : (s.completeIssued c slot).Canon := by
  unfold State.completeIssued
  extract_lets s1
  have h1 : s1.Canon := State.canon_foldl (fun s p hs => by split <;> exact hs) _ h
  split
  · exact h1
  · exact State.canon_foldl (fun s p hs => State.canon_performTile hs c p) _ (State.canon_drain h1 _ _ _ _)

/-- Taking a trap keeps memory canonical. -/
theorem State.canon_takeTrap {s : State} (h : s.Canon) (c slot : Nat) : (s.takeTrap c slot).Canon := by
  unfold State.takeTrap
  extract_lets s1
  have h1 : s1.Canon := State.canon_completeIssued h c slot
  clear_value s1
  dsimp only
  repeat' split
  all_goals first
    | exact h1
    | exact State.canon_fatal h1 _ _ _ _

/-- Returning from a trap keeps memory canonical if the replay of parked accesses does. -/
theorem State.canon_endTrap {s : State} (h : s.Canon) (c slot : Nat) (skip : Bool) {replay : State → PFault → State}
    (hr : ∀ s f, s.Canon → (replay s f).Canon) : (s.endTrap c slot skip replay).Canon := by
  have h0 : (s.completeIssued c slot).Canon := State.canon_completeIssued h c slot
  unfold State.endTrap
  extract_lets s0
  change State.Canon s0 at h0
  clear_value s0
  split
  · exact h0
  · split
    · exact h0
    · rename_i tm _ tr _
      extract_lets hs r left s1 s2 mine s3 s4 s5 s6 past move s7 s8 s9
      have h1 : s1.Canon := State.canon_foldl (fun _ u hs => hs.of_mem (State.unclaim_mem ..)) _ h0
      have h4 : s4.Canon := State.canon_foldl (fun _ u hs => hs.of_mem (State.dropParked_mem ..)) _ (s := s3) h1
      have h6 : s6.Canon := h4
      have h7 : s7.Canon := by
        simp only [s7, move]
        repeat' split
        all_goals first
          | exact h6
          | exact State.Canon.of_mem h6 (by simp)
      have h9 : s9.Canon := by
        have h8 : s8.Canon := h7.of_mem (State.restoreGroups_mem ..)
        simp only [s9]
        split
        · exact h8
        · exact State.Canon.of_mem h8 (by simp)
      split
      · split
        · exact h9.of_mem (by simp)
        · exact hr _ _ h9
      · exact h9

end Sys2Proof.Machine
end

