-- ==== Sys2Proof/Tests/Slice0.lean ====
section
/-! SUPPORT. Tests: ill-formed terms are refused; words written out from the encoding tables decode; one step on small
states gives what the manual's examples say; and, for each statement, states and operands that meet its hypotheses
(`witness_…`). Expected values come from the manual's tables and worked examples or were worked out from them by hand. -/

namespace Sys2Proof.Tests

set_option Elab.async false

open Sys2Proof Sys2Proof.Machine

/-! ## Small states -/

/-- Guard p0, no hints. -/
def h0 : Hdr := { g := { neg := false, p := 0 }, ht := { stall := 0, yld := false, post := 0, need := 0, fwd := false } }
/-- A header with every field set. -/
def h1 : Hdr := { g := { neg := true, p := 5 }, ht := { stall := 3, yld := true, post := 2, need := 0x2D, fwd := true } }

/-- Core 0's one team of 32 threads and 64 registers (privileged context 0) issues the word at 0x10000; `mem` are the
members of its issue group; `f` changes the team. -/
def issuing (mem : List Nat) (f : Team → Team := id) (mm : Memory := []) : State :=
  let k := wordCore Core.reset 1
  { State.reset with
    mem := mm
    cores := [(0, { k with teams := [(0, f (wordTeam 1))], groups := k.groups.map fun g => { g with mem := mem } })]
    ctxs := [(0, wordCtx)], uid := 2
    cur := some { core := 0, slot := 0, gid := 1, pc := BitVec.ofNat 57 wordVa, mem := mem, share := none } }
def two : List Nat := [0, 5]
def demo : State := issuing two
def demo1 : State := issuing [0]
/-- The issue that stands in such a state. -/
def at' (s : State) (mem : List Nat) : Iss :=
  { core := 0, slot := 0, gid := 1, pc := BitVec.ofNat 57 wordVa, mem := mem, ts := mem,
    tm := (s.team? 0 0).getD (wordTeam 1), priv := true, now := (s.core 0).now, share := none
    lanes := match (s.core 0).groups with
      | g :: _ => g.lanes
      | [] => [] }

/-- A word with one guard of its own. -/
def single (i : Instr) : Bool :=
  match i with
  | .pairWord .. => false
  | _ => true

/-- The issue stands in the state: what `AtIssue` and the first premise of `Issues` ask of a word with one guard. -/
def stands (g : Guard) (s : State) (w : Iss) : Bool :=
  decide (s.iss g = some w) && ((s.core w.core).groups.all fun x => x.gid != w.gid || x.slot == w.slot) && !w.ts.isEmpty
/-- The other premises of `Issues`. -/
def passes (i : Instr) (h : Hdr) (falls : Iss → List Nat) (s : State) (w : Iss) : Bool :=
  single i && (w.oob i (usesUnder (s.core w.core).eng.conf i) ((s.core w.core).eng.conf.map TileCfg.count)).isEmpty
    && (w.past (falls w)).isEmpty && (w.badRegs h.g i (usesUnder (s.core w.core).eng.conf i)).isEmpty

theorem admits_single {i : Instr} {g : Guard} (h : single i = true) : admits i g = fun tm t => tm.guard g t := by
  unfold admits
  split
  · cases h
  · rfl

theorem at_issue_of_check {i : Instr} {g : Guard} {s : State} {w : Iss} (n : single i = true) (a : stands g s w = true) : AtIssue i g s w := by
  simp only [stands, Bool.and_eq_true, decide_eq_true_eq, List.all_eq_true, Bool.or_eq_true, bne_iff_ne, ne_eq, beq_iff_eq] at a
  exact ⟨by rw [admits_single n]; exact a.1.1, fun q hq hg => (a.1.2 q hq).resolve_left fun n => n hg⟩

theorem issues_of_check {i : Instr} {h : Hdr} {falls : Iss → List Nat} {s : State} {w : Iss} (a : stands h.g s w = true)
    (b : passes i h falls s w = true) : Issues i h falls s w := by
  simp only [passes, Bool.and_eq_true, List.isEmpty_iff] at b
  obtain ⟨⟨⟨n, d⟩, e⟩, f⟩ := b
  refine ⟨at_issue_of_check n a, ?_, d, e, f⟩
  simp only [stands, Bool.and_eq_true, Bool.not_eq_true', List.isEmpty_eq_false_iff] at a
  exact a.2

/-- All of a list of words issue in a state. -/
theorem issue_of_all {f s w} (l : List Instr) (a : stands h0.g s w = true) (c : (l.all fun i => passes i h0 f s w) = true) :
    ∀ i, i ∈ l → Issues i h0 f s w :=
  fun i hi => issues_of_check a (List.all_eq_true.mp c i hi)

theorem demo_stands : stands h0.g demo (at' demo two) = true := by decide +kernel
theorem demo1_stands : stands h0.g demo1 (at' demo1 [0]) = true := by decide +kernel

/-! ## States that meet the hypotheses of each statement -/

def v (n : BitVec 11) : Opd := .vec n
def sc (n : BitVec 10) : Opd := .scl n
def p (n : Fin 48) : Opd := .prd n

theorem witness_VectorArithmetic : ∀ i, i ∈ ([.vadd h0 .i32 false (v 1) (v 2) (v 3), .vsub h0 .n8 true (v 1) (v 2) (.imm 5),
    .vmul h0 .i16 false (v 63) (sc 63) (.idx 3), .vmulh h0 .n64 (v 2) (v 4) (v 6), .vmad h0 .i32 false (v 1) (v 2) (v 3) (v 4),
    .vmadw h0 .n32 false (v 2) (v 4) (v 5) (v 6)] : List Instr) → Issues i h0 allFall demo (at' demo two) :=
  issue_of_all _ demo_stands (by decide +kernel)

theorem witness_VectorSelectLogic : ∀ i, i ∈ ([.vmin h0 .i8 (v 1) (v 2) (v 3), .vmax h0 .i8 (v 1) (v 2) (v 3),
    .vabs h0 .i32 true (v 1) (v 2), .vneg h0 .n16 false (v 1) (v 2), .vsel h0 .i32 (v 1) (v 2) (v 3) (v 4),
    .vmov h0 .i64 (v 62) (v 0), .vand h0 .n32 (v 1) (v 2) (v 3), .vor h0 .n32 (v 1) (v 2) (v 3),
    .vxor h0 .n32 (v 1) (v 2) (v 3), .vnot h0 .n32 (v 1) (v 2)] : List Instr) → Issues i h0 allFall demo (at' demo two) :=
  issue_of_all _ demo_stands (by decide +kernel)

theorem witness_VectorBits : ∀ i, i ∈ ([.vshl h0 .n32 (v 1) (v 2) (v 3), .vshr h0 .n32 (v 1) (v 2) (v 3),
    .vsra h0 .i32 (v 1) (v 2) (v 3), .vrot h0 .n8 (v 1) (v 2) (v 3), .vbfe h0 .i32 (v 1) (v 2) (v 3) (v 4),
    .vbfi h0 .n32 31 1 (v 1) (v 2) (v 3), .vpopc h0 .n64 (v 1) (v 2), .vclz h0 .n8 (v 1) (v 2), .vctz h0 .n8 (v 1) (v 2),
    .vbrev h0 .n16 (v 1) (v 2), .vlea h0 .i32 7 (v 2) (v 4) (v 1), .vaddc h0 (v 2) (v 3) (v 4) (v 5),
    .vsubb h0 (v 2) (v 3) (v 4) (v 5), .vprmt h0 (v 1) (v 2) (v 3) (v 4), .vmovi h0 .thr 7 (v 1),
    .vcmp h0 .i32 .lt (p 1) (v 1) (v 2)] : List Instr) → Issues i h0 allFall demo (at' demo two) :=
  issue_of_all _ demo_stands (by decide +kernel)

/-- ATRAP is set; v1 is +∞, v2 −∞, v3 a NaN and v4 0 in every thread; s1 is a NaN, s2 is 2 and s3 2^57. -/
def trapping : State := issuing two fun tm =>
  { tm with atrap := true
            threads := tm.threads.map fun e => (e.1, { e.2 with regs := [(1, 0x7F800000), (2, 0xFF800000), (3, 0x7FC00000)] })
            hgs := [(0, { wordHg with scl := [(1, 0x7FC00000), (2, 2), (3, 0x200000000000000)] })] }
theorem trapping_stands : stands h0.g trapping (at' trapping two) = true := by decide +kernel

theorem witness_VectorDivideRandom :
    (∀ i, i ∈ ([.vdiv h0 .i32 false true (v 1) (v 2) (.imm 3), .vrng h0 (v 1) (v 2) (v 4) (v 6),
      .vrngf h0 (v 1) (v 2) (v 4) (v 6)] : List Instr) → Issues i h0 allFall demo (at' demo two)) ∧
    (at' demo two).tm.atrap = false ∧
    Issues (.vdiv h0 .i32 false true (v 1) (v 2) (v 4)) h0 allFall trapping (at' trapping two) ∧
    (at' trapping two).tm.atrap = true ∧ ∃ th, th ∈ (at' trapping two).ts ∧ (at' trapping two).num th .i32 (v 4) = 0 :=
  ⟨issue_of_all _ demo_stands (by decide +kernel), by decide +kernel, issues_of_check trapping_stands (by decide +kernel),
   by decide +kernel, 0, by decide +kernel, by decide +kernel⟩

theorem witness_FloatArithmetic :
    (∀ i, i ∈ ([.vfadd h0 .f32 .rne false (v 5) (v 1) (v 2), .vfsub h0 .f32 .rup true (v 5) (v 1) (v 1),
      .vfmul h0 .bf16 .rtz false (v 5) (v 1) (v 2), .vffma h0 .f32 .rna false (v 5) (v 1) (v 2) (v 4),
      .vfdot2 h0 .f16 .rne false (v 5) (v 1) (v 2) (v 4)] : List Instr) → Issues i h0 allFall trapping (at' trapping two)) ∧
    (at' trapping two).tm.atrap = true ∧
    ∃ th, th ∈ (at' trapping two).ts ∧ makesNaN [(at' trapping two).fl th .f32 .rne false (v 1), (at' trapping two).fl th .f32 .rne false (v 2)]
      (FVal.sum .rne [(at' trapping two).fl th .f32 .rne false (v 1), (at' trapping two).fl th .f32 .rne false (v 2)]) :=
  ⟨issue_of_all _ trapping_stands (by decide +kernel), by decide +kernel, 0, by decide +kernel, by decide +kernel,
   by decide +kernel⟩

theorem witness_FloatSelectRound : ∀ i, i ∈ ([.vfmin h0 .f16 (v 1) (v 2) (v 3), .vfmax h0 .f32 (v 1) (v 2) (v 3),
    .vfcmp h0 .f32 .uno (p 1) (v 1) (v 2), .vfclass h0 .e2m1 (v 1) (v 2), .vfround h0 .f32 .rup (v 1) (v 2),
    .vfscale h0 .bf16 .rne false (v 1) (v 2) (v 3), .vfunpk h0 .e4m3 true (v 2) (v 1)] : List Instr) →
    Issues i h0 allFall demo (at' demo two) :=
  issue_of_all _ demo_stands (by decide +kernel)

theorem witness_FloatConversions :
    (∀ i, i ∈ ([.vfcvt h0 .e2m1 .rne false .f32 (v 5) (v 3), .vfcvti h0 .f32 .rne false false .i32 (v 5) (v 3),
      .vfcvti h0 .f32 .rne false true .i64 (v 5) (v 6), .vfpack h0 .e4m3 .rne false true (v 5) (v 1) (v 2)] : List Instr) →
      Issues i h0 allFall trapping (at' trapping two)) ∧
    (at' trapping two).tm.atrap = true ∧ ((at' trapping two).fl 0 .f32 .rne false (v 3)).isNaN = true ∧
    (f2i ((at' trapping two).fl 0 .f32 .rne false (v 3)) .i32 .rne).2 = true :=
  ⟨issue_of_all _ trapping_stands (by decide +kernel), by decide +kernel, by decide +kernel, by decide +kernel⟩

theorem witness_Transcendentals :
    (∀ i, i ∈ ([.vfrcp h0 .f32 .rne false false (v 5) (v 4), .vfrsq h0 .f32 .rne false false (v 5) (v 4),
      .vfsqrt h0 .f32 .rne false false (v 5) (v 4), .vfdiv h0 .f32 .rne false false (v 5) (v 4) (v 4),
      .vfexp2 h0 .f16 .rne false true (v 5) (v 4), .vflog2 h0 .f32 .rne false false (v 5) (v 4),
      .vfsin h0 .f32 .rne false false (v 5) (v 4), .vfcos h0 .f32 .rne false false (v 5) (v 4),
      .vftanh h0 .f32 .rne false false (v 5) (v 4), .vfsigm h0 .f32 .rne false false (v 5) (v 4),
      .vfgelu h0 .bf16 .rne true false (v 5) (v 4), .vfsilu h0 .f32 .rne false false (v 5) (v 4)] : List Instr) →
      Issues i h0 allFall trapping (at' trapping two)) ∧
    (at' trapping two).tm.atrap = true ∧
    (transFn .div .f32 .rne false false ((at' trapping two).tm.fval 0 .f32 .rne false (v 4))
      ((at' trapping two).tm.fval 0 .f32 .rne false (v 4))).2 = true :=
  ⟨issue_of_all _ trapping_stands (by decide +kernel), by decide +kernel, by decide +kernel⟩

theorem witness_ScalarArithmetic : ∀ i, i ∈ ([.sadd h0 .i32 false (sc 1) (sc 2) (sc 3), .ssub h0 .i32 false (.idx 1) (sc 2) (sc 3),
    .smul h0 .i32 false (sc 1) (sc 2) (sc 3), .smad h0 .i64 true (sc 1) (sc 2) (sc 3) (sc 4), .sand h0 .i32 (sc 1) (sc 2) (sc 3),
    .sor h0 .i32 (sc 1) (sc 2) (sc 3), .sxor h0 .i32 (sc 1) (sc 2) (sc 3), .sshl h0 .n32 (sc 1) (sc 2) (sc 3),
    .sshr h0 .n32 (sc 1) (sc 2) (sc 3), .ssra h0 .i32 (sc 1) (sc 2) (sc 3), .smin h0 .i32 (sc 1) (sc 2) (sc 3),
    .smax h0 .i32 (sc 1) (sc 2) (sc 3), .ssel h0 .i32 (sc 1) (sc 2) (sc 3) (sc 4), .smov h0 .n64 (.idx 3) (sc 63),
    .smovi h0 .hi 7 (sc 1)] : List Instr) → Issues i h0 allFall demo (at' demo two) :=
  issue_of_all _ demo_stands (by decide +kernel)

theorem witness_ScalarFloatCompare :
    (∀ i, i ∈ ([.scmp h0 .i32 .lt (p 1) (sc 1) (sc 2), .sfcmp h0 .f32 .lt (p 1) (sc 1) (sc 2), .sfadd h0 .f32 .rne (sc 1) (sc 2) (sc 3),
      .sfmul h0 .f32 .rne (sc 1) (sc 2) (sc 3), .sffma h0 .f32 .rne (sc 1) (sc 2) (sc 3) (sc 4), .sfcvt h0 .f32 .rne (.f2f .f16) (sc 1) (sc 2),
      .sfcvt h0 .f32 .rne (.f2i .i32) (sc 1) (sc 2), .sfcvt h0 .f32 .rne (.i2f .i32) (sc 1) (sc 2)] : List Instr) →
      Issues i h0 allFall demo (at' demo two)) ∧ (at' demo two).tm.atrap = false :=
  ⟨issue_of_all _ demo_stands (by decide +kernel), by decide +kernel⟩

theorem witness_ScalarMoves : ∀ i, i ∈ ([.sread h0 (sc 1) (.spc 14), .vtos h0 31 false true (sc 1) (v 2), .vtos h0 0 true false (sc 1) (v 2),
    .stov h0 true (v 2) (sc 1)] : List Instr) → Issues i h0 allFall demo (at' demo two) :=
  issue_of_all _ demo_stands (by decide +kernel)

theorem witness_PredicateWords : ∀ i, i ∈ ([.pand h0 true false (p 1) (p 2) (p 3), .por h0 true false (p 47) (p 2) (p 3),
    .pxor h0 true false (p 1) (p 2) (p 3), .pnot h0 (p 1) (p 2), .pmov h0 (p 0) (p 2), .pset h0 true (p 1) (v 2)] : List Instr) →
    Issues i h0 allFall demo (at' demo two) :=
  issue_of_all _ demo_stands (by decide +kernel)

/-- A half of a pair word under guard p0. -/
def half (o : Hop) (d a b : BitVec 10) : Half := { hop := o, d := d, a := a, b := b, neg := false, p := 0 }

theorem witness_PairWord :
    Issues (.pairWord 0 false 0 (half .add 1 2 3) (half .fmul 9 10 11)) h0 allFall demo (at' demo two) ∧
    Half.out (half .add 1 2 3) (at' demo two).tm.regs = false ∧ Half.out (half .fmul 9 10 63) (at' demo two).tm.regs = false ∧
    (at' demo two).tm.atrap = false ∧
    AtIssue (.pairWord 0 false 0 (half .add 1 2 3) (half .fmul 64 10 11)) h0.g demo (at' demo two) ∧ (at' demo two).ts ≠ [] ∧
    Half.out (half .fmul 64 10 11) (at' demo two).tm.regs = true ∧ (at' demo two).half (half .fmul 64 10 11) ≠ [] :=
  ⟨⟨⟨by decide +kernel, by decide +kernel⟩, by decide +kernel, by decide +kernel, rfl, rfl⟩, rfl, rfl, rfl,
   ⟨by decide +kernel, by decide +kernel⟩, by decide +kernel, rfl, by decide +kernel⟩

/-- Thread 0 waits in a collector of a `vballot`; every other thread of the team has exited. -/
def collecting : State := issuing [] fun tm =>
  { tm with threads := tm.threads.map fun e => (e.1, { e.2 with st := if e.1 = 0 then .waiting (.collect e.2.pc) else .exited })
            colls := [{ hg := 0, pc := BitVec.ofNat 57 wordVa, ins := .vballot h0 false (sc 1) (p 0), mem := [(0, true, [0, 0, 0, 0])] }] }

theorem witness_CrossLaneCollect : ∀ i, i ∈ ([.vshfl h0 .idx 0 true (v 2) (v 4) (sc 1) (some (p 1)), .vvote h0 .ge (p 1) (p 2) (some (sc 1)),
    .vballot h0 false (sc 1) (p 1), .vredux h0 .add (.int .i32) false .rne (v 1) (v 2), .vscan h0 .max .f32 false true .rne (v 1) (v 2),
    .vmatch h0 true (v 1) (v 2), .vlanemap h0 (v 1) (.imm 3)] : List Instr) → Reaches i h0 demo (at' demo two) := by
  have a := demo_stands
  have b : (([.vshfl h0 .idx 0 true (v 2) (v 4) (sc 1) (some (p 1)), .vvote h0 .ge (p 1) (p 2) (some (sc 1)),
    .vballot h0 false (sc 1) (p 1), .vredux h0 .add (.int .i32) false .rne (v 1) (v 2), .vscan h0 .max .f32 false true .rne (v 1) (v 2),
    .vmatch h0 true (v 1) (v 2), .vlanemap h0 (v 1) (.imm 3)] : List Instr).all fun i => single i && decide ((at' demo two).oob i i.uses none = [] ∧
      (at' demo two).past (at' demo two).mem = [] ∧ (at' demo two).badRegs h0.g i i.uses = [])) = true := by decide +kernel
  intro i hi
  have c := List.all_eq_true.mp b i hi
  rw [Bool.and_eq_true, decide_eq_true_eq] at c
  exact ⟨at_issue_of_check c.1 a, c.2.1, c.2.2.1, c.2.2.2⟩

theorem witness_CollectorFires : ∃ tm c ht, collecting.team? 0 0 = some tm ∧
    tm.colls.find? (fun c => c.hg == 0 && c.pc == BitVec.ofNat 57 wordVa) = some c ∧ tm.mayFire c = true ∧ crossHints c.ins = some ht :=
  ⟨_, _, _, rfl, rfl, by decide +kernel, rfl⟩

theorem witness_Transfers :
    (∀ i, i ∈ ([.bra h0 1, .call h0 (-4) (v 2), .brx h0 (sc 0), .ret h0 (sc 0), .callx h0 (v 2) (sc 0)] : List Instr) →
      Issues i h0 falseFall demo (at' demo two)) ∧
    WellFormed (.call h0 (-4) (v 2)) = true ∧ WellFormed (.callx h0 (v 2) (sc 0)) = true ∧
    (∀ th, th ∈ (at' demo two).ts → (at' demo two).tm.n64 th (sc 0) % 4 = 0 ∧ (at' demo two).tm.n64 th (sc 0) < 2 ^ 57) ∧
    (∀ i, i ∈ ([.brx h0 (sc 2), .brx h0 (sc 3)] : List Instr) → Issues i h0 falseFall trapping (at' trapping two)) ∧
    (at' trapping two).tm.n64 0 (sc 2) % 4 ≠ 0 ∧ (at' trapping two).tm.n64 0 (sc 3) % 4 = 0 ∧ 2 ^ 57 ≤ (at' trapping two).tm.n64 0 (sc 3) :=
  ⟨issue_of_all _ demo_stands (by decide +kernel), by decide +kernel, by decide +kernel, by decide +kernel,
   issue_of_all _ trapping_stands (by decide +kernel), by decide +kernel, by decide +kernel, by decide +kernel⟩

theorem witness_GroupWords :
    (∀ i, i ∈ ([.reform h0, .yield h0, .nop h0, .rejoin h0 (sc 1), .swtrap h0 8191, .bkpt h0 0] : List Instr) →
      Issues i h0 allFall demo (at' demo two)) ∧ Issues (.exit h0) h0 falseFall demo (at' demo two) ∧ (at' demo two).tm.trap = none ∧
    (∀ ts, ts = two ∨ ts = List.range 32 →
      let s := demo.modCore 0 fun k => { k with exits := [(0, ts)] }
      ∃ tm, (s.core 0).exits = [(0, ts)] ∧ s.team? 0 0 = some tm ∧ tm.fin = false) :=
  ⟨issue_of_all _ demo_stands (by decide +kernel), issues_of_check demo_stands (by decide +kernel), by decide +kernel,
   fun _ _ => ⟨_, rfl, rfl, rfl⟩⟩

/-! ### Memory -/

/-- Tables of context 0 that map 2 MiB from address 0 at 2 MiB, readable, writable, executable, for privileged contexts. -/
def tables : Memory := [(0x1000, 0x01), (0x1001, 0x20), (0x2000, 0x01), (0x2001, 0x30), (0x3000, 0x01), (0x3001, 0x40),
  (0x4000, 0x1F), (0x4002, 0x20)]
/-- Thread 0 issues; s1 is 0x10000, s2 49,148 and s3 0x10040; a valid sync record stands at 0x10040. -/
def mapped : State := issuing [0] (fun tm => { tm with hgs := [(0, { wordHg with scl := [(1, 0x10000), (2, 49148), (3, 0x10040)] })] })
  (tables ++ [(0x210040, 0x01), (0x210058, 0x04)])
theorem mapped_stands : stands h0.g mapped (at' mapped [0]) = true := by decide +kernel
/-- The request at 0x10000. -/
def req0 : Req := { t := 0, va := 0x10000, park := [0] }

/-- A request that the tables map translates. -/
theorem translates_of_check {s w k size r pa} (c : (decide (r.va % size = 0 ∧ r.va < 2 ^ 57)
    && decide ((State.lookupAll s w.core w.tm.ctx k size [r] []).1 = [(r, .ok pa)]) && !s.replaying w.tm.ctx && !s.migrating w.tm.ctx r.va) = true) :
    Translates s w k size [r] [(r, pa)] := by
  simp only [Bool.and_eq_true, decide_eq_true_eq, Bool.not_eq_true'] at c
  refine ⟨fun q hq => ?_, c.1.1.2, c.1.2, fun q hq => ?_⟩ <;> (rw [List.mem_singleton] at hq; subst hq)
  exacts [c.1.1.1, c.2]

theorem witness_GlobalReadsIssue :
    (∀ i, i ∈ ([.ld h0 .b128 .sys .strm (v 4) (sc 1) (.imm 0), .ldro h0 .b8 .keep (v 4) (sc 1) (.imm 0), .sld h0 .b64 .die .dflt (sc 5) (sc 1) (.imm 0),
      .atom h0 .cas .n64 true .sys (v 4) (sc 1) (v 6), .red h0 .add .f16 false .die (sc 1) (v 6)] : List Instr) →
      Issues i h0 allFall mapped (at' mapped [0])) ∧
    ((at' mapped [0]).reqs fun t => intBits 64 (((at' mapped [0]).tm.n64 t (sc 1) : Int) + IType.val .i32 ((at' mapped [0]).tm.n32 t (.imm 0)))) = [req0] ∧
    ((at' mapped [0]).hgReqs fun t => ((at' mapped [0]).tm.n64 t (sc 1) + (at' mapped [0]).tm.val t (.imm 0) 1) % 2 ^ 64) = [req0] ∧
    ((at' mapped [0]).reqs fun t => (at' mapped [0]).tm.n64 t (sc 1)) = [req0] ∧
    Translates mapped (at' mapped [0]) .load 16 [req0] [(req0, 0x210000)] ∧ Translates mapped (at' mapped [0]) .atomic 8 [req0] [(req0, 0x210000)] :=
  ⟨issue_of_all _ mapped_stands (by decide +kernel), by decide +kernel, by decide +kernel, by decide +kernel,
   translates_of_check (by decide +kernel), translates_of_check (by decide +kernel)⟩

theorem witness_GlobalStoresIssue :
    (∀ i, i ∈ ([.st h0 .b128 .sys .strm (sc 1) (.imm 0) (v 4), .sst h0 .b32 .die .dflt (sc 1) (.imm 0) (sc 5)] : List Instr) →
      Issues i h0 allFall mapped (at' mapped [0])) ∧
    Translates mapped (at' mapped [0]) .store 16 [req0] [(req0, 0x210000)] :=
  ⟨issue_of_all _ mapped_stands (by decide +kernel), translates_of_check (by decide +kernel)⟩

/-- One thread's scratchpad access is let through. -/
theorem local_of_check {s w size addr th} (t : w.ts = [th]) (c : (decide (addr th % size = 0 ∧ addr th + size ≤ w.tm.loc)
    && !(s.core w.core).sbHit false w.slot (addr th) size false && !s.badTgt (.scr w.tref (addr th)) size
    && ((s.core w.core).outs.all fun y => !w.ahead s true y) && !s.replaying w.tm.ctx) = true) :
    LocalOk s w size addr := by
  simp only [Bool.and_eq_true, decide_eq_true_eq, Bool.not_eq_true'] at c
  refine ⟨?_, ?_, ?_, fun y hy => by simpa using List.all_eq_true.mp c.1.2 y hy, c.2⟩ <;>
    (intro q hq; rw [t, List.mem_singleton] at hq; subst hq)
  exacts [c.1.1.1.1, c.1.1.1.2, c.1.1.2]

theorem witness_ScratchpadWords :
    (∀ i, i ∈ ([.stl h0 .b32 (sc 2) (.imm 0) (v 4), .ldl h0 .b32 (v 4) (sc 2) (.imm 0), .atoml h0 .max .i32 false false (v 4) (sc 2) (v 6)] : List Instr) →
      Issues i h0 allFall mapped (at' mapped [0])) ∧
    WellFormed (.ldl h0 .b32 (v 4) (sc 2) (.imm 0)) = true ∧ WellFormed (.atoml h0 .max .i32 false false (v 4) (sc 2) (v 6)) = true ∧
    (mapped.ctx? (at' mapped [0]).tm.ctx).map (fun x => x.jrn.lvl) ≠ some 2 ∧
    LocalOk mapped (at' mapped [0]) 4 (fun th => (at' mapped [0]).tm.n32 th (sc 2)) ∧ (at' mapped [0]).tm.n32 0 (sc 2) + 4 = (at' mapped [0]).tm.loc :=
  ⟨issue_of_all _ mapped_stands (by decide +kernel), by decide +kernel, by decide +kernel, by decide +kernel,
   local_of_check (th := 0) rfl (by decide +kernel), by decide +kernel⟩

/-- A cluster of two teams, of rank 0 on core 0 and of rank 1 on core 1; s1 is a cluster address of rank 1, s2 of rank 0. -/
def clustered : State :=
  let s := issuing [0] fun tm => { tm with hgs := [(0, { wordHg with scl := [(1, 0x200010), (2, 49136)] })] }
  let g : Grid := { ctx := 0, die := 0, record := List.replicate 17 0 ++ [2, 1] ++ List.replicate 45 0, recAddr := 0, detlvl := 0, ordinal := 0,
                    unplaced := [], placed := [], finished := [], bars := [], node := none, packet := none, complete := false }
  { s with cores := s.cores ++ [(1, { Core.reset with ctx := some 0, teams := [(3, { wordTeam 9 with wid := 7, rank := 1 })] })], grids := [(0, g)] }
theorem clustered_stands : stands h0.g clustered (at' clustered [0]) = true := by decide +kernel

theorem witness_ClusterWords :
    (∀ i, i ∈ ([.ldcl h0 .b32 (v 4) (sc 1) (.imm 0), .stcl h0 .b32 (sc 1) (.imm 0) (v 4), .atoml h0 .max .i32 false true (v 4) (sc 1) (v 6),
      .stcl h0 .b32 (sc 2) (.imm 0) (v 4), .ldcl h0 .b32 (v 4) (sc 2) (.imm 0)] : List Instr) →
      Issues i h0 allFall clustered (at' clustered [0])) ∧
    clustered.replaying 0 = false ∧ clustered.clusterOk (at' clustered [0]).tm 0x200010 4 = true ∧
    clustered.clusterTgt (at' clustered [0]) 0x200010 = some (.scr { core := 1, slot := 3, wid := 7 } 16) ∧
    WellFormed (.ldcl h0 .b32 (v 4) (sc 2) (.imm 0)) = true ∧
    49136 / 2 ^ 21 = (at' clustered [0]).tm.rank ∧ (at' clustered [0]).tm.rank < clustered.clusterSize (at' clustered [0]).tm.grid ∧
    LocalOk clustered (at' clustered [0]) 4 (fun th => (at' clustered [0]).tm.n64 th (sc 2)) :=
  ⟨issue_of_all _ clustered_stands (by decide +kernel), by decide +kernel, by decide +kernel, by decide +kernel, by decide +kernel,
   by decide +kernel, by decide +kernel, local_of_check (th := 0) rfl (by decide +kernel)⟩

theorem witness_WeightLoadPrefetch :
    (∀ i, i ∈ ([.ldw h0 .b64 (v 4) (sc 1) (.imm 0), .pref h0 true .keep (sc 1) (.imm 0)] : List Instr) → Issues i h0 allFall demo1 (at' demo1 [0])) ∧
    ∀ th, th ∈ (at' demo1 [0]).ts → (at' demo1 [0]).tm.n64 th (sc 1) = 0 ∧ demo1.migrating (at' demo1 [0]).tm.ctx 0 = false :=
  ⟨issue_of_all _ demo1_stands (by decide +kernel), by decide +kernel⟩

theorem witness_AccessChecks :
    (∀ i, i ∈ ([.ld h0 .b32 .die .dflt (v 5) (sc 2) (.imm 0), .st h0 .b32 .die .dflt (sc 3) (.imm 0) (v 5), .atom h0 .add .n64 false .die (v 6) (sc 2) (v 8),
      .ldl h0 .b32 (v 5) (sc 2) (.imm 0), .stl h0 .b32 (.imm (-4)) (.imm 0) (v 5)] : List Instr) → Issues i h0 allFall trapping (at' trapping two)) ∧
    (at' trapping two).tm.gaddr 0 (sc 2) (.imm 0) % 4 ≠ 0 ∧ (at' trapping two).tm.laddr 0 (sc 2) (.imm 0) % 4 ≠ 0 ∧
    (at' trapping two).tm.gaddr 0 (sc 3) (.imm 0) % 4 = 0 ∧ ¬ (at' trapping two).tm.gaddr 0 (sc 3) (.imm 0) < 2 ^ 57 ∧
    (at' trapping two).tm.laddr 0 (.imm (-4)) (.imm 0) % 4 = 0 ∧
    ¬ (at' trapping two).tm.laddr 0 (.imm (-4)) (.imm 0) + 4 ≤ (at' trapping two).tm.loc ∧
    (let w := at' demo1 [0]
     Issues (.ld h0 .b32 .die .dflt (v 5) (sc 1) (.imm 0)) h0 allFall demo1 w ∧ w.mem = w.ts ∧ (∀ th, th ∈ w.ts → hgOf th = 0) ∧
     (∀ th, th ∈ w.ts → (Tab.get? w.tm.threads th).isSome) ∧
     (∀ e, e ∈ (State.lookupAll demo1 w.core w.tm.ctx .load 4 (w.reqs fun th => w.tm.gaddr th (sc 1) (.imm 0)) []).1 → e.2 = .fault) ∧
     (∀ th, th ∈ w.ts → demo1.migrating w.tm.ctx (w.tm.gaddr th (sc 1) (.imm 0)) = false) ∧
     ∃ x, demo1.ctx? w.tm.ctx = some x ∧ x.faults.length < Config.maxFaults) :=
  ⟨issue_of_all _ trapping_stands (by decide +kernel), by decide +kernel, by decide +kernel, by decide +kernel, by decide +kernel,
   by decide +kernel, by decide +kernel, issues_of_check demo1_stands (by decide +kernel), rfl, by decide +kernel, by decide +kernel,
   by decide +kernel, fun _ _ => rfl, _, rfl, by decide +kernel⟩

/-- A store of two bytes at 0x100 and a load of four from 0x200 by thread 0, neither performed, and a result of thread 0
that is computed and owed. -/
def inFlight : State :=
  let s := issuing []
  s.modCore 0 fun k =>
    { k with storeQ := [{ uid := 3, ins := 3, slot := 0, wid := 0, thr := 0, hg := 0, path := .ls, va := 0x100, tgt := .mem 0x100, data := [7, 9], pc := 0,
                          mem := [], parked := none, sc := .die, near := false, seen := false,
                          again := false, aside := false }]
             pends := [{ uid := 4, ins := 4, slot := 0, hg := 0, regs := [.v 0 1],
                         src := .load { path := .ls, thr := 0, va := 0x200, size := 4, sc := .die, ch := .dflt, act := .load [.v 0 1], pc := 0 } (.mem 0x200),
                         issuedAt := 0, missed := false, urgent := false, aside := false },
                       { uid := 5, ins := 5, slot := 0, hg := 0, regs := [.v 0 2], src := .vals [(.v 0 2, 7)] none, issuedAt := 0, missed := false,
                         urgent := false, aside := false },
                       { uid := 6, ins := 6, slot := 0, hg := 0, regs := [.v 0 3],
                         src := .load { path := .ls, thr := 0, va := 0x300, size := 8, sc := .die, ch := .dflt,
                                        act := .atom .add .n64 false 1 0 [.v 0 4, .v 0 5], pc := 0 } (.mem 0x300),
                         issuedAt := 0, missed := false, urgent := false, aside := false }] }

/-- An `ls` access of thread 0. -/
def access0 (u va n : Nat) (pure isSt : Bool) : OutAcc :=
  { uid := u, ins := u, thr := 0, slot := 0, path := some .ls, va := va, tgt := .mem va, size := n, pure := pure, narrow := false
    isSt := isSt, near := false, seen := false, again := false, elect := false, stuck := false }
/-- What `Performable` asks. -/
theorem performable_of_check {s : State} {c x} (a : (decide ((s.core c).outs.find? (fun y => y.uid == x.uid) = some x)
    && ((s.core c).outs.all fun y => !OutAcc.needs (s.core c).fences x y) && !x.stuck && !s.inPort c x.uid && !s.heldAt x.path x.ins x.tgt x.size) = true) :
    Performable s c x := by
  simp only [Bool.and_eq_true, decide_eq_true_eq, List.all_eq_true, Bool.not_eq_true'] at a
  exact ⟨a.1.1.1.1, a.1.1.1.2, a.1.1.2, a.1.2, a.2⟩

theorem witness_StorePerformed : ∃ e x, (inFlight.core 0).storeQ[0]? = some e ∧ (inFlight.core 0).storeQ.find? (fun q => q.uid == e.uid) = some e ∧
    e.parked = none ∧ e.tgt = .mem 0x100 ∧ inWindow 0x100 = false ∧ inFlight.poison = [] ∧ Performable inFlight 0 x ∧ x.uid = e.uid :=
  ⟨_, access0 3 0x100 2 false true,
   rfl, rfl, rfl, rfl, by decide +kernel, rfl, performable_of_check (by decide +kernel), rfl⟩

theorem witness_ResultsArrive :
    (∀ k, k < 2 → ∃ p a x tm pa, ((inFlight.core 0).pends.filter fun p => match p.src with
        | .load _ _ => true
        | .tile _ _ _ _ _ _ _ => true
        | _ => false)[k]? = some p ∧ p.src = .load a (.mem pa) ∧ (inFlight.core 0).pend? p.uid = some p ∧
      (∀ q, q ∈ (inFlight.core 0).storeQ → q.uid ≠ p.uid) ∧ Performable inFlight 0 x ∧ x.uid = p.uid ∧ inWindow pa = false ∧
      inFlight.team? 0 p.slot = some tm ∧ tm.trap = none ∧ Tab.get? (inFlight.core 0).l1 (pa / 64) = none ∧
      Tab.get? (inFlight.core 0).roCache (pa / 64) = none ∧ ((inFlight.ctx? tm.ctx).map fun y => y.jrn.lvl) ≠ some 2 ∧
      (inFlight.core 0).pends.filter (fun q => q.ins == p.ins) = [p] ∧ inFlight.late = [] ∧ inFlight.poison = [] ∧
      (∀ q, q ∈ (inFlight.core 0).storeQ → Tgt.overlaps (.mem pa) a.size q.tgt q.data.length = false) ∧
      (k = 0 → a.act = .load [.v 0 1]) ∧ (k = 1 → a.act = .atom .add .n64 false 1 0 [.v 0 4, .v 0 5])) ∧
    ∃ p tm, ((inFlight.core 0).pends.filter fun p => match p.src with
        | .vals _ none => true
        | _ => false)[0]? = some p ∧ p.src = .vals [(.v 0 2, 7)] none ∧ inFlight.team? 0 p.slot = some tm ∧ tm.trap = none := by
  refine ⟨fun k hk => ?_, _, _, rfl, rfl, rfl, rfl⟩
  match k, hk with
  | 0, _ => exact ⟨_, _, access0 4 0x200 4 true false,
      _, _, rfl, rfl, rfl, by decide +kernel, performable_of_check (by decide +kernel), rfl, by decide +kernel, rfl, rfl, rfl, rfl,
      by decide +kernel, by decide +kernel, rfl, rfl, by decide +kernel, fun _ => rfl, by decide⟩
  | 1, _ => exact ⟨_, _, access0 6 0x300 8 false false,
      _, _, rfl, rfl, rfl, by decide +kernel, performable_of_check (by decide +kernel), rfl, by decide +kernel, rfl, rfl, rfl, rfl,
      by decide +kernel, by decide +kernel, rfl, rfl, by decide +kernel, by decide, fun _ => rfl⟩

/-! ### Fences, barriers, commands -/

/-- Nothing of the core is outstanding. -/
theorem settled_of_check {s : State} {w : Iss} (c : (s.core w.core).outs = []) : Settled s w := by
  intro x hx
  rw [c] at hx
  cases hx
/-- A step that leaves the state raises no trap. -/
theorem guarded_of_same {s : State} {w : Iss} {f : State → State} (h : f s = s) : s.guarded w f = .ok s := by
  simp only [State.guarded, h]
  cases (s.team? w.core w.slot).bind fun tm => tm.trap <;> rfl
/-- Where no access is selected, none is performed. -/
theorem performed_of_none {s : State} {w : Iss} {f : OutAcc → Bool} (c : (s.core w.core).outs.filter f = []) : Performed s w f s := by
  simp only [Performed, State.performFirst]
  rw [guarded_of_same (by simp only [c]; rfl)]
  simp only [c]
  rfl
/-- The same of an `xfence`. -/
theorem xperformed_of_none {s : State} {w : Iss} {ca cb : Path} (o : ∀ th, th ∈ w.ts → (s.core w.core).xfenceLeft w ca cb th = []) : XPerformed s w ca cb s := by
  have e : (w.ts.flatMap fun t => (s.core w.core).xfenceLeft w ca cb t) = [] := List.flatMap_eq_nil_iff.mpr o
  refine ⟨guarded_of_same ?_, o⟩
  simp [State.performAll, e, sortNat]

/-- The record at 0x10040. -/
def record0 : List (Nat × Nat × SyncRec) := [(0, 0x210040, { relcnt := 0, ranges := [(0, 4)] })]

theorem witness_FencesAndRecords :
    (∀ i, i ∈ ([.fence h0 true .sys, .fence h0 false .clu, .xfence h0 .die .ls .ro, .xfence h0 .sys .mx .ls, .rel h0 .die (sc 3), .acq h0 .die (some (v 4)) (sc 3),
      .acq h0 .die (some (sc 4)) (sc 3)] : List Instr) → Issues i h0 allFall mapped (at' mapped [0])) ∧
    (∀ f, Performed mapped (at' mapped [0]) f mapped) ∧ XPerformed mapped (at' mapped [0]) .ls .ro mapped ∧ XPerformed mapped (at' mapped [0]) .mx .ls mapped ∧
    (∀ k, k = .atomic ∨ k = .load →
      Translates mapped (at' mapped [0]) k 64 ((at' mapped [0]).reqs fun t => (at' mapped [0]).tm.n64 t (sc 3)) [({ t := 0, va := 0x10040, park := [0] }, 0x210040)] ∧
      let s0 := (State.lookupAll mapped 0 0 k 64 ((at' mapped [0]).reqs fun t => (at' mapped [0]).tm.n64 t (sc 3)) []).2
      s0.poisoned 0x210040 64 = false ∧ (∀ f, Performed s0 (at' mapped [0]) f s0) ∧ Records s0 [({ t := 0, va := 0x10040, park := [0] }, 0x210040)] record0) ∧
    (at' mapped [0]).ts = [0] := by
  refine ⟨issue_of_all _ mapped_stands (by decide +kernel), fun f => performed_of_none rfl, xperformed_of_none (by decide +kernel),
    xperformed_of_none (by decide +kernel), ?_, rfl⟩
  rintro k (rfl | rfl)
  · exact ⟨translates_of_check (r := { t := 0, va := 0x10040, park := [0] }) (by decide +kernel), by decide +kernel, fun f => performed_of_none rfl,
      rfl, rfl, by decide +kernel⟩
  · exact ⟨translates_of_check (r := { t := 0, va := 0x10040, park := [0] }) (by decide +kernel), by decide +kernel, fun f => performed_of_none rfl,
      rfl, rfl, by decide +kernel⟩

theorem witness_BarrierArrivals :
    (∀ i, i ∈ ([.bar h0 false false (.imm 16), .bar h0 false true (.imm 15), .barcl h0 false false (.imm 3), .barcl h0 false false (.imm 4)] : List Instr) →
      Issues i h0 allFall clustered (at' clustered [0])) ∧
    (let w := at' clustered [0]
     (∃ th, th ∈ w.ts ∧ 16 ≤ w.tm.n32 th (.imm 16)) ∧ (∃ th, th ∈ w.ts ∧ 4 ≤ w.tm.n32 th (.imm 4)) ∧
     (∀ th, th ∈ w.ts → w.tm.n32 th (.imm 15) < 16 ∧ (w.tm.rank, th) ∉ (clustered.barrier w.tm false 15).arrived) ∧
     (∀ th, th ∈ w.ts → w.tm.n32 th (.imm 3) < 4 ∧ (w.tm.rank, th) ∉ (clustered.barrier w.tm true 3).arrived) ∧
     Settled clustered w ∧ (Tab.get? clustered.grids w.tm.grid).isSome) :=
  ⟨issue_of_all _ clustered_stands (by decide +kernel), ⟨0, by decide +kernel⟩, ⟨0, by decide +kernel⟩, by decide +kernel, by decide +kernel,
   settled_of_check rfl, rfl⟩

/-- Thread 0 at `rejoin` for lanes 0 and 1, thread 1 exited; and a team whose thread 0 waits at barrier 3 in phase 5. -/
def rejoining : State := issuing [] fun tm =>
  { tm with threads := [(0, { wordThread 1 0 with st := .rejoin 3 }), (1, { wordThread 1 1 with st := .exited })] }
def arrivedOne (st : TState) : State := issuing [] fun tm =>
  { tm with threads := [(0, { wordThread 1 0 with st := .waiting (.bar false 3 5 false) }), (1, { wordThread 1 1 with st := st })],
            bars := [(3, { phase := 5, arrived := [(0, 0)] })] }

theorem witness_Releases :
    (∃ tm, rejoining.team? 0 0 = some tm ∧ tm.frozen = false ∧ tm.atRejoin 0 (BitVec.ofNat 57 wordVa) = [(0, 3)] ∧
      ∀ e, e ∈ tm.atRejoin 0 (BitVec.ofNat 57 wordVa) → ∀ l, l < 32 → e.2.getLsbD l = true →
        tm.exited (32 * 0 + l) = true ∨ ∃ m, (32 * 0 + l, m) ∈ tm.atRejoin 0 (BitVec.ofNat 57 wordVa)) ∧
    (∃ tm, (arrivedOne .exited).barSet false 0 0 = [(0, 0, tm)] ∧ (arrivedOne .exited).team? 0 0 = some tm ∧ (tm.threads.map fun x => x.1).Nodup ∧
      tm.frozen = false ∧ ((arrivedOne .exited).core 0).outs = [] ∧ ((arrivedOne .exited).barrier tm false 3).arrived = [(0, 0)] ∧
      ∀ x, x ∈ tm.threads → x.2.st = .exited ∨ (x.2.st ≠ .halted ∧ (tm.rank, x.1) ∈ ((arrivedOne .exited).barrier tm false 3).arrived)) ∧
    ∃ tm, (arrivedOne .halted).barSet false 0 0 = [(0, 0, tm)] ∧ tm.fin = false ∧ ∃ x, x ∈ tm.threads ∧ x.2.st = .halted := by
  refine ⟨⟨_, rfl, rfl, by decide +kernel, ?_⟩, ⟨_, rfl, rfl, by decide +kernel, rfl, rfl, rfl, by decide +kernel⟩,
    ⟨_, rfl, rfl, (1, _), .tail _ (.head _), rfl⟩⟩
  intro e he l hl hb
  have h : e = (0, 3) := by
    have : e ∈ [((0 : Nat), (3 : BitVec 32))] := he
    simpa using this
  subst h
  have : l = 0 ∨ l = 1 := by
    rcases l with _ | _ | l
    · exact .inl rfl
    · exact .inr rfl
    · exfalso
      have : ∀ k, k < 30 → (3 : BitVec 32).getLsbD (k + 2) = false := by decide
      rw [this l (by omega)] at hb
      cases hb
  rcases this with rfl | rfl
  · exact .inr ⟨3, by decide +kernel⟩
  · exact .inl (by decide +kernel)

theorem witness_BarrierObjects :
    (∀ i, i ∈ ([.bxinit h0 true true (sc 1) (.imm 3), .bxinit h0 false false (sc 2) (.imm 1), .bxowe h0 false true (sc 1) (.imm 1),
      .bxpay h0 false true .sys (sc 1) (.imm (-1)), .bxwait h0 true .sys (sc 1) (.imm (-1)), .bxwait h0 false .grp (sc 2) (.imm 0), .bxpoll h0 true .sys (p 5) (sc 1) (.imm 0)] : List Instr) →
      Issues i h0 allFall clustered (at' clustered [0])) ∧
    (let w := at' clustered [0]
     let o1 : List (Req × Tgt) := [({ t := 0, va := 0x200010, park := [0] }, .scr { core := 1, slot := 3, wid := 7 } 16)]
     let o2 : List (Req × Tgt) := [({ t := 0, va := 49136, park := [0] }, .scr { core := 0, slot := 0, wid := 0 } 49136)]
     Settled clustered w ∧
     ∀ cl os, (cl = true ∧ os = o1) ∨ (cl = false ∧ os = o2) →
      (∀ grp, clustered.objects w cl (w.objReqs grp cl (if cl then sc 1 else sc 2)) = .ok os) ∧ (∀ e, e ∈ os → clustered.objHeld e.2 = false) ∧ (os.map fun e => e.2).Nodup ∧
      (∀ e, e ∈ os → e.1.t ∈ w.ts ∧ clustered.badTgt e.2 16 = false) ∧ (∀ e, e ∈ os → (BxObj.ofBytes (clustered.readTgt e.2 16)).rsv = 0) ∧
      (∀ e, e ∈ os → ∃ r off tm, e.2 = .scr r off ∧ off % 16 = 0 ∧ clustered.team? r.core r.slot = some tm ∧ tm.wid = r.wid)) := by
  refine ⟨issue_of_all _ clustered_stands (by decide +kernel), settled_of_check rfl, ?_⟩
  rintro cl os (⟨rfl, rfl⟩ | ⟨rfl, rfl⟩)
  · refine ⟨fun g => by cases g <;> decide +kernel, by decide +kernel, by decide +kernel, by decide +kernel, by decide +kernel, ?_⟩
    intro e he; rw [List.mem_singleton] at he; subst he
    exact ⟨_, _, _, rfl, rfl, rfl, rfl⟩
  · refine ⟨fun g => by cases g <;> decide +kernel, by decide +kernel, by decide +kernel, by decide +kernel, by decide +kernel, ?_⟩
    intro e he; rw [List.mem_singleton] at he; subst he
    exact ⟨_, _, _, rfl, rfl, rfl, rfl⟩

/-- The cluster of two teams, with operands of commands whose ranges end at the ends of their spaces. -/
def ordering : State := clustered.modTeam 0 0 fun tm => { tm with hgs := [(0, { wordHg with scl := [(2, 49088), (3, 2 ^ 64 - 1), (4, 49088), (5, 0x200010),
  (6, 2 ^ 57 - 64), (7, 2 ^ 30 - 64), (8, 0x200000), (10, BitVec.ofNat 64 ((clustered.core 0).slotBytes - 64)), (11, 2 ^ 64 - 1)] })] }
theorem ordering_stands : stands h0.g ordering (at' ordering [0]) = true := by decide +kernel

theorem room_of_check {s w o} (c : (decide ((s.core w.core).cmds.length + w.hgs.length ≤ 128) && s.sbRoom (w.hgs.flatMap fun g => (o g).claims)
    && decide (s.handleVals.length + w.hgs.length < 2 ^ 63) && (w.hgs.all fun g => !w.tm.xfenced g (o g).path)) = true) : Room s w o := by
  simp only [Bool.and_eq_true, decide_eq_true_eq, List.all_eq_true, Bool.not_eq_true'] at c
  exact ⟨c.1.1.1, c.1.1.2, c.1.2, c.2⟩

/-- The commands of the words below. -/
def roomy : List Sys2Proof.Machine.Order :=
  let r : TRef := { core := 0, slot := 0, wid := 0 }
  let q : TRef := { core := 1, slot := 3, wid := 7 }
  let b := (clustered.core 0).slotBytes - 64
  [{ kind := .copy (.glob (2 ^ 57 - 64)) (.scr r 49088) 64 .die, obj := none, rest := whole 64, claims := scrClaim r 49088 64 true, path := .cp },
   { kind := .copy (.wst 0 (2 ^ 30 - 64)) (.opb b) 64 .th, obj := none, rest := whole 64,
     claims := [{ core := 0, opb := true, slot := 0, lo := b, n := 64, wr := true }], path := .cp },
   { kind := .copy (.scr q 0) (.scr r 49088) 64 .clu, obj := none, rest := whole 64, claims := scrClaim r 49088 64 true ++ scrClaim q 0 64 false, path := .cp },
   { kind := .gather [0] b 0 true r 49088, obj := none, rest := [(0, 1)], claims := scrClaim r 49088 64 true, path := .gk },
   { kind := .kvpf [0] 49088 64 false, obj := none, rest := [(0, 1)], claims := [], path := .gk }]
theorem roomy_ok : (roomy.all fun o => let w := at' ordering [0]
    decide ((ordering.core w.core).cmds.length + w.hgs.length ≤ 128) && ordering.sbRoom (w.hgs.flatMap fun _ => o.claims)
      && decide (ordering.handleVals.length + w.hgs.length < 2 ^ 63) && w.hgs.all fun g => !w.tm.xfenced g o.path) = true := by decide +kernel

theorem witness_CommandsIssue :
    (∀ i, i ∈ ([.cpyG2l h0 .die .dflt (sc 12) (sc 2) (sc 6) (.imm 64), .cpyG2l h0 .die .dflt (.hnd 3) (sc 4) (sc 6) (.imm 64), .cpyL2g h0 .sys .keep (sc 12) (sc 2) (sc 6) (.imm 64),
      .cpyW2l h0 (sc 12) (sc 2) (sc 7) (.imm 64), .cpyo h0 false .dflt (sc 12) (sc 10) (sc 6) (.imm 64), .cpyo h0 true .dflt (sc 12) (sc 10) (sc 7) (.imm 64),
      .cpyl h0 (sc 12) (sc 2) (sc 8) (.imm 64), .gkv h0 true (sc 12) (sc 2) (v 4) (sc 10), .kvpf h0 false (sc 12) (sc 2) (v 4) (.imm 64)] : List Instr) →
      Issues i h0 allFall ordering (at' ordering [0])) ∧
    (let w := at' ordering [0]
     let r : TRef := { core := 0, slot := 0, wid := 0 }
     let q : TRef := { core := 1, slot := 3, wid := 7 }
     let b := (clustered.core 0).slotBytes - 64
     (w.hgs = [0] ∧
     (∀ n, n ∈ [sc 6, sc 7, sc 8] → w.tm.n64 (w.lead 0) n % 4 = 0) ∧ w.tm.n32 (w.lead 0) (.imm 64) % 4 = 0 ∧
     w.tm.n64 (w.lead 0) (sc 6) + w.tm.n32 (w.lead 0) (.imm 64) = 2 ^ 57 ∧
     w.tm.n64 (w.lead 0) (sc 7) < 2 ^ 31 ∧ w.tm.n64 (w.lead 0) (sc 7) % 2 ^ 30 + w.tm.n32 (w.lead 0) (.imm 64) ≤ 2 ^ 30 ∧
     ordering.side w (w.pair 0 (sc 2)).1 64 = .ok (r, 49088) ∧ ordering.side w (w.pair 0 (sc 2)).1 0 = .ok (r, 49088) ∧
     ordering.side w (w.tm.n64 (w.lead 0) (sc 8)) 64 = .ok (q, 0) ∧ (w.pair 0 (sc 2)).1 % 64 = 0 ∧
     ordering.orderObj w (w.pair 0 (sc 2)).2 = .ok none ∧ ordering.orderObj w (w.pair 0 (sc 10)).2 = .ok none ∧
     ordering.orderObj w (w.pair 0 (sc 4)).2 = .ok (some (.scr q 16)) ∧
     b = (w.pair 0 (sc 10)).1 ∧ b % 4 = 0 ∧ b < (ordering.core 0).slotBytes ∧ b + 64 ≤ (ordering.core 0).slotBytes) ∧
     ∀ o, o ∈ roomy → Room ordering w fun _ => o) :=
  ⟨issue_of_all _ ordering_stands (by decide +kernel), by decide +kernel, fun _ h => room_of_check (List.all_eq_true.mp roomy_ok _ h)⟩

/-- A command of the team. -/
def cmd5 : Cmd :=
  { id := 5, h := 9, slot := 0, wid := 0, hg := 0, pc := 0, mask := [0], kind := .done, obj := none, begun := true, rest := [(0, 1)],
    zeroLen := false, pins := [], srcs := [], fault := none, erg := none, kvb := false, geo := (0, 0, 0), err := none, fin := none, asks := [] }

/-- Handle 9 of the team is in handle register 1 in a state given, handle 9 is of command 5, and handle register 2 holds a value
of no command; s2 is the last place in the operand buffer from which 32 words can be read for each lane. -/
def handling (st : Nat) : State :=
  let s := issuing [0] fun tm => { tm with handles := [(9, { st := st, kvb := false, cause := 0 })],
                                           hgs := [(0, { wordHg with hnd := [(1, 9), (2, 77)], scl := [(2, BitVec.ofNat 64 ((demo1.core 0).slotBytes - 4096))] })] }
  s.modCore 0 fun k => { k with cmds := [cmd5] }

theorem witness_HandleWords :
    (∀ st, st < 4 →
      (∀ i, i ∈ ([.hwait h0 (some (v 4)) (.hnd 1), .hwait h0 none (.hnd 1), .htest h0 (sc 4) (.hnd 0), .hcancel h0 (.hnd 1), .hwait h0 (some (v 4)) (.hnd 2), .htest h0 (v 4) (.hnd 2),
        .hcancel h0 (.hnd 2), .hmov h0 (.hnd 15) (.hnd 1), .hmov h0 (sc 4) (.hnd 1), .vlob h0 .tr8 31 (v 8) (sc 2), .vlob h0 .rows 0 (v 8) (.imm 0)] : List Instr) →
        Issues i h0 allFall (handling st) (at' (handling st) [0])) ∧
      (let w := at' (handling st) [0]
       (w.hgs = [0] ∧ w.tm.handle (w.tm.readReg (.h 0 1)) = some { st := st, kvb := false, cause := 0 } ∧
       w.tm.handle (w.tm.readReg (.h 0 0)) = some { st := 1, kvb := false, cause := 0 } ∧ w.tm.handle (w.tm.readReg (.h 0 2)) = none ∧
       (((handling st).core 0).cmds.map fun c => c.id).Nodup) ∧
       (∃ c, ((handling st).core 0).cmds.find? (fun c => c.h == w.tm.readReg (.h 0 1) && c.wid == w.tm.wid) = some c ∧ c.fin = none) ∧
       ∀ th, th ∈ w.ts → w.tm.n32 th (sc 2) % 4 = 0 ∧ w.tm.n32 th (sc 2) + 128 * 32 = ((handling st).core 0).slotBytes ∧
         ((handling st).core 0).sbHit true w.slot (w.tm.n32 th (sc 2)) (128 * 32) false = false)) := by
  intro st h
  match st, h with
  | 0, _ | 1, _ | 2, _ | 3, _ => exact ⟨issue_of_all _ (by decide +kernel) (by decide +kernel), by decide +kernel, ⟨_, rfl, rfl⟩, by decide +kernel⟩

/-- A copy of 4 KiB between the scratchpads of the cluster, in a state that `f` gives it. -/
def copying (f : Cmd → Cmd) : State :=
  clustered.modCore 0 fun k => 
    { k with cmds := [f { cmd5 with kind := .copy (.scr { core := 1, slot := 3, wid := 7 } 0) (.scr { core := 0, slot := 0, wid := 0 } 45056) 4096 .clu,
                                    begun := false, rest := [(0, 4096)] }] }

theorem witness_CommandsProgress :
    (∀ f, f ∈ ([id, fun c => { c with begun := true }, fun c => { c with begun := true, rest := [] }, fun c => { c with err := some .fatalpage }] : List (Cmd → Cmd)) →
      ∃ c tm, ((copying f).core 0).cmd? 5 = some c ∧ (copying f).team? 0 c.slot = some tm ∧ tm.wid = c.wid ∧ c.fin = none ∧ tm.fin = false ∧ tm.trap = none ∧
        c.fault = none ∧ c.erg = none ∧ c.obj = none ∧ c.kind = .copy (.scr { core := 1, slot := 3, wid := 7 } 0) (.scr { core := 0, slot := 0, wid := 0 } 45056) 4096 .clu ∧
        (copying f).clear c.id = true ∧ (copying f).cmdHeld 0 c = false ∧ c.asks = [] ∧ c.id = 5) ∧
    (∃ qm rm, (copying id).team? 1 3 = some qm ∧ qm.wid = 7 ∧ (copying id).team? 0 0 = some rm ∧ rm.wid = 0 ∧ ((copying id).core 1).spoison = []) := by
  refine ⟨?_, _, _, rfl, rfl, rfl, rfl, rfl⟩
  intro f hf
  simp only [List.mem_cons, List.not_mem_nil, or_false] at hf
  rcases hf with rfl | rfl | rfl | rfl <;> exact ⟨_, _, rfl, rfl, rfl, rfl, rfl, rfl, rfl, rfl, rfl, rfl, by decide +kernel, by decide +kernel, rfl, rfl⟩

/-! ### The matrix engine -/

/-- Configuration blocks of a 16 × 16 tile: INT8 with `i32` results; and E4M3 scaled, with two groups at offset 128. -/
def blkInt : List Byte := [0, 0, 8, 8, 1, 0, 2, 0, 11, 0, 0, 0, 0, 0, 0, 0, 0, 0, 0, 0, 0, 0, 0, 0, 0, 0, 0, 0, 128, 0, 0, 0,
  0, 0, 0, 0, 0, 0, 0, 0, 0, 0, 0, 0, 0, 0, 0, 0, 0, 0, 0, 0, 0, 0, 0, 0, 0, 0, 0, 0, 0, 0, 0, 0]
def blkScaled : List Byte := [0, 0, 3, 3, 0, 1, 2, 0, 0, 0, 0, 0, 0, 0, 0, 0, 0, 0, 0, 0, 0, 0, 0, 0, 0, 0, 0, 0, 128, 0, 0, 0,
  0, 0, 0, 0, 0, 0, 0, 0, 0, 0, 0, 0, 0, 0, 0, 0, 0, 0, 0, 0, 0, 0, 0, 0, 0, 0, 0, 0, 0, 0, 0, 0]
def cfgInt : TileCfg := { m := 16, n := 16, a := .int8, b := .int8, accInt := true, scmode := false, groups := 2, epi := 0, out := .int .i32, rnd := .rne,
                          scoff := 0, bioff := 0, mxsoff := 0, gtoff := 128 }
def cfgScaled : TileCfg := { m := 16, n := 16, a := .fl .e4m3, b := .fl .e4m3, accInt := false, scmode := true, groups := 2, epi := 0, out := .fl .f32, rnd := .rne,
                             scoff := 0, bioff := 0, mxsoff := 0, gtoff := 128 }

/-- Core 0's engine is as given. In the issuing home group s1 is 0x10000, s2 is 49088 (where the INT8 block stands, the last place
for one), s4 is 48128 (the last place for 16 rows of 64 bytes) and s5 is 2^57 − 1024 (the same of global memory). -/
def engined (e : Engine) : State :=
  let s := issuing [0] (fun tm => { tm with hgs := [(0, { wordHg with scl := [(1, 0x10000), (2, 49088), (4, 48128), (5, 2 ^ 57 - 1024)] })],
                                            scratch := [(49090, 8), (49091, 8), (49092, 1), (49094, 2), (49096, 11), (49116, 128)] }) tables
  s.modCore 0 fun k => { k with eng := e }
def owned (blk : List Byte) : State := engined { Engine.reset with owner := some (0, 0), cfg := some blk, tiles := [(3, 5)] }
theorem owned_stands : stands h0.g (owned blkInt) (at' (owned blkInt) [0]) = true ∧ stands h0.g (owned blkScaled) (at' (owned blkScaled) [0]) = true :=
  ⟨by decide +kernel, by decide +kernel⟩

theorem tilesInt : TilesReady (owned blkInt) (at' (owned blkInt) [0]) 0 cfgInt :=
  { owns := ⟨rfl, by decide +kernel⟩, conf := by decide +kernel, still := by decide +kernel, good := rfl }
theorem tilesScaled : TilesReady (owned blkScaled) (at' (owned blkScaled) [0]) 0 cfgScaled :=
  { owns := ⟨rfl, by decide +kernel⟩, conf := by decide +kernel, still := by decide +kernel, good := rfl }

/-- Words of the engine, over the last rows, columns and places there are. -/
def engineWords : List Instr := [.mrel h0, .tcfg h0 (sc 2), .mma h0 (.til 47) (v 0) (v 48), .mzero h0 (some (.til 47)), .mzero h0 none, .mrd h0 .c8 8 (v 4) (.til 1) (.imm 15),
  .mwr h0 .c16 0 (.til 1) (v 4) (.imm 15), .mld h0 true .dflt (.til 1) (sc 4) (.imm 64), .mld h0 false .dflt (.til 1) (sc 1) (.imm 64),
  .mst h0 true .dflt true (sc 4) (.til 1) (.imm 64) (.imm 0), .mst h0 true .dflt false (sc 4) (.til 1) (.imm 64) (.imm 0),
  .mst h0 false .dflt true (sc 1) (.til 1) (.imm 64) (.imm 0), .mst h0 false .keep false (sc 1) (.til 1) (.imm 64) (.imm 0)]

/-- No register of the team holds uncorrectable data, nor a scalar the word reads. -/
theorem reads_good {i s w} (a : w.tm.rpoison = []) (b : (w.badScalars i).isEmpty = true) : ReadsGood s w i :=
  ⟨List.isEmpty_iff.mp b, fun _ _ _ _ _ _ _ => by rw [a]; exact List.not_mem_nil⟩
theorem good_of_all {s w} (l : List Instr) (a : w.tm.rpoison = []) (c : (l.all fun i => (w.badScalars i).isEmpty) = true) :
    ∀ i, i ∈ l → ReadsGood s w i :=
  fun i hi => reads_good a (List.all_eq_true.mp c i hi)

/-- Sixteen home groups of another team in the engine's queue, and one outside. -/
def crowd : Engine :=
  { Engine.reset with owner := some (1, 0), queue := (List.range 16).map fun g => { slot := 1, hg := g + 1, k := 0, reload := none },
                      outside := [{ slot := 2, hg := 0, k := 0, reload := none }] }

theorem witness_EngineOwnership :
    (∀ e, e ∈ ([.reset, { Engine.reset with drain := true }, { Engine.reset with owner := some (0, 1) }, crowd] : List Engine) →
      (∀ i, i ∈ (.macq h0 :: engineWords) → Issues i h0 allFall (engined e) (at' (engined e) [0])) ∧
      ((at' (engined e) [0]).hgs = [0] ∧ e.waiter 0 0 = none ∧ e.queue.length ≤ 16 ∧ (e.queue.length < 16 → e.outside = []) ∧ e.owner ≠ some (0, 0) ∧
        0 ∈ (at' (engined e) [0]).ts ∧ hgOf 0 = 0 ∧ e.reloading 0 0 = false)) ∧
    (let s := owned blkInt
     let w := at' s [0]
     (∀ i, i ∈ engineWords → Issues i h0 allFall s w) ∧ (∀ i, i ∈ engineWords → ReadsGood s w i) ∧ Owns s w 0 ∧
     (w.tm.n32 (w.lead 0) (sc 2) = 49088 ∧ 49088 % 64 = 0 ∧ 49088 + 64 = w.tm.loc ∧ (s.core 0).loading = false ∧ (s.core 0).sb.length < Config.sbEntries ∧
       (s.core 0).sbHit false w.slot 49088 64 false = false ∧ (s.core 0).spoison = [] ∧ TileCfg.ofBytes (Memory.readN w.tm.scratch 49088 64) = some cfgInt) ∧
     TilesReady s w 0 cfgInt) ∧
    (let s := engined { Engine.reset with drain := true, queue := [{ slot := 0, hg := 0, k := 0, reload := none }], tiles := [(1, 1)] }
     (s.core 0).eng.owner = none ∧ (s.core 0).loading = false ∧ ∃ x q tm, (s.core 0).eng.queue = x :: q ∧ x.reload = none ∧ s.team? 0 x.slot = some tm ∧
      tm.frozen = false ∧ tm.trap = none ∧ (tm.threads.map fun e => e.1).Nodup) ∧
    (let s := engined { Engine.reset with drain := true }
     (s.core 0).eng.owner = none ∧ (s.core 0).loading = false ∧ (s.core 0).eng.queue = []) := by
  refine ⟨?_, ⟨issue_of_all _ owned_stands.1 (by decide +kernel), good_of_all _ rfl (by decide +kernel), tilesInt.owns, by decide +kernel, tilesInt⟩,
    ⟨rfl, rfl, _, _, _, rfl, rfl, rfl, rfl, rfl, by decide +kernel⟩, by decide +kernel⟩
  intro e he
  simp only [List.mem_cons, List.not_mem_nil, or_false] at he
  rcases he with rfl | rfl | rfl | rfl <;> exact ⟨issue_of_all _ (by decide +kernel) (by decide +kernel), by decide +kernel⟩

theorem witness_TileProducts :
    (let s := owned blkInt
     let w := at' s [0]
     let l : List Instr := [.mma h0 (.til 47) (v 0) (v 48), .mmag h0 (.til 0) (v 0) (v 32) none]
     TilesReady s w 0 cfgInt ∧ cfgInt.accInt = true ∧ (∀ i, i ∈ l → Issues i h0 allFall s w) ∧ (∀ i, i ∈ l → ReadsGood s w i) ∧
     (cfgInt.m ≤ 256 ∧ cfgInt.n ≤ 256 ∧ cfgInt.groups ≠ 0 ∧ cfgInt.gtoff + 4 * cfgInt.groups ≤ w.tm.loc ∧ (s.core 0).sb.length < Config.sbEntries ∧
       (s.core 0).sbHit false 0 cfgInt.gtoff (4 * cfgInt.groups) false = false ∧ (s.core 0).spoison = [])) ∧
    (let s := owned blkScaled
     let w := at' s [0]
     let l : List Instr := [.mma h0 (.til 47) (v 0) (v 48), .mmas h0 (.til 1) (v 0) (v 16) (v 62), .mmag h0 (.til 0) (v 0) (v 16) (some (v 61))]
     TilesReady s w 0 cfgScaled ∧ cfgScaled.scmode = true ∧ (∀ i, i ∈ l → Issues i h0 allFall s w) ∧ (∀ i, i ∈ l → ReadsGood s w i) ∧
     (cfgScaled.m ≤ 256 ∧ cfgScaled.n ≤ 256 ∧ cfgScaled.groups ≠ 0 ∧ cfgScaled.gtoff + 4 * cfgScaled.groups ≤ w.tm.loc ∧ (s.core 0).sb.length < Config.sbEntries ∧
       (s.core 0).sbHit false 0 cfgScaled.gtoff (4 * cfgScaled.groups) false = false ∧ (s.core 0).spoison = [])) :=
  ⟨⟨tilesInt, rfl, issue_of_all _ owned_stands.1 (by decide +kernel), good_of_all _ rfl (by decide +kernel), by decide +kernel⟩,
   tilesScaled, rfl, issue_of_all _ owned_stands.2 (by decide +kernel), good_of_all _ rfl (by decide +kernel), by decide +kernel⟩

theorem witness_TileMoves :
    let s := owned blkInt
    let w := at' s [0]
    let rows : List (Nat × Nat × Nat) := (List.range 16).flatMap fun i => rowPieces (0x10000 + i * 64) 64
    TilesReady s w 0 cfgInt ∧ (∀ i, i ∈ engineWords → Issues i h0 allFall s w) ∧ (∀ i, i ∈ engineWords → ReadsGood s w i) ∧
    ((s.core 0).sb = [] ∧ (s.core 0).spoison = [] ∧ (s.core 0).watch = [] ∧ w.tm.xfenced 0 .mx = false) ∧
    (IType.val .i32 (w.tm.n32 (w.lead 0) (.imm 15)) = 15 ∧ w.tm.n32 (w.lead 0) (.imm 64) = 64 ∧ w.tm.n64 (w.lead 0) (sc 4) = 48128 ∧
      (∀ i, i < cfgInt.m → 48128 + i * 64 + 4 * cfgInt.n ≤ w.tm.loc) ∧ w.tm.n64 (w.lead 0) (sc 1) = 0x10000 ∧ cfgInt.out.w = 32 ∧ cfgInt.epi = 0) ∧
    ((s.rowPlaces w .load rows).1 = rows.map (fun p => (p, .ok (p.2.1 + 0x200000))) ∧
      (s.rowPlaces w .store rows).1 = rows.map (fun p => (p, .ok (p.2.1 + 0x200000)))) ∧
    (∀ i, i < cfgInt.m → s.migrating w.tm.ctx (0x10000 + i * 64) = false ∧ s.migrating w.tm.ctx (0x10000 + i * 64 + 63) = false) :=
  ⟨tilesInt, issue_of_all _ owned_stands.1 (by decide +kernel), good_of_all _ rfl (by decide +kernel), by decide +kernel⟩

/-! ### The sorter, queues, launches, requests and the pool -/

/-- Core 0's sorter is as given; s1 is 2048, s2 the last place for 2048 pairs. -/
def sorting (q : Sorter) : State :=
  (issuing [0] fun tm => { tm with hgs := [(0, { wordHg with scl := [(1, 2048), (2, 32768), (3, 2049)] })] }).modCore 0 fun k => { k with srt := q }

theorem witness_SorterWords :
    (∀ q, q ∈ ([.reset, { Sorter.reset with owner := some (0, 1), k := 5 },
        { Sorter.reset with owner := some (1, 0), k := 5, queue := crowd.queue, outside := crowd.outside }] : List Sorter) →
      (∀ i, i ∈ ([.tkbeg h0 (.imm 0), .tkbeg h0 (sc 3), .tkbeg h0 (.imm 1), .tkbeg h0 (sc 1), .tkpush h0 (v 1) (v 2), .tkend h0 true (v 4) (sc 2)] : List Instr) →
        Issues i h0 allFall (sorting q) (at' (sorting q) [0])) ∧
      ((at' (sorting q) [0]).hgs = [0] ∧ q.owner ≠ some (0, 0) ∧ q.waiter 0 0 = none ∧ q.reloading 0 0 = false ∧ q.queue.length ≤ 16 ∧
        (q.queue.length < 16 → q.outside = []))) ∧
    (∀ l, l ∈ ([[], [{ slot := 1, hg := 2, k := 7, reload := none }]] : List (List EWait)) →
     let s := sorting { Sorter.reset with owner := some (0, 0), k := 2048, fill := 127, queue := l }
     let w := at' s [0]
     (∀ i, i ∈ ([.tkpush h0 (v 1) (v 2), .tkend h0 false (v 4) (sc 2)] : List Instr) → Issues i h0 allFall s w) ∧
     (∀ f, Performed s w f s) ∧ (s.team? 0 0 = some w.tm) ∧ (∀ x, x ∈ (s.core 0).srt.queue → s.team? 0 x.slot = none) ∧
     (w.hgs = [0] ∧ (s.core 0).srt.fill + w.ts.length ≤ 128 ∧ (s.core 0).srt.queue = l ∧ (s.core 0).srt.owner = some (w.slot, 0) ∧ (∀ th, th ∈ w.ts → hgOf th = 0) ∧ w.tm.n32 (w.lead 0) (sc 1) = 2048 ∧ w.tm.n32 (w.lead 0) (sc 3) = 2049 ∧
       w.tm.n32 (w.lead 0) (sc 2) % 8 = 0 ∧ w.tm.n32 (w.lead 0) (sc 2) + 8 * (s.core 0).srt.k = w.tm.loc ∧
       (s.core 0).sbHit false 0 32768 (8 * (s.core 0).srt.kept.length) false = false)) := by
  refine ⟨?_, ?_⟩
  rotate_left
  · intro l hl
    simp only [List.mem_cons, List.not_mem_nil, or_false] at hl
    rcases hl with rfl | rfl <;>
      exact ⟨issue_of_all _ (by decide +kernel) (by decide +kernel), fun f => performed_of_none rfl, rfl, by decide +kernel, by decide +kernel⟩
  intro q hq
  simp only [List.mem_cons, List.not_mem_nil, or_false] at hq
  rcases hq with rfl | rfl | rfl <;> exact ⟨issue_of_all _ (by decide +kernel) (by decide +kernel), by decide +kernel⟩

theorem nojournal_of_check {s : State} {w : Iss} (c : ((s.ctx? w.tm.ctx).all fun x => x.jrn.lvl != 2 && x.jrn.lvl != 3) = true) : NoJournal s w := by
  intro x hx
  rw [hx] at c
  simpa using c

/-- Queue 127 belongs to the issuing team's context and holds the items given. -/
def queued (its : List (List Byte)) : State :=
  let s := issuing [0] (fun tm => { tm with hgs := [(0, { wordHg with scl := [(1, 0x10040)] })] }) tables
  { s with dies := [(1, { Die.reset with wqs := [(63, { ctx := some 0, items := its, waiters := [] })] })] }
def queueWords : List Instr := [.wqpush h0 .die (v 3) (.imm 127) (v 4), .wqpop h0 false .die (v 4) (.imm 127) (some (p 3)), .wqpop h0 true .die (v 4) (.imm 127) none,
  .wqlen h0 (v 3) (.imm 127), .wqpush h0 .die (v 3) (.imm 128) (v 4), .wqpop h0 false .die (v 4) (.imm 64) none, .wqlen h0 (v 3) (.imm 63),
  .lacnt h0 .sys (v 3) (sc 1) (.imm 0) (p 2), .lacnt h0 .sys (v 3) (sc 1) (.imm 7) (p 2)]

theorem witness_QueueWords :
    (∀ its, its ∈ ([[], [[1, 2, 3, 4, 5, 6, 7, 8, 9, 10, 11, 12, 13, 14, 15, 16]]] : List (List (List Byte))) →
      (∀ i, i ∈ queueWords → Issues i h0 allFall (queued its) (at' (queued its) [0])) ∧
      (let s := queued its
       let w := at' s [0]
       w.ts = [0] ∧ Settled s w ∧ NoJournal s w ∧
       (w.tm.n32 0 (.imm 127) = 127 ∧ s.wqOk w.tm.ctx 127 = true ∧ (s.wq 127).waiters = [] ∧ (s.wq 127).items = its ∧
         s.wqOk w.tm.ctx (w.tm.n32 0 (.imm 128)) = false ∧ s.wqOk w.tm.ctx (w.tm.n32 0 (.imm 64)) = false ∧ w.tm.n32 0 (.imm 0) = 0 ∧ w.tm.n32 0 (.imm 7) ≠ 0) ∧
       Translates s w .atomic 4 (w.hgReqs fun t => w.tm.n64 t (sc 1)) [({ t := 0, va := 0x10040, park := [0] }, 0x210040)])) := by
  intro its h
  simp only [List.mem_cons, List.not_mem_nil, or_false] at h
  rcases h with rfl | rfl <;>
    exact ⟨issue_of_all _ (by decide +kernel) (by decide +kernel), rfl, settled_of_check rfl, nojournal_of_check (by decide +kernel), by decide +kernel,
      translates_of_check (r := { t := 0, va := 0x10040, park := [0] }) (by decide +kernel)⟩

/-- A record of one team of one full home group of 32 registers at 0x10040 (its kernel at 0x400), which is the issuing team's grid's too,
with teams 3 and 4 not placed; s2 is the last place for the 16 bytes of `fetchw`. -/
def recOne (teams : BitVec 8) : List Byte := [0x00, 0x04, 0, 0, 0, 0, 0, 0, teams, 0, 0, 0, 1, 32, 32, 0, 8, 0, 0, 0, 0, 0, 0, 0, 0, 0, 0, 0, 0, 0, 0, 0,
  0, 0, 0, 0, 0, 0, 0, 0, 0, 0, 0, 0, 0, 0, 0, 0, 0, 0, 0, 0, 0, 0, 0, 0, 0, 0, 0, 0, 0, 0, 0, 0]
def launching (teams : BitVec 8) : State :=
  let s := issuing [0] (fun tm => { tm with hgs := [(0, { wordHg with scl := [(1, 0x10040), (2, 49136)] })] })
    (tables ++ [(0x210041, 0x04), (0x210048, teams), (0x21004C, 1), (0x21004D, 32), (0x21004E, 32), (0x210050, 8)])
  { s with grids := [(0, { ctx := 0, die := 0, record := recOne 5, recAddr := 0, detlvl := 0, ordinal := 0, unplaced := [3, 4], placed := [], finished := [],
                           bars := [], node := none, packet := none, complete := false })] }

theorem witness_LaunchWords :
    ∀ n, n ∈ ([0, 5] : List (BitVec 8)) →
      (let s := launching n
       let w := at' s [0]
       let r : Req := { t := 0, va := 0x10040, park := [0] }
       (∀ i, i ∈ ([.launch h0 (v 3) (sc 1), .fetchw h0 (sc 2), .resq h0 .param (sc 6), .resq h0 .recAddr (v 6)] : List Instr) → Issues i h0 allFall s w) ∧
       w.hgs = [0] ∧ Settled s w ∧ NoJournal s w ∧ Translates s w .load 64 [r] [(r, 0x210040)] ∧
       (w.hgReqs (fun t => w.tm.n64 t (sc 1)) = [r] ∧ s.poisoned 0x210040 64 = false ∧ Memory.readN s.mem 0x210040 64 = recOne n ∧
         s.launchStatus w.tm.ctx (recOne n) w.tm.detlvl = (if n = 0 then 1 else 0) ∧ s.queued w.die < 256 ∧ recCores (recOne n) = false ∧
         w.tm.n32 (w.lead 0) (sc 2) % 16 = 0 ∧ w.tm.n32 (w.lead 0) (sc 2) + 16 = w.tm.loc ∧ (s.core 0).sb.length < 64 ∧
         (s.core 0).sbHit false 0 49136 16 false = false) ∧
       ∃ gr, Tab.get? s.grids w.tm.grid = some gr ∧ (if recCores gr.record || recHasCluster gr.record then none else gr.unplaced.getLast?) = some 4) := by
  intro n h
  simp only [List.mem_cons, List.not_mem_nil, or_false] at h
  rcases h with rfl | rfl <;>
    exact ⟨issue_of_all _ (by decide +kernel) (by decide +kernel), by decide +kernel, settled_of_check rfl, nojournal_of_check (by decide +kernel),
      translates_of_check (by decide +kernel), by decide +kernel, _, rfl, by decide +kernel⟩

/-- The value that a computation answers, and that it answers one. -/
def okay {α β} (e : Except β α) : Bool := match e with
  | .ok _ => true
  | .error _ => false
def val {α β} (d : α) (e : Except β α) : α := match e with
  | .ok x => x
  | .error _ => d
theorem ok_of_check {α β} {d : α} {e : Except β α} (c : okay e = true) : e = .ok (val d e) := by
  cases e with
  | error _ => cases c
  | ok x => rfl

theorem wrote (d : State) {e : Except Cause State} (c : okay e = true) : e = .ok (val d e) := ok_of_check c
theorem writes {e : Except Cause State} (c : okay e = true) : ∃ u, e = .ok u := ⟨_, ok_of_check (d := State.reset) c⟩

/-- What a request table, its pool and Meridian are given: record 1's state, flags, slot, MAXNEW, the blocks prepared; the table's enable bit, the
bytes 0 and 4 of `rdone`; bytes of the index plane, HBM frames; page 0's references and upper byte, page 1's references and upper byte; the tail of the ring of received pages. -/
structure Served where
  st : BitVec 8
  fl : BitVec 8 := 0
  slot : BitVec 8 := 0
  maxnew : BitVec 8 := 9
  prep : List (Nat × Nat × Nat × Bool) := []
  en : BitVec 8 := 1
  done : BitVec 8 := 0
  done4 : BitVec 8 := 0
  eix : BitVec 8 := 16
  hbm : BitVec 8 := 4
  refs0 : BitVec 8 := 0
  up0 : BitVec 8 := 0
  refs1 : BitVec 8 := 1
  refs1h : BitVec 8 := 0
  up1 : BitVec 8 := 0x40
  tail : BitVec 8 := 0
  flying : Bool := true
  idle : Bool := false

/-- A request table of two records at 0x20000 in step 7, with a budget of 16 tokens, one slot and a chunk of 8, its patch table at 0x2A000 and its
arrays behind it; its pool at 0x21000: 2 pages of 16 positions of 16 bytes and an index plane, 4 frames in each tier (HBM as given) from 0x1000 on,
their metadata at 0x22000. Record 1 has plen 20, position 4, ngen 3, 2 blocks at 0x25000 (block 0 is page 1), its prompt at 0x26000, its output at
0x27000, last token 9 and the stop set (9) at 0x28000. Slot 0 of the step is record 1's to position 20. -/
def serving (e : Served) : State :=
  let hi : BitVec 8 := if e.slot = 0 then 0 else 0xFF
  let s := issuing [0] (fun tm => { tm with hgs := [(0, { wordHg with scl := [(1, 0x26000), (2, 0x26002), (3, 0x29000)] })] })
    [(0x1000, 0x01), (0x1001, 0x20), (0x2000, 0x01), (0x2001, 0x30), (0x3000, 0x01), (0x3001, 0x40), (0x4000, 0x1F), (0x4002, 0x20),
      (0x220000, 2), (0x220004, e.en), (0x220006, 1), (0x220008, 16), (0x22000C, 1), (0x220010, 8), (0x220018, 7), (0x220029, 0xA0), (0x22002A, 2), (0x220031, 0xB0),
      (0x220032, 2), (0x220039, 0xC0), (0x22003A, 2), (0x220041, 0xD0), (0x220042, 2), (0x220049, 0x10), (0x22004A, 0x02), (0x220051, 0xE0), (0x220052, 2), (0x220058, 1),
      (0x220204, e.st), (0x220206, e.fl), (0x220208, 20), (0x22020C, 4), (0x220210, 3), (0x220214, e.maxnew), (0x220218, 2), (0x22021C, e.slot), (0x22021D, hi), (0x22021E, hi),
      (0x22021F, hi), (0x220221, 0x50), (0x220222, 0x02), (0x220229, 0x60), (0x22022A, 0x02), (0x220231, 0x70), (0x220232, 0x02), (0x220254, 9), (0x220259, 0x80),
      (0x22025A, 0x02), (0x220260, 1),
      (0x221004, 16), (0x221008, e.eix), (0x22100C, 1), (0x221010, e.hbm), (0x221014, 4), (0x221018, 4), (0x22101C, 4), (0x221021, 0x10), (0x221029, 0x20), (0x221031, 0x30),
      (0x221039, 0x20), (0x22103A, 0x02), (0x221041, 0x30), (0x221042, 0x02), (0x221051, 0x40), (0x221052, 0x02), (0x221058, 1),
      (0x222000, e.refs0), (0x222002, e.up0), (0x222010, e.refs1), (0x222011, e.refs1h), (0x222012, e.up1), (0x224000, e.tail), (0x225000, 1), (0x226000, 11), (0x226004, 12), (0x228000, 9), (0x22A010, e.done), (0x22A014, e.done4)]
  { s with ctxs := [(0, { wordCtx with rqbase := 0x20000
                                       mer := { Mer.reset with tab := 0x20000, slotTab := 0x20000, step := 7, flying := e.flying, idle := e.idle, rdone := 0x2A010,
                                                               slots := [{ req := 1, qstart := 0, qlen := 4, kvlen := 20, samp := true }] }
                                       erg := { Erg.reset with prep := e.prep } })] }

/-- The pool of that table. -/
def pool0 : Pool := { desc := 0x21000, p := 16, ekv := 16, eix := 16, pages := 2, frames := (4, 4, 4), rxcap := 4, base := (0x1000, 0x2000, 0x3000), pgmeta := 0x22000, syncb := 0x23000, rxbase := 0,
                      rxauto := false, flring := 0x24000, flsz := 1 }

def requestWords : List Instr := [.rqld h0 .spos .die (v 3) (.imm 1), .rqld h0 .seed .die (v 4) (.imm 1), .rqst h0 .last .die (.imm 1) (v 5), .rqst h0 .prio .die (.imm 1) (.imm 16), .rqst h0 .prio .die (.imm 1) (.imm 15),
  .rqemit h0 .sys (v 3) (.imm 1) (v 4), .rqstop h0 .die (v 3) (.imm 1), .rqfail h0 .die (.imm 1) (.imm 256), .rqfail h0 .die (.imm 1) (.imm 255), .rqslot h0 true .die (v 3) (.imm 1),
  .rqslot h0 false .die (v 3) (.imm 0), .rqslot h0 false .die (v 3) (.imm 1), .bfdone h0 (.imm 7), .rqld h0 .rid .die (v 3) (.imm 2), .rqst h0 .pos .die (.imm 2) (v 5),
  .rqemit h0 .die (v 3) (.imm 2) (v 4), .rqstop h0 .die (v 3) (.imm 2), .rqfail h0 .die (.imm 2) (.imm 1)]

theorem witness_RequestWords :
    -- each outcome of rqemit and rqstop
    (∀ e, e ∈ ([{ st := 2 }, { st := 3, fl := 1 }, { st := 2, fl := 3, maxnew := 3 }, { st := 4 }, { st := 5, fl := 1, slot := 0xFF }, { st := 3, slot := 0xFF }] : List Served) →
      (let s := serving e
       let w := at' s [0]
       (∀ i, i ∈ requestWords → Issues i h0 allFall s w) ∧ (w.ts = [0] ∧ s.table w.tm.ctx = .ok (0x20000, 2) ∧ w.tm.n32 0 (.imm 1) = 1 ∧ w.tm.n32 0 (.imm 2) = 2 ∧ 15 < w.tm.n32 0 (.imm 16) ∧ w.tm.n32 0 (.imm 15) = 15) ∧
       (s.recFld 0 0x20000 1 4 1 = .ok e.st.toNat ∧ s.recFld 0 0x20000 1 6 1 = .ok e.fl.toNat ∧ s.recFld 0 0x20000 1 28 4 = .ok (if e.slot = 0 then 0 else 0xFFFFFFFF) ∧
         ((s.slotOf 0 1).map fun z => z.samp) = some true ∧ s.recFld 0 0x20000 1 20 4 = .ok e.maxnew.toNat ∧ (s.ctx? 0).isSome ∧ (s.core 0).outs = []) ∧
       ∃ x, s.recFld 0 0x20000 1 64 8 = .ok x)) ∧
    (let s := serving { st := 2 }
     let s1 := val s (s.vput 0 (0x27000 + 4 * 3) 4 0)
     let s2 := val s (s1.setRec 0 0x20000 1 (192 + 4 * 3) 4 0)
     let s3 := val s (s2.setRec 0 0x20000 1 84 4 0)
     let s4 := val s (s3.setRec 0 0x20000 1 16 4 4)
     (s.recFld 0 0x20000 1 48 8 = .ok 0x27000 ∧ s.recFld 0 0x20000 1 16 4 = .ok 3) ∧ s.vput 0 (0x27000 + 4 * 3) 4 0 = .ok s1 ∧ s1.setRec 0 0x20000 1 (192 + 4 * 3) 4 0 = .ok s2 ∧
     s2.setRec 0 0x20000 1 84 4 0 = .ok s3 ∧ s3.setRec 0 0x20000 1 16 4 4 = .ok s4 ∧ (∃ s5, s4.setRec 0 0x20000 1 6 1 1 = .ok s5) ∧
     (let u := val s (s.setRec 0 0x20000 1 5 1 15)
      s.setRec 0 0x20000 1 5 1 15 = .ok u ∧ u.tablePool 0 = .ok pool0 ∧ ∃ u', u.refreshReq 0 pool0 0x20000 2 1 = .ok u') ∧
     (∃ u, s.setRec 0 0x20000 1 84 4 0 = .ok u) ∧ (∃ u, s.faultReq 0 0x20000 1 255 = .ok u)) ∧
    (let s := serving { st := 3, fl := 1 }
     let s1 := val s (s.setRec 0 0x20000 1 6 1 3)
     let s2 := val s (s1.setRec 0 0x20000 1 4 1 4)
     (s.recFld 0 0x20000 1 84 4 = .ok 9 ∧ s.recFld 0 0x20000 1 96 4 = .ok 1 ∧ s.recFld 0 0x20000 1 88 8 = .ok 0x28000 ∧ s.vread 0 0x28000 (4 * 1) = .ok [9, 0, 0, 0] ∧
       tokWords [9, 0, 0, 0] 1 = [9]) ∧ s.setRec 0 0x20000 1 6 1 3 = .ok s1 ∧ s1.setRec 0 0x20000 1 4 1 4 = .ok s2 ∧ ∃ s3, s2.setRec 0 0x20000 1 105 1 2 = .ok s3) := by
  refine ⟨?_, ⟨by decide +kernel, wrote _ (by decide +kernel), wrote _ (by decide +kernel), wrote _ (by decide +kernel), wrote _ (by decide +kernel),
      writes (by decide +kernel), ⟨wrote _ (by decide +kernel), by decide +kernel, writes (by decide +kernel)⟩, writes (by decide +kernel), writes (by decide +kernel)⟩,
    by decide +kernel, wrote _ (by decide +kernel), wrote _ (by decide +kernel), writes (by decide +kernel)⟩
  intro e h
  simp only [List.mem_cons, List.not_mem_nil, or_false] at h
  rcases h with rfl | rfl | rfl | rfl | rfl | rfl <;>
    exact ⟨issue_of_all _ (by decide +kernel) (by decide +kernel), by decide +kernel, by decide +kernel, _, ok_of_check (d := 0) (by decide +kernel)⟩

def kvWords : List Instr := [.kvapp h0 .die (v 3) (.imm 1) (.imm 4), .kvapp h0 .die (v 3) (.imm 1) (.imm 16), .kvapp h0 .die (v 3) (.imm 1) (.imm 21), .kvapp h0 .die (v 3) (.imm 1) (.imm 20),
  .kvmap h0 false .die (v 4) (.imm 1) (.imm 0), .kvmap h0 true .die (v 4) (.imm 1) (.imm 1), .kvinv h0 .die (sc 4) (.imm 1) (.imm 0) (.imm 2), .kvref h0 .inc .die (v 3) (.imm 2),
  .kvevictLp h0 .die (sc 4) (.imm 2), .kvevictCxl h0 .die (sc 4) (.imm 2), .kvref h0 .rd .die (v 3) (.imm 1), .kvref h0 .inc .die (v 3) (.imm 1), .kvref h0 .dec .die (v 3) (.imm 1),
  .kvevictLp h0 .die (sc 4) (.imm 1), .kvevictCxl h0 .die (sc 4) (.imm 0), .kvevictPeer h0 .die (sc 4) (.imm 1) (sc 3)]

theorem witness_KvWords :
    (∀ e, e ∈ ([{ st := 2 }, { st := 2, prep := [(1, 0, 20, false), (1, 1, 20, false)] }, { st := 2, prep := [(1, 0, 4, true), (1, 1, 20, true)] }, { st := 3, slot := 0xFF }, { st := 4 }] : List Served) →
      (let s := serving e
       let w := at' s [0]
       (∀ i, i ∈ kvWords → Issues i h0 allFall s w) ∧ Settled s w ∧ (w.ts = [0] ∧ s.table w.tm.ctx = .ok (0x20000, 2) ∧ s.tablePool w.tm.ctx = .ok pool0) ∧
       (s.recFld 0 0x20000 1 4 1 = .ok e.st.toNat ∧ s.recFld 0 0x20000 1 28 4 = .ok (if e.slot = 0 then 0 else 0xFFFFFFFF) ∧ s.recFld 0 0x20000 1 12 4 = .ok 4 ∧
         ((s.slotOf 0 1).map fun z => z.kvlen) = some 20 ∧ (s.core 0).cmds = [] ∧ s.handleVals.length < 2 ^ 63 ∧ w.tm.fin = false) ∧
       (∃ cx, s.ctx? 0 = some cx ∧ cx.erg.prep = e.prep) ∧ (∃ l, s.allPg 0 pool0 = .ok l) ∧ (w.tm.n32 0 (.imm 16) = 16 ∧ w.tm.n32 0 (.imm 21) = 21 ∧ w.tm.n32 0 (.imm 20) = 20 ∧ w.tm.n32 0 (.imm 4) = 4 ∧
       s.recFld 0 0x20000 1 24 4 = .ok 2 ∧ s.blkEntry 0 0x20000 1 0 = .ok (1, 0) ∧ pool0.pages = w.tm.n32 0 (.imm 2) ∧ w.tm.n64 0 (sc 3) % 32 = 0 ∧ w.tm.n64 0 (sc 3) < 2 ^ 57))) ∧
    (let s := serving { st := 2 }
     let s1 := val s (s.setBlk 0 0x20000 1 0 1 16)
     (s.getPg 0 pool0 1 = .ok { refs := 1, tier := 0, prio := 0, held := true, poison := false, fill := 0, frame := 0, lastuse := 0, pins := 0 } ∧ 4 / pool0.p = 0 ∧ (16 - 1) / pool0.p = 0) ∧
     s.setBlk 0 0x20000 1 0 1 (min pool0.p (16 - 0 * pool0.p)) = .ok s1 ∧ (∃ s2, s1.modPg 0 pool0 1 (fun m => { m with fill := max m.fill (min pool0.p (16 - 0 * pool0.p)) }) = .ok s2) ∧
     ∀ up : Bool, ∃ u, s.modPg 0 pool0 1 (fun m => if up then (if m.refs = 0 ∨ m.refs = 65535 then m else { m with refs := m.refs + 1 }) else { m with refs := m.refs - 1 }) = .ok u) := by
  refine ⟨?_, by decide +kernel, wrote _ (by decide +kernel), writes (by decide +kernel), ?_⟩
  · intro e h
    simp only [List.mem_cons, List.not_mem_nil, or_false] at h
    rcases h with rfl | rfl | rfl | rfl | rfl <;>
      exact ⟨issue_of_all _ (by decide +kernel) (by decide +kernel), settled_of_check rfl, by decide +kernel, by decide +kernel, ⟨_, rfl, rfl⟩,
        ⟨_, ok_of_check (d := []) (by decide +kernel)⟩, by decide +kernel⟩
  · intro up
    cases up <;> exact writes (by decide +kernel)

theorem witness_PrefixWords :
    let s := serving { st := 2, refs1 := 0xFF, refs1h := 0xFF }
    let w := at' s [0]
    let req : Req := { t := 0, va := 0x26000, park := [0] }
    let u := (State.lookupAll s w.core 0 .load 1 [req] []).2
    (∀ i, i ∈ ([.rxlook h0 .die (v 3) (sc 2) (.imm 2), .rxlook h0 .die (v 3) (sc 1) (.imm 2), .rxins h0 .die (v 3) (.imm 1) (.imm 2)] : List Instr) → Issues i h0 allFall s w) ∧
    Settled s w ∧ (w.ts = [0] ∧ s.table w.tm.ctx = .ok (0x20000, 2) ∧ s.tablePool w.tm.ctx = .ok pool0 ∧ w.tm.n64 0 (sc 2) % 4 ≠ 0 ∧ w.tm.n64 0 (sc 1) = 0x26000) ∧
    Translates s w .load 1 [req] [(req, 0x226000)] ∧ (s.poisoned 0x226000 1 = false ∧ 0x26000 % 65536 + 4 * 2 ≤ 65536 ∧ w.tm.n32 0 (.imm 2) = 2 ∧ w.tm.n32 0 (.imm 1) = 1) ∧
    (∃ bs, s.vread 0 0x26000 (4 * 2) = .ok bs ∧ (∃ m, u.rxMatch 0 pool0 (2 + 1) none (tokWords bs 2) = .ok m) ∧ (∃ m, u.rxInsert 0 pool0 0x20000 1 (tokWords bs 2) = .ok m)) ∧
    s.recFld 0 0x20000 1 12 4 = .ok 4 ∧ s.recFld 0 0x20000 1 40 8 = .ok 0x26000 ∧ s.recFld 0 0x20000 1 48 8 = .ok 0x27000 ∧ s.recFld 0 0x20000 1 8 4 = .ok 20 :=
  ⟨issue_of_all _ (by decide +kernel) (by decide +kernel), settled_of_check rfl, by decide +kernel, translates_of_check (by decide +kernel), by decide +kernel,
   ⟨_, ok_of_check (d := []) (by decide +kernel), ⟨_, ok_of_check (d := (0, [])) (by decide +kernel)⟩, ⟨_, ok_of_check (d := (0, State.reset)) (by decide +kernel)⟩⟩,
   by decide +kernel⟩

/-! ### Control registers, traps, faults -/

/-- The same issue by an unprivileged context. -/
def plain (s : State) : State := s.modCtx 0 fun x => { x with priv := false }
def atPlain (s : State) (mem : List Nat) : Iss := { at' s mem with priv := false }

/-- s1 … s9 hold the greatest values that control registers accept, and the least that they do not. -/
def controlling : State := issuing [0] fun tm => { tm with hgs := [(0, { wordHg with scl := [(1, 0xFFFF), (2, 0x10000), (3, 2 ^ 57 - 4), (4, 2 ^ 57),
  (5, 0xAAAAAAAAAAAAAAAA), (6, 0xC000000000000000), (7, 0xFFFFFFFF), (8, 1000), (9, 2)] })] }
def controlWords : List Instr := [.csrrd h0 9 (sc 12), .csrwr h0 9 (sc 1), .csrrd h0 0 (v 12), .csrrd h0 8 (sc 12), .csrrd h0 2 (sc 12), .csrrd h0 6 (sc 12), .csrwr h0 0 (sc 1), .csrwr h0 0 (sc 2),
  .csrwr h0 1 (.imm 1), .csrwr h0 1 (sc 9), .csrwr h0 2 (sc 3), .csrwr h0 2 (sc 4), .csrwr h0 3 (sc 5), .csrwr h0 3 (sc 6), .csrwr h0 8 (sc 7), .csrwr h0 8 (sc 8), .csrwr h0 8 (.imm 0)]

theorem witness_ControlRegisters :
    (∀ i, i ∈ controlWords → Issues i h0 allFall controlling (at' controlling [0])) ∧ (∀ i, i ∈ controlWords → Issues i h0 allFall (plain controlling) (atPlain (plain controlling) [0])) ∧
    ((at' controlling [0]).priv = true ∧ (atPlain (plain controlling) [0]).priv = false ∧ (at' controlling [0]).hgs = [0] ∧ (controlling.ctx? 0).isSome) ∧
    (let n (a : Opd) : Nat := (at' controlling [0]).tm.n64 ((at' controlling [0]).lead 0) a
     n (sc 1) = 2 ^ 16 - 1 ∧ ¬ n (sc 2) < 2 ^ 16 ∧ n (.imm 1) < 2 ∧ ¬ n (sc 9) < 2 ∧ (n (sc 3) % 4 = 0 ∧ n (sc 3) < 2 ^ 57) ∧ ¬ n (sc 4) < 2 ^ 57 ∧
     (∀ i, i < 32 → n (sc 5) / 4 ^ i % 4 ≠ 3) ∧ (¬ ∀ i, i < 32 → n (sc 6) / 4 ^ i % 4 ≠ 3) ∧ n (sc 7) = 2 ^ 32 - 1 ∧ n (sc 8) = 1000 ∧ n (.imm 0) = 0) :=
  ⟨issue_of_all _ (by decide +kernel) (by decide +kernel), issue_of_all _ (by decide +kernel) (by decide +kernel), by decide +kernel⟩

/-- A trap of a word of threads 0 and 5, raised in cycle 0 or halted. -/
def trap0 (halted : Bool) : Trap :=
  { req := { cause := .swtrap, code := 7, point := BitVec.ofNat 57 wordVa, mask := [0, 5], addrs := [], kind := .word, hg := 0 },
    cyc := 0, halted := halted, skids := [], stopped := two,
    prior := [{ thr := 0, st := .binned 0, pc := BitVec.ofNat 57 wordVa, skid := 0, notBefore := 0, win := [3], preds := 3,
                rst := .binned 0, rpc := BitVec.ofNat 57 wordVa, lane := 0 },
              { thr := 5, st := .exited, pc := 0, skid := 16, notBefore := 0, win := [], preds := 1,
                rst := .exited, rpc := 0, lane := 5 }],
    groups := [], colls := [], hhg := 0, winx := [4095, 1, 2, 3], uid0 := 0, vec := 2 ^ 57 - 4 }
/-- In its skid, past the last cycle of it; and in its handler at the highest address a handler can have. -/
def skidding : State :=
  let s := issuing [] fun tm => { tm with trap := some (trap0 false), threads := [(0, { wordThread 1 0 with st := .binned 0, regs := [(1, 9)] }), (5, { wordThread 1 5 with st := .exited })] }
  (s.modCore 0 fun k => { k with groups := [], cyc := 16 }).modCtx 0 fun x => { x with trapvec := 2 ^ 57 - 4 }
def handling' : State := issuing [0] fun tm => { tm with trap := some (trap0 true) }

theorem witness_TrapEntryAndReturn :
    (∃ x tm, skidding.team? 0 0 = some tm ∧ skidding.ctx? tm.ctx = some x ∧
      (tm.trap = some (trap0 false) ∧ tm.frozen = false ∧ tm.skidOver (skidding.core 0).now = true ∧ (skidding.core 0).pends = [] ∧ (skidding.core 0).storeQ = [] ∧
        (trap0 false).vec ≠ 0 ∧ (trap0 false).vec < 2 ^ 57 ∧ tm.handlerHg (trap0 false).req.mask = some 0 ∧ (tm.threads.map fun e => e.1).Nodup)) ∧
    (∀ i, i ∈ ([.trd h0 .cause (v 3) (.imm 0), .tret h0, .tretSkip h0, .tretKill h0] : List Instr) → Issues i h0 allFall demo (at' demo two)) ∧
    ((at' demo two).ts = two ∧ (at' demo two).tm.isHandler 5 = false) ∧
    (let w := at' handling' [0]
     (∀ i, i ∈ ([.trd h0 .tstate (v 3) (.imm 31), .trd h0 .sx (v 3) (.imm 3), .tret h0, .tretSkip h0, .tretKill h0] : List Instr) → Issues i h0 allFall handling' w) ∧
     (w.tm.trap = some (trap0 true) ∧ (∀ th, th ∈ w.ts → w.tm.isHandler th = true) ∧ (∀ th, th ∈ w.ts → TrdFld.beyond .tstate w.tm.hgroups (w.tm.n32 th (.imm 31)) = false) ∧
       (handling'.core 0).pends = [] ∧ (handling'.core 0).storeQ = [] ∧ w.tm.held = [] ∧ (trap0 true).groups = [] ∧ (trap0 true).req.kind = .word ∧
       ((trap0 true).prior.map fun p => p.thr).Nodup)) :=
  ⟨⟨_, _, rfl, rfl, by decide +kernel⟩, issue_of_all _ demo_stands (by decide +kernel), by decide +kernel, issue_of_all _ (by decide +kernel) (by decide +kernel), by decide +kernel⟩

/-- A fetch fault of the team on core 1, number 5 of context 0. -/
def fault5 : PFault := { fid := 5, kind := 5, core := 1, slot := 3, wid := 7, hg := 0, va := wordVa, mem := [0], pc := BitVec.ofNat 57 wordVa, accs := [], uids := [], cmd := none,
                         reissue := true, cont := BitVec.ofNat 57 wordVa, accepted := 0, info := 0, pending := true }
/-- The cluster of two teams and that fault; a migration descriptor stands at 0x10080; s3 is the longest `idle`. -/
def faulting : State :=
  let s := (clustered.modTeam 0 0 fun tm => { tm with hgs := [(0, { wordHg with scl := [(1, 0x10000), (2, 0x10080), (3, 2 ^ 32 - 1)] })] }).modCtx 0 fun x => { x with faults := [fault5] }
  { s with mem := tables ++ [(0x21008A, 0x40)] }
def faultInstrs : List Instr := [.fltrep h0 (v 3) (.imm 0) (.imm 6), .fltcancel h0 (v 3) (.imm 0) (.imm 6), .fltrep h0 (v 3) (.imm 0) (.imm 5), .fltcancel h0 (v 3) (.imm 0) (.imm 5),
  .tlbinvVa h0 (sc 4) (.imm 0) (sc 1), .tlbinvCtx h0 (sc 4) (.imm 0), .tlbinvMig h0 (sc 4) (.imm 0) (sc 2), .idle h0 (.imm 0), .idle h0 (sc 3)]

theorem witness_FaultWords :
    (∀ i, i ∈ faultInstrs → Issues i h0 allFall faulting (at' faulting [0])) ∧ (∀ i, i ∈ faultInstrs → Issues i h0 allFall (plain faulting) (atPlain (plain faulting) [0])) ∧
    (atPlain (plain faulting) [0]).priv = false ∧
    (let s := faulting
     let w := at' s [0]
     let r : Req := { t := 0, va := 0x10080, park := [0] }
     Settled s w ∧ (w.priv = true ∧ w.hgs = [0] ∧ w.tm.n32 (w.lead 0) (.imm 0) = 0 ∧ w.tm.n32 (w.lead 0) (.imm 5) = 5 ∧ w.tm.n32 (w.lead 0) (.imm 6) = 6 ∧ w.tm.n32 (w.lead 0) (sc 3) = 2 ^ 32 - 1 ∧
       (s.core 0).cmds.length < 128 ∧ s.handleVals.length < 2 ^ 63) ∧
     (∃ x tm, s.ctx? 0 = some x ∧ s.team? 1 3 = some tm ∧ (x.cst ≠ 0 ∧ x.cst ≠ 4 ∧ (∀ f, f ∈ x.faults → ¬ (f.fid = 6 ∧ f.pending = true)) ∧
       x.faults.find? (fun f => f.fid == 5 && f.pending) = some fault5 ∧ x.saved = [] ∧ tm.frozen = false ∧ tm.trap = none ∧ (tm.threads.map fun e => e.1).Nodup)) ∧
     (let f : Req := { t := 0, va := wordVa, park := [0] }
      fault5.kind = 5 ∧ (State.lookupAll (s.modCtx 0 fun x => { x with faults := x.faults.filter fun g => g.fid != 5 }) 1 0 .fetch 1 [f] []).1 = [(f, .ok 0x210000)] ∧
      s.poisoned 0x210000 1 = false) ∧
     Translates s w .load 32 [r] [(r, 0x210080)] ∧ (∃ l, s.walk 0 4 0x1000 = .leaf l ∧ l.size = 2097152) ∧
     (w.hgReqs (fun t => w.tm.n64 t (sc 2)) = [r] ∧ s.poisoned 0x210080 32 = false ∧ fieldLe (s.readPa 0x210080 32) 0 8 = 0 ∧ fieldLe (s.readPa 0x210080 32) 8 8 = 2 * 2097152 ∧
       fieldLe (s.readPa 0x210080 32) 16 16 = 0)) :=
  ⟨issue_of_all _ (by decide +kernel) (by decide +kernel), issue_of_all _ (by decide +kernel) (by decide +kernel), rfl, settled_of_check rfl, by decide +kernel,
   ⟨_, _, rfl, rfl, by decide +kernel⟩, by decide +kernel, translates_of_check (by decide +kernel),
   ⟨{ entry := BitVec.ofNat 64 0x20001F, size := 2097152, at' := 0x4000 }, by decide +kernel, rfl⟩, by decide +kernel⟩

/-! ### The scheduler -/

/-- The team on core 0 with its threads in a state, and core 0 otherwise as given. -/
def scheduling (st : TState) (f : Core → Core) (mm : Memory := []) : State :=
  (issuing two (fun tm => { tm with threads := tm.threads.map fun e => (e.1, { e.2 with st := st }) }) mm).modCore 0 f
/-- `vnot` of v2, its word in memory. -/
def notWord : Nat := ((encode (.vnot h0 .n32 (v 1) (v 2))).getD 0).toNat
/-- A read of thread 0's v2 that has been sent out. -/
def pend2 : Pend :=
  { uid := 4, ins := 4, slot := 0, hg := 0, regs := [.v 0 2],
    src := .load { path := .ls, thr := 0, va := 0x200, size := 4, sc := .die, ch := .dflt, act := .load [.v 0 2], pc := 0 } (.mem 0x200),
    issuedAt := 0, missed := true, urgent := false, aside := false }
/-- Threads 0 and 5 are about to issue `vnot` of v2, and have been held for 8 cycles by the read of thread 0's. -/
def dissolving : State := scheduling (.active 1) (fun k => { k with cyc := 8, pends := [pend2], groups := [{ wordGroup 1 0 with mem := two, heldAt := some 0 }] }) (placeWord [] notWord)
/-- A group that has issued for 4,096 cycles while 32 threads wait in a bin. -/
def rotating : State := scheduling (.binned 5) fun k => { k with cyc := 4096, groups := [{ wordGroup 1 0 with mem := two }], issued := [(1, 0, none)] }

theorem witness_SchedulerEvents :
    (let s := scheduling (.binned 0) fun k => { k with cyc := 1, groups := [] }
     ∃ b, (s.core 0).drawable = some b ∧ (s.core 0).issued = [] ∧ (s.core 0).eligible b = true ∧ b.mem.length = 32) ∧
    (let s := scheduling (.active 1) fun k => { k with drawn := true }
     (s.core 0).drawn = true) ∧
    (let s := scheduling (.binned 0) fun k => { k with cyc := 16, groups := [] }
     ∃ b, b ∈ (s.core 0).agingBins ∧ b.slot = 0 ∧ b.pc = (BitVec.ofNat 57 wordVa).toNat) ∧
    (∃ g, (dissolving.core 0).groups.find? (fun x => x.gid == 1) = some g ∧ (∃ hi, dissolving.held? 0 g = some hi) ∧ dissolving.mustDissolve 0 g = true) ∧
    (∃ g, (rotating.core 0).groups.find? (fun x => x.gid == 1) = some g ∧ g.drawn + 4096 = (rotating.core 0).now ∧ (∃ e, e ∈ (rotating.core 0).issued ∧ e.1 = 1) ∧
      ∃ b, b ∈ (rotating.core 0).bins ∧ (rotating.core 0).eligible b = true) ∧
    (∀ st, st ∈ ([.waiting (.idle 0 false), .waiting (.held [(1, 0)] [.v 0 3])] : List TState) →
      ∃ tm x, (scheduling st id).team? 0 0 = some tm ∧ tm.frozen = false ∧ Tab.get? tm.threads 0 = some x ∧ x.st = st ∧ x.counter 1 ≤ 0 ∧
        (∀ p, p ∈ ((scheduling st id).core 0).pends → p.slot = 0 → ∀ r, r ∈ [RegAt.v 0 3] → r ∉ p.regs)) ∧
    (let s := (scheduling (.waiting (.held [(1, 0)] [])) id).modTeam 0 0 fun tm => tm.modThread 0 fun x => { x with posts := [{ ctr := 1, uid := 4, done := false }] }
     ∃ tm x, s.team? 0 0 = some tm ∧ tm.trap = none ∧ Tab.get? tm.threads 0 = some x ∧ 0 < x.counter 1) ∧
    (let s := { scheduling (.waiting (.held [] [.v 0 2])) (fun k => { k with pends := [pend2] }) with agenda := [.close 0] }
     (s.core 0).urgentRead = some pend2 ∧ Act.close 0 ∈ s.agenda) := by
  refine ⟨⟨{ filed := 0, slot := 0, pc := wordVa, mem := List.range 32 }, by decide +kernel, rfl, by decide +kernel, rfl⟩, rfl,
    ⟨{ filed := 0, slot := 0, pc := wordVa, mem := List.range 32 }, by decide +kernel, rfl, by decide⟩, ?_,
    ⟨_, rfl, by decide +kernel, ⟨_, .head _, rfl⟩, { filed := 5, slot := 0, pc := wordVa, mem := List.range 32 }, by decide +kernel, by decide +kernel⟩, ?_,
    ⟨_, _, rfl, rfl, rfl, by decide +kernel⟩, by decide +kernel⟩
  · refine ⟨_, rfl, ?_, by decide +kernel⟩
    exact Option.isSome_iff_exists.mp (by decide +kernel)
  · intro st h
    simp only [List.mem_cons, List.not_mem_nil, or_false] at h
    rcases h with rfl | rfl <;> exact ⟨_, _, rfl, rfl, rfl, rfl, by decide +kernel, by decide +kernel⟩

/-! ### Launches and packets -/

/-- A state with context 0 alone: its ring has one packet, at 0x8000. -/
def ringing (pkt : Memory) (data : Memory) (f : Ctx → Ctx := id) : State :=
  { State.reset with mem := tables ++ pkt ++ data
                     ctxs := [(0, f { wordCtx with cqbase := 0x8000, ring := .reset 0 1 })] }
def grid5 (un fin : List Nat) (done : BitVec 8) : Grid :=
  { ctx := 0, die := 0, record := (recOne 5).take 50 ++ [done] ++ (recOne 5).drop 51, recAddr := 0, detlvl := 0, ordinal := 0, unplaced := un, placed := [], finished := fin,
    bars := [], node := none, packet := none, complete := false }
def replay0 (bad : Bool) : Replay :=
  { ctx := 0, die := 0, table := 0x10040, image := 0x20000, nent := 0, rdone := 0, badHdr := bad, ord := 0, packet := none, begun := false, ended := false, nodeoff := 0,
    edges := [], pending := [], stat := [], ref := none }
/-- The record of five teams at 0x10040. -/
def recMem (teams : BitVec 8) : Memory := [(0x210041, 0x04), (0x210048, teams), (0x21004C, 1), (0x21004D, 32), (0x21004E, 32), (0x210050, 8)]

/-- A packet of a type, its second doubleword 0x10040, and other bytes. -/
def pkt (t : BitVec 8) (more : Memory) : Memory := [(0x8000, t), (0x8008, 0x40), (0x800A, 0x01)] ++ more

/-- The same with 256 launches in die 0's queue. -/
def crowded (s : State) : State :=
  { s with grids := (List.range 256).map fun i => (i, grid5 [0] [] 0), dies := [(0, { Die.reset with launchQ := List.range 256 })] }

theorem starts_of_check {s : State} {ctx t} (c : ((s.headPkt ctx).any fun e => (s.ctx? ctx).any fun x =>
    e.1 == 0 && pktOk e.2 x.priv && (!pktWaits e.2 || x.ring.open_.isEmpty) && fieldLe e.2 0 1 == t && decide (x.jrn.lvl < 2)) = true) :
    ∃ b x, s.headPkt ctx = some (0, b) ∧ s.ctx? ctx = some x ∧ pktOk b x.priv = true ∧ (pktWaits b = true → x.ring.open_ = []) ∧ fieldLe b 0 1 = t ∧ x.jrn.lvl < 2 := by
  cases h : s.headPkt ctx with
  | none => rw [h] at c; cases c
  | some e =>
    cases k : s.ctx? ctx with
    | none => rw [h, k] at c; cases c
    | some x =>
      obtain ⟨n, b⟩ := e
      rw [h, k] at c
      simp only [Option.any_some, Bool.and_eq_true, beq_iff_eq, Bool.or_eq_true, Bool.not_eq_true', List.isEmpty_iff, decide_eq_true_eq] at c
      obtain ⟨⟨⟨⟨rfl, p⟩, q⟩, r⟩, l⟩ := c
      exact ⟨b, x, rfl, rfl, p, fun w => q.resolve_left (by simp [w]), r, l⟩

theorem none_of_check {α β} {e : Except β (Option α)} (c : okay e && (val none e).isNone) : e = .ok none := by
  cases e with
  | error _ => cases c
  | ok x => cases x with
    | none => rfl
    | some _ => cases c

theorem witness_LaunchEvents :
    (∃ x, let s := { ringing [] [] (fun x => { x with cores := 3 }) with grids := [(0, grid5 [3, 4] [] 0)] }
      let u := s.modCore 1 Core.settle
      Tab.get? s.grids 0 = some (grid5 [3, 4] [] 0) ∧ s.ctx? 0 = some x ∧ recHasCluster (grid5 [3, 4] [] 0).record = false ∧ u.serves 0 1 = true ∧ u.wsFree (1 / 96) = true ∧
      (u.die (1 / 96)).halted = 0 ∧ 0 < (u.core 1).roomFor (u.core 1).teams (grid5 [3, 4] [] 0).record ∧ (u.core 1).freeSlot = some 0) ∧
    (∀ d, d ∈ ([0, 1] : List (BitVec 8)) → ∃ x, let g := grid5 [] [0, 1, 2, 3, 4] d; let s := { ringing [] [] with grids := [(0, g)] }
      Tab.get? s.grids 0 = some g ∧ g.unplaced = [] ∧ s.cores = [] ∧ s.ctx? g.ctx = some x ∧ x.saved = [] ∧ fieldLe g.record 8 4 = g.finished.length ∧ g.node = none ∧
      fieldLe g.record 48 8 = d.toNat * 65536 ∧ ∃ u, s.vwrite g.ctx 65536 (leBytes 8 1) = .ok u) ∧
    (∀ b, ∃ x, let s := { ringing [] [] with replays := [(3, replay0 false), (4, replay0 b)] }
      Tab.get? s.replays 4 = some (replay0 b) ∧ s.ctx? 0 = some x ∧ x.cst = 1 ∧ x.jrn.lvl < 2 ∧ (∃ e, e ∈ s.replays ∧ e.1 < 4 ∧ e.2.ended = false ∧ e.2.image = (replay0 b).image ∧ e.2.ctx = 0)) ∧
    (∀ b, ∃ x, let s := { ringing [] [] with replays := [(4, replay0 b)] }
      Tab.get? s.replays 4 = some (replay0 b) ∧ s.ctx? 0 = some x ∧ x.cst = 1 ∧ x.jrn.lvl < 2 ∧ (¬ ∃ e, e ∈ s.replays ∧ e.1 < 4 ∧ e.2.ended = false ∧ e.2.image = (replay0 b).image ∧ e.2.ctx = 0) ∧
      (replay0 b).badHdr = b ∧ s.readImage 0 0x20000 = .ok none ∧ ∃ u, s.vwrite 0 (replay0 b).doneAt (leBytes 8 0xFFFFFFFE00000006) = .ok u) ∧
    (let s := ringing (pkt 1 [(0x8010, 1)]) []
     (∃ b x, s.headPkt 0 = some (0, b) ∧ s.ctx? 0 = some x ∧ pktOk b x.priv = true ∧ (pktWaits b = true → x.ring.open_ = []) ∧ fieldLe b 0 1 = 1 ∧ x.jrn.lvl < 2) ∧
     (s.kickQ 1 < 64 ∧ (s.die 1).halted = 0) ∧ ∃ h, (s.startPkt 0 0).vread 0 0x10040 32 = .ok h) ∧
    (∀ n, n ∈ ([0, 5] : List (BitVec 8)) → let s := ringing (pkt 2 [(0x8011, 1), (0x8012, 1)]) (recMem n)
     (∃ b x, s.headPkt 0 = some (0, b) ∧ s.ctx? 0 = some x ∧ pktOk b x.priv = true ∧ (pktWaits b = true → x.ring.open_ = []) ∧ fieldLe b 0 1 = 2 ∧ x.jrn.lvl < 2) ∧
     (s.vread 0 0x10040 64 = .ok (recOne n) ∧ s.launchStatus 0 (recOne n) 0 = (if n = 0 then 1 else 0) ∧ recCores (recOne n) = false ∧ s.queueFull 0 = false ∧
       (s.die 0).halted = 0 ∧ (crowded s).headPkt 0 = s.headPkt 0 ∧ (crowded s).ctx? 0 = s.ctx? 0 ∧ (crowded s).queueFull 0 = true) ∧
     ∃ v, (s.startPkt 0 0).vwrite 0 0x10100 (leBytes 1 1) = .ok v) := by
  refine ⟨⟨_, rfl, rfl, by decide +kernel⟩, ?_, ?_, ?_,
    ⟨starts_of_check (by decide +kernel), by decide +kernel, _, ok_of_check (d := []) (by decide +kernel)⟩, ?_⟩
  · intro d h
    simp only [List.mem_cons, List.not_mem_nil, or_false] at h
    rcases h with rfl | rfl <;>
      exact ⟨_, rfl, rfl, rfl, rfl, rfl, by decide +kernel, rfl, by decide +kernel, _, ok_of_check (d := State.reset) (by decide +kernel)⟩
  · intro b
    cases b <;> exact ⟨_, rfl, rfl, rfl, by decide, (3, replay0 false), .head _, by decide, rfl, rfl, rfl⟩
  · intro b
    cases b <;>
      exact ⟨_, rfl, rfl, rfl, by decide, by rintro ⟨e, he, h, -⟩; rw [List.mem_singleton] at he; subst he; exact absurd h (by decide), rfl, none_of_check (by decide +kernel),
        _, ok_of_check (d := State.reset) (by decide +kernel)⟩
  · intro n h
    simp only [List.mem_cons, List.not_mem_nil, or_false] at h
    rcases h with rfl | rfl <;>
      exact ⟨starts_of_check (by decide +kernel), by decide +kernel, _, ok_of_check (d := State.reset) (by decide +kernel)⟩

theorem witness_PacketEvents :
    (∀ e, e ∈ ([(3, [(0x8009, 0), (0x8014, 64), (0x8018, 1)]), (5, [(0x8010, 7)]), (6, [(0x8010, 7)])] : List (Nat × Memory)) →
      let s := ringing (pkt (BitVec.ofNat 8 e.1) e.2) []
      (∃ b x, s.headPkt 0 = some (0, b) ∧ s.ctx? 0 = some x ∧ pktOk b x.priv = true ∧ (pktWaits b = true → x.ring.open_ = []) ∧ fieldLe b 0 1 = e.1 ∧ x.jrn.lvl < 2) ∧
      (∃ x, s.ctx? 0 = some x ∧ x.ring.setdet = none ∧ x.ring.wait = none) ∧ ∃ v, s.vwrite 0 0x10040 (leBytes 8 7) = .ok v) ∧
    (∀ e, e ∈ ([[], [(0x8011, 1)]] : List Memory) → let s := ringing ([(0x8000, 4), (0x8008, 1)] ++ e) []
      (∃ b x, s.headPkt 0 = some (0, b) ∧ s.ctx? 0 = some x ∧ pktOk b x.priv = true ∧ (pktWaits b = true → x.ring.open_ = []) ∧ fieldLe b 0 1 = 4 ∧ x.jrn.lvl < 2) ∧
      (s.newJournal 0 1 (if e = [] then 0 else 256)).isSome = decide (e = [])) ∧
    (let s := ringing [] [] fun x => { x with ring := { x.ring with ws := some (0, 0x10040, 2 ^ 30 - 64, 64, 1) } }
     ∃ x bs, s.ctx? 0 = some x ∧ x.ring.ws = some (0, 0x10040, 2 ^ 30 - 64, 64, 1) ∧ s.dieIdle 1 = true ∧ s.alive x = true ∧ (s.die 1).halted = 0 ∧ s.vread 0 0x10040 64 = .ok bs ∧
       demo.dieIdle 0 = false) ∧
    (let s := ringing [] [] fun x => { x with ring := { x.ring with setdet := some (0, { Jrn.reset with lvl := 1 }) } }
     ∃ x, s.ctx? 0 = some x ∧ x.ring.setdet = some (0, { Jrn.reset with lvl := 1 }) ∧ s.alive x = true ∧ (x.mer.flying = false ∧ x.mer.begun = false) ∧ (∀ g, g ∈ s.grids → g.2.ctx ≠ 0) ∧ x.jrn.lvl < 2 ∧
       ∃ g, g ∈ [((0 : Nat), grid5 [] [] 0)] ∧ g.2.ctx = 0) ∧
    (∀ e, e ∈ ([8, 9] : List (BitVec 8)) → let s := ringing [] [(0x210040, e)] fun x => { x with ring := { x.ring with wait := some (0, 0x10040, 9) } }
     ∃ x, s.ctx? 0 = some x ∧ x.ring.wait = some (0, 0x10040, 9) ∧ s.vget 0 0x10040 8 = .ok e.toNat ∧ s.alive x = true) := by
  refine ⟨?_, ?_, ⟨_, _, rfl, rfl, by decide +kernel, by decide +kernel, by decide +kernel, ok_of_check (d := []) (by decide +kernel), by decide +kernel⟩,
    ⟨_, rfl, rfl, by decide +kernel, ⟨rfl, rfl⟩, by decide +kernel, by decide, _, .head _, rfl⟩, ?_⟩
  · intro e h
    simp only [List.mem_cons, List.not_mem_nil, or_false] at h
    rcases h with rfl | rfl | rfl <;> exact ⟨starts_of_check (by decide +kernel), ⟨_, rfl, rfl, rfl⟩, _, ok_of_check (d := State.reset) (by decide +kernel)⟩
  · intro e h
    simp only [List.mem_cons, List.not_mem_nil, or_false] at h
    rcases h with rfl | rfl <;> exact ⟨starts_of_check (by decide +kernel), by decide +kernel⟩
  · intro e h
    simp only [List.mem_cons, List.not_mem_nil, or_false] at h
    rcases h with rfl | rfl <;> exact ⟨_, rfl, rfl, by decide +kernel, by decide +kernel⟩

/-! ### Contexts -/

/-- Context 65,535 alone, with its entry at 0x7FFF80; its save area has exactly the bytes that saving it can take; its one team is parked. -/
def lastCtx (cst req : Nat) (f : Ctx → Ctx := id) (st : TState := .parked 0) : State :=
  { State.reset with
    mem := [(0x7FFF81, BitVec.ofNat 8 req)]
    cores := [(0, { wordCore Core.reset 1 with teams := [(0, { wordTeam 1 with ctx := 65535, threads := [(0, { wordThread 1 0 with st := st })] })], groups := [] })]
    ctxs := [(65535, f { wordCtx with cst := cst, fqbase := 0x100000, svbase := 0x1000000, svsize := 22740992 })] }
/-- No context 65,535; a run request and the bytes given stand in its entry. -/
def firstRun (b : Memory) (cs : Tab Ctx) : State := { State.reset with mem := b, ctxs := cs }
def entry (b0 : BitVec 8) : Memory := [(0x7FFF80, b0), (0x7FFF81, 1), (0x7FFF98, 1), (0x7FFFB0, 1), (0x7FFFE0, 1)]

theorem witness_ContextEvents :
    (∀ i, i < 128 → inWindow (State.reset.ctxEntry 65535 + i) = false) ∧
    (∀ c, c < 5 → ∀ r, r < 4 → ((lastCtx c r).ctx? 65535).isSome ∧ (lastCtx c r).poison = [] ∧ (lastCtx c r).req 65535 = r ∧ (lastCtx c r).cst 65535 = c) ∧
    (∀ e, e ∈ ([(0, []), (1, [(0, wordCtx)]), (3, [])] : List (BitVec 8 × Tab Ctx)) → let s := firstRun (entry e.1) e.2
      let b := (s.takeReq 65535).entryBytes 65535
      s.ctx? 65535 = none ∧ s.req 65535 = 1 ∧ entryOk b = decide (e.1 ≠ 0) ∧
      ((∃ k, k ∈ s.ctxs ∧ k.1 ≠ 65535 ∧ (k.2.cst = 1 ∨ k.2.cst = 2) ∧ k.2.cores &&& (ctxOf b).cores ≠ 0) ↔ e.1 = 1)) ∧
    (∃ x y, (lastCtx 1 2).ctx? 65535 = some x ∧ x.svsize = x.saveBound ∧ (lastCtx 1 2 fun x => { x with svsize := x.svsize - 1 }).ctx? 65535 = some y ∧ y.svsize < y.saveBound) ∧
    (∃ tm, (lastCtx 1 2).team? 0 0 = some tm ∧ tm.ctx = 65535 ∧ tm.fin = false ∧ ((lastCtx 1 2).core 0).evictable 0 tm = true) ∧
    (let s := lastCtx 2 0
     ∃ x, s.ctx? 65535 = some x ∧ x.save = none ∧ x.mer.flying = false ∧ (s.freeze 65535).evictReady 65535 = true ∧ Tab.sortedFrom 0 s.cores = true ∧
       (∀ e, e ∈ s.cores → Tab.sortedFrom 0 e.2.teams = true) ∧ (s.core 0).pends = [] ∧ (s.core 0).outs = []) ∧
    (∃ x, (lastCtx 2 0 fun x => { x with save := some (0, []) }).ctx? 65535 = some x ∧ x.save = some (0, []) ∧ (lastCtx 2 0).stks = []) ∧
    (let s := { lastCtx 2 0 (fun x => { x with save := some (0, []) }) with stks := [(3, { Stk.reset with segs := [(65535, 5, [1])] })], dies := [(0, { Die.reset with retrain := 0 })] }
     ∃ x, s.ctx? 65535 = some x ∧ x.save = some (0, []) ∧ (s.stk 3).segs = (65535, 5, [1]) :: [] ∧ (s.stk 3).running = none ∧ (s.stk 3).pend = none ∧ (s.die (stkDie 3)).retrain = 0 ∧
       (∀ bk, bk ∈ x.frameBanks 3 5 → (s.stk 3).training ≠ some (bankChan bk) ∧ bk ∉ (s.stk 3).forced ∧ ∀ r, r ∈ (s.stk 3).ofBank 3 bk → 3 < (s.stk 3).cls r) ∧
       inWindow (x.svbase + 4096 * 5) = false) ∧
    (let s := lastCtx 2 0 fun x => { x with save := some (1, []) }
     ∃ x fr, s.ctx? 65535 = some x ∧ x.save = some (0 + 1, []) ∧ (s.stk 3).segs = [] ∧ (s.stk 3).running = none ∧ (s.stk 3).pend = none ∧ s.saveFrame 65535 x 3 = some fr) ∧
    (let s := lastCtx 1 0 fun x => { x with jrn := { x.jrn with lvl := 3, mis := true } }
     ∃ x, s.ctx? 65535 = some x ∧ x.cst = 1 ∧ s.mismatched 65535 x = true) ∧
    (∀ n, n < 2 → let s := lastCtx 1 0 fun x => { x with ringTail := n, ringQ := [List.replicate 32 1] }
     ∃ x, s.ctx? 65535 = some x ∧ x.ringQ = List.replicate 32 1 :: [] ∧ x.cst = 1 ∧ (∀ i, i < 64 + 32 * x.fqsz → inWindow (x.fqbase + i) = false) ∧
       (x.ringTail + 2 ^ 32 - Memory.readLe s.mem (x.fqbase + 4) 4) % 2 ^ 32 = n ∧ x.fqsz = 1 ∧ leNat (s.readPa (x.fqbase + 12) 52) = 0) := by
  refine ⟨by decide +kernel, by decide +kernel, ?_, ⟨_, _, rfl, by decide +kernel, rfl, by decide +kernel⟩, ⟨_, rfl, rfl, rfl, by decide +kernel⟩,
    ⟨_, rfl, rfl, rfl, by decide +kernel, by decide +kernel, by decide +kernel, rfl, rfl⟩, ⟨_, rfl, rfl, rfl⟩, ⟨_, rfl, rfl, rfl, rfl, rfl, by decide +kernel, fun _ _ => ⟨nofun, nofun, nofun⟩, by decide +kernel⟩,
    ⟨_, _, rfl, rfl, rfl, rfl, rfl, Option.some_get (by decide +kernel) |>.symm⟩, ⟨_, rfl, rfl, by decide +kernel⟩, ?_⟩
  · intro e h
    simp only [List.mem_cons, List.not_mem_nil, or_false] at h
    rcases h with rfl | rfl | rfl
    · exact ⟨rfl, by decide +kernel, by decide +kernel, fun ⟨k, hk, _⟩ => absurd hk List.not_mem_nil, fun c => absurd c (by decide)⟩
    · exact ⟨rfl, by decide +kernel, by decide +kernel, fun _ => rfl, fun _ => ⟨_, .head _, by decide, .inl rfl, by decide +kernel⟩⟩
    · exact ⟨rfl, by decide +kernel, by decide +kernel, fun ⟨k, hk, _⟩ => absurd hk List.not_mem_nil, fun c => absurd c (by decide)⟩
  · intro n h
    match n, h with
    | 0, _ => exact ⟨_, rfl, rfl, rfl, by decide +kernel⟩
    | 1, _ => exact ⟨_, rfl, rfl, rfl, by decide +kernel⟩

/-! ### Meridian and Erg -/

theorem okSome_of_check {α β} {d : α} {e : Except β (Option α)} (c : (okay e && (val none e).isSome) = true) : e = .ok (some ((val none e).getD d)) := by
  cases e with
  | error _ => cases c
  | ok x => cases x with
    | none => cases c
    | some _ => rfl

/-- What a step of Meridian asks of the state: the table is served and readable, `en` is its enable bit, and `r` says whether
the next step's phases are due. -/
def serves0 (s : State) (en : Nat) (r : Bool) : Prop :=
  ∃ x h, s.ctx? 0 = some x ∧ s.vread 0 0x20000 256 = .ok h ∧ s.pool 0 (fieldLe h 72 8) = .ok (some pool0) ∧ x.mer.tab = 0x20000 ∧ x.cst = 1 ∧
    (s.die x.mer.die).halted = 0 ∧ x.ring.setdet = none ∧ x.mer.next = none ∧ x.mer.stop = false ∧ x.mer.begun = false ∧ x.jrn.lvl < 2 ∧ x.mer.step = 7 ∧
    (x.mer.idle || (!x.mer.flying && !x.mer.ended)) = r ∧ fieldLe h 0 4 = 2 ∧ fieldLe h 96 4 = 0 ∧ fieldLe h 4 1 % 2 = en
def servable (s : State) (en : Nat) (r : Bool) : Bool :=
  (s.ctx? 0).any fun x => match s.vread 0 0x20000 256 with
    | .ok h => decide (s.pool 0 (fieldLe h 72 8) = .ok (some pool0) ∧ x.mer.tab = 0x20000 ∧ x.cst = 1 ∧
        (s.die x.mer.die).halted = 0 ∧ x.ring.setdet = none ∧ x.mer.next = none ∧ x.mer.stop = false ∧ x.mer.begun = false ∧ x.jrn.lvl < 2 ∧ x.mer.step = 7 ∧
        (x.mer.idle || (!x.mer.flying && !x.mer.ended)) = r ∧ fieldLe h 0 4 = 2 ∧ fieldLe h 96 4 = 0 ∧ fieldLe h 4 1 % 2 = en)
    | .error _ => false
theorem serves0_of_check {s : State} {en r} (c : servable s en r = true) : serves0 s en r := by
  simp only [servable] at c
  cases k : s.ctx? 0 with
  | none => rw [k] at c; cases c
  | some x =>
    rw [k, Option.any_some] at c
    split at c <;> [rename_i h v; cases c]
    exact ⟨x, h, k, v, of_decide_eq_true c⟩

/-- The state in which a step's phases begin. -/
def phased (s : State) : State := s.modMer 0 fun m => { m with cgroups := fieldLe (val [] (s.vread 0 0x20000 256)) 20 4 }
/-- A step formed: the states of its phases. -/
def formed (s : State) (n : Nat) : Prop :=
  ∃ left s1 s2 b s3, (phased s).pool 0 0x21000 = .ok (some pool0) ∧ (phased s).retirePhase 0 pool0 0x20000 2 8 = .ok (some (left, s1)) ∧
    State.collectTo 0 pool0 0x20000 2 8 0 (2 ^ 20) s1 = .ok s2 ∧ s2.form 0 pool0 0x20000 2 8 left = .ok (b, s3) ∧
    b.slots.length = n ∧ (∃ z, s3.ctx? 0 = some z ∧ z.jrn.lvl < 2) ∧ (∃ s4, s3.vput 0 (0x20000 + 6) 1 2 = .ok s4) ∧
    ∃ s4 s5, s3.writeStep 0 0x20000 8 b = .ok s4 ∧ s4.kickStep 0 0x20000 8 b = .ok s5 ∧ ∃ z, s4.ctx? 0 = some z ∧ z.jrn.lvl < 2
def low (s : State) : Bool := (s.ctx? 0).any fun z => decide (z.jrn.lvl < 2)
def forms (s : State) (n : Nat) : Bool := decide ((phased s).pool 0 0x21000 = .ok (some pool0)) && match (phased s).retirePhase 0 pool0 0x20000 2 8 with
  | .ok (some (left, s1)) => match State.collectTo 0 pool0 0x20000 2 8 0 (2 ^ 20) s1 with
    | .ok s2 => match s2.form 0 pool0 0x20000 2 8 left with
      | .ok (b, s3) => b.slots.length == n && low s3 && okay (s3.vput 0 (0x20000 + 6) 1 2) && match s3.writeStep 0 0x20000 8 b with
        | .ok s4 => low s4 && okay (s4.kickStep 0 0x20000 8 b)
        | .error _ => false
      | .error _ => false
    | .error _ => false
  | _ => false
theorem formed_of_check {s : State} {n} (c : forms s n = true) : formed s n := by
  have low' {s : State} (h : low s = true) : ∃ z, s.ctx? 0 = some z ∧ z.jrn.lvl < 2 := by
    cases k : s.ctx? 0 with
    | none => simp [low, k] at h
    | some z => exact ⟨z, rfl, by simpa [low, k] using h⟩
  simp only [forms, Bool.and_eq_true, decide_eq_true_eq] at c
  obtain ⟨q, c⟩ := c
  split at c <;> [rename_i left s1 h1; cases c]
  split at c <;> [rename_i s2 h2; cases c]
  split at c <;> [rename_i b s3 h3; cases c]
  simp only [Bool.and_eq_true, beq_iff_eq] at c
  obtain ⟨⟨⟨l, z⟩, v⟩, c⟩ := c
  split at c <;> [rename_i s4 h4; cases c]
  rw [Bool.and_eq_true] at c
  exact ⟨left, s1, s2, b, s3, q, h1, h2, h3, l, low' z, ⟨_, ok_of_check (d := s) v⟩, s4, _, h4, ok_of_check (d := s) c.2, low' c.1⟩

/-- The pool of `n` HBM frames, of which page 0 holds the first; page 1 is in LP frame 0; the team's command waits for it. -/
def recalling (n held : BitVec 8) : State :=
  (serving { st := 0, eix := 0, hbm := n, refs0 := 1, up0 := held, up1 := 1 }).modCore 0 fun k => { k with cmds := [{ cmd5 with erg := some 1 }] }
def pool1 (n : Nat) : Pool := { pool0 with eix := 0, frames := (n, 4, 4) }

theorem witness_MeridianAndErg :
    (∃ x, demo.ctx? 0 = some x ∧ x.mer.tab = 0) ∧
    (∀ e, e ∈ ([(0, 0, none), (3, 0, some 3), (0, 1, some 0)] : List (BitVec 8 × BitVec 8 × Option Nat)) →
      let s := serving { st := 0, done := e.1, done4 := e.2.1 }
      serves0 s 1 false ∧ (∃ x, s.ctx? 0 = some x ∧ x.mer.idle = false ∧ x.mer.flying = true) ∧ s.stepOver 0 = .ok e.2.2) ∧
    (let s := (serving { st := 0, done4 := 1 }).modCtx 0 fun x => { x with ring := { x.ring with setdet := some (0, Jrn.reset) } }
     ∃ x, s.ctx? 0 = some x ∧ (x.mer.tab ≠ 0 ∧ x.cst = 1 ∧ (s.die x.mer.die).halted = 0 ∧ x.mer.idle = false ∧ x.mer.flying = true ∧ x.ring.setdet ≠ none ∧ x.mer.begun = false ∧ s.stepOver 0 = .ok (some 0))) ∧
    (∀ b, serves0 (serving { st := 0, en := 0, flying := false, idle := b }) 0 true) ∧
    (let s := serving { st := 0, flying := false, idle := true }
     serves0 s 1 true ∧ formed s 0) ∧
    (let s := serving { st := 3, slot := 0xFF, flying := false }
     serves0 s 1 true ∧ formed s 1) := by
  refine ⟨⟨_, rfl, rfl⟩, ?_, ⟨_, rfl, by decide +kernel⟩, ?_,
    ⟨serves0_of_check (by decide +kernel), formed_of_check (by decide +kernel)⟩, serves0_of_check (by decide +kernel), formed_of_check (by decide +kernel)⟩
  · intro e h
    simp only [List.mem_cons, List.not_mem_nil, or_false] at h
    rcases h with rfl | rfl | rfl <;> exact ⟨serves0_of_check (by decide +kernel), ⟨_, rfl, rfl, rfl⟩, by decide +kernel⟩
  · intro b
    cases b <;> exact serves0_of_check (by decide +kernel)

def recalled (r : Recall) : Nat := match r with
  | .ok _ => 0
  | .noFrame _ => 1
  | .abort _ _ => 2
def movedOk (r : Moved) : Bool := match r with
  | .ok _ => true
  | .abort _ _ => false
def page0 (held : Bool) : PgMeta := { refs := 1, tier := 0, prio := 0, held := held, poison := false, fill := 0, frame := 0, lastuse := 0, pins := 0 }

theorem witness_MeridianAndErg_pages :
    ((recalling 2 0).waitersOn 0 1 = [(0, 5, .ok 0x21000)] ∧ (recalling 2 0).pool 0 0x21000 = .ok (some (pool1 2)) ∧ recalled ((recalling 2 0).recall? 0 (pool1 2) 1) = 0) ∧
    ((recalling 1 0x40).waitersOn 0 1 = [(0, 5, .ok 0x21000)] ∧ (recalling 1 0x40).pool 0 0x21000 = .ok (some (pool1 1)) ∧ recalled ((recalling 1 0x40).recall? 0 (pool1 1) 1) = 1) ∧
    demo.waitersOn 0 1 = [] ∧
    (let s := recalling 1 0
     let l : List (Nat × PgMeta) := [(0, page0 false), (1, { page0 false with tier := 1 })]
     (s.cores.flatMap fun e => (e.2.cmds.filter fun d => d.erg.isSome && (match Tab.get? e.2.teams d.slot with
          | some tm => tm.ctx == 0
          | none => false)).map fun d => (d.erg.getD 0, s.poolAt 0 d)) = [(1, .ok 0x21000)] ∧
       (s.pool 0 0x21000 = .ok (some (pool1 1)) ∧ s.allPg 0 (pool1 1) = .ok l ∧ freeFrame (pool1 1) l 0 (s.resv 0) = none ∧ 0 ∉ s.triedFor 0 (pool1 1) 1 ∧ (page0 false).candidate 0 = true ∧
       (∀ e, e ∈ l → e.2.candidate 0 = true → e ≠ (0, page0 false) → evictBefore (0, page0 false) e = true) ∧ freeFrame (pool1 1) l 1 [] = some 1 ∧
       movedOk (s.movePage 0 (pool1 1) 0 (page0 false) 1 1) = true)) :=
  ⟨by decide +kernel, by decide +kernel, by decide +kernel, by decide +kernel⟩

/-! ### Links, controllers, faults, the host window -/

/-- A request of context 0 from core 0, of name 4; one of context 1. -/
def preq (u ctx : Nat) (urg : Bool) : PReq := { uid := u, core := 0, ctx := ctx, urg := urg }
/-- Port 191 with some requests waiting; context 0 has one token. -/
def porting (next : Option (List (Nat × Nat))) (w : List PReq) : State :=
  { scheduling (.active 1) (fun k => { k with pends := [pend2, { pend2 with uid := 5 }] }) with
    ports := [(191, { Port.reset with share := [(0, 3)], tok := [1], rest := 0, next := next, wait := w })] }
/-- A read of the stack's last line, as it waits at the stack. -/
def lreq (op : Nat) (line : Nat) : LReq :=
  { tag := 1023, op := op, line := line, urg := false, brst := false, waited := false, mask := 5, data := List.replicate 64 7,
    atom := if op = 3 then some (.add, 0, true, 8, 1, 0) else none, acc := none, back := false }
def linking (k : Nat) (q : Stk) : State := { State.reset with stks := [(k, q)] }

/-- A bank grants a request that waits alone. -/
theorem grant_alone {s : State} {k : Nat} {r : LReq} (hq : (s.stk k).queue = [r]) (hr : (s.stk k).running = none) (hp : (s.stk k).pend = none)
    (ht : (s.stk k).training = none) (hd : s.retrainDue k = false) (hf : (s.stk k).forced = []) (ho : (s.stk k).rows = []) (hs : (s.stk k).segs = []) :
    s.grant k r = some 0 := by
  have hh : (s.stk k).heads r = true := by simp [Stk.heads, hq]
  have hb : (s.stk k).ofBank k (bankAt k r.line) = [r] := by simp [Stk.ofBank, hq, hh]
  have h1 : s.firstClass k (bankAt k r.line) = false := by simp [State.firstClass, Stk.changeDue, hr, hp, ht, hd, hf]
  simp [State.grant, h1, hh, hb, State.segBanks, hs, ho, Tab.get?]

theorem witness_LinkEvents :
    (∀ e, e ∈ ([none, some [(0, 5)], some []] : List (Option (List (Nat × Nat)))) → (191 < 192 ∧ (Tab.getD (porting e []).ports 191 Port.reset).next = e)) ∧
    (let s := porting none [preq 4 0 false]
     (Tab.getD s.ports 191 Port.reset).wait = [preq 4 0 false] ∧ (∃ x, x ∈ (s.core 0).pends ∧ x.uid = 4)) ∧
    (let s := porting none [preq 4 0 false, preq 5 0 true]
     let p := Tab.getD s.ports 191 Port.reset
     p.wait = [preq 4 0 false, preq 5 0 true] ∧ preq 4 0 false ≠ preq 5 0 true ∧ (∃ x, x ∈ (s.core 0).pends ∧ x.uid = 4) ∧ (∃ x, x ∈ (s.core 0).pends ∧ x.uid = 5) ∧
     ∃ p1, { p with wait := [] }.spend (preq 5 0 true).ctx = some p1 ∧ (p1.spend (preq 4 0 false).ctx).isSome = false) ∧
    (lineOk 0 (2 ^ 30 - 1) = true ∧ 1023 < 1024 ∧ (linkTy .add 0 true 56).isSome = true ∧ linkTy .add 0 true 4 = none) ∧
    (∀ op b x, op < 4 → let r := { lreq op 77 with back := b, acc := x }
      let s := linking 3 { Stk.reset with queue := [r] }
      (s.stk 3).queue.find? (fun x => x.tag == 1023) = some r ∧ s.grant 3 r = some 0 ∧ s.poison = [] ∧ lineOk 3 r.line = true) ∧
    (∃ x, x ∈ ((linking 3 { Stk.reset with queue := [lreq 0 77] }).stk 3).queue ∧ x.tag = 1023) ∧
    (linking 3 { Stk.reset with queue := [lreq 0 77], running := some 2 }).grant 3 (lreq 0 77) = none ∧
    (let q := { Stk.reset with queue := [{ lreq 0 77 with tag := 1, urg := true }, lreq 0 77] }
     ∃ y, y ∈ q.ofBank 3 (bankAt 3 (lreq 0 77).line) ∧ q.cls y < q.cls (lreq 0 77)) ∧
    (∀ b, let s := { linking 3 { Stk.reset with queue := [lreq 0 77] } with
        cores := [(0, { Core.reset with pends := [{ pend2 with src := .load { path := .ls, thr := 0, va := 0x200, size := 4, sc := .die, ch := .dflt, act := .load [.v 0 2], pc := 0 } (.mem (lineAt 3 77 + 60)), urgent := b }] })] }
      s.urgentLine 3 (lreq 0 77).line = b) := by
  refine ⟨?_, ⟨rfl, _, .head _, rfl⟩, ⟨rfl, by decide, ⟨_, .head _, rfl⟩, ⟨_, .tail _ (.head _), rfl⟩, _, rfl, by decide +kernel⟩, by decide +kernel, ?_, ⟨_, .head _, rfl⟩, rfl,
    ⟨{ lreq 0 77 with tag := 1, urg := true }, ?_, by decide +kernel⟩, by decide +kernel⟩
  · intro e h
    exact ⟨by decide, rfl⟩
  · intro op b x h
    exact ⟨by simp [linking, State.stk, Tab.getD, Tab.get?, lreq], grant_alone rfl rfl rfl rfl rfl rfl rfl rfl, rfl, by simp [lineOk, lreq]⟩
  · exact List.mem_filter.mpr ⟨.head _, by simp [Stk.heads, lreq]⟩

/-- A bank with nothing waiting grants a scrub read. -/
theorem grant_scrub {s : State} {k line : Nat} (hq : (s.stk k).queue = []) (hr : (s.stk k).running = none) (hp : (s.stk k).pend = none)
    (ht : (s.stk k).training = none) (hd : s.retrainDue k = false) (hf : (s.stk k).forced = []) (ho : (s.stk k).rows = []) (hs : (s.stk k).segs = []) :
    (s.grant k (LReq.scrub line)).isSome = true := by
  have h1 : s.firstClass k (bankAt k line) = false := by simp [State.firstClass, Stk.changeDue, hr, hp, ht, hd, hf]
  simp [State.grant, LReq.scrub, h1, Stk.heads, Stk.ofBank, hq, State.segBanks, hs, ho, Tab.get?]

theorem witness_StackEvents :
    (9 < 10 ∧ 3 ∈ ((linking 9 { Stk.reset with forced := [3] }).stk 9).forced ∧ 4 ∉ ((linking 9 { Stk.reset with forced := [3] }).stk 9).forced ∧
      ((linking 9 { Stk.reset with forced := [3] }).stk 9).running = none ∧ ((linking 9 { Stk.reset with allRef := [(4, 1)] }).stk 9).covered 4 = true ∧
      (State.reset.stk 9).covered 4 = false ∧ ∀ b, -8 ≤ Tab.getD (State.reset.stk 9).post b 0 ∧ Tab.getD (State.reset.stk 9).post b 0 ≤ 8) ∧
    ((State.reset.die (stkDie 9)).retrain.toNat ≠ 0 ∧ ({ State.reset with dies := [(0, { Die.reset with retrain := 0 })] }.die (stkDie 0)).retrain.toNat = 0 ∧
      (State.reset.stk 9).running = none ∧ (State.reset.stk 9).pend = none ∧ (State.reset.stk 9).training = none ∧
      ((linking 9 { Stk.reset with training := some 31 }).stk 9).training = some 31) ∧
    (7 < 8 ∧ (3#64).toNat < 4 ∧ 4 ≤ (4#64).toNat ∧ (State.reset.stk 7).running = none ∧ (3#64).toNat ≠ (State.reset.stk 7).rate ∧ (0#64).toNat = (State.reset.stk 7).rate ∧
      ((linking 7 { Stk.reset with pend := some (2, 9) }).stk 7).pend = some (2, 9) ∧ ((linking 7 { Stk.reset with pend := some (2, 9) }).stk 7).running = none ∧
      ((linking 7 { Stk.reset with running := some 2 }).stk 7).running = some 2 ∧ ((linking 7 { Stk.reset with running := some 2 }).stk 7).nextReq = none) ∧
    (lineOk 7 (2 ^ 30 - 1) = true ∧ (State.reset.grant 7 (LReq.scrub (2 ^ 30 - 1))).isSome = true ∧
      (linking 7 { Stk.reset with running := some 2 }).grant 7 (LReq.scrub (2 ^ 30 - 1)) = none ∧
      (let s := { State.reset with poison := [lineAddr 7 (2 ^ 30 - 1)] }
       s.poisoned (lineAddr 7 (2 ^ 30 - 1)) 64 = true ∧ (∀ e, e ∈ s.ctxs → e.2.cst ≠ 1 ∧ e.2.cst ≠ 2)) ∧
      ∃ e, e ∈ demo.ctxs ∧ (e.2.cst = 1 ∨ e.2.cst = 2)) ∧
    ((3#2 : BitVec 2) ≠ 2 ∧ 1 < 2 ∧ patrolled 1 95 16 = true ∧ (16 : Nat) % 4 = 0 ∧ (demo.team? 0 (16 / 4 / 2 ^ 22 % 16)).isSome = true ∧ (5 : Nat) % 4 = 1 ∧ 7 % 4 = 3 ∧
      patrolled 0 (sliceOf 64) 7 = true) ∧
    ((State.reset.die 1).wsIn = true ∧ State.reset.wsDue 1 = true ∧ ({ State.reset with dies := [(1, { Die.reset with wsIn := false })] }.die 1).wsIn = false ∧
      (State.reset.modCore 96 fun k => { k with wsPhase := 250 * Config.wsUnit }).wsDue 1 = false) := by
  refine ⟨⟨by decide, .head _, by decide, rfl, by decide +kernel, by decide +kernel, fun b => ?_⟩, by decide +kernel, by decide +kernel,
    ⟨by decide +kernel, grant_scrub rfl rfl rfl rfl rfl rfl rfl rfl, rfl, ⟨by decide +kernel, fun e h => by cases h⟩, _, .head _, .inl rfl⟩,
    ⟨by decide, by decide, by decide +kernel, by decide, by decide +kernel, by decide, by decide, by simp [patrolled, inHbm, homeDie, stackOf]⟩, by decide +kernel⟩
  exact ⟨by show (-8 : Int) ≤ 0; decide, by show (0 : Int) ≤ 8; decide⟩

/-- A read of CXL memory in flight. -/
def cxlRead : Pend := { pend2 with src := .load { path := .ls, thr := 0, va := 0x200, size := 4, sc := .die, ch := .dflt, act := .load [.v 0 2], pc := 0 } (.mem 0x100000000000) }

/-- A store to it, and a command that moves a page there. -/
def cxlStore : SEntry :=
  { uid := 6, ins := 6, slot := 0, wid := 0, thr := 0, hg := 0, path := .ls, va := 0x200, tgt := .mem 0x1FFFFFFFFFFF, data := [7], pc := 0, mem := [], parked := none, sc := .die,
    near := false, seen := false, again := false, aside := false }
def cxlCmd : Cmd := { cmd5 with kind := .mig 0 0 0x180000000000 65536 0 }
def cxlWaits (p : List Pend) : State := scheduling (.active 1) fun k => { k with pends := p, storeQ := [cxlStore], cmds := [cmd5, cxlCmd] }
def Flight.tag (f : Flight) : Nat × Nat := match f with
  | .read p => (0, p.uid)
  | .store e => (1, e.uid)
  | .cmd d => (2, d.id)

/-- The pool with no index plane, and one place in its ring of received pages, with or without an entry in it. -/
def receiving (tail : BitVec 8) : State :=
  serving { st := 0, eix := 0, tail := tail }
def pool2 : Pool := { pool0 with eix := 0 }
/-- What a received page of zeros does: every stage of it. -/
def receives (s : State) : Bool :=
  match s.allocPage 0 pool2 with
  | (some i, s1) => match s1.getPg 0 pool2 i with
    | .ok m => match s1.vwriteOn .nt .peer 0 (pool2.at' 0 m.frame) (List.replicate 256 0) with
      | .ok s2 => match s2.modPg 0 pool2 i fun m => { m with fill := 16 } with
        | .ok s3 => match s3.vwriteOn .nt .peer 0 (pool2.flring + 64 + 16 * 0) (leBytes 4 i ++ leBytes 4 7 ++ leBytes 8 16) with
          | .ok s4 => okay (s4.vwriteOn .nt .peer 0 pool2.flring (leBytes 4 1))
          | .error _ => false
        | .error _ => false
      | .error _ => false
    | .error _ => false
  | _ => false

theorem witness_FaultEvents :
    (let s := cxlWaits [pend2, cxlRead]
     let u := cxlWaits []
     let l := s.flights 0 inCxl
     (l[0]? = some (.read cxlRead) ∧ l[1]? = some (.store cxlStore) ∧ l[2]? = some (.cmd cxlCmd) ∧ l[3]? = none ∧ (u.flights 0 inCxl)[0]? = some (.store cxlStore) ∧ cxlStore.mem = []) ∧
     (∀ y, y ∈ (s.core 0).outs → cxlRead.uid ≤ y.uid) ∧ (∀ y, y ∈ (u.core 0).outs → cxlStore.uid ≤ y.uid) ∧
     (s.core 0).olderLeft 0 0 4 4 = false ∧ (u.core 0).olderLeft 0 0 6 6 = false ∧ (∃ tm, s.team? 0 0 = some tm ∧ tm.trap = none) ∧ u.team? 0 0 = s.team? 0 0) ∧
    (1 < 2 ∧ 511 < 512 ∧ 15 < 16 ∧ 16 ≤ 16 ∧ Tab.getD State.reset.host.spares (unitKey 10 1 511) 0 < 2) ∧
    ((State.reset.die 1).halted = 0 ∧ (State.reset.die 1).halted ≠ 4 ∧ (State.reset.die 1).ero.frozen = false ∧ ({ State.reset with dies := [(1, { Die.reset with halted := 4 })] }.die 1).halted = 4 ∧ ({ State.reset with dies := [(1, { Die.reset with halted := 2 })] }.die 1).halted ≠ 0) ∧
    (Tab.sortedFrom 0 demo.ctxs = true ∧ ∃ x, demo.ctx? 0 = some x ∧ x.cst = 1 ∧ 0 ∈ x.coreList) ∧
    (∀ n, n ∈ ([0, 1] : List (BitVec 8)) → let s := receiving n
      s.tablePool 0 = .ok pool2 ∧ s.cst 0 = 1 ∧ 1 ≤ 16 ∧ 16 ≤ pool2.p ∧ (List.replicate 256 (0 : Byte)).length = pool2.p * (pool2.ekv + pool2.eix) ∧
      s.vread 0 pool2.flring 8 = .ok [n, 0, 0, 0, 0, 0, 0, 0] ∧ pool2.flsz = 1) ∧
    receives (receiving 0) = true := by
  refine ⟨⟨⟨rfl, rfl, rfl, rfl, rfl, rfl⟩, by decide +kernel, by decide +kernel, by decide +kernel, by decide +kernel, ⟨_, rfl, rfl⟩, rfl⟩, by decide +kernel, by decide +kernel, ⟨by decide, _, rfl, rfl, by decide +kernel⟩, ?_, by decide +kernel⟩
  intro n h
  simp only [List.mem_cons, List.not_mem_nil, or_false] at h
  rcases h with rfl | rfl <;> exact ⟨by decide +kernel, by decide +kernel, by decide, by decide, by decide +kernel, by decide +kernel, rfl⟩

/-- The module with a value in the window. -/
def windowed (f : HostWin → HostWin) : State := { State.reset with host := f HostWin.reset }

theorem witness_HostEvents :
    (1 < 2 ∧ State.reset.host.errctl.toNat < 4 ∧ State.reset.host.errctl.getLsbD 1 = false ∧ (State.reset.die 1).halted = 0) ∧
    ((windowed fun h => { h with rbsel := 4 + 256 * 1 + 512 * 95 }).host.rbsel.toNat = 4 + 256 * 1 + 512 * 95 ∧ (State.reset.rbWrite 1).isNone = true) ∧
    (State.reset.backed 0 = true ∧ State.reset.backed 1023 = true ∧ inWindow 0 = false ∧ State.reset.poison = [] ∧
      (let v : BitVec 64 := BitVec.ofNat 64 (2 ^ 52 - 1024)
       v.toNat % 1024 = 0 ∧ v.toNat < 2 ^ 52 ∧ (State.reset.backed v.toNat && State.reset.backed (v.toNat + 1023)) = false)) ∧
    ((BitVec.ofNat 64 (2 ^ 52 - 4096)).toNat % 4096 = 0 ∧ (BitVec.ofNat 64 (2 ^ 52 - 4096)).toNat < 2 ^ 52 ∧ (BitVec.ofNat 64 (2 ^ 50 - 1)).toNat < 2 ^ 50 ∧
      2 ^ 50 ≤ (BitVec.ofNat 64 (2 ^ 50)).toNat) ∧
    (State.reset.host.images.length < 3 ∧ State.reset.host.fwstat.getLsbD 1 = false ∧ 3 ≤ (windowed fun h => { h with images := [[], [], []] }).host.images.length ∧
      (windowed fun h => { h with fwstat := 2 }).host.fwstat.getLsbD 1 = true ∧ fwOk [] [] = false) ∧
    (2 ^ 39 - 1 + ([7] : List Byte).length ≤ 2 ^ 39 ∧ ([7] : List Byte) ≠ []) := by
  decide +kernel

/-! ### Registers, decoding, steps, memory -/

theorem witness_BankRoles :
    (let w := at' controlling [0]
     w.priv = true ∧ Issues (.csrwr h0 3 (sc 5)) h0 allFall controlling w ∧ Issues (.csrrd h0 3 (sc 12)) h0 allFall controlling w ∧ w.hgs = [] ++ [0] ∧
     ∀ g', g' ∈ w.hgs → ∀ i, i < 32 → w.tm.n64 (w.lead g') (sc 5) / 4 ^ i % 4 ≠ 3) ∧
    ((State.reset.core 191).teams = [] ∧ (demo.core 0).teams ≠ []) := by
  have hs : stands h0.g controlling (at' controlling [0]) = true := by decide +kernel
  exact ⟨⟨rfl, issues_of_check hs (by decide +kernel), issues_of_check hs (by decide +kernel), by decide +kernel, by decide +kernel⟩, rfl, by decide +kernel⟩

theorem witness_RegisterReads :
    (∀ r, r ∈ [RegAt.v 31 63, .p 31 47, .s 0 63, .x 0 3, .h 0 15] → (wordTeam 1).hasReg r = true) ∧ (Tab.get? (wordTeam 1).hgs 0).isSome ∧
    Issues (.smov h0 .n64 (.idx 3) (sc 63)) h0 allFall demo (at' demo two) ∧ (∀ g, g ∈ (at' demo two).hgs → (at' demo two).tm.hasReg (.x g 3) = true) :=
  ⟨by decide +kernel, rfl, issues_of_check demo_stands (by decide +kernel), by decide +kernel⟩

theorem witness_RoundTrip : ∀ i, i ∈ [Instr.mrel h1, .vadd h1 .i32 true (v 1535) (.ind 3 511) (.imm 1023)] → WellFormed i = true := by decide +kernel

/-- The state in which a step that issues the word of a fetch state runs it, and the bytes it fetches. -/
def fetching (wd : Nat) : State :=
  let g := wordGroup 1 0
  { State.reset.withFetchWord 96 wd with agenda := [], cur := some { core := 0, slot := g.slot, gid := g.gid, pc := g.pc, mem := g.mem, share := none } }
def fetched (wd : Nat) : State := ((fetching wd).translate 0 0 wordVa .fetch).2
def fetchedBytes (wd : Nat) : List Byte := (fetched wd).readPa wordPa 12

/-- What raises ILL at a step: the bytes are no instruction, and a guard of theirs is true for a member. -/
def illegal (u : State) (bytes : List Byte) : Prop :=
  ∃ e gs is, decodeBytes bytes = .error e ∧ e ≠ .reservedGuard ∧ wordGuards (BitVec.ofNat 96 (leNat bytes)) = some gs ∧
    u.issBy (fun tm t => tm.guards gs t) = some is ∧ is.ts ≠ []
def isIllegal (u : State) (bytes : List Byte) : Bool :=
  match decodeBytes bytes with
  | .error e => decide (e ≠ .reservedGuard) && (wordGuards (BitVec.ofNat 96 (leNat bytes))).any fun gs =>
      (u.issBy fun tm t => tm.guards gs t).any fun is => !is.ts.isEmpty
  | .ok _ => false
theorem illegal_of_check {u : State} {bytes} (c : isIllegal u bytes = true) : illegal u bytes := by
  unfold isIllegal at c
  split at c <;> [rename_i e d; cases c]
  obtain ⟨n, c⟩ := Bool.and_eq_true_iff.mp c
  obtain ⟨gs, hg, c⟩ := (Option.any_eq_true _ _).mp c
  obtain ⟨is, hi, c⟩ := (Option.any_eq_true _ _).mp c
  exact ⟨e, gs, is, d, of_decide_eq_true n, hg, hi, by simpa using c⟩

theorem witness_StepRunsDecoded :
    (∀ wd, wd ∈ [notWord, 14 * 2 ^ 92] → let s := State.reset.withFetchWord 96 wd
      let s' := { s with agenda := [] }
      let g := wordGroup 1 0
      (fetching wd).translate 0 0 wordVa .fetch = (.ok wordPa, fetched wd) ∧
      (s.agenda = .issue 0 :: [] ∧ s'.runs (0 / 96) = true ∧ s'.nextGroup 0 = some g ∧ s'.team? 0 g.slot = some (wordTeam 1) ∧ g.pc.toNat = wordVa ∧ wordVa + 11 < 2 ^ 57 ∧
        wordVa / 65536 = (wordVa + 11) / 65536 ∧ (s'.core 0).watched (wordTeam 1).ctx wordVa 12 4 = false ∧ s'.migrating (wordTeam 1).ctx wordVa = false ∧
        s'.migrating (wordTeam 1).ctx (wordVa + 11) = false ∧ (fetched wd).poisoned wordPa 12 = false)) ∧
    decodeBytes (fetchedBytes notWord) = .ok (.vnot h0 .n32 (v 1) (v 2)) ∧ illegal (fetched (14 * 2 ^ 92)) (fetchedBytes (14 * 2 ^ 92)) ∧
    ({ State.reset with agenda := [.event .coldReset] }.agenda = .event .coldReset :: [] ∧ State.reset.mayDo .coldReset = true ∧ State.reset.agenda = []) := by
  refine ⟨?_, by decide +kernel, illegal_of_check (by decide +kernel), by decide +kernel⟩
  intro wd h
  simp only [List.mem_cons, List.not_mem_nil, or_false] at h
  rcases h with rfl | rfl <;> exact ⟨Prod.ext (by decide +kernel) rfl, by decide +kernel⟩

theorem witness_MemoryCanonical : State.reset.Canon ∧ ((State.reset.withFetchWord 96 notWord).Canon ∧ Answers (step (State.reset.withFetchWord 96 notWord))) := by
  refine ⟨by unfold State.Canon; decide +kernel, by unfold State.Canon; decide +kernel, ?_⟩
  have h : (match step (State.reset.withFetchWord 96 notWord) with
    | .next _ => true
    | _ => false) = true := by decide +kernel
  cases k : step (State.reset.withFetchWord 96 notWord) with
  | next t => exact ⟨t, rfl⟩
  | fault f => rw [k] at h; cases h
  | refused r => rw [k] at h; cases h

/-! ## Decoding: words written out from the encoding tables -/

/-- A word is decoded as an instruction. -/
def reads (w : IWord) (i : Instr) : Bool := match decodeWord w with
  | .ok j => decide (j = i)
  | .error _ => false

/-- Words of class 0 written out from the encoding tables (integer vector, 02 R44, R42; 04 R86 to R95). -/
theorem test_decode_class0_a :
    (
reads 0x0000010011C0C0008A7AD8E0 (.vadd h1 .i64 true (.vec 2) (.vec 4) (.ind 3 6)) &&
     reads 0x001000800BFFE0008A7AD900 (.vsub h1 .n8 false (.vec 1) (.vec 2) (.imm (-1))) &&
     reads 0x002000C0FC0060008A7AD860 (.vmul h1 .i16 true (.vec 1) (.scl 63) (.vec 3)) &&
     reads 0x00300400280180008A7AD9C0 (.vmulh h1 .n64 (.vec 8) (.vec 10) (.vec 12)) &&
     reads 0x00400080080060048A7AD8A0 (.vmad h1 .i32 true (.vec 1) (.vec 2) (.vec 3) (.vec 4)) &&
     reads 0x00500300080060048A7AD880 (.vmadw h1 .i32 false (.vec 6) (.vec 2) (.vec 3) (.vec 4)) &&
     reads 0x00600080080060008A7AD961 (.vdiv h1 .n16 true true (.vec 1) (.vec 2) (.vec 3)) &&
     reads 0x00700080080060008A7AD800 (.vmin h1 .i8 (.vec 1) (.vec 2) (.vec 3)) &&
     reads 0x008000800A8060008A7AD980 (.vmax h1 .n32 (.vec 1) (.vec 2) (.idx 3)) &&
     reads 0x00900080080000008A7AD8A0 (.vabs h1 .i32 true (.vec 1) (.vec 2)) &&
     reads 0x00A00080080000008A7AD960 (.vneg h1 .n16 true (.vec 1) (.vec 2)) &&
     reads 0x00B00080080060008A7AD980 (.vand h1 .n32 (.vec 1) (.vec 2) (.vec 3)) &&
     reads 0x00C00080080060008A7AD800 (.vor h1 .i8 (.vec 1) (.vec 2) (.vec 3)) &&
     reads 0x00D001001000C0008A7AD9C0 (.vxor h1 .n64 (.vec 2) (.vec 4) (.vec 6)) &&
     reads 0x00E00080080000008A7AD980 (.vnot h1 .n32 (.vec 1) (.vec 2)) &&
     reads 0x00F000800B00E0008A7AD980 (.vshl h1 .n32 (.vec 1) (.vec 2) (.imm 7)) &&
     reads 0x01000080080060008A7AD900 (.vshr h1 .n8 (.vec 1) (.vec 2) (.vec 3)) &&
     reads 0x01100100100060008A7AD8C0 (.vsra h1 .i64 (.vec 2) (.vec 4) (.vec 3))) = true := by decide +kernel

/-- More words of class 0. -/
theorem test_decode_class0_b :
    (
reads 0x01200080080060008A7AD940 (.vrot h1 .n16 (.vec 1) (.vec 2) (.vec 3)) &&
     reads 0x013000800B01180C8A7AD880 (.vbfe h1 .i32 (.vec 1) (.vec 2) (.imm 8) (.imm 12)) &&
     reads 0x014001001000C7E18A7AD9C0 (.vbfi h1 .n64 33 31 (.vec 2) (.vec 4) (.vec 6)) &&
     reads 0x01500080080000008A7AD9C0 (.vpopc h1 .n64 (.vec 1) (.vec 2)) &&
     reads 0x01600080080000008A7AD900 (.vclz h1 .n8 (.vec 1) (.vec 2)) &&
     reads 0x01700080080000008A7AD940 (.vctz h1 .n16 (.vec 1) (.vec 2)) &&
     reads 0x01800080080000008A7AD980 (.vbrev h1 .n32 (.vec 1) (.vec 2)) &&
     reads 0x01900080080060048A7AD800 (.vsel h1 .i8 (.vec 1) (.vec 2) (.vec 3) (.vec 4)) &&
     reads 0x01A00140100060058A7AD880 (.vlea h1 .i32 5 (.vec 2) (.scl 4) (.vec 3)) &&
     reads 0x01BA3780080060008A7AD945 (.vcmp h1 .n16 .ge (.prd 47) (.vec 2) (.vec 3)) &&
     reads 0x01C00100100060058A7AD980 (.vaddc h1 (.vec 2) (.vec 4) (.vec 3) (.vec 5)) &&
     reads 0x01D00100100060058A7AD980 (.vsubb h1 (.vec 2) (.vec 4) (.vec 3) (.vec 5)) &&
     reads 0x01E1FFAFFC0000008A7AD840 (.vmov h1 .i16 (.vec 1023) (.ind 1 511)) &&
     reads 0x01F003800226AF378A7AD97A (.vmovi h1 .thr 0x89ABCDEF (.vec 7)) &&
     reads 0x02000080080060048A7AD980 (.vprmt h1 (.vec 1) (.vec 2) (.vec 3) (.vec 4)) &&
     reads 0x03000080080080068A7AD980 (.vrng h1 (.vec 1) (.vec 2) (.vec 4) (.vec 6)) &&
     reads 0x031000C00A0090068A7AD980 (.vrngf h1 (.vec 1) (.scl 2) (.scl 4) (.scl 6))) = true := by decide +kernel

/-- Words of class 1 written out from the encoding tables (float vector, 04 R96 to R104). -/
theorem test_decode_class1_a :
    (
reads 0x10000080080060008A7AD824 (.vfadd h1 .f32 .rna true (.vec 1) (.vec 2) (.vec 3)) &&
     reads 0x10100080080060008A7AD858 (.vfsub h1 .f16 .rup false (.vec 1) (.vec 2) (.vec 3)) &&
     reads 0x102000800BFFA0008A7AD894 (.vfmul h1 .bf16 .rdn true (.vec 1) (.vec 2) (.imm (-3))) &&
     reads 0x10300080080060048A7AD808 (.vffma h1 .f32 .rtz false (.vec 1) (.vec 2) (.vec 3) (.vec 4)) &&
     reads 0x10400080080060008A7AD840 (.vfmin h1 .f16 (.vec 1) (.vec 2) (.vec 3)) &&
     reads 0x10500080080060008A7AD880 (.vfmax h1 .bf16 (.vec 1) (.vec 2) (.vec 3)) &&
     reads 0x106A2180080060078A7AD9C0 (.vfcmp h1 .e2m1 .uno (.prd 3) (.vec 2) (.vec 3)) &&
     reads 0x10700080080000008A7AD940 (.vfclass h1 .e3m2 (.vec 1) (.vec 2)) &&
     reads 0x10800280180000008A7AD8C4 (.vfcvt h1 .e4m3 .rne true .f32 (.vec 5) (.vec 6)) &&
     reads 0x10900280180000028A7AD820 (.vfcvti h1 .f32 .rna false false .i32 (.vec 5) (.vec 6)) &&
     reads 0x10900280180000078A7AD84D (.vfcvti h1 .f16 .rtz true true .n64 (.vec 5) (.vec 6)) &&
     reads 0x10A00280180000008A7AD810 (.vfround h1 .f32 .rdn (.vec 5) (.vec 6)) &&
     reads 0x10B002801800E0008A7AD884 (.vfscale h1 .bf16 .rne true (.vec 5) (.vec 6) (.vec 7)) &&
     reads 0x10C002801800E0008A7AD901 (.vfpack h1 .e5m2 .rne false true (.vec 5) (.vec 6) (.vec 7)) &&
     reads 0x10D002001C0000008A7AD8C1 (.vfunpk h1 .e4m3 true (.vec 4) (.vec 7)) &&
     reads 0x10E002001C0100098A7AD89C (.vfdot2 h1 .bf16 .rup true (.vec 4) (.vec 7) (.vec 8) (.vec 9)) &&
     reads 0x12000280180000008A7AD81C (.vfrcp h1 .f32 .rup true false (.vec 5) (.vec 6)) &&
     reads 0x12100280180000008A7AD842 (.vfrsq h1 .f16 .rne false true (.vec 5) (.vec 6))) = true := by decide +kernel

/-- More words of class 1. -/
theorem test_decode_class1_b :
    (
reads 0x12200280180000008A7AD888 (.vfsqrt h1 .bf16 .rtz false false (.vec 5) (.vec 6)) &&
     reads 0x123002801800E0008A7AD806 (.vfdiv h1 .f32 .rne true true (.vec 5) (.vec 6) (.vec 7)) &&
     reads 0x12400280180000008A7AD800 (.vfexp2 h1 .f32 .rne false false (.vec 5) (.vec 6)) &&
     reads 0x12500280180000008A7AD842 (.vflog2 h1 .f16 .rne false true (.vec 5) (.vec 6)) &&
     reads 0x12600280180000008A7AD800 (.vfsin h1 .f32 .rne false false (.vec 5) (.vec 6)) &&
     reads 0x12700280180000008A7AD884 (.vfcos h1 .bf16 .rne true false (.vec 5) (.vec 6)) &&
     reads 0x12800280180000008A7AD802 (.vftanh h1 .f32 .rne false true (.vec 5) (.vec 6)) &&
     reads 0x12900280180000008A7AD800 (.vfsigm h1 .f32 .rne false false (.vec 5) (.vec 6)) &&
     reads 0x12A00280180000008A7AD840 (.vfgelu h1 .f16 .rne false false (.vec 5) (.vec 6)) &&
     reads 0x12B00280180000008A7AD806 (.vfsilu h1 .f32 .rne true true (.vec 5) (.vec 6))) = true := by decide +kernel

/-- Words of class 2 written out from the encoding tables (scalar, 04 R106 to R112). -/
theorem test_decode_class2_a :
    (
reads 0x200800C00A8060008A7AD8C1 (.sadd h1 .i64 true (.scl 1) (.scl 2) (.idx 3)) &&
     reads 0x201A00C00B00A0008A7AD980 (.ssub h1 .n32 false (.idx 1) (.scl 2) (.imm 5)) &&
     reads 0x202800C00A0060008A7AD801 (.smul h1 .i8 true (.scl 1) (.scl 2) (.scl 3)) &&
     reads 0x203800C00A0070048A7AD9C0 (.smad h1 .n64 false (.scl 1) (.scl 2) (.scl 3) (.scl 4)) &&
     reads 0x204800C00A0060008A7AD9C0 (.sand h1 .n64 (.scl 1) (.scl 2) (.scl 3)) &&
     reads 0x205800C00A0060008A7AD9C0 (.sor h1 .n64 (.scl 1) (.scl 2) (.scl 3)) &&
     reads 0x206800C00A0060008A7AD840 (.sxor h1 .i16 (.scl 1) (.scl 2) (.scl 3)) &&
     reads 0x207800C00A0060008A7AD940 (.sshl h1 .n16 (.scl 1) (.scl 2) (.scl 3)) &&
     reads 0x208800C00A0060008A7AD9C0 (.sshr h1 .n64 (.scl 1) (.scl 2) (.scl 3)) &&
     reads 0x209800C00A0060008A7AD880 (.ssra h1 .i32 (.scl 1) (.scl 2) (.scl 3)) &&
     reads 0x20A800C00A0060008A7AD880 (.smin h1 .i32 (.scl 1) (.scl 2) (.scl 3)) &&
     reads 0x20B800C00A0060008A7AD900 (.smax h1 .n8 (.scl 1) (.scl 2) (.scl 3)) &&
     reads 0x20CA20C00A0060008A7AD881 (.scmp h1 .i32 .ne (.prd 1) (.scl 2) (.scl 3)) &&
     reads 0x20D800C00A0070048A7AD9C0 (.ssel h1 .n64 (.scl 1) (.scl 2) (.scl 3) (.scl 4)) &&
     reads 0x20E800FFE40000008A7AD800 (.smov h1 .i8 (.scl 1) (.imm (-7))) &&
     reads 0x20F80480037AB6FB8A7AD97A (.smovi h1 .hi 0xDEADBEEF (.scl 9)) &&
     reads 0x210800C00A0060008A7AD818 (.sfadd h1 .f32 .rup (.scl 1) (.scl 2) (.scl 3)) &&
     reads 0x211800C00A0060008A7AD840 (.sfmul h1 .f16 .rne (.scl 1) (.scl 2) (.scl 3))) = true := by decide +kernel

/-- More words of class 2. -/
theorem test_decode_class2_b :
    (
reads 0x212800C00A0070048A7AD890 (.sffma h1 .bf16 .rdn (.scl 1) (.scl 2) (.scl 3) (.scl 4)) &&
     reads 0x213A20C00A0060008A7AD806 (.sfcmp h1 .f32 .ord (.prd 1) (.scl 2) (.scl 3)) &&
     reads 0x214800C0080000058A7AD809 (.sfcvt h1 .f32 .rtz (.f2i .n16) (.scl 1) (.scl 2)) &&
     reads 0x215800D4200000008A7AD800 (.sread h1 (.scl 1) (.spc 8)) &&
     reads 0x216800C00B0200008A7AD973 (.sld h1 .b64 .sys .keep (.scl 1) (.scl 2) (.imm 16)) &&
     reads 0x21700040060050038A7AD8C8 (.sst h1 .b8 .die .strm (.scl 1) (.scl 2) (.scl 3)) &&
     reads 0x21880080080000008A7AD851 (.vtos h1 17 false true (.scl 1) (.vec 2)) &&
     reads 0x219000C0080000008A7AD800 (.stov h1 false (.vec 1) (.scl 2))) = true := by decide +kernel

/-- Words of class 3 written out from the encoding tables (predicate and cross-lane, 04 R105; 07 R172 to R176). -/
theorem test_decode_class3 :
    (
reads 0x300A20D10A8860008A7AD801 (.pand h1 true false (.prd 1) (.prd 2) (.prd 3)) &&
     reads 0x301A20D10A8860008A7AD802 (.por h1 false true (.prd 1) (.prd 2) (.prd 3)) &&
     reads 0x302A20D10A8860008A7AD803 (.pxor h1 true true (.prd 1) (.prd 2) (.prd 3)) &&
     reads 0x303A20D1080000008A7AD800 (.pnot h1 (.prd 1) (.prd 2)) &&
     reads 0x304A20D1000000008A7AD800 (.pmov h1 (.prd 1) (.prd 0)) &&
     reads 0x305A2080080000008A7AD801 (.pset h1 true (.prd 1) (.vec 2)) &&
     reads 0x31000100130074478A7AD837 (.vshfl h1 .swap 5 true (.vec 2) (.vec 4) (.imm 3) (some (.prd 7))) &&
     reads 0x311A20D10B0080008A7AD800 (.vvote h1 .ge (.prd 1) (.prd 2) (some (.imm 4))) &&
     reads 0x312800D1080000008A7AD801 (.vballot h1 true (.scl 1) (.prd 2)) &&
     reads 0x31300080080000008A7AD811 (.vredux h1 .min (.int .i32) false .rne (.vec 1) (.vec 2)) &&
     reads 0x31400080080000038A7AD940 (.vscan h1 .add .f32 false true .rup (.vec 1) (.vec 2)) &&
     reads 0x31500080080000008A7AD800 (.vmatch h1 false (.vec 1) (.vec 2)) &&
     reads 0x316000E07C0000008A7AD800 (.vlanemap h1 (.vec 1) (.imm 31))) = true := by decide +kernel

/-- Words of class 4 written out from the encoding tables (control, 07 R160). -/
theorem test_decode_class4 :
    (
reads 0x4000000003FFFFFF8A7AD868 (.bra h1 0xFFFFFFCD) &&
     reads 0x40100000080000008A7AD800 (.brx h1 (.vec 2)) &&
     reads 0x40200100000000018A7AD920 (.call h1 100 (.vec 2)) &&
     reads 0x40300140100000008A7AD800 (.callx h1 (.vec 2) (.scl 4)) &&
     reads 0x40400000080000008A7AD800 (.ret h1 (.vec 2)) &&
     reads 0x40500000000000008A7AD800 (.reform h1) &&
     reads 0x4060007FFC0000008A7AD800 (.rejoin h1 (.imm (-1))) &&
     reads 0x40700000000000008A7AD800 (.exit h1) &&
     reads 0x40800000000000008A7AD800 (.yield h1) &&
     reads 0x40900000000000008A7AD800 (.nop h1) &&
     reads 0x40A0000000001FFF8A7AD800 (.swtrap h1 8191) &&
     reads 0x40B00000000000058A7AD800 (.bkpt h1 5)) = true := by decide +kernel

/-- Words of class 5 written out from the encoding tables (memory, 09 R204, R211). -/
theorem test_decode_class5 :
    (
reads 0x50000200230080008A7AD8CC (.ld h1 .b128 .die .strm (.vec 4) (.vec 8) (.imm 4)) &&
     reads 0x50100000200060058A7AD801 (.st h1 .b16 .th .dflt (.vec 8) (.vec 3) (.vec 5)) &&
     reads 0x50200200230080008A7AD802 (.ldl h1 .b32 (.vec 4) (.vec 8) (.imm 4)) &&
     reads 0x50300000230080068A7AD803 (.stl h1 .b64 (.vec 8) (.imm 4) (.vec 6)) &&
     reads 0x50400200230080008A7AD800 (.ldcl h1 .b8 (.vec 4) (.vec 8) (.imm 4)) &&
     reads 0x50500000230080068A7AD802 (.stcl h1 .b32 (.vec 8) (.imm 4) (.vec 6)) &&
     reads 0x50600200200060008A7AD812 (.ldro h1 .b32 .keep (.vec 4) (.vec 8) (.vec 3)) &&
     reads 0x50700200200060008A7AD804 (.ldw h1 .b128 (.vec 4) (.vec 8) (.vec 3)) &&
     reads 0x50800000200060008A7AD8C8 (.pref h1 true .strm (.vec 8) (.vec 3)) &&
     reads 0x50900200200180578A7AD963 (.atom h1 .cas .n64 true .sys (.vec 4) (.vec 8) (.vec 12)) &&
     reads 0x50A00200200180988A7AD802 (.atoml h1 .inc .n32 false true (.vec 4) (.vec 8) (.vec 12)) &&
     reads 0x50B00000200180308A7AD901 (.red h1 .add .bf16 false .dev (.vec 8) (.vec 12))) = true := by decide +kernel

/-- Words of class 6 written out from the encoding tables (synchronisation, 09 R218, R219). -/
theorem test_decode_class6 :
    (
reads 0x60080140100000008A7AD881 (.acq h1 .clu (some (.scl 2)) (.scl 4)) &&
     reads 0x60100000100000008A7AD960 (.rel h1 .sys (.vec 4)) &&
     reads 0x60200000000000008A7AD901 (.fence h1 true .dev) &&
     reads 0x60300000000000298A7AD8C0 (.xfence h1 .die .cp .rq) &&
     reads 0x604000603C0000008A7AD801 (.bar h1 true false (.imm 15)) &&
     reads 0x605000400C0000008A7AD802 (.barcl h1 false true (.scl 3)) &&
     reads 0x606000400F0060008A7AD803 (.bxinit h1 true true (.scl 3) (.imm 3)) &&
     reads 0x607000400C0060008A7AD801 (.bxowe h1 true false (.scl 3) (.vec 3)) &&
     reads 0x608000400C0060008A7AD882 (.bxpay h1 false true .clu (.scl 3) (.vec 3)) &&
     reads 0x60900000080060008A7AD822 (.bxwait h1 true .grp (.vec 2) (.vec 3)) &&
     reads 0x60AA2480080060008A7AD860 (.bxpoll h1 false .core (.prd 9) (.vec 2) (.vec 3))) = true := by decide +kernel

/-- Words of class 7 written out from the encoding tables (asynchronous, 09 R224, R231). -/
theorem test_decode_class7 :
    (
reads 0x700A09C01A01100A8A7AD8D0 (.cpyG2l h1 .die .keep (.hnd 3) (.scl 6) (.scl 8) (.scl 10)) &&
     reads 0x700A0FC01A0114018A7AD961 (.cpyL2g h1 .sys .dflt (.hnd 15) (.scl 6) (.scl 8) (.idx 1)) &&
     reads 0x700A09C01A0118408A7AD802 (.cpyW2l h1 (.hnd 3) (.scl 6) (.scl 8) (.imm 64)) &&
     reads 0x701A09C01A0118408A7AD809 (.cpyo h1 true .strm (.hnd 3) (.scl 6) (.scl 8) (.imm 64)) &&
     reads 0x702A09C01A0118408A7AD800 (.cpyl h1 (.hnd 3) (.scl 6) (.scl 8) (.imm 64)) &&
     reads 0x703A09C01801100A8A7AD801 (.gkv h1 true (.hnd 3) (.scl 6) (.vec 8) (.scl 10)) &&
     reads 0x704A09C01801100A8A7AD800 (.kvpf h1 false (.hnd 3) (.scl 6) (.vec 8) (.scl 10)) &&
     reads 0x705804D04C0000008A7AD801 (.hwait h1 (some (.scl 9)) (.hnd 3)) &&
     reads 0x706804D04C0000008A7AD800 (.htest h1 (.scl 9) (.hnd 3)) &&
     reads 0x707000504C0000008A7AD800 (.hcancel h1 (.hnd 3)) &&
     reads 0x708A0CC00C0000008A7AD800 (.hmov h1 (.hnd 9) (.scl 3)) &&
     reads 0x709004C00C00007F8A7AD800 (.vlob h1 .tr16 31 (.vec 9) (.scl 3))) = true := by decide +kernel

/-- Words of class 8 written out from the encoding tables (matrix, 05 R115 to R131). -/
theorem test_decode_class8 :
    (
reads 0x800000400C0000008A7AD800 (.tcfg h1 (.scl 3)) &&
     reads 0x80100000000000008A7AD800 (.macq h1) &&
     reads 0x80200000000000008A7AD800 (.mrel h1) &&
     reads 0x803A4100000800008A7AD800 (.mma h1 (.til 2) (.vec 0) (.vec 64)) &&
     reads 0x804A4100000800608A7AD800 (.mmas h1 (.til 2) (.vec 0) (.vec 64) (.vec 96)) &&
     reads 0x805A4100000800608A7AD801 (.mmag h1 (.til 2) (.vec 0) (.vec 64) (some (.vec 96))) &&
     reads 0x806A5780000000008A7AD800 (.mzero h1 (some (.til 47))) &&
     reads 0x807A4140020080008A7AD805 (.mld h1 true .keep (.til 2) (.scl 0) (.scl 4)) &&
     reads 0x808800520A0098088A7AD80A (.mst h1 false .strm true (.scl 0) (.til 2) (.scl 4) (.imm 8)) &&
     reads 0x809000520B0080C88A7AD802 (.mrd h1 .c32 200 (.vec 0) (.til 2) (.imm 4)) &&
     reads 0x80AA4100028040038A7AD800 (.mwr h1 .c8 3 (.til 2) (.vec 0) (.idx 2))) = true := by decide +kernel

/-- Words of class 9 written out from the encoding tables (serving, 11 R258, R265, R269; 13 R290; 14 R308; 15 R330). -/
theorem test_decode_class9_a :
    (
reads 0x90000061000000008A7AD800 (.tkbeg h1 (.imm 64)) &&
     reads 0x90100000040040008A7AD800 (.tkpush h1 (.vec 1) (.vec 2)) &&
     reads 0x902800C0080000008A7AD801 (.tkend h1 true (.scl 1) (.scl 2)) &&
     reads 0x903A20E0140080008A7AD8C0 (.wqpush h1 .die (.prd 1) (.imm 5) (.vec 4)) &&
     reads 0x90400240140014428A7AD901 (.wqpop h1 true .dev (.vec 4) (.scl 5) (some (.prd 2))) &&
     reads 0x90580250000000008A7AD800 (.wqlen h1 (.scl 4) (.idx 0)) &&
     reads 0x906805405202B4428A7AD8C0 (.lacnt h1 .die (.scl 10) (.scl 20) (.scl 21) (.prd 2)) &&
     reads 0x91000062000000008A7AD800 (.fetchw h1 (.imm 128)) &&
     reads 0x911800C0080000008A7AD800 (.launch h1 (.scl 1) (.scl 2)) &&
     reads 0x91280080000000008A7AD803 (.resq h1 .recAddr (.scl 1)) &&
     reads 0x920000C0080000008A7AD8CF (.rqld h1 .tenant .die (.vec 1) (.scl 2)) &&
     reads 0x92100000040040008A7AD80D (.rqst h1 .seed .th (.vec 1) (.vec 2)) &&
     reads 0x92200500000020008A7AD900 (.rqemit h1 .dev (.vec 10) (.vec 0) (.vec 1)) &&
     reads 0x92300500000000008A7AD900 (.rqstop h1 .dev (.vec 10) (.vec 0)) &&
     reads 0x924000000300E0008A7AD900 (.rqfail h1 .dev (.vec 0) (.imm 7)) &&
     reads 0x92500500000000008A7AD901 (.rqslot h1 true .dev (.vec 10) (.vec 0)) &&
     reads 0x926000600C0000008A7AD800 (.bfdone h1 (.imm 3)) &&
     reads 0x93000600000040008A7AD900 (.kvapp h1 .dev (.vec 12) (.vec 0) (.vec 2))) = true := by decide +kernel

/-- More words of class 9. -/
theorem test_decode_class9_b :
    (
reads 0x93100600000040008A7AD901 (.kvmap h1 true .dev (.vec 12) (.vec 0) (.vec 2)) &&
     reads 0x932A08C0020058048A7AD900 (.kvinv h1 .dev (.hnd 1) (.scl 0) (.scl 2) (.imm 4)) &&
     reads 0x93300600000000008A7AD902 (.kvref h1 .dec .dev (.vec 12) (.vec 0)) &&
     reads 0x934A08C0000000008A7AD900 (.kvevictLp h1 .dev (.hnd 1) (.scl 0)) &&
     reads 0x934A08C0000000008A7AD901 (.kvevictCxl h1 .dev (.hnd 1) (.scl 0)) &&
     reads 0x934A08C00200E0008A7AD902 (.kvevictPeer h1 .dev (.hnd 1) (.scl 0) (.scl 7)) &&
     reads 0x935800C0030120008A7AD900 (.rxlook h1 .dev (.scl 1) (.scl 0) (.imm 9)) &&
     reads 0x936800C0030120008A7AD900 (.rxins h1 .dev (.scl 1) (.scl 0) (.imm 9))) = true := by decide +kernel

/-- Words of class 10 written out from the encoding tables (system, 16 R342 to R356). -/
theorem test_decode_class10 :
    (
reads 0xA0080080000001238A7AD800 (.csrrd h1 0x123 (.scl 1)) &&
     reads 0xA010007FFC000FFF8A7AD800 (.csrwr h1 0xFFF (.imm (-1))) &&
     reads 0xA0200000000000008A7AD800 (.tret h1) &&
     reads 0xA0200000000000008A7AD801 (.tretSkip h1) &&
     reads 0xA0200000000000008A7AD802 (.tretKill h1) &&
     reads 0xA0300080080000008A7AD80C (.trd h1 .sx (.vec 1) (.vec 2)) &&
     reads 0xA04802401600C0008A7AD800 (.fltrep h1 (.scl 4) (.scl 5) (.scl 6)) &&
     reads 0xA05802601600C0008A7AD800 (.fltcancel h1 (.scl 4) (.imm 5) (.scl 6)) &&
     reads 0xA06A0A601600C0008A7AD800 (.tlbinvVa h1 (.hnd 4) (.imm 5) (.scl 6)) &&
     reads 0xA06A0A60140000008A7AD801 (.tlbinvCtx h1 (.hnd 4) (.imm 5)) &&
     reads 0xA06A0A601600C0008A7AD802 (.tlbinvMig h1 (.hnd 4) (.imm 5) (.scl 6)) &&
     reads 0xA0700061900000008A7AD800 (.idle h1 (.imm 100))) = true := by decide +kernel

/-- Words of class 11 written out from the encoding tables (pair words, 02 R33, R34). -/
theorem test_decode_class11 :
    (
reads 0xB1C0000100803F0409FF00B0 (.pairWord 1 true 2 { hop := .add, d := 1, a := 2, b := 3, neg := true, p := 7 } { hop := .sub, d := 9, a := 1020, b := 11, neg := false, p := 0 }) &&
     reads 0xB1C0080100803F0C09FF00B0 (.pairWord 1 true 2 { hop := .mul, d := 1, a := 2, b := 3, neg := true, p := 7 } { hop := .mini, d := 9, a := 1020, b := 11, neg := false, p := 0 }) &&
     reads 0xB1C0100100803F1409FF00B0 (.pairWord 1 true 2 { hop := .maxi, d := 1, a := 2, b := 3, neg := true, p := 7 } { hop := .minn, d := 9, a := 1020, b := 11, neg := false, p := 0 }) &&
     reads 0xB1C0180100803F1C09FF00B0 (.pairWord 1 true 2 { hop := .maxn, d := 1, a := 2, b := 3, neg := true, p := 7 } { hop := .and, d := 9, a := 1020, b := 11, neg := false, p := 0 }) &&
     reads 0xB1C0200100803F2409FF00B0 (.pairWord 1 true 2 { hop := .or, d := 1, a := 2, b := 3, neg := true, p := 7 } { hop := .xor, d := 9, a := 1020, b := 11, neg := false, p := 0 }) &&
     reads 0xB1C0280100800F2C09FF00B0 (.pairWord 1 true 2 { hop := .not, d := 1, a := 2, b := 0, neg := true, p := 7 } { hop := .shl, d := 9, a := 1020, b := 11, neg := false, p := 0 }) &&
     reads 0xB1C0300100803F3409FF00B0 (.pairWord 1 true 2 { hop := .shr, d := 1, a := 2, b := 3, neg := true, p := 7 } { hop := .sra, d := 9, a := 1020, b := 11, neg := false, p := 0 }) &&
     reads 0xB1C0380100803F3C09FF0000 (.pairWord 1 true 2 { hop := .rot, d := 1, a := 2, b := 3, neg := true, p := 7 } { hop := .mov, d := 9, a := 1020, b := 0, neg := false, p := 0 }) &&
     reads 0xB1C0400100800F4409FF0000 (.pairWord 1 true 2 { hop := .abs, d := 1, a := 2, b := 0, neg := true, p := 7 } { hop := .neg, d := 9, a := 1020, b := 0, neg := false, p := 0 }) &&
     reads 0xB1C0480100800F4C09FF0000 (.pairWord 1 true 2 { hop := .popc, d := 1, a := 2, b := 0, neg := true, p := 7 } { hop := .clz, d := 9, a := 1020, b := 0, neg := false, p := 0 }) &&
     reads 0xB1C0500100800F5409FF0000 (.pairWord 1 true 2 { hop := .ctz, d := 1, a := 2, b := 0, neg := true, p := 7 } { hop := .brev, d := 9, a := 1020, b := 0, neg := false, p := 0 }) &&
     reads 0xB1C0800100803F8409FF00B0 (.pairWord 1 true 2 { hop := .fadd, d := 1, a := 2, b := 3, neg := true, p := 7 } { hop := .fsub, d := 9, a := 1020, b := 11, neg := false, p := 0 }) &&
     reads 0xB1C0880100803F8C09FF00B0 (.pairWord 1 true 2 { hop := .fmul, d := 1, a := 2, b := 3, neg := true, p := 7 } { hop := .ffma, d := 9, a := 1020, b := 11, neg := false, p := 0 }) &&
     reads 0xB1C0900100803F9409FF00B0 (.pairWord 1 true 2 { hop := .fmin, d := 1, a := 2, b := 3, neg := true, p := 7 } { hop := .fmax, d := 9, a := 1020, b := 11, neg := false, p := 0 }) &&
     reads 0xB1C0980100803F9C09FF00B0 (.pairWord 1 true 2 { hop := .faddz, d := 1, a := 2, b := 3, neg := true, p := 7 } { hop := .fmulz, d := 9, a := 1020, b := 11, neg := false, p := 0 }) &&
     reads 0xB1C0A00100803F0009FF00B0 (.pairWord 1 true 2 { hop := .ffmaz, d := 1, a := 2, b := 3, neg := true, p := 7 } { hop := .add, d := 9, a := 1020, b := 11, neg := false, p := 0 })) = true := by decide +kernel

/-! ## Well-formedness: one ill-formed term for each check -/

theorem test_wf_event_is_no_word : WellFormed .coldReset = false := by decide
/-- `vshl` takes an unsigned type (04 R87); `vbfi` of 33 bits does not fit 32 (R89). -/
theorem test_wf_modifiers : WellFormed (.vshl h0 .i32 (v 1) (v 2) (v 3)) = false ∧ WellFormed (.vbfi h0 .n32 1 32 (v 1) (v 2) (v 3)) = false := by decide
/-- The unused field of a half (02 R34). -/
theorem test_wf_unused : WellFormed (.pairWord 0 false 0 { hop := .not, d := 1, a := 2, b := 3, neg := false, p := 0 } { hop := .add, d := 5, a := 6, b := 7, neg := false, p := 0 }) = false := by decide
/-- Two halves with one destination (02 R35). -/
theorem test_wf_pairing : WellFormed (.pairWord 0 false 0 { hop := .add, d := 1, a := 2, b := 3, neg := false, p := 0 } { hop := .add, d := 1, a := 6, b := 7, neg := false, p := 0 }) = false := by decide
/-- An odd register of a pair (01 R11), a scalar destination of a vector word, a vector past v1535 (R9), a defined code as a reserved one (R20). -/
theorem test_wf_operands : WellFormed (.vadd h0 .i64 false (v 3) (v 2) (v 4)) = false ∧ WellFormed (.vadd h0 .i32 false (sc 3) (v 2) (v 4)) = false ∧
    WellFormed (.vadd h0 .i32 false (v 1536) (v 2) (v 4)) = false ∧ WellFormed (.vadd h0 .i32 false (v 3) (v 2) (.rsv 0x10)) = false := by decide

/-! ## One step -/

/-- Core 0's team, with some registers set, issues a word: the state after the step. -/
def ran (i : Instr) (pre : List (RegAt × DWord)) : Option State :=
  let s := (State.reset.withFetchWord 96 ((encode i).getD 0).toNat).modTeam 0 0 fun tm => pre.foldl (fun tm e => tm.writeReg e.1 e.2) tm
  match step s with
  | .next t => some t
  | _ => none
/-- What a register holds then. -/
def gives (i : Instr) (pre : List (RegAt × DWord)) (r : RegAt) : Option Nat := (ran i pre).map fun t => (t.reg 0 0 r).toNat
/-- What the word owes it. -/
def owes (i : Instr) (pre : List (RegAt × DWord)) (r : RegAt) : Option Nat := (ran i pre).bind fun t => (t.core 0).pends.findSome? fun p => match p.src with
  | .vals wr none => (wr.find? fun e => e.1 == r).map fun e => e.2.toNat
  | _ => none

/-- The word of R44 (02, worked encodings), run. -/
theorem test_vmovi : gives (.vmovi h0 .plain 0x12345678 (v 7)) [] (.v 3 7) = some 0x12345678 := by decide +kernel

/-- The examples of 04 R93. -/
theorem test_vprmt : gives (.vprmt h0 (v 1) (v 2) (v 3) (v 4)) [(.v 0 2, 0x11223344), (.v 0 3, 0x55667788), (.v 0 4, 0x03020100)] (.v 0 1) = some 0x11223344 ∧
    gives (.vprmt h0 (v 1) (v 2) (v 3) (v 4)) [(.v 0 2, 0x11223344), (.v 0 3, 0x55667788), (.v 0 4, 0x00010203)] (.v 0 1) = some 0x44332211 ∧
    gives (.vprmt h0 (v 1) (v 2) (v 3) (v 4)) [(.v 0 2, 0x11223344), (.v 0 3, 0x55667788), (.v 0 4, 0x07070707)] (.v 0 1) = some 0x55555555 := by decide +kernel

/-- The examples of 04 R93: a fill and a sign. -/
theorem test_vprmt_fill : gives (.vprmt h0 (v 1) (v 2) (v 3) (v 4)) [(.v 0 2, 0x11223344), (.v 0 3, 0x55667788), (.v 0 4, 0x18181818)] (.v 0 1) = some 0xFFFFFFFF ∧
    gives (.vprmt h0 (v 1) (v 2) (v 3) (v 4)) [(.v 0 2, 0x00000001), (.v 0 3, 0), (.v 0 4, 0x20202020)] (.v 0 1) = some 0x80808080 := by decide +kernel

/-- The examples of 04 R89. -/
theorem test_vbfe : gives (.vbfe h0 .n32 (v 1) (v 2) (.imm 8) (.imm 12)) [(.v 0 2, 0xF0F01234)] (.v 0 1) = some 0x12 ∧
    gives (.vbfe h0 .i32 (v 1) (v 2) (.imm 24) (.imm 8)) [(.v 0 2, 0xF0F01234)] (.v 0 1) = some 0xFFFFFFF0 ∧
    gives (.vbfe h0 .i32 (v 1) (v 2) (.imm 28) (.imm 8)) [(.v 0 2, 0xF0F01234)] (.v 0 1) = some 0xFFFFFFFF := by decide +kernel

/-- The examples of 04 R89: a field past the word. -/
theorem test_vbfe_past : gives (.vbfe h0 .n32 (v 1) (v 2) (.imm 28) (.imm 8)) [(.v 0 2, 0xF0F01234)] (.v 0 1) = some 0xF ∧
    gives (.vbfe h0 .n32 (v 1) (v 2) (.imm 40) (.imm 8)) [(.v 0 2, 0xF0F01234)] (.v 0 1) = some 0 ∧
    gives (.vbfe h0 .i32 (v 1) (v 2) (.imm 0) (.imm 40)) [(.v 0 2, 0xF0F01234)] (.v 0 1) = some 0xF0F01234 := by decide +kernel

/-- The example of 04 R103: one rounding. -/
theorem test_vfdot2 : gives (.vfdot2 h0 .bf16 .rne false (v 8) (v 4) (v 5) (v 6)) [(.v 0 4, 0x3F803F80), (.v 0 5, 0x33003380), (.v 0 6, 0x3F800000)] (.v 0 8) = some 0x3F800001 ∧
    gives (.vfdot2 h0 .bf16 .rtz false (v 8) (v 4) (v 5) (v 6)) [(.v 0 4, 0x3F803F80), (.v 0 5, 0x33003380), (.v 0 6, 0x3F800000)] (.v 0 8) = some 0x3F800000 ∧
    gives (.vfdot2 h0 .bf16 .rup false (v 8) (v 4) (v 5) (v 6)) [(.v 0 4, 0x3F803F80), (.v 0 5, 0x33003380), (.v 0 6, 0x3F800000)] (.v 0 8) = some 0x3F800001 := by decide +kernel

/-- The example of 04 R99: to the nearest, ties away; past the range. -/
theorem test_vfcvti : gives (.vfcvti h0 .f32 .rna false false .i32 (v 5) (v 6)) [(.v 0 6, 0xC0200000)] (.v 0 5) = some 0xFFFFFFFD ∧
    gives (.vfcvti h0 .f32 .rna false false .i32 (v 5) (v 6)) [(.v 0 6, 0x53800000)] (.v 0 5) = some 0x7FFFFFFF := by decide +kernel

/-- The examples of 03 R63: 464 and 470 to `.e4m3`. -/
theorem test_e4m3 : gives (.vfcvt h0 .e4m3 .rne false .f32 (v 5) (v 6)) [(.v 0 6, 0x43E80000)] (.v 0 5) = some 0x7E ∧
    gives (.vfcvt h0 .e4m3 .rne false .f32 (v 5) (v 6)) [(.v 0 6, 0x43EB0000)] (.v 0 5) = some 0x7F ∧
    gives (.vfcvt h0 .e4m3 .rne true .f32 (v 5) (v 6)) [(.v 0 6, 0x43EB0000)] (.v 0 5) = some 0x7E := by decide +kernel

/-- The example of 03 R70: +∞ from `.f16` to `.f32`. -/
theorem test_infinity : gives (.vfcvt h0 .f32 .rtz false .f16 (v 5) (v 6)) [(.v 0 6, 0x7C00)] (.v 0 5) = some 0x7F800000 ∧
    gives (.vfcvt h0 .f32 .rne true .f16 (v 5) (v 6)) [(.v 0 6, 0x7C00)] (.v 0 5) = some 0x7F7FFFFF := by decide +kernel

/-- A branch of −51 words of 4 bytes (07 R161): from 0x10000 + 12 back by 204; an untaken one falls through. -/
theorem test_bra : ((ran (.bra h0 (-51)) []).bind fun t => (t.thread? 0 0 31).map fun x => x.pc.toNat) = some (0x10000 + 12 - 204) ∧
    ((ran (.bra { h0 with g := { neg := true, p := 0 } } (-51)) []).bind fun t => (t.thread? 0 0 31).map fun x => x.pc.toNat) = some (0x10000 + 12) := by decide +kernel

/-- A 64-bit sum wraps, and saturates (04 R86). -/
theorem test_wide_add : gives (.vadd h0 .i64 false (v 4) (v 6) (.imm 1)) [(.v 0 6, 0xFFFFFFFF), (.v 0 7, 0x7FFFFFFF)] (.v 0 5) = some 0x80000000 ∧
    gives (.vadd h0 .i64 true (v 4) (v 6) (.imm 1)) [(.v 0 6, 0xFFFFFFFF), (.v 0 7, 0x7FFFFFFF)] (.v 0 5) = some 0x7FFFFFFF := by decide +kernel

/-- `swtrap` traps its team with its code (16 R354). -/
theorem test_swtrap : ((ran (.swtrap h0 77) []).bind fun t => ((t.team? 0 0).bind fun tm => tm.trap).map fun tr => (tr.req.cause, tr.req.code)) = some (.swtrap, 77) := by decide +kernel

/-- A word of no class traps with `ILL` (02 R45). -/
theorem test_illegal : (match step (State.reset.withFetchWord 96 (14 * 2 ^ 92)) with
    | .next t => ((t.team? 0 0).bind fun tm => tm.trap).map fun tr => (tr.req.cause, tr.req.point.toNat)
    | _ => none) = some (.ill, 0x10000) := by decide +kernel

end Sys2Proof.Tests
end

section
/-! SUPPORT. What a register of a team reads after an update of a thread or a home group, after a write and after several
writes. -/

namespace Sys2Proof

theorem Tab.isSome_get?_mod {α : Type} (t : Tab α) (k j : Nat) (f : α → α) :
    (Tab.get? (Tab.mod t k f) j).isSome = (Tab.get? t j).isSome := by
  rw [Tab.get?_mod]
  split
  · next e => rw [e, Option.isSome_map]
  · rfl

end Sys2Proof

namespace Sys2Proof.Machine

/-! ## A team's registers after an update -/

/-- The thread or the home group that a register stands in. -/
def RegAt.owner : RegAt → Nat ⊕ Nat
  | .v t _ => .inl t
  | .p t _ => .inl t
  | .s g _ => .inr g
  | .x g _ => .inr g
  | .h g _ => .inr g

/-- What a thread reads in a register of its own. -/
def Thread.reads (th : Thread) : RegAt → DWord
  | .v _ n => (Tab.getD th.regs n 0).setWidth 64
  | .p _ n => if n = 0 ∨ th.preds.getLsbD n then 1 else 0
  | _ => 0

/-- What a home group reads in a register of its own. -/
def HGroup.reads (hg : HGroup) : RegAt → DWord
  | .s _ n => Tab.getD hg.scl n 0
  | .x _ n => (Tab.getD hg.idx n 0).setWidth 64
  | .h _ n => Tab.getD hg.hnd n 0
  | _ => 0

theorem Team.readReg_eq (tm : Team) (r : RegAt) : tm.readReg r = match r.owner with
    | .inl t => ((Tab.get? tm.threads t).map fun th => th.reads r).getD 0
    | .inr g => ((Tab.get? tm.hgs g).map fun hg => hg.reads r).getD 0 := by
  cases r with
  | v t n => simp only [Team.readReg, RegAt.owner]; cases Tab.get? tm.threads t <;> rfl
  | p t n => simp only [Team.readReg, RegAt.owner]; cases Tab.get? tm.threads t <;> rfl
  | s g n => simp only [Team.readReg, RegAt.owner]; cases Tab.get? tm.hgs g <;> rfl
  | x g n => simp only [Team.readReg, RegAt.owner]; cases Tab.get? tm.hgs g <;> rfl
  | h g n => simp only [Team.readReg, RegAt.owner]; cases Tab.get? tm.hgs g <;> rfl

/-- An update of a thread that keeps what the thread reads in a register of its own keeps what the team reads. -/
theorem Team.readReg_modThread (tm : Team) {r : RegAt} {i : Nat} {f : Thread → Thread}
    (h : ∀ th, r.owner = .inl i → (f th).reads r = th.reads r) : (tm.modThread i f).readReg r = tm.readReg r := by
  rw [Team.readReg_eq, Team.readReg_eq]
  cases e : r.owner with
  | inl t =>
    by_cases hi : t = i
    · subst hi
      simp [Team.get?_modThread, Function.comp_def, h _ e]
    · simp [Team.get?_modThread, hi]
  | inr g => rfl

/-- An update of a home group that keeps what the group reads in a register of its own keeps what the team reads. -/
theorem Team.readReg_modHg (tm : Team) {r : RegAt} {i : Nat} {f : HGroup → HGroup}
    (h : ∀ hg, r.owner = .inr i → (f hg).reads r = hg.reads r) : (tm.modHg i f).readReg r = tm.readReg r := by
  rw [Team.readReg_eq, Team.readReg_eq]
  cases e : r.owner with
  | inl t => rfl
  | inr g =>
    by_cases hi : g = i
    · subst hi
      simp [Team.get?_modHg, Function.comp_def, h _ e]
    · simp [Team.get?_modHg, hi]

/-- Registers are read in threads and home groups only. -/
theorem Team.readReg_congr {tm tm' : Team} (ht : tm'.threads = tm.threads) (hg : tm'.hgs = tm.hgs) (r : RegAt) :
    tm'.readReg r = tm.readReg r := by
  rw [Team.readReg_eq, Team.readReg_eq, ht, hg]

/-- Updates that each keep a register keep it in any number. -/
theorem Team.readReg_foldl {β : Type} {r : RegAt} {f : Team → β → Team} (h : ∀ tm b, (f tm b).readReg r = tm.readReg r)
    (l : List β) (tm : Team) : (l.foldl f tm).readReg r = tm.readReg r := by
  induction l generalizing tm with
  | nil => rfl
  | cons b l ih => exact (ih (f tm b)).trans (h tm b)

/-! ## Reading after writing (01 R8, R14, R17) -/

/-- Writing a predicate changes its own bit, if it is one of the 48. -/
theorem getLsbD_writePred (m : BitVec 48) (n : Nat) (v : DWord) (j : Nat) :
    (if v = 0#64 then m &&& ~~~(1#48 <<< n) else m ||| 1#48 <<< n).getLsbD j
      = if j = n then decide (n < 48 ∧ v ≠ 0#64) else m.getLsbD j := by
  have bit : (1#48 <<< n).getLsbD j = decide (j = n ∧ n < 48) := by
    rw [BitVec.getLsbD_shiftLeft, BitVec.getLsbD_one, Bool.eq_iff_iff]
    simp
    omega
  have past (hj : ¬j < 48) : m.getLsbD j = false := BitVec.getLsbD_of_ge m j (by omega)
  by_cases hv : v = 0#64
  · rw [if_pos hv, BitVec.getLsbD_and, BitVec.getLsbD_not, bit]
    by_cases hj : j = n
    · simp [hj, hv]
    · by_cases hj48 : j < 48
      · simp [hj, hj48]
      · simp [hj, past hj48]
  · rw [if_neg hv, BitVec.getLsbD_or, bit]
    by_cases hj : j = n
    · by_cases hj48 : j < 48
      · simp [hj, hv, hj ▸ hj48]
      · simp [hj, hj ▸ hj48, hj ▸ past hj48]
    · simp [hj]

theorem Team.readReg_writeReg_same {tm : Team} {r : RegAt} (h : tm.hasReg r = true) (v : DWord) :
    (tm.writeReg r v).readReg r = r.holds v := by
  cases r with
  | v t n =>
    obtain ⟨th, e⟩ := Option.isSome_iff_exists.1 h
    simp [Team.writeReg, Team.readReg, Team.get?_modThread, e, RegAt.holds, Tab.getD_put]
  | p t n =>
    simp only [Team.hasReg, Bool.and_eq_true, decide_eq_true_eq] at h
    obtain ⟨th, e⟩ := Option.isSome_iff_exists.1 h.1
    by_cases hn : n = 0
    · simp [Team.writeReg, Team.readReg, hn, e, RegAt.holds]
    · simp [Team.writeReg, Team.readReg, Team.get?_modThread, hn, e, RegAt.holds, getLsbD_writePred, h.2, -BitVec.getLsbD_eq_getElem]
  | s g n =>
    obtain ⟨hg, e⟩ := Option.isSome_iff_exists.1 h
    simp [Team.writeReg, Team.readReg, Team.get?_modHg, e, RegAt.holds, Tab.getD_put]
  | x g n =>
    obtain ⟨hg, e⟩ := Option.isSome_iff_exists.1 h
    simp [Team.writeReg, Team.readReg, Team.get?_modHg, e, RegAt.holds, Tab.getD_put]
  | h g n =>
    obtain ⟨hg, e⟩ := Option.isSome_iff_exists.1 h
    simp [Team.writeReg, Team.readReg, Team.get?_modHg, e, RegAt.holds, Tab.getD_put]

/-- A write of a register of a thread keeps every other register the thread reads: another number of its kind, or another kind. -/
theorem Team.readReg_writeReg_other (tm : Team) {r r' : RegAt} (ne : r' ≠ r) (v : DWord) :
    (tm.writeReg r v).readReg r' = tm.readReg r' := by
  cases r with
  | v t n =>
    refine Team.readReg_modThread tm fun th ho => ?_
    cases r' <;> simp_all [RegAt.owner, Thread.reads, Tab.getD_put]
  | p t n =>
    simp only [Team.writeReg]
    split
    · rfl
    · refine Team.readReg_modThread tm fun th ho => ?_
      cases r' <;> simp_all [RegAt.owner, Thread.reads, getLsbD_writePred]
  | s g n =>
    refine Team.readReg_modHg tm fun hg ho => ?_
    cases r' <;> simp_all [RegAt.owner, HGroup.reads, Tab.getD_put]
  | x g n =>
    refine Team.readReg_modHg tm fun hg ho => ?_
    cases r' <;> simp_all [RegAt.owner, HGroup.reads, Tab.getD_put]
  | h g n =>
    refine Team.readReg_modHg tm fun hg ho => ?_
    cases r' <;> simp_all [RegAt.owner, HGroup.reads, Tab.getD_put]

theorem Team.readReg_writeReg {tm : Team} {r : RegAt} (h : tm.hasReg r = true) (r' : RegAt) (v : DWord) :
    (tm.writeReg r v).readReg r' = if r' = r then r.holds v else tm.readReg r' := by
  split
  · next e => exact e ▸ Team.readReg_writeReg_same h v
  · next ne => exact Team.readReg_writeReg_other tm ne v

theorem RegAt.toNat_holds_x (g n : Nat) (v : DWord) : ((RegAt.x g n).holds v).toNat = v.toNat % 4096 := by
  simp only [RegAt.holds, BitVec.toNat_setWidth]
  omega

theorem Team.readReg_x_lt (tm : Team) (g n : Nat) : (tm.readReg (.x g n)).toNat < 4096 := by
  simp only [Team.readReg]
  split
  · next hg _ =>
    have := (Tab.getD hg.idx n 0).isLt
    rw [BitVec.toNat_setWidth]
    omega
  · decide

/-! ## Several writes -/

/-- A write keeps the registers that a team has. -/
theorem Team.hasReg_writeReg (tm : Team) (r r' : RegAt) (v : DWord) : (tm.writeReg r v).hasReg r' = tm.hasReg r' := by
  have thread (i : Nat) (f : Thread → Thread) : (tm.modThread i f).hasReg r' = tm.hasReg r' := by
    cases r' <;> simp only [Team.hasReg, Team.modThread, Tab.isSome_get?_mod]
  have group (i : Nat) (f : HGroup → HGroup) : (tm.modHg i f).hasReg r' = tm.hasReg r' := by
    cases r' <;> simp only [Team.hasReg, Team.modHg, Tab.isSome_get?_mod]
  cases r with
  | v t n => exact thread ..
  | p t n =>
    simp only [Team.writeReg]
    split
    · rfl
    · exact thread ..
  | s g n => exact group ..
  | x g n => exact group ..
  | h g n => exact group ..

theorem lastOf_cons (e : RegAt × DWord) (wr : List (RegAt × DWord)) (r : RegAt) :
    lastOf (e :: wr) r = (lastOf wr r).or (if e.1 = r then some e.2 else none) := by
  unfold lastOf
  rw [List.reverse_cons, List.find?_append]
  cases wr.reverse.find? fun e => e.1 == r with
  | some x => rfl
  | none =>
    by_cases h : e.1 = r <;> simp [h]

/-- A register of the team holds what was written to it last. -/
theorem Team.readReg_writeRegs {tm : Team} {r : RegAt} (h : tm.hasReg r = true) (wr : List (RegAt × DWord)) :
    (tm.writeRegs wr).readReg r = match lastOf wr r with
      | some v => r.holds v
      | none => tm.readReg r := by
  refine (Team.readReg_congr rfl rfl r).trans (?_ : (wr.foldl (fun tm e => tm.writeReg e.1 e.2) tm).readReg r = _)
  induction wr generalizing tm with
  | nil => rfl
  | cons e wr ih =>
    rw [List.foldl_cons, ih ((tm.hasReg_writeReg e.1 r e.2).trans h), lastOf_cons]
    cases lastOf wr r with
    | some v => rfl
    | none =>
      by_cases he : e.1 = r
      · simp [he, ← he ▸ Team.readReg_writeReg_same (he ▸ h) e.2]
      · simp [he, Team.readReg_writeReg_other tm (Ne.symm he)]

/-- Among writes to registers that name their source, a register holds its own source's value. -/
theorem lastOf_map {β : Type} {l : List β} {b : β} (hb : b ∈ l) (k : β → RegAt) (v : β → DWord)
    (inj : ∀ x, k x = k b → v x = v b) : lastOf (l.map fun x => (k x, v x)) (k b) = some (v b) := by
  induction l with
  | nil => cases hb
  | cons x l ih =>
    rw [List.map_cons, lastOf_cons]
    by_cases hl : b ∈ l
    · rw [ih hl]; rfl
    · have e : b = x := (List.mem_cons.1 hb).resolve_right hl
      subst e
      cases h : lastOf (l.map fun x => (k x, v x)) (k b) with
      | none => simp
      | some y =>
        unfold lastOf at h
        obtain ⟨e, he, rfl⟩ := Option.map_eq_some_iff.1 h
        obtain ⟨x, hx, rfl⟩ := List.mem_map.1 (List.mem_reverse.1 (List.mem_of_find?_eq_some he))
        exact congrArg some (inj x (by simpa using List.find?_some he))

end Sys2Proof.Machine
end

section
/-! SUPPORT. How a word that takes effect ends: its checks pass, its effect is followed by `finish`, which writes no register, and
its results are written or owed. -/

namespace Sys2Proof.Machine

/-! ## A word that takes effect (02 R45) -/

/-- The team of an issue is the one that stands in its slot. -/
theorem AtIssue.team {i : Instr} {g : Guard} {s : State} {w : Iss} (h : AtIssue i g s w) :
    s.team? w.core w.slot = some w.tm := by
  have e := h.iss
  unfold State.issBy at e
  split at e
  · cases e
  · split at e
    · cases e
    · next ht =>
      cases e
      exact ht

/-- A word whose checks all pass ends as its body says. -/
theorem runWord_of_issues {i : Instr} {h : Hdr} {falls : Iss → List Nat} {s : State} {w : Iss}
    (hi : Issues i h falls s w) (body : Iss → State → Res) :
    runWord i h falls body s = .next (s.conclude w h.ht (body w s)) := by
  have ts : w.ts.isEmpty = false := List.isEmpty_eq_false_iff.2 hi.ts
  simp only [runWord, hi.iss, ts, hi.oob, hi.past, hi.good, Bool.false_eq_true, if_false]

/-- A word whose checks all pass and whose body takes effect is followed by `finish`. -/
theorem runWord_done {i : Instr} {h : Hdr} {falls : Iss → List Nat} {s : State} {w : Iss} {body : Iss → State → Res}
    {d : Done} (hi : Issues i h falls s w) (hb : body w s = .done d) :
    runWord i h falls body s = .next (State.finish w h.ht d) := by
  rw [runWord_of_issues hi, hb]
  rfl

/-! ## Registers under the shared operations -/

/-- An update of a team that keeps a register keeps what the register holds in the state. -/
theorem State.reg_modTeam (s : State) (c slot : Nat) {f : Team → Team} {r : RegAt}
    (h : ∀ tm, (f tm).readReg r = tm.readReg r) : (s.modTeam c slot f).reg c slot r = s.reg c slot r := by
  unfold State.reg
  rw [State.team?_modTeam_same]
  cases s.team? c slot with
  | none => rfl
  | some tm => exact h tm

/-- An update of a core that keeps its teams keeps every register. -/
theorem State.reg_modCore (s : State) (c : Nat) {f : Core → Core} (h : ∀ k, (f k).teams = k.teams) (c' slot : Nat)
    (r : RegAt) : (s.modCore c f).reg c' slot r = s.reg c' slot r := by
  simp only [State.reg, State.team?_modCore s c h]

theorem Thread.reads_after (th : Thread) (pc : PC) (nb lane ctr uid : Nat) (done : Bool) (r : RegAt) :
    (th.after pc nb lane ctr uid done).reads r = th.reads r := by
  unfold Thread.after Thread.post
  split <;> cases r <;> rfl

/-- What follows a word's effect writes no register. -/
theorem State.reg_finish (w : Iss) (ht : Hints) (d : Done) (r : RegAt) :
    (State.finish w ht d).reg w.core w.slot r = d.s.reg w.core w.slot r := by
  unfold State.finish
  extract_lets s0 go upd s1 pcs npc split
  have moved (tm : Team) : (go.foldl upd tm).readReg r = tm.readReg r :=
    Team.readReg_foldl (fun tm t => Team.readReg_modThread tm fun th _ => Thread.reads_after th ..) go tm
  refine (State.reg_modCore s1 w.core ?_ _ _ r).trans (State.reg_modTeam s0 _ _ fun tm => Eq.trans ?_ (moved tm))
  · exact fun _ => rfl
  extract_lets tm'
  split
  · split
    · rfl
    · exact Team.readReg_congr rfl rfl r
  · rfl

/-- What follows a word's effect leaves the outstanding results. -/
theorem State.pends_finish (w : Iss) (ht : Hints) (d : Done) :
    ((State.finish w ht d).core w.core).pends = (d.s.core w.core).pends := by
  unfold State.finish
  extract_lets s0 go upd s1 pcs npc split
  rw [State.core_modCore_same]
  simp only [s1, State.core_modTeam_same]
  rfl

/-- What follows a word's effect leaves every unit of its core. -/
theorem State.sameUnits_finish {w : Iss} {d : Done} {tm : Team} (ht : Hints) (h : d.s.team? w.core w.slot = some tm) :
    Core.SameUnits (d.s.core w.core) ((State.finish w ht d).core w.core) :=
  (RegFrame.finish ht (RegFrame.refl (w := { w with tm := tm }) h)).units

/-- A word that only records an owed result completes later (02 R40). -/
theorem completesLater_of_exec {i : Instr} {h : Hdr} {falls : Iss → List Nat} {s : State} {w : Iss}
    (hi : Issues i h falls s w) (ts : List Nat) (wr : List (RegAt × DWord))
    (e : exec i s = .next (State.finish w h.ht (s.laterWrite w ts wr))) : CompletesLater i s w wr := by
  refine ⟨_, e, fun r _ => ?_, RegFrame.finish h.ht ((RegFrame.refl hi.team).laterWrite ts wr), rfl, ?_⟩
  · rw [State.reg_finish]
    refine State.reg_modCore s.newUid.2 w.core (f := fun k => { k with pends := k.pends ++ [_] }) ?_ _ _ r
    exact fun _ => rfl
  · rw [State.pends_finish]
    simp only [State.laterWrite, State.core_modCore_same]
    exact ⟨_, List.mem_append_right _ (List.mem_singleton_self _), rfl, rfl, rfl, rfl⟩

/-! ## Words of fixed latency (02 R39) -/

/-- The writes of a fixed-latency word are in the registers at its end. -/
theorem wrote_fixedWrite {i : Instr} {g : Guard} {s : State} {w : Iss} (h : AtIssue i g s w) (ht : Hints) (lat post : Nat)
    (wr : List (RegAt × DWord)) : Wrote s (State.finish w ht (s.fixedWrite w lat post wr)) w wr := by
  intro r hr
  have written : (s.fixedWrite w lat post wr).s.reg w.core w.slot r = (s.writeRegs w.core w.slot wr).reg w.core w.slot r := by
    have ready (t : State) (l : List (Nat × RegAt × Nat)) :
        (t.modCore w.core fun k => { k with ready := k.ready ++ l }).reg w.core w.slot r = t.reg w.core w.slot r :=
      State.reg_modCore t w.core (by intro k; rfl) _ _ r
    have pends (t : State) (l : List Pend) :
        (t.modCore w.core fun k => { k with pends := k.pends ++ l }).reg w.core w.slot r = t.reg w.core w.slot r :=
      State.reg_modCore t w.core (by intro k; rfl) _ _ r
    unfold State.fixedWrite
    split
    · exact ready ..
    · exact (pends ..).trans (ready ..)
  rw [State.reg_finish, written]
  simp only [State.reg, State.writeRegs, State.team?_modTeam_same, h.team, Option.map_some]
  exact Team.readReg_writeRegs hr wr

/-- A word that is worked out once for each home group, with a trap in none, writes what each group's lane gives. -/
theorem perHg_ok (w : Iss) (v : Nat → Nat → List (RegAt × DWord)) :
    perHg w (fun g th => .ok (v g th)) = .ok (w.hgs.flatMap fun g => v g (w.lead g)) := by
  simp [perHg, List.filterMap_map, List.flatMap_map]

theorem exec_fixedHg {i : Instr} {h : Hdr} {s : State} {w : Iss} (hi : Issues i h allFall s w) (lat : Nat)
    (v : Iss → Nat → Nat → List (RegAt × DWord)) :
    fixedHg i h lat (fun w g th => .ok (v w g th)) s
      = .next (State.finish w h.ht (s.fixedWrite w lat h.ht.post.toNat (w.hgs.flatMap fun g => v w g (w.lead g)))) :=
  runWord_done hi (by rw [perHg_ok])

end Sys2Proof.Machine
end

section
/-! SUPPORT. Reading and writing registers (O55). -/

namespace Sys2Proof.Machine

/-! ## smov to an index register (01 R17) -/

theorem exec_smov (h : Hdr) (t : IType) (d a : Opd) (s : State) : exec (.smov h t d a) s = execSmov h t d a s := rfl

/-- The leading thread of a home group is of that group. -/
theorem Iss.hgOf_lead (w : Iss) (g : Nat) : hgOf (w.lead g) = g := by
  unfold Iss.lead
  cases e : (sortNat w.ts).find? fun t => hgOf t == g with
  | none => simp [hgOf]
  | some t => simpa using List.find?_some e

/-- The low 32 bits of an operand are those of its first register. -/
theorem Team.val_one_mod (tm : Team) (t : Nat) (o : Opd) : tm.val t o 1 % 2 ^ 32 = tm.n64 t o % 2 ^ 32 := by
  have pair (e : Nat) : tm.vecAt t e 1 % 2 ^ 32 = tm.vecAt t e 2 % 2 ^ 64 % 2 ^ 32 := by
    simp only [Team.vecAt]
    omega
  have whole (n : Nat) : n % 2 ^ 32 = n % 2 ^ 64 % 2 ^ 32 := by omega
  cases o with
  | vec n => exact pair _
  | ind x b => exact pair _
  | _ => exact whole _

/-- An unsigned 64-bit result is the 64 bits of the value (03 R57). -/
theorem extend_n64 (v : Nat) : extend .n64 (IType.val .n64 v) 64 = v % 2 ^ 64 := by
  have id (n : Nat) : intBits 64 (n % 2 ^ 64 : Nat) = n % 2 ^ 64 := by
    unfold intBits
    omega
  have val (n : Nat) : IType.val .n64 n = (n % 2 ^ 64 : Nat) := by
    simp [IType.val, IType.signed, IType.w]
  show intBits 64 (IType.val .n64 (intBits 64 (IType.val .n64 v))) = _
  rw [val v, id, val, id]
  omega

/-- `smov` to an index register writes each home group's register with its value. -/
theorem smov_idx_writes (w : Iss) (n : BitVec 2) (a : Opd) :
    (w.hgs.flatMap fun g => w.putS (w.lead g) (.idx n) .n64 (id (w.tm.val (w.lead g) a 1)))
      = w.hgs.map fun g => (.x g n.toNat, BitVec.ofNat 64 (w.tm.val (w.lead g) a 1)) := by
  rw [List.map_eq_flatMap]
  congr 1
  funext g
  simp only [Iss.putS, Team.dest, Team.destX, Opd.regs, List.map_cons, List.map_nil, extend_n64, id, w.hgOf_lead g]
  congr 2
  exact BitVec.eq_of_toNat_eq (by simp)

theorem exec_smov_idx {h : Hdr} {n : BitVec 2} {a : Opd} {s : State} {w : Iss}
    (hi : Issues (.smov h .n64 (.idx n) a) h allFall s w) :
    exec (.smov h .n64 (.idx n) a) s = .next (State.finish w h.ht (s.fixedWrite w 2 h.ht.post.toNat
      (w.hgs.map fun g => (.x g n.toNat, BitVec.ofNat 64 (w.tm.val (w.lead g) a 1))))) := by
  rw [← smov_idx_writes]
  exact (exec_smov ..).trans (exec_fixedHg hi 2 fun w _ th => w.putS th (.idx n) .n64 (id (w.tm.val th a 1)))

/-- Each home group's index register reads the low 12 bits of the group's value after `smov`. -/
theorem smov_idx_reads {h : Hdr} {n : BitVec 2} {a : Opd} {s : State} {w : Iss}
    (hi : Issues (.smov h .n64 (.idx n) a) h allFall s w) :
    ∃ t, exec (.smov h .n64 (.idx n) a) s = .next t ∧ ∀ g, g ∈ w.hgs → w.tm.hasReg (.x g n.toNat) = true →
      (t.reg w.core w.slot (.x g n.toNat)).toNat = w.tm.n64 (w.lead g) a % 4096 := by
  refine ⟨_, exec_smov_idx hi, fun g hg hr => ?_⟩
  have last := lastOf_map hg (fun g => RegAt.x g n.toNat) (fun g => BitVec.ofNat 64 (w.tm.val (w.lead g) a 1))
    fun x e => by cases e; rfl
  rw [wrote_fixedWrite hi.toAtIssue h.ht 2 h.ht.post.toNat _ _ hr, last]
  have low := w.tm.val_one_mod (w.lead g) a
  simp only [RegAt.toNat_holds_x, BitVec.toNat_ofNat]
  omega

/-- Settles O55: a write is read back under its own class, no other register changes, and `smov` writes each home
group's index register. -/
theorem registerReads : Obligations.RegisterReads := by
  refine ⟨fun tm r r' v h => Team.readReg_writeReg h r' v, fun tm g n v h => ?_, Team.readReg_x_lt,
    fun h n a s w hi => smov_idx_reads hi⟩
  have same : (tm.writeReg (.x g n) v).readReg (.x g n) = (RegAt.x g n).holds v :=
    Team.readReg_writeReg_same (r := .x g n) h v
  rw [same]
  exact ⟨rfl, RegAt.toNat_holds_x g n v⟩

end Sys2Proof.Machine
end

section
/-! SUPPORT. `BANKROLE`: what is written, and when it comes into force (O54). -/

namespace Sys2Proof.Machine

/-! ## Control registers (16 R343) -/

theorem exec_csrwr (h : Hdr) (num : BitVec 12) (a : Opd) (s : State) : exec (.csrwr h num a) s = execCsrwr h num a s := rfl
theorem exec_csrrd (h : Hdr) (num : BitVec 12) (d : Opd) (s : State) : exec (.csrrd h num d) s = execCsrrd h num d s := rfl
theorem exec_bankroleApply (core : Nat) (s : State) :
    exec (.bankroleApply core) s = .next (s.modCore core Core.settle) := rfl

/-- `csrrd` of a number that the manual has owes each home group the register's value. -/
theorem exec_csrrd_priv {h : Hdr} {num : BitVec 12} {d : Opd} {s : State} {w : Iss}
    (hi : Issues (.csrrd h num d) h allFall s w) (hp : w.priv = true) (hn : num.toNat ≤ 8) :
    exec (.csrrd h num d) s = .next (State.finish w h.ht (s.laterWrite w w.ts
      (w.hgs.flatMap fun g => w.tm.dest (w.lead g) d 1 (s.csr w num.toNat).toNat))) := by
  refine (exec_csrrd ..).trans (runWord_done hi ?_)
  rw [if_neg (by omega), hp]
  rfl

/-- What the home groups of one `csrwr` write to `BANKROLE`, in turn. -/
def State.writeBankRoles (s : State) (w : Iss) (a : Opd) (gs : List Nat) : State :=
  gs.foldl (fun s g => s.writeCsr w g 3 (w.tm.n64 (w.lead g) a)) s

/-- Writing `BANKROLE` leaves the roles in force and the teams. -/
theorem State.writeBankRoles_frame (s : State) (w : Iss) (a : Opd) (gs : List Nat) :
    ((s.writeBankRoles w a gs).core w.core).bankRole = (s.core w.core).bankRole
      ∧ ((s.writeBankRoles w a gs).core w.core).teams = (s.core w.core).teams := by
  induction gs generalizing s with
  | nil => exact ⟨rfl, rfl⟩
  | cons g gs ih => simpa [State.writeBankRoles, State.writeCsr] using ih (s.writeCsr w g 3 (w.tm.n64 (w.lead g) a))

/-- The last home group's value stands. -/
theorem State.writeBankRoles_last (s : State) (w : Iss) (a : Opd) (gs : List Nat) (g : Nat) :
    ((s.writeBankRoles w a (gs ++ [g])).core w.core).bankWr = BitVec.ofNat 64 (w.tm.n64 (w.lead g) a) := by
  simp [State.writeBankRoles, List.foldl_append, State.writeCsr]

/-- A privileged `csrwr` of `BANKROLE` without a reserved role writes each home group's value. -/
theorem exec_csrwr_bankrole {h : Hdr} {a : Opd} {s : State} {w : Iss} (hi : Issues (.csrwr h 3 a) h allFall s w)
    (hp : w.priv = true)
    (hr : ∀ g, g ∈ w.hgs → ∀ i, i < 32 → w.tm.n64 (w.lead g) a / 4 ^ i % 4 ≠ 3) :
    exec (.csrwr h 3 a) s = .next (State.finish w h.ht { s := s.writeBankRoles w a w.hgs }) := by
  refine (exec_csrwr ..).trans (runWord_done hi ?_)
  have ok : (w.hgs.filter fun g => !s.csrOk w 3 (w.tm.n64 (w.lead g) a)) = [] := by
    refine List.filter_eq_nil_iff.2 fun g hg => ?_
    simpa [State.csrOk] using hr g hg
  simp [ok, hp, State.writeBankRoles]

/-- A `csrwr` of `BANKROLE` leaves the roles in force; the last home group's value is what a read then gives. -/
theorem csrwr_bankrole {h : Hdr} {a : Opd} {s : State} {w : Iss} {gs : List Nat} {g : Nat}
    (hi : Issues (.csrwr h 3 a) h allFall s w) (hp : w.priv = true) (hg : w.hgs = gs ++ [g])
    (hr : ∀ g', g' ∈ w.hgs → ∀ i, i < 32 → w.tm.n64 (w.lead g') a / 4 ^ i % 4 ≠ 3) :
    ∃ t, exec (.csrwr h 3 a) s = .next t ∧ (t.core w.core).bankWr = BitVec.ofNat 64 (w.tm.n64 (w.lead g) a)
      ∧ (t.core w.core).bankRole = (s.core w.core).bankRole := by
  have frame := s.writeBankRoles_frame w a w.hgs
  have team : (s.writeBankRoles w a w.hgs).team? w.core w.slot = some w.tm := by
    rw [← hi.team]
    exact congrArg (Tab.get? · w.slot) frame.2
  have units := State.sameUnits_finish (d := { s := s.writeBankRoles w a w.hgs }) h.ht team
  refine ⟨_, exec_csrwr_bankrole hi hp hr, units.bankWr.trans ?_, units.bankRole.trans frame.1⟩
  rw [hg]
  exact s.writeBankRoles_last w a gs g

/-! ## Roles that come into force (01 R26) -/

theorem Core.settle_of_empty {k : Core} (h : k.teams = []) :
    k.settle.bankRole = k.bankWr ∧ k.settle.bankWr = k.bankWr ∧ k.settle.teams = [] := by
  simp [Core.settle, h]

theorem Core.settle_of_resident {k : Core} (h : k.teams ≠ []) : k.settle = k := by
  simp [Core.settle, h]

/-- What a core with or without a team has as its roles once it is settled. -/
theorem Core.settle_roles (k : Core) :
    k.settle.bankWr = k.bankWr ∧ k.settle.bankRole = if k.teams = [] then k.bankWr else k.bankRole := by
  by_cases h : k.teams = []
  · obtain ⟨role, wr, -⟩ := Core.settle_of_empty h
    exact ⟨wr, by rw [role, if_pos h]⟩
  · rw [Core.settle_of_resident h, if_neg h]
    exact ⟨rfl, rfl⟩

theorem State.message_cores (s : State) (a b : Nat) : (s.message a b).cores = s.cores := by
  unfold State.message; dsimp only; split <;> rfl

theorem State.hear_cores (s : State) (a : Nat) : (s.hear a).cores = s.cores := by
  unfold State.hear
  dsimp only
  split
  · rw [State.message_cores]; rfl
  · rfl

theorem State.ero_cores (s : State) (u d i e x v : Nat) : (s.ero u d i e x v).cores = s.cores := by
  unfold State.ero
  split
  · rfl
  · exact s.hear_cores _

theorem State.slotWord_cores (s : State) (g : Grid) (t : Nat) : (s.slotWord g t).2.cores = s.cores := by
  unfold State.slotWord
  split
  · split
    · rfl
    · exact s.ero_cores ..
  · rfl

/-- Placing a team settles its core and seats the team there, if a slot is free. -/
theorem State.core_placeTeam (s : State) (gid : Nat) (g : Grid) (n c : Nat) :
    (s.placeTeam gid g n c).core c = (s.core c).settle
      ∨ ∃ slot tm, (s.placeTeam gid g n c).core c = (s.core c).settle.seat slot tm := by
  unfold State.placeTeam
  extract_lets s1
  have settled : s1.core c = (s.core c).settle := State.core_modCore_same ..
  split
  · exact .inl settled
  · next slot _ =>
    refine .inr ⟨slot, _, (State.core_modCore_same ..).trans (congrArg (Core.seat · slot _) (Eq.trans ?_ settled))⟩
    exact congrArg (Tab.getD · c Core.reset) ((State.message_cores ..).trans (s1.slotWord_cores g n))

/-- Putting back a saved team settles its core and seats the team there. -/
theorem State.core_putSaved {s t : State} {q : SavedTeam} {c slot : Nat} (h : s.putSaved q c = some (slot, t)) :
    t.core c = (s.core c).settle.seat slot q.team := by
  unfold State.putSaved at h
  obtain ⟨sl, -, e⟩ := Option.map_eq_some_iff.1 h
  cases e
  rw [State.core_modCore_same, State.core_modCore_same]

/-- A core on which a team was placed or put back has the roles of the settled core. -/
theorem State.settled_of_placed {s t : State} {gid n c slot : Nat} {g : Grid} {q : SavedTeam}
    (h : t = s.placeTeam gid g n c ∨ s.putSaved q c = some (slot, t)) :
    (t.core c).bankWr = (s.core c).settle.bankWr ∧ (t.core c).bankRole = (s.core c).settle.bankRole := by
  rcases h with rfl | h
  · rcases s.core_placeTeam gid g n c with e | ⟨sl, tm, e⟩
    · rw [e]; exact ⟨rfl, rfl⟩
    · rw [e]; exact ⟨rfl, rfl⟩
  · rw [State.core_putSaved h]
    exact ⟨rfl, rfl⟩

/-- The core's own step of applying what was written touches that core alone, and only while no team is on it. -/
theorem bankroleApply_settles (core : Nat) (s : State) :
    ∃ t, exec (.bankroleApply core) s = .next t ∧ (∀ c, c ≠ core → t.core c = s.core c) ∧
      ((s.core core).teams = [] → (t.core core).bankRole = (s.core core).bankWr
        ∧ (t.core core).bankWr = (s.core core).bankWr ∧ (t.core core).teams = []) ∧
      ((s.core core).teams ≠ [] → t.core core = s.core core) := by
  refine ⟨_, exec_bankroleApply core s, fun c hc => State.core_modCore_other s _ hc, fun h => ?_, fun h => ?_⟩
  · rw [State.core_modCore_same]
    exact Core.settle_of_empty h
  · rw [State.core_modCore_same]
    exact Core.settle_of_resident h

/-- Settles O54: a write changes the written value alone; settling a core without a team is what brings it into force,
and placing a team settles its core first. -/
theorem bankRoles : Obligations.BankRoles := by
  refine ⟨fun h num d a gs g s w hn hp => ?_, bankroleApply_settles, fun s t gid n c g q slot ht => ?_⟩
  · subst hn
    exact ⟨fun hi hg hr => csrwr_bankrole hi hp hg hr,
      fun hi => completesLater_of_exec hi w.ts _ (exec_csrrd_priv hi hp (by decide))⟩
  · obtain ⟨wr, role⟩ := State.settled_of_placed ht
    obtain ⟨wr', role'⟩ := (s.core c).settle_roles
    exact ⟨wr.trans wr', role.trans role'⟩

end Sys2Proof.Machine
end

section
/-! SUPPORT. Class 0 bit work and compares (O3): how a fixed-latency word of classes 0, 1 and 3 ends, when a result pattern is the
exact value that reaches D, and the pattern of each entry. -/

namespace Sys2Proof.Machine

/-! ## Words of fixed latency that each thread computes (02 R39) -/

/-- What follows a word's effect leaves the interlocks. -/
theorem State.ready_finish (w : Iss) (ht : Hints) (d : Done) :
    ((State.finish w ht d).core w.core).ready = (d.s.core w.core).ready := by
  unfold State.finish
  extract_lets s0 go upd s1 pcs npc split
  rw [State.core_modCore_same]
  simp only [s1, State.core_modTeam_same]
  rfl

/-- Each result of a fixed-latency producer is interlocked until its latency has passed. -/
theorem State.ready_fixedWrite (s : State) (w : Iss) (lat post : Nat) (wr : List (RegAt × DWord)) :
    ((s.fixedWrite w lat post wr).s.core w.core).ready
      = (s.core w.core).ready ++ wr.map fun e => (w.slot, e.1, w.now + lat) := by
  have written : (((s.writeRegs w.core w.slot wr).modCore w.core fun k =>
      { k with ready := k.ready ++ wr.map fun e => (w.slot, e.1, w.now + lat) }).core w.core).ready
        = (s.core w.core).ready ++ wr.map fun e => (w.slot, e.1, w.now + lat) := by
    simp only [State.core_modCore_same, State.writeRegs, State.core_modTeam_same]
  unfold State.fixedWrite
  split
  · exact written
  · refine Eq.trans ?_ written
    rw [State.core_modCore_same]
    rfl

/-- A word that only writes registers of fixed latency completes. -/
theorem completesFixed_of_exec {i : Instr} {h : Hdr} {falls : Iss → List Nat} {s : State} {w : Iss}
    (hi : Issues i h falls s w) {lat : Nat} {wr : List (RegAt × DWord)}
    (e : exec i s = .next (State.finish w h.ht (s.fixedWrite w lat h.ht.post.toNat wr))) : CompletesFixed i s w lat wr := by
  refine ⟨_, e, wrote_fixedWrite hi.toAtIssue h.ht lat _ wr,
    RegFrame.finish h.ht ((RegFrame.refl hi.team).fixedWrite lat _ wr), fun x hx => ?_⟩
  rw [State.ready_finish, State.ready_fixedWrite]
  exact List.mem_append_right _ (List.mem_map_of_mem hx)

/-- A computation that traps in no thread writes what each thread gives. -/
theorem perThread_ok (w : Iss) (v : Nat → List (RegAt × DWord)) :
    perThread w (fun th => .ok (v th)) = .ok (w.ts.flatMap v) := by
  simp [perThread, List.filterMap_map, List.flatMap_map]

/-- A fixed-latency word that traps in no thread completes with what each thread gives. -/
theorem completesFixed_of_fixedWord {i : Instr} {h : Hdr} {s : State} {w : Iss} (hi : Issues i h allFall s w) {lat : Nat}
    {v : Iss → Nat → List (RegAt × DWord)} (e : exec i s = fixedWord i h lat (fun w th => .ok (v w th)) s) :
    CompletesFixed i s w lat (w.ts.flatMap (v w)) :=
  completesFixed_of_exec hi (e.trans (runWord_done hi (by rw [perThread_ok])))

/-! ## The value that reaches D (03 R57, 04 R84) -/

/-- The pattern of a value is the value modulo the width. -/
theorem intBits_cast (n : Nat) (v : Int) : (intBits n v : Int) = v % 2 ^ n :=
  Int.toNat_of_nonneg (Int.emod_nonneg v (by positivity))

/-- Values that agree modulo the width have one pattern. -/
theorem intBits_congr {n : Nat} {a b : Int} (h : a ≡ b [ZMOD 2 ^ n]) : intBits n a = intBits n b :=
  congrArg Int.toNat h

/-- A pattern's value under a type is the pattern modulo the width (03 R56). -/
theorem IType.val_modEq (t : IType) (n : Nat) : IType.val t n ≡ n [ZMOD 2 ^ t.w] := by
  have reduced : ((n % 2 ^ t.w : Nat) : Int) ≡ n [ZMOD 2 ^ t.w] := by
    rw [Int.natCast_mod, Nat.cast_pow, Nat.cast_ofNat]
    exact Int.mod_modEq ..
  unfold IType.val
  dsimp only
  split
  · exact (Int.sub_modulus_modEq_iff).2 reduced
  · exact reduced

/-- A result pattern writes the exact value that it agrees with modulo the width. -/
theorem Iss.put_eq_gets (w : Iss) (th : Nat) (d : Opd) {t : IType} {bits : Nat} {v : Int}
    (h : (bits : Int) ≡ v [ZMOD 2 ^ t.w]) : w.put th d t bits = w.gets th d t v := by
  unfold Iss.put Iss.gets extend
  rw [intBits_congr ((IType.val_modEq t bits).trans h)]

/-- A fixed-latency word whose pattern agrees with an exact value in each thread completes with those values. -/
theorem completesFixed_of_put {i : Instr} {h : Hdr} {s : State} {w : Iss} (hi : Issues i h allFall s w) {lat : Nat} {d : Opd}
    {t : IType} {bits : Iss → Nat → Nat} {v : Nat → Int}
    (e : exec i s = fixedWord i h lat (fun w th => .ok (w.put th d t (bits w th))) s)
    (hv : ∀ th, (bits w th : Int) ≡ v th [ZMOD 2 ^ t.w]) :
    CompletesFixed i s w lat (w.ts.flatMap fun th => w.gets th d t (v th)) := by
  rw [← funext fun th => w.put_eq_gets th d (hv th)]
  exact completesFixed_of_fixedWord hi e

/-! ## The entries (04 R88 to R92) -/

/-- R88: `vshl` multiplies the value by a power of two. -/
theorem ishl_modEq (t : IType) (a b : Nat) : (ishl t a b : Int) ≡ IType.val t a * 2 ^ (b % 256) [ZMOD 2 ^ t.w] := by
  have product : (ishl t a b : Int) = (a * 2 ^ (b % 256)) % 2 ^ t.w := by
    simp [ishl]
  rw [product]
  exact (Int.mod_modEq ..).trans ((IType.val_modEq t a).symm.mul_right _)

/-- R88: `vsra` divides the value, towards minus infinity. -/
theorem isra_modEq (t : IType) (a b : Nat) :
    (isra t a b : Int) ≡ (IType.val t a).fdiv (2 ^ (b % 256)) [ZMOD 2 ^ t.w] := by
  rw [isra, intBits_cast]
  exact Int.mod_modEq ..

/-- R90: `vlea` keeps the low 64 bits of the sum. -/
theorem intBits64_modEq (v : Int) : (intBits 64 v : Int) ≡ v [ZMOD 2 ^ IType.n64.w] := by
  rw [intBits_cast]
  exact Int.mod_modEq ..

/-- R92: the operands of `vaddc` are 32 bits. -/
theorem iaddc_n32 (tm : Team) (th : Nat) (a b c : Opd) :
    iaddc (tm.n32 th a) (tm.n32 th b) (tm.n32 th c) = tm.n32 th a + tm.n32 th b + tm.n32 th c % 2 := by
  simp [iaddc, Team.n32]

/-- R92: `vsubb` gives the difference modulo 2^32, and above it the borrow. -/
theorem isubb_n32 (tm : Team) (th : Nat) (a b c : Opd) :
    (isubb (tm.n32 th a) (tm.n32 th b) (tm.n32 th c) : Int)
      = let v : Int := (tm.n32 th a : Int) - tm.n32 th b - (tm.n32 th c % 2 : Nat)
        v % 2 ^ 32 + if v < 0 then 2 ^ 32 else 0 := by
  have low (o : Opd) : tm.n32 th o % 2 ^ 32 = tm.n32 th o := Nat.mod_mod ..
  simp only [isubb, low, Nat.cast_add, intBits_cast, Nat.cast_ite, Nat.cast_pow, Nat.cast_ofNat, Nat.cast_zero]

/-- R91: `vcmp` decides the relation of its condition; the two codes that only floats have hold of no integers. -/
theorem icmp_iff (cc : Cond) (x y : Int) : icmp cc x y = true ↔ match cc with
    | .eq => x = y
    | .ne => x ≠ y
    | .lt => x < y
    | .le => x ≤ y
    | .gt => x > y
    | .ge => x ≥ y
    | .ord => False
    | .uno => False := by
  cases cc <;> simp [icmp]

/-- Settles O3: each entry's pattern agrees with its exact value modulo the width (where the entry states
the pattern itself, it is that value), and `vcmp` with the relation of its condition. -/
theorem vectorBits : Obligations.VectorBits := by
  refine ⟨fun h t pos len sh f imm d a b c s w => ⟨?vshl, ?vshr, ?vsra, ?vrot, ?vbfe, ?vbfi, ?vpopc, ?vclz, ?vctz, ?vbrev,
    ?vlea, ?vaddc, ?vsubb, ?vprmt, ?vmovi⟩, fun h t cc d a b s w truth ht hi => ?vcmp⟩
  case vshl => exact fun hi => completesFixed_of_put hi rfl fun _ => ishl_modEq ..
  case vsra => exact fun hi => completesFixed_of_put hi rfl fun _ => isra_modEq ..
  case vlea => exact fun hi => completesFixed_of_put hi rfl fun _ => intBits64_modEq _
  case vaddc => exact fun hi => completesFixed_of_put hi rfl fun th => by rw [iaddc_n32]
  case vsubb => exact fun hi => completesFixed_of_put hi rfl fun th => by rw [isubb_n32]
  case vmovi => exact fun hi => completesFixed_of_put hi rfl fun _ => by cases f <;> rfl
  case vshr | vrot | vbfe | vbfi | vpopc | vclz | vctz | vbrev | vprmt =>
    exact fun hi => completesFixed_of_put hi rfl fun _ => rfl
  case vcmp =>
    have decides (x y : Int) : truth x y = icmp cc x y := Bool.eq_iff_iff.2 ((ht x y).trans (icmp_iff cc x y).symm)
    simp only [decides]
    exact completesFixed_of_fixedWord hi rfl

end Sys2Proof.Machine
end
